-- ==== Sys2Proof/Word.lean ====
section
/-! DEFINITION. The word and the byte of CEX-C3C4 (00_scope.md R11, R12; 20_memory.md R60). -/

namespace Sys2Proof

/-- A word is 64 bits, bit 0 the least significant (R11). -/
abbrev Word := BitVec 64

/-- A byte is 8 bits (R60). -/
abbrev Byte := BitVec 8

end Sys2Proof
end

