-- ==== Sys2Proof/Syntax.lean ====
section
/-! DEFINITION. The thirteen commands of CEX-C3C4 (30_encoding.md R92), which stand in the place of an
instruction set (00_scope.md R2), and the field record of a raw command word (R93). -/

namespace Sys2Proof

/-- The three formats of a command word (R93): N carries opcode and tag, F adds one flag bit, K adds a
selector and a primitive kind. -/
inductive Format where
  | n
  | f
  | k
deriving DecidableEq, Repr

/-- The six fields of a 64-bit command word, reserved ones included (R93). -/
structure RawCommand where
  /-- bits [7:0] -/
  opcode : BitVec 8
  /-- bits [15:8] -/
  tag : BitVec 8
  /-- bits [23:16] -/
  sel : BitVec 8
  /-- bits [31:24], reserved -/
  reservedLow : BitVec 8
  /-- bits [47:32] -/
  kind : BitVec 16
  /-- bits [63:48], reserved -/
  reservedHigh : BitVec 16
deriving DecidableEq, Repr

/-- The commands, one constructor per row of the opcode table (R92). `tag` is echoed in the response and
has no other effect (R93); the remaining operands of a command are registers sampled at issue (R94). -/
inductive Instr where
  /-- `NOP` (R240) -/
  | nop (tag : BitVec 8)
  /-- `BM_NEW` (R121) -/
  | bmNew (tag sel : BitVec 8) (kind : BitVec 16)
  /-- `BM_INIT` (R124) -/
  | bmInit (tag : BitVec 8) (f : Bool)
  /-- `BM_XBLK` (R128) -/
  | bmXblk (tag : BitVec 8)
  /-- `BM_XFRM` (R131) -/
  | bmXfrm (tag : BitVec 8)
  /-- `BM_SETPBS` (R140) -/
  | bmSetpbs (tag : BitVec 8)
  /-- `BM_SETPAR` (R142) -/
  | bmSetpar (tag : BitVec 8) (f : Bool)
  /-- `BM_RELEASE` (R144) -/
  | bmRelease (tag : BitVec 8)
  /-- `SP_NEW` (R192) -/
  | spNew (tag sel : BitVec 8) (kind : BitVec 16)
  /-- `SP_KEY` (R194) -/
  | spKey (tag : BitVec 8)
  /-- `SP_RUN` (R200) -/
  | spRun (tag : BitVec 8)
  /-- `SP_CANCEL` (R218) -/
  | spCancel (tag : BitVec 8)
  /-- `SP_RELEASE` (R220) -/
  | spRelease (tag : BitVec 8)
deriving DecidableEq, Repr

/-- One row of the decoder summary (R95): a word `w` is the command when `w & mask = match`. -/
structure OpcodeRow where
  mnemonic : String
  mask : Word
  value : Word
deriving DecidableEq, Repr

/-- Why a command word is not a command (R101), the word's opcode and tag with it, which its response
echoes (R98). -/
inductive DecodeError where
  /-- case (1) of R101: no opcode of R92; answered `Unsupported` -/
  | unassignedOpcode (opcode tag : BitVec 8)
  /-- case (2) of R101: a bit that must be zero is 1; answered `InvalidParameter` -/
  | reservedBits (opcode tag : BitVec 8)
deriving DecidableEq, Repr

end Sys2Proof
end

