-- ==== Sys2Proof/Machine/Encoding.lean ====
section
/-! DEFINITION. The bit positions of a command word and the opcode map (30_encoding.md R92, R93, R95). -/

namespace Sys2Proof

/-- The opcode map: which opcodes are assigned, and the format of each (R92). -/
def formatOf (opcode : BitVec 8) : Option Format :=
  if opcode = 0x00 then some .n
  else if opcode = 0x01 then some .k
  else if opcode = 0x02 then some .f
  else if opcode = 0x03 then some .n
  else if opcode = 0x04 then some .n
  else if opcode = 0x05 then some .n
  else if opcode = 0x06 then some .f
  else if opcode = 0x07 then some .n
  else if opcode = 0x10 then some .k
  else if opcode = 0x11 then some .n
  else if opcode = 0x12 then some .n
  else if opcode = 0x13 then some .n
  else if opcode = 0x14 then some .n
  else none

/-- The fields of a command word, cut at the positions of R93. -/
def rawOfWord (w : Word) : RawCommand where
  opcode := w.extractLsb' 0 8
  tag := w.extractLsb' 8 8
  sel := w.extractLsb' 16 8
  reservedLow := w.extractLsb' 24 8
  kind := w.extractLsb' 32 16
  reservedHigh := w.extractLsb' 48 16

/-- The command word of given fields, each at its position of R93. -/
def wordOfRaw (r : RawCommand) : Word :=
  r.reservedHigh ++ r.kind ++ r.reservedLow ++ r.sel ++ r.tag ++ r.opcode

/-- The `sel` field of a format F word: the flag is bit 16, bits [23:17] are zero (R93). -/
def selOfFlag (f : Bool) : BitVec 8 := if f then 1 else 0

/-- The fields of a word with the reserved ones zero. -/
def rawFields (opcode tag sel : BitVec 8) (kind : BitVec 16) : RawCommand where
  opcode := opcode
  tag := tag
  sel := sel
  reservedLow := 0
  kind := kind
  reservedHigh := 0

/-- The fields a command's word carries: its opcode of R92, its tag, and what its format adds (R93). -/
def rawOfInstr : Instr → RawCommand
  | .nop tag => rawFields 0x00 tag 0 0
  | .bmNew tag sel kind => rawFields 0x01 tag sel kind
  | .bmInit tag f => rawFields 0x02 tag (selOfFlag f) 0
  | .bmXblk tag => rawFields 0x03 tag 0 0
  | .bmXfrm tag => rawFields 0x04 tag 0 0
  | .bmSetpbs tag => rawFields 0x05 tag 0 0
  | .bmSetpar tag f => rawFields 0x06 tag (selOfFlag f) 0
  | .bmRelease tag => rawFields 0x07 tag 0 0
  | .spNew tag sel kind => rawFields 0x10 tag sel kind
  | .spKey tag => rawFields 0x11 tag 0 0
  | .spRun tag => rawFields 0x12 tag 0 0
  | .spCancel tag => rawFields 0x13 tag 0 0
  | .spRelease tag => rawFields 0x14 tag 0 0

/-- The fields a format requires to be zero are zero (R93). -/
def reservedClear (fmt : Format) (r : RawCommand) : Bool :=
  r.reservedLow == 0 && r.reservedHigh == 0 &&
    match fmt with
    | .n => r.sel == 0 && r.kind == 0
    | .f => r.sel &&& 0xFE == 0 && r.kind == 0
    | .k => true

end Sys2Proof
end

