-- ==== Sys2Proof/WellFormed.lean ====
section
/-! DEFINITION. What makes a command word well formed (30_encoding.md R101): its opcode is one of the
thirteen, and every field its format reserves is zero. -/

namespace Sys2Proof

/-- A raw command is well formed when cases (1) and (2) of R101 do not apply to it. -/
def RawCommand.wellFormed (r : RawCommand) : Bool :=
  match formatOf r.opcode with
  | none => false
  | some fmt => reservedClear fmt r

/-- A command is well formed when the fields of its word are. The widths of R93 are in the types of
`Instr`'s arguments, so no command fails it (`Laws.Encoding.wellFormed_true`); only a raw word can. -/
def Instr.wellFormed (i : Instr) : Bool := (rawOfInstr i).wellFormed

end Sys2Proof
end

