-- ==== Sys2Proof/Decode.lean ====
section
/-! DEFINITION. The decoder and the encoder of command words (30_encoding.md R93, R95, R101).
There is no byte order: a command word is issued whole on the CMD port and never lies in memory
(20_memory.md R66, R75). -/

namespace Sys2Proof

/-- The command a well-formed raw word stands for (R92, R93, R94). -/
def instrOfRaw (r : RawCommand) : Option Instr :=
  if r.opcode = 0x00 then some (.nop r.tag)
  else if r.opcode = 0x01 then some (.bmNew r.tag r.sel r.kind)
  else if r.opcode = 0x02 then some (.bmInit r.tag (r.sel.getLsbD 0))
  else if r.opcode = 0x03 then some (.bmXblk r.tag)
  else if r.opcode = 0x04 then some (.bmXfrm r.tag)
  else if r.opcode = 0x05 then some (.bmSetpbs r.tag)
  else if r.opcode = 0x06 then some (.bmSetpar r.tag (r.sel.getLsbD 0))
  else if r.opcode = 0x07 then some (.bmRelease r.tag)
  else if r.opcode = 0x10 then some (.spNew r.tag r.sel r.kind)
  else if r.opcode = 0x11 then some (.spKey r.tag)
  else if r.opcode = 0x12 then some (.spRun r.tag)
  else if r.opcode = 0x13 then some (.spCancel r.tag)
  else if r.opcode = 0x14 then some (.spRelease r.tag)
  else none

/-- Decoding, in the order of R101: an unassigned opcode first, then a reserved bit, then the command. -/
def decode (w : Word) : Except DecodeError Instr :=
  let r := rawOfWord w
  match formatOf r.opcode with
  | none => .error (.unassignedOpcode r.opcode r.tag)
  | some fmt =>
    if reservedClear fmt r then
      match instrOfRaw r with
      | some i => .ok i
      | none => .error (.unassignedOpcode r.opcode r.tag)
    else .error (.reservedBits r.opcode r.tag)

/-- The command word of a command (R92, R93). -/
def encode (i : Instr) : Word := wordOfRaw (rawOfInstr i)

/-- The decoder summary of R95, row by row, equal to spec/opcode_table.json. -/
def opcodeTable : List OpcodeRow :=
  [ ⟨"NOP", 0xFFFFFFFFFFFF00FF, 0x00⟩,
    ⟨"BM_NEW", 0xFFFF0000FF0000FF, 0x01⟩,
    ⟨"BM_INIT", 0xFFFFFFFFFFFE00FF, 0x02⟩,
    ⟨"BM_XBLK", 0xFFFFFFFFFFFF00FF, 0x03⟩,
    ⟨"BM_XFRM", 0xFFFFFFFFFFFF00FF, 0x04⟩,
    ⟨"BM_SETPBS", 0xFFFFFFFFFFFF00FF, 0x05⟩,
    ⟨"BM_SETPAR", 0xFFFFFFFFFFFE00FF, 0x06⟩,
    ⟨"BM_RELEASE", 0xFFFFFFFFFFFF00FF, 0x07⟩,
    ⟨"SP_NEW", 0xFFFF0000FF0000FF, 0x10⟩,
    ⟨"SP_KEY", 0xFFFFFFFFFFFF00FF, 0x11⟩,
    ⟨"SP_RUN", 0xFFFFFFFFFFFF00FF, 0x12⟩,
    ⟨"SP_CANCEL", 0xFFFFFFFFFFFF00FF, 0x13⟩,
    ⟨"SP_RELEASE", 0xFFFFFFFFFFFF00FF, 0x14⟩ ]

/-- A word matches a row of R95. -/
def OpcodeRow.hits (row : OpcodeRow) (w : Word) : Bool := w &&& row.mask == row.value

/-- The name of a command in R92. -/
def mnemonicOf : Instr → String
  | .nop _ => "NOP"
  | .bmNew _ _ _ => "BM_NEW"
  | .bmInit _ _ => "BM_INIT"
  | .bmXblk _ => "BM_XBLK"
  | .bmXfrm _ => "BM_XFRM"
  | .bmSetpbs _ => "BM_SETPBS"
  | .bmSetpar _ _ => "BM_SETPAR"
  | .bmRelease _ => "BM_RELEASE"
  | .spNew _ _ _ => "SP_NEW"
  | .spKey _ => "SP_KEY"
  | .spRun _ => "SP_RUN"
  | .spCancel _ => "SP_CANCEL"
  | .spRelease _ => "SP_RELEASE"

/-- The 64-bit word whose low `nbits` bits are those of `w` and whose other bits are zero. -/
def commandWord (nbits w : Nat) : Word := BitVec.ofNat 64 (w % 2 ^ nbits)

/-- The command the decoder reads from the bits `w` of an opcode-table row; none where it refuses. -/
def decodeTableWord (nbits w : Nat) : Option Instr :=
  match decode (commandWord nbits w) with
  | .ok i => some i
  | .error _ => none

end Sys2Proof
end

