-- ==== Sys2Proof/Machine/Bytes.lean ====
section
/-! DEFINITION. Byte strings (00_scope.md R12): exclusive OR, the big-endian reading and writing of a
natural, zeroising (10_state.md R29), and the 128-bit CTR counter (40 R126, 41 R163). -/

namespace Sys2Proof.Machine

/-- `a ^ b`: byte-wise exclusive OR of two byte strings (R12). -/
def xorBytes (a b : List Byte) : List Byte := List.zipWith (· ^^^ ·) a b

/-- `be(s)`: the natural whose big-endian representation is `s` (R12). -/
def be (s : List Byte) : Nat := s.foldl (fun v b => v * 256 + b.toNat) 0

/-- `to_be(n, v)`: the `n` big-endian bytes of `v` (R12). -/
def toBe : Nat → Nat → List Byte
  | 0, _ => []
  | n + 1, v => BitVec.ofNat 8 (v / 256 ^ n) :: toBe n v

/-- Every byte overwritten with `0x00` (R29). -/
def zeroise (s : List Byte) : List Byte := List.replicate s.length 0

/-- The CTR counter `d` blocks on: a 128-bit big-endian addition that wraps at `2^128` (R126, R163,
43_common_commands.md R243). -/
def addCounter (chain : List Byte) (d : Nat) : List Byte := toBe 16 ((be chain + d) % 2 ^ 128)

/-- A flag as a one-bit number. -/
def bit (b : Bool) : Nat := if b then 1 else 0

end Sys2Proof.Machine
end

