-- ==== Sys2Proof/Config.lean ====
section
/-! DEFINITION. What a build of CEX-C3C4 fixes and the spec leaves open: the build parameters, the kinds of
primitive the registry holds, and the free values (00_scope.md R6, R8, R9; 93_implementation_defined.md
U1, U2, U4, U6). -/

namespace Sys2Proof

/-- The numeric build parameters of R6. A machine carries its own (`State.cfg`) and no step changes
them, so that a statement about every state is about every build (log entry 5). -/
structure Params where
  /-- `T`, the number of lanes -/
  threads : Nat
  /-- `BUF_SIZE`, the stream buffer size in bytes -/
  bufSize : Nat
  /-- `QUEUE_CAP`, the capacity of the bounded queue, in buffers -/
  queueCap : Nat
  /-- `ADDR_BITS`, the implemented address bits of buffer memory -/
  addrBits : Nat
deriving DecidableEq, Repr

/-- The obligations on the parameters (70_reset_and_hazards.md R296), and that the two a register shows
whole fit in 64 bits (R22). -/
def Params.ok (p : Params) : Bool :=
  decide (1 ≤ p.threads) && decide (p.threads ≤ 256) &&
  decide (1 ≤ p.bufSize) && decide (p.bufSize < 2 ^ 64) &&
  decide (2 ≤ p.queueCap) && decide (p.queueCap < 2 ^ 64) &&
  decide (1 ≤ p.addrBits) && decide (p.addrBits ≤ 64)

/-- The defaults and example values of R6. DESIGN CHOICE (log entry 5): `T` has no default in the spec,
4 is its example value. -/
def Params.default : Params := { threads := 4, bufSize := 65536, queueCap := 2, addrBits := 32 }

/-- `PAR_DEFAULT` is 1 when `T ≥ 2`, else 0 (R6, 40_block_mode_commands.md R122). -/
def Params.parDefault (p : Params) : Bool := decide (2 ≤ p.threads)

/-- A block cipher of the registry (R8): two total functions between `B`-byte blocks and a predicate on key
lengths, with the range of `B` (R122, R296) and the law R9(a). -/
structure BlockCipher where
  /-- `block_size()`, the `B` of a cipher -/
  blockSize : Nat
  /-- which key lengths `init` accepts -/
  keyLenOk : Nat → Bool
  /-- `E(k, x)` -/
  E : List Byte → List Byte → List Byte
  /-- `D(k, x)` -/
  D : List Byte → List Byte → List Byte
  blockSize_pos : 1 ≤ blockSize
  blockSize_le : blockSize ≤ 8191
  E_length : ∀ k x, keyLenOk k.length = true → x.length = blockSize → (E k x).length = blockSize
  D_length : ∀ k x, keyLenOk k.length = true → x.length = blockSize → (D k x).length = blockSize
  D_E : ∀ k x, keyLenOk k.length = true → x.length = blockSize → D k (E k x) = x
  E_D : ∀ k x, keyLenOk k.length = true → x.length = blockSize → E k (D k x) = x

/-- What a digest and a MAC share (R8): block and code size, `upd` and `fin`, with the ranges of R296 and the
law R9(b). The primitive's state type `DS` is a byte string here (log entry 7). -/
structure StreamPrim where
  /-- `block_size()` -/
  blockSize : Nat
  /-- `digest_size()` -/
  digestSize : Nat
  upd : List Byte → List Byte → List Byte
  fin : List Byte → List Byte
  blockSize_pos : 1 ≤ blockSize
  digestSize_pos : 1 ≤ digestSize
  fin_length : ∀ s, (fin s).length = digestSize
  upd_nil : ∀ s, upd s [] = s
  upd_append : ∀ s a b, upd (upd s a) b = upd s (a ++ b)

/-- A digest of the registry (R8): its initial state is `d0`. -/
structure Digest extends StreamPrim where
  d0 : List Byte

/-- A MAC of the registry (R8, 42_stream_processor.md R194): its initial state is `m0(key)`. -/
structure Mac extends StreamPrim where
  /-- `mac_key_len_ok` -/
  keyLenOk : Nat → Bool
  m0 : List Byte → List Byte

/-- The block ciphers of a build, but for the fixture tags. Free value (U1): nothing is known of it. -/
opaque Config.otherCiphers : BitVec 16 → Option BlockCipher

/-- The digests of a build, but for the fixture tag. Free value (U1). -/
opaque Config.otherDigests : BitVec 16 → Option Digest

/-- The MACs of a build, but for the fixture tag. Free value (U1). -/
opaque Config.otherMacs : BitVec 16 → Option Mac

/-- Which enabled agent steps next where the environment's events do not say, as a function of a counter.
Free value (U4): no schedule is fixed (R14). -/
opaque Config.schedule : Nat → Nat

end Sys2Proof
end

