-- ==== Sys2Proof/Machine/State.lean ====
section
/-! DEFINITION. The state of CEX-C3C4 as plain data (10_state.md R20), the environment it meets, the reasons
a step can stop, and the machine right after reset (70_reset_and_hazards.md R290, R291). -/

namespace Sys2Proof.Machine

/-- The named host registers of R22. -/
inductive Reg where
  | id
  | bmState
  | bmMode
  | bmBlockSize
  | bmParMin
  | bmParMax
  | bmParBlock
  | bmIsParallel
  | bmThreads
  | inBase
  | inSize
  | inOff
  | outBase
  | outSize
  | outOff
  | len
  | keyBase
  | keyLen
  | ivBase
  | ivLen
  | arg
  | spState
  | spKind
  | spTotal
  | spCtrl
  | spBufSize
  | spQueueCap
  | spPos
  | spInterval
deriving DecidableEq, Repr

/-- The stored entries of the host register file `R` (R21, R22). The four constant entries `ID`,
`BM_THREADS`, `SP_BUF_SIZE` and `SP_QUEUE_CAP` are hard-wired in the register-read operation. -/
structure Regs where
  bmState : Word
  bmMode : Word
  bmBlockSize : Word
  bmParMin : Word
  bmParMax : Word
  bmParBlock : Word
  bmIsParallel : Word
  inBase : Word
  inSize : Word
  inOff : Word
  outBase : Word
  outSize : Word
  outOff : Word
  len : Word
  keyBase : Word
  keyLen : Word
  ivBase : Word
  ivLen : Word
  arg : Word
  spState : Word
  spKind : Word
  spTotal : Word
  spCtrl : Word
  spPos : Word
  spInterval : Word
deriving DecidableEq, Repr

/-- The block-cipher modes the engine implements (30_encoding.md R96). -/
inductive CipherMode where
  | ctr
  | cbc
  | cfb
deriving DecidableEq, Repr

/-- `BM.state` (R26). -/
inductive BmState where
  | init
  | ready
  | transforming
deriving DecidableEq, Repr

/-- `xf.phase` (R28). The chain value the join will install has a meaning only while lanes are spawned, so
it stands in that phase. -/
inductive Phase where
  /-- between units -/
  | idle
  /-- lanes spawned, not yet joined; carries `xf.next_chain` -/
  | par (nextChain : List Byte)
deriving DecidableEq, Repr

/-- The transform record `BM.xf` (R28). -/
structure Transform where
  tag : BitVec 8
  src : Nat
  dst : Nat
  len : Nat
  pos : Nat
  npar : Nat
  phase : Phase
deriving DecidableEq, Repr

/-- The hidden state of the block-mode engine (R26, R27, R28). `mode` is `none` for code 0. -/
structure Bme where
  state : BmState
  mode : Option CipherMode
  kind : BitVec 16
  blockSize : Nat
  enc : Bool
  key : List Byte
  chain : List Byte
  pbs : Nat
  par : Bool
  xf : Option Transform
deriving DecidableEq, Repr

/-- A lane record `LANE[t]` (R30). -/
structure Lane where
  busy : Bool
  key : List Byte
  reg : List Byte
  src : Nat
  dst : Nat
  n : Nat
deriving DecidableEq, Repr

/-- `SP.state` (R31). -/
inductive SpState where
  | empty
  | attached
  | armed
  | running
deriving DecidableEq, Repr

/-- `SP.class` (R32, R97): 0 none, 1 digest, 2 MAC, 3 cipher-mode engine. -/
inductive SpClass where
  | none
  | digest
  | mac
  | cipher
deriving DecidableEq, Repr

/-- The code of a response word (60_exceptions.md R251), all thirteen of its names. -/
inductive Code where
  | ok
  | notInitialized
  | invalidParameter
  | unsupported
  | authenticationFailed
  | protocolError
  | exchangeTimeout
  | peerRefused
  | payloadTooLarge
  | io
  | unexpectedEof
  | busy
  | cancelled
deriving DecidableEq, Repr

/-- `SP.run` (R32). `out` is the pair `(dst, dsz)`; a run of class 3 has none (log entry 11). -/
structure Run where
  tag : BitVec 8
  total : Nat
  out : Option (Nat × Nat)
deriving DecidableEq, Repr

/-- The hidden state of the stream unit (R31, R32). -/
structure Spu where
  state : SpState
  cls : SpClass
  kind : BitVec 16
  key : List Byte
  prim : Option (List Byte)
  run : Run
  path : Bool
  interval : Nat
  rpos : Nat
  cpos : Nat
  queue : List (List Byte)
  readerDone : Bool
  cancel : Bool
  fault : Option Code
deriving DecidableEq, Repr

/-- Buffer memory (20_memory.md R60) as its listed bytes: addresses strictly rising, and no byte listed
that an unlisted address reads as. -/
abbrev Memory := List Host.Cell

/-- The agents of the hardware, `HOST` apart (R14). -/
inductive Agent where
  | ctl
  | lane (t : Nat)
  | seq
  | rdr
  | csm
deriving DecidableEq, Repr

/-- One answer the stream source will give (42_stream_processor.md R197). -/
inductive SrcAnswer where
  | data (s : List Byte)
  | fail
deriving DecidableEq, Repr

/-- What the environment does at one point of a run: a host transaction (30_encoding.md R90), a turn of one
agent (R14), a change of the stream ports' coming answers, or `Reset` (R290). -/
inductive Event where
  /-- `Issue(w)` on the CMD port (R91) -/
  | issue (w : Word)
  /-- `RegWrite(i, v)` on the REG port (R21) -/
  | regWrite (i : BitVec 6) (v : Word)
  /-- `RegRead(i)` on the REG port (R21) -/
  | regRead (i : BitVec 6)
  /-- the host stores bytes in `MEM` (R60) -/
  | memWrite (a : Nat) (bs : List Byte)
  /-- the host reads `n` bytes of `MEM` (R60) -/
  | memRead (a n : Nat)
  /-- the host takes no step until the next response word appears, and observes it (R33, R102) -/
  | awaitRsp
  /-- the same for the next event word (R33, R102) -/
  | awaitEvt
  /-- the given agent may take a step (R14) -/
  | agent (a : Agent)
  /-- the source will give these answers from now on (R102 `SRC =`, R197) -/
  | setSource (answers : List SrcAnswer)
  /-- the sink will give these answers from now on, `true` for `Ok` (R198) -/
  | setSink (answers : List Bool)
  /-- the reset event (R290) -/
  | reset
deriving DecidableEq, Repr

/-- The environment: what it will do, what its stream source and sink will answer, and the bytes the sink has
taken (log entries 1, 2, 9, 10). -/
structure Env where
  events : List Event
  source : List SrcAnswer
  sinkAnswers : List Bool
  sunk : List Byte
deriving DecidableEq, Repr

/-- The host's side of the ports: how many words of each log it has observed (R33), and what the REG and MEM
ports last returned to it (log entry 15). -/
structure HostPort where
  rspSeen : Nat
  evtSeen : Nat
  regData : Word
  memData : List Byte
deriving DecidableEq, Repr

/-- The machine. `regs`, `bm`, `lanes`, `sp`, `mem`, `rsp` and `evt` are the state of R20; `cfg` is the
build (R6), which no step changes; `port`, `env` and `tick` are the model's own. -/
structure State where
  cfg : Params
  regs : Regs
  bm : Bme
  lanes : List Lane
  sp : Spu
  mem : Memory
  rsp : List Word
  evt : List Word
  port : HostPort
  env : Env
  tick : Nat
deriving DecidableEq, Repr

/-- Why a step stops. No rule of the spec stops this machine: the first is an access the spec gives no
meaning, the other two guard states that no run from reset reaches (log entry 12). All are safe. -/
inductive Fault where
  /-- raised by a memory access not inside `0 ..< 2^ADDR_BITS`, for which R62 defines nothing: by a host
  access (R60), or by the hardware in a state no run reaches. Safe. -/
  | noSuchAddress
  /-- raised by a unit whose mode, kind or primitive state is absent while it works, which no run reaches
  (R27, R32). Safe. -/
  | noPrimitive
  /-- raised by the end of a digest or MAC run that has no output range, which no run reaches (R200, R212).
  Safe. -/
  | noOutputRange
deriving DecidableEq, Repr

/-- Why a step is refused. -/
inductive Refusal where
  /-- raised by `exec` for a command that has no meaning yet; none is left. Safe. -/
  | notModelled (mnemonic : String)
deriving DecidableEq, Repr

/-- The register file after `Reset` (R22, R290): `BM_IS_PARALLEL` is `PAR_DEFAULT`, the rest 0. -/
def Regs.reset (cfg : Params) : Regs where
  bmState := 0
  bmMode := 0
  bmBlockSize := 0
  bmParMin := 0
  bmParMax := 0
  bmParBlock := 0
  bmIsParallel := if cfg.parDefault then 1 else 0
  inBase := 0
  inSize := 0
  inOff := 0
  outBase := 0
  outSize := 0
  outOff := 0
  len := 0
  keyBase := 0
  keyLen := 0
  ivBase := 0
  ivLen := 0
  arg := 0
  spState := 0
  spKind := 0
  spTotal := 0
  spCtrl := 0
  spPos := 0
  spInterval := 0

/-- The engine after `Reset` (R27, R28, R290). -/
def Bme.reset (cfg : Params) : Bme where
  state := .init
  mode := none
  kind := 0
  blockSize := 0
  enc := false
  key := []
  chain := []
  pbs := 0
  par := cfg.parDefault
  xf := none

/-- A lane record after `Reset` (R30). -/
def Lane.reset : Lane where
  busy := false
  key := []
  reg := []
  src := 0
  dst := 0
  n := 0

/-- The stream unit after `Reset` (R31, R32). -/
def Spu.reset : Spu where
  state := .empty
  cls := .none
  kind := 0
  key := []
  prim := none
  run := { tag := 0, total := 0, out := some (0, 0) }
  path := false
  interval := 0
  rpos := 0
  cpos := 0
  queue := []
  readerDone := false
  cancel := false
  fault := none

/-- The machine of a given build right after power-up, which is a `Reset` (R290, R291), with nothing listed
in `MEM` and nothing yet to come from the environment. -/
def State.powerUp (cfg : Params) : State where
  cfg := cfg
  regs := Regs.reset cfg
  bm := Bme.reset cfg
  lanes := List.replicate cfg.threads Lane.reset
  sp := Spu.reset
  mem := []
  rsp := []
  evt := []
  port := { rspSeen := 0, evtSeen := 0, regData := 0, memData := [] }
  env := { events := [], source := [], sinkAnswers := [], sunk := [] }
  tick := 0

/-- The machine right after reset, on the default build of R6. -/
def State.reset : State := State.powerUp Params.default

end Sys2Proof.Machine
end

