-- ==== Sys2Proof/Machine/Ops.lean ====
section
/-! DEFINITION. The named operations every command and agent shares: bytes of buffer memory, host registers,
response and event words, `raise`, the state-machine transfers, and the stream ports. -/

namespace Sys2Proof.Machine

/-! ### Buffer memory (20_memory.md R60, R62) -/

/-- What a byte that nothing has written reads as. DESIGN CHOICE, unsafe (log entry 4): the spec leaves `MEM`
after power-up unspecified (93_implementation_defined.md U7). -/
def unlistedByte : Byte := 0

/-- The byte of memory at an address. -/
def byteAt : Memory → Nat → Byte
  | [], _ => unlistedByte
  | (k, b) :: m, a => if a = k then b else byteAt m a

/-- Store one byte, keeping the canonical form. -/
def setByte : Memory → Nat → Byte → Memory
  | [], a, b => if b = unlistedByte then [] else [(a, b)]
  | (k, v) :: m, a, b =>
    if a < k then (if b = unlistedByte then (k, v) :: m else (a, b) :: (k, v) :: m)
    else if a = k then (if b = unlistedByte then m else (a, b) :: m)
    else (k, v) :: setByte m a b

/-- The canonical form: addresses strictly rising, no byte listed that an unlisted address reads as. -/
def Memory.wf : Memory → Bool
  | [] => true
  | [(_, b)] => b != unlistedByte
  | (k, b) :: (j, v) :: m => b != unlistedByte && decide (k < j) && Memory.wf ((j, v) :: m)

/-- The `n` bytes at addresses `a` to `a + n - 1`, lowest address first (R62). -/
def bytesAt (m : Memory) (a : Nat) : Nat → List Byte
  | 0 => []
  | n + 1 => byteAt m a :: bytesAt m (a + 1) n

/-- Store bytes at `a`, `a + 1`, … in order (R62). -/
def setBytes (m : Memory) (a : Nat) : List Byte → Memory
  | [] => m
  | b :: bs => setBytes (setByte m a b) (a + 1) bs

/-- The number of bytes of buffer memory, `2^ADDR_BITS` (R60). -/
def memSize (s : State) : Nat := 2 ^ s.cfg.addrBits

/-- `MemRead(a, n)`: defined only when `a + n ≤ 2^ADDR_BITS` (R62). -/
def memRead (s : State) (a n : Nat) : Option (List Byte) :=
  if a + n ≤ memSize s then some (bytesAt s.mem a n) else none

/-- `MemWrite(a, n, v)`: defined only when `a + n ≤ 2^ADDR_BITS` (R62). -/
def memWrite (s : State) (a n : Nat) (v : List Byte) : Option State :=
  if a + n ≤ memSize s then some { s with mem := setBytes s.mem a (v.take n) } else none

/-! ### Host registers (10_state.md R21, R22, R23) -/

/-- The register map of R22. -/
def regOfIndex (i : BitVec 6) : Option Reg :=
  if i = 0x00 then some .id
  else if i = 0x01 then some .bmState
  else if i = 0x02 then some .bmMode
  else if i = 0x03 then some .bmBlockSize
  else if i = 0x04 then some .bmParMin
  else if i = 0x05 then some .bmParMax
  else if i = 0x06 then some .bmParBlock
  else if i = 0x07 then some .bmIsParallel
  else if i = 0x08 then some .bmThreads
  else if i = 0x10 then some .inBase
  else if i = 0x11 then some .inSize
  else if i = 0x12 then some .inOff
  else if i = 0x13 then some .outBase
  else if i = 0x14 then some .outSize
  else if i = 0x15 then some .outOff
  else if i = 0x16 then some .len
  else if i = 0x17 then some .keyBase
  else if i = 0x18 then some .keyLen
  else if i = 0x19 then some .ivBase
  else if i = 0x1A then some .ivLen
  else if i = 0x1B then some .arg
  else if i = 0x20 then some .spState
  else if i = 0x21 then some .spKind
  else if i = 0x22 then some .spTotal
  else if i = 0x23 then some .spCtrl
  else if i = 0x24 then some .spBufSize
  else if i = 0x25 then some .spQueueCap
  else if i = 0x26 then some .spPos
  else if i = 0x27 then some .spInterval
  else none

/-- The value of a named register; the four constants are hard-wired here (R22). -/
def getReg (s : State) : Reg → Word
  | .id => 0x4345582D43334334
  | .bmState => s.regs.bmState
  | .bmMode => s.regs.bmMode
  | .bmBlockSize => s.regs.bmBlockSize
  | .bmParMin => s.regs.bmParMin
  | .bmParMax => s.regs.bmParMax
  | .bmParBlock => s.regs.bmParBlock
  | .bmIsParallel => s.regs.bmIsParallel
  | .bmThreads => BitVec.ofNat 64 s.cfg.threads
  | .inBase => s.regs.inBase
  | .inSize => s.regs.inSize
  | .inOff => s.regs.inOff
  | .outBase => s.regs.outBase
  | .outSize => s.regs.outSize
  | .outOff => s.regs.outOff
  | .len => s.regs.len
  | .keyBase => s.regs.keyBase
  | .keyLen => s.regs.keyLen
  | .ivBase => s.regs.ivBase
  | .ivLen => s.regs.ivLen
  | .arg => s.regs.arg
  | .spState => s.regs.spState
  | .spKind => s.regs.spKind
  | .spTotal => s.regs.spTotal
  | .spCtrl => s.regs.spCtrl
  | .spBufSize => BitVec.ofNat 64 s.cfg.bufSize
  | .spQueueCap => BitVec.ofNat 64 s.cfg.queueCap
  | .spPos => s.regs.spPos
  | .spInterval => s.regs.spInterval

/-- `RegRead(i)`: an unimplemented index reads as 0 (R21). -/
def regRead (s : State) (i : BitVec 6) : Word :=
  match regOfIndex i with
  | some r => getReg s r
  | none => 0

/-- A host write of a named register: the operand registers, `SP_TOTAL` and `SP_CTRL` take the value, a write
to a read-only register is ignored (R21, R22, R23). -/
def hostSetReg (r : Regs) (name : Reg) (v : Word) : Regs :=
  match name with
  | .inBase => { r with inBase := v }
  | .inSize => { r with inSize := v }
  | .inOff => { r with inOff := v }
  | .outBase => { r with outBase := v }
  | .outSize => { r with outSize := v }
  | .outOff => { r with outOff := v }
  | .len => { r with len := v }
  | .keyBase => { r with keyBase := v }
  | .keyLen => { r with keyLen := v }
  | .ivBase => { r with ivBase := v }
  | .ivLen => { r with ivLen := v }
  | .arg => { r with arg := v }
  | .spTotal => { r with spTotal := v }
  | .spCtrl => { r with spCtrl := v }
  | .id | .bmState | .bmMode | .bmBlockSize | .bmParMin | .bmParMax | .bmParBlock | .bmIsParallel
  | .bmThreads | .spState | .spKind | .spBufSize | .spQueueCap | .spPos | .spInterval => r

/-- `RegWrite(i, v)`: an unimplemented index ignores the write (R21). -/
def regWrite (s : State) (i : BitVec 6) (v : Word) : State :=
  match regOfIndex i with
  | some name => { s with regs := hostSetReg s.regs name v }
  | none => s

/-! ### Codes carried in registers and words -/

/-- `BM_STATE.state` (R22). -/
def bmStateCode : BmState → Nat
  | .init => 0
  | .ready => 1
  | .transforming => 2

/-- The mode code of R96; 0 for none. -/
def modeCode : Option CipherMode → Nat
  | none => 0
  | some .ctr => 1
  | some .cbc => 2
  | some .cfb => 3

/-- `SP_STATE.state` (R22). -/
def spStateCode : SpState → Nat
  | .empty => 0
  | .attached => 1
  | .armed => 2
  | .running => 3

/-- The class code of R97. -/
def classCode : SpClass → Nat
  | .none => 0
  | .digest => 1
  | .mac => 2
  | .cipher => 3

/-- The number of an error code (60_exceptions.md R251). -/
def codeNumber : Code → Nat
  | .ok => 0
  | .notInitialized => 1
  | .invalidParameter => 2
  | .unsupported => 3
  | .authenticationFailed => 4
  | .protocolError => 5
  | .exchangeTimeout => 6
  | .peerRefused => 7
  | .payloadTooLarge => 8
  | .io => 9
  | .unexpectedEof => 10
  | .busy => 11
  | .cancelled => 12

/-- The word of `BM_MODE`: mode code, kind and `is_encrypt` (R22). -/
def bmModeWord (mode : Option CipherMode) (kind : BitVec 16) (enc : Bool) : Word :=
  BitVec.ofNat 64 (modeCode mode + kind.toNat * 2 ^ 16 + bit enc * 2 ^ 32)

/-- `R[BM_MODE]` with bit 32 written (R124, R144). -/
def withEncryptBit (w : Word) (enc : Bool) : Word :=
  (w &&& 0xFFFFFFFEFFFFFFFF) ||| (if enc then 0x100000000 else 0)

/-- The word of `SP_STATE`: state code and path (R22, R192). -/
def spStateWord (st : SpState) (path : Bool) : Word :=
  BitVec.ofNat 64 (spStateCode st + bit path * 4)

/-- The word of `SP_KIND`: class code and kind (R22, R192). -/
def spKindWord (cls : SpClass) (kind : BitVec 16) : Word :=
  BitVec.ofNat 64 (classCode cls + kind.toNat * 2 ^ 16)

/-! ### Response and event words (30_encoding.md R98, R99) -/

/-- The response word of R98. -/
def responseWord (opcode tag : BitVec 8) (code : Code) : Word :=
  0#40 ++ BitVec.ofNat 8 (codeNumber code) ++ tag ++ opcode

/-- `RspEmit(op, tag, code)`: one response word is appended to the RSP log (R13, R33, R98). -/
def respond (opcode tag : BitVec 8) (code : Code) (s : State) : State :=
  { s with rsp := s.rsp ++ [responseWord opcode tag code] }

/-- The kind number of a `PROGRESS` event (R99). -/
def progressKind : BitVec 8 := 1

/-- The kind number of a `FINAL` event (R99). -/
def finalKind : BitVec 8 := 2

/-- The event word of R99. -/
def eventWord (kind : BitVec 8) (pos : Nat) : Word := kind ++ BitVec.ofNat 56 pos

/-- `EvtEmit(kind, pos)`: one event word is appended to the EVT log (R13, R33, R99). -/
def emitEvent (kind : BitVec 8) (pos : Nat) (s : State) : State :=
  { s with evt := s.evt ++ [eventWord kind pos] }

/-! ### Errors (60_exceptions.md R252, R274)

"Trap entry" in this hardware is the emission of a response word with a non-zero code; nothing is saved and
there is no return from it (R274, R276). -/

/-- The result of one step. -/
abbrev Result := Host.Outcome State Fault Refusal

/-- `raise K` for a failure found at issue: the response word, and nothing else (R252, R253). -/
def raise (opcode tag : BitVec 8) (code : Code) (s : State) : Result :=
  .next (respond opcode tag code s)

/-! ### State-machine transfers (R13, R26, R31) -/

/-- `BM.state <- st; R[BM_STATE] <- code(st)`. -/
def setBmState (st : BmState) (s : State) : State :=
  { s with
    bm := { s.bm with state := st }
    regs := { s.regs with bmState := BitVec.ofNat 64 (bmStateCode st) } }

/-- `SP.state <- st; R[SP_STATE] <- code(st) | (SP.path << 2)`. -/
def setSpState (st : SpState) (s : State) : State :=
  { s with
    sp := { s.sp with state := st }
    regs := { s.regs with spState := spStateWord st s.sp.path } }

/-- `zeroise BM.key; zeroise BM.chain`, then both emptied (R29, R121, R144). -/
def wipeEngine (bm : Bme) : Bme :=
  let wiped := { bm with key := zeroise bm.key, chain := zeroise bm.chain }
  { wiped with key := [], chain := [] }

/-- `zeroise LANE[t].key; zeroise LANE[t].reg`, then both emptied and the lane idle (R29, R169). -/
def wipeLane (l : Lane) : Lane :=
  let wiped := { l with key := zeroise l.key, reg := zeroise l.reg }
  { wiped with key := [], reg := [], busy := false }

/-- `zeroise SP.key; zeroise SP.prim`, then the key emptied and the primitive absent (R29, R192, R220). -/
def wipeStream (sp : Spu) : Spu :=
  let wiped := { sp with key := zeroise sp.key, prim := sp.prim.map zeroise }
  { wiped with key := [], prim := none }

/-! ### Stream ports (42_stream_processor.md R197, R198) -/

/-- What `SrcRead(n)` answers from a list of coming answers, and the answers still to come. A piece longer than
the request is delivered in part and its rest kept; a source with no answer left is at the end of its bytes
and delivers none (log entry 9). -/
def sourceAnswer (n : Nat) : List SrcAnswer → SrcAnswer × List SrcAnswer
  | [] => (.data [], [])
  | .fail :: rest => (.fail, rest)
  | .data bs :: rest =>
    if bs.length ≤ n then (.data bs, rest) else (.data (bs.take n), .data (bs.drop n) :: rest)

/-- `SrcRead(n)`: the source's answer, the source moved past it. -/
def srcRead (n : Nat) (s : State) : SrcAnswer × State :=
  ((sourceAnswer n s.env.source).1,
    { s with env := { s.env with source := (sourceAnswer n s.env.source).2 } })

/-- What `SnkWrite` answers: the next answer of the list, `Ok` when it is used up (log entry 10). -/
def sinkAnswer : List Bool → Bool
  | [] => true
  | ok :: _ => ok

/-- `SnkWrite(bs)`: whether the sink took the bytes, and the state after; the sink keeps what it took. -/
def snkWrite (bs : List Byte) (s : State) : Bool × State :=
  (sinkAnswer s.env.sinkAnswers,
    { s with
      env :=
        { s.env with
          sinkAnswers := s.env.sinkAnswers.tail
          sunk := if sinkAnswer s.env.sinkAnswers then s.env.sunk ++ bs else s.env.sunk } })

end Sys2Proof.Machine
end

