-- ==== Sys2Proof/Machine/Flags.lean ====
section
/-! DEFINITION. The flags of 10_state.md R34 that a command computes: which path a transform takes (R131), and
which path a stream run takes (R201). The others are set to a stated value where the command's rule says
so. There are no condition codes (R34). -/

namespace Sys2Proof.Machine

/-- `SP_CTRL.CONCURRENT` (R22). -/
def ctrlConcurrent (ctl : Word) : Bool := ctl.getLsbD 0

/-- `SP_CTRL.SEEKABLE` (R22). -/
def ctrlSeekable (ctl : Word) : Bool := ctl.getLsbD 1

/-- `SP.path` of a run: concurrent exactly when both bits are set and the stream is at least one buffer
(R200, R201). -/
def runPath (ctl : Word) (total bufSize : Nat) : Bool :=
  ctrlConcurrent ctl && ctrlSeekable ctl && decide (bufSize ≤ total)

/-- `par_ok`: `is_parallel` is set and the mode and direction have a parallel path (R131). -/
def parallelOk (bm : Bme) : Bool :=
  bm.par &&
    match bm.mode with
    | some .ctr => true
    | some .cbc => !bm.enc
    | some .cfb => !bm.enc
    | none => false

/-- Whether a mode takes only whole blocks: CBC and CFB (R131, R200). -/
def needsWholeBlocks : Option CipherMode → Bool
  | some .cbc => true
  | some .cfb => true
  | _ => false

/-- The interval of progress events (42_stream_processor.md R199). -/
def progressInterval (total nbs : Nat) : Nat := (total + 99) / 100 / nbs * nbs

end Sys2Proof.Machine
end

