-- ==== Sys2Proof/Machine/Registry.lean ====
section
/-! DEFINITION. The registry (00_scope.md R6, R8; 30_encoding.md R97) and the fixture primitives TOYB, TOYB8,
TOYD and TOYM it holds at their four tags (95_test_vectors.md section 2; 92_eei_decisions.md D9, D51).
The laws a registry entry must obey (R9) are proved here of the fixtures. -/

namespace Sys2Proof.Machine

/-- `rotl x` at index `i` is `x` at `i + 1`, the first byte last. -/
def rotl (x : List Byte) : List Byte := x.drop 1 ++ x.take 1

/-- `rotr y` at index `j` is `y` at `j - 1`, the last byte first. -/
def rotr (y : List Byte) : List Byte := y.drop (y.length - 1) ++ y.take (y.length - 1)

/-- `E(k, x)[i] = x[(i + 1) mod n] + k[i]` (95 section 2). -/
def toyE (k x : List Byte) : List Byte := List.zipWith (· + ·) (rotl x) k

/-- `D(k, y)[j] = y[(j - 1) mod n] - k[(j - 1) mod n]` (95 section 2). -/
def toyD (k y : List Byte) : List Byte := rotr (List.zipWith (· - ·) y k)

theorem rotl_length (x : List Byte) : (rotl x).length = x.length := by
  simp [rotl]; omega

theorem rotr_length (x : List Byte) : (rotr x).length = x.length := by
  simp [rotr]

theorem rotr_rotl (x : List Byte) : rotr (rotl x) = x := by
  cases x with
  | nil => rfl
  | cons b x => simp [rotr, rotl]

theorem rotl_rotr (x : List Byte) : rotl (rotr x) = x := by
  rcases List.eq_nil_or_concat x with rfl | ⟨y, b, rfl⟩
  · rfl
  · simp [rotr, rotl]

theorem zipWith_sub_add (a k : List Byte) (h : a.length = k.length) :
    List.zipWith (· - ·) (List.zipWith (· + ·) a k) k = a := by
  induction a generalizing k with
  | nil => simp
  | cons b a ih =>
    cases k with
    | nil => simp at h
    | cons c k =>
      simp only [List.length_cons, Nat.add_right_cancel_iff] at h
      simp [ih k h]

theorem zipWith_add_sub (a k : List Byte) (h : a.length = k.length) :
    List.zipWith (· + ·) (List.zipWith (· - ·) a k) k = a := by
  induction a generalizing k with
  | nil => simp
  | cons b a ih =>
    cases k with
    | nil => simp at h
    | cons c k =>
      simp only [List.length_cons, Nat.add_right_cancel_iff] at h
      simp [ih k h]

theorem toyE_length (k x : List Byte) (h : k.length = x.length) : (toyE k x).length = x.length := by
  simp [toyE, rotl_length, h]

theorem toyD_length (k x : List Byte) (h : k.length = x.length) : (toyD k x).length = x.length := by
  simp [toyD, rotr_length, h]

theorem toyD_toyE (k x : List Byte) (h : k.length = x.length) : toyD k (toyE k x) = x := by
  rw [toyD, toyE, zipWith_sub_add _ _ (by rw [rotl_length, h]), rotr_rotl]

theorem toyE_toyD (k x : List Byte) (h : k.length = x.length) : toyE k (toyD k x) = x := by
  rw [toyD, toyE, rotl_rotr, zipWith_add_sub _ _ h.symm]

/-- The toy block cipher on `n`-byte blocks with `n`-byte keys (95 section 2). -/
def toyCipher (n : Nat) (hpos : 1 ≤ n) (hle : n ≤ 8191) : BlockCipher where
  blockSize := n
  keyLenOk := fun m => m == n
  E := toyE
  D := toyD
  blockSize_pos := hpos
  blockSize_le := hle
  E_length := fun k x hk hx => by rw [toyE_length _ _ (by simp_all), hx]
  D_length := fun k x hk hx => by rw [toyD_length _ _ (by simp_all), hx]
  D_E := fun k x hk hx => toyD_toyE _ _ (by simp_all)
  E_D := fun k x hk hx => toyE_toyD _ _ (by simp_all)

/-- TOYB, tag `0xFFF0` (95 section 2). -/
def toyB : BlockCipher := toyCipher 16 (by decide) (by decide)

/-- TOYB8, tag `0xFFF3` (95 section 2). -/
def toyB8 : BlockCipher := toyCipher 8 (by decide) (by decide)

/-- `s ← ((s XOR b) * 0x01000193) mod 2^32`, the 32-bit state held as its four bytes, most significant
first (95 section 2). -/
def toyDigestByte (s : List Byte) (b : Byte) : List Byte :=
  toBe 4 (((be s ^^^ b.toNat) * 0x01000193) % 2 ^ 32)

/-- `upd(s, data)` of TOYD: each byte in order (95 section 2). -/
def toyDigestUpd (s data : List Byte) : List Byte := data.foldl toyDigestByte s

/-- `fin(s)` of TOYD: the four bytes of the state, most significant first (95 section 2). -/
def toyDigestFin (s : List Byte) : List Byte := toBe 4 (be s)

/-- `d0 = 0x811C9DC5` (95 section 2). -/
def toyDigestStart : List Byte := toBe 4 0x811C9DC5

theorem toBe_length (n v : Nat) : (toBe n v).length = n := by
  induction n with
  | zero => rfl
  | succ n ih => simp [toBe, ih]

/-- What TOYD and TOYM share: `block_size = 8`, `digest_size = 4` (95 section 2). -/
def toyPrim : StreamPrim where
  blockSize := 8
  digestSize := 4
  upd := toyDigestUpd
  fin := toyDigestFin
  blockSize_pos := by decide
  digestSize_pos := by decide
  fin_length := fun s => toBe_length 4 _
  upd_nil := fun _ => rfl
  upd_append := fun s a b => by simp [toyDigestUpd, List.foldl_append]

/-- TOYD, tag `0xFFF1` (95 section 2). -/
def toyDigest : Digest := { toyPrim with d0 := toyDigestStart }

/-- TOYM, tag `0xFFF2` (95 section 2): key lengths 1 to 64, `m0(key) = upd(d0, key)`. -/
def toyMac : Mac :=
  { toyPrim with
    keyLenOk := fun n => decide (1 ≤ n) && decide (n ≤ 64)
    m0 := fun key => toyDigestUpd toyDigestStart key }

/-- `REGISTRY.block(kind)` (R6, R8): the fixtures at their tags (log entry 6), the build's own ciphers elsewhere. -/
def blockCipher? (kind : BitVec 16) : Option BlockCipher :=
  if kind = 0xFFF0 then some toyB
  else if kind = 0xFFF3 then some toyB8
  else if kind = 0xFFF1 then none
  else if kind = 0xFFF2 then none
  else Config.otherCiphers kind

/-- `REGISTRY.digest(kind)` (R6, R8; log entry 6). -/
def digest? (kind : BitVec 16) : Option Digest :=
  if kind = 0xFFF1 then some toyDigest
  else if kind = 0xFFF0 then none
  else if kind = 0xFFF2 then none
  else if kind = 0xFFF3 then none
  else Config.otherDigests kind

/-- `REGISTRY.mac(kind)` (R6, R8; log entry 6). -/
def mac? (kind : BitVec 16) : Option Mac :=
  if kind = 0xFFF2 then some toyMac
  else if kind = 0xFFF0 then none
  else if kind = 0xFFF1 then none
  else if kind = 0xFFF3 then none
  else Config.otherMacs kind

/-- `key_len_ok(kind, n)` (R8): false for a kind the registry lacks. -/
def keyLenOk (kind : BitVec 16) (n : Nat) : Bool :=
  match blockCipher? kind with
  | some c => c.keyLenOk n
  | none => false

/-- `mac_key_len_ok(kind, n)` (R194): false for a kind the registry lacks. -/
def macKeyLenOk (kind : BitVec 16) (n : Nat) : Bool :=
  match mac? kind with
  | some m => m.keyLenOk n
  | none => false

end Sys2Proof.Machine
end

