-- ==== Sys2Proof/Machine/Modes.lean ====
section
/-! DEFINITION. The mode functions (40_block_mode_commands.md R125 to R130): one block, one CTR tail, and the
serial meaning of a transform. -/

namespace Sys2Proof.Machine

/-- `BlockStep`: one whole block under a chain value, giving the output block and the next chain value (R126).
CTR and CFB call only `E`, CBC calls `E` to encrypt and `D` to decrypt (R125); CFB feeds back the whole
block (R127). -/
def blockStep (c : BlockCipher) (mode : CipherMode) (enc : Bool) (key chain x : List Byte) :
    List Byte × List Byte :=
  match mode, enc with
  | .ctr, _ => (xorBytes x (c.E key chain), addCounter chain 1)
  | .cbc, true => (c.E key (xorBytes x chain), c.E key (xorBytes x chain))
  | .cbc, false => (xorBytes (c.D key x) chain, x)
  | .cfb, true => (xorBytes (c.E key chain) x, xorBytes (c.E key chain) x)
  | .cfb, false => (xorBytes (c.E key chain) x, x)

/-- The CTR final partial block: the first bytes of the current keystream block are used, the rest is
discarded, and the counter advances by one (R130). -/
def tailStep (c : BlockCipher) (key chain x : List Byte) : List Byte × List Byte :=
  (xorBytes x ((c.E key chain).take x.length), addCounter chain 1)

/-- The first `n` blocks of `SerialXform` (R129): the output, and the chain after. -/
def serialBlocks (c : BlockCipher) (mode : CipherMode) (enc : Bool) (key : List Byte) :
    Nat → List Byte → List Byte → List Byte × List Byte
  | 0, chain, _ => ([], chain)
  | n + 1, chain, data =>
    let r := blockStep c mode enc key chain (data.take c.blockSize)
    let rest := serialBlocks c mode enc key n r.2 (data.drop c.blockSize)
    (r.1 ++ rest.1, rest.2)

/-- `SerialXform`: the serial meaning of a transform over a byte string (R129). -/
def serialXform (c : BlockCipher) (mode : CipherMode) (enc : Bool) (key chain data : List Byte) :
    List Byte × List Byte :=
  let n := data.length / c.blockSize
  let whole := serialBlocks c mode enc key n chain data
  let tail := data.drop (n * c.blockSize)
  if tail.length = 0 then whole
  else
    let t := tailStep c key whole.2 tail
    (whole.1 ++ t.1, t.2)

/-- The cipher and the mode the engine is set to; none where nothing is selected (R27, R121). -/
def engine (s : State) : Option (BlockCipher × CipherMode) :=
  match s.bm.mode, blockCipher? s.bm.kind with
  | some mode, some c => some (c, mode)
  | _, _ => none

end Sys2Proof.Machine
end

