-- ==== Sys2Proof/Machine/Lanes.lean ====
section
/-! DEFINITION. The parallel path of a transform (41_parallel_decomposition.md): chunk geometry, what each lane
starts from, and the steps `Spawn`, `LaneStep` and `Join`. -/

namespace Sys2Proof.Machine

/-- `bpc = floor(k / T)` (R160). -/
def blocksPerChunk (k T : Nat) : Nat := k / T

/-- `start_t = t * bpc`: the first block of lane `t` (R160). -/
def chunkStart (k T t : Nat) : Nat := t * blocksPerChunk k T

/-- `cnt_t`: the blocks of lane `t`; the last lane absorbs the remainder (R160). -/
def chunkCount (k T t : Nat) : Nat :=
  if t + 1 < T then blocksPerChunk k T else k - (T - 1) * blocksPerChunk k T

/-- The blocks of one parallel block, `k = BM.pbs / BM.B` (R165). -/
def unitBlocks (s : State) : Nat := s.bm.pbs / s.bm.blockSize

/-- The `n` bytes just before address `a`; none where they are not all addresses of `MEM` (R62, R164). -/
def bytesBefore (s : State) (a n : Nat) : Option (List Byte) :=
  if n ≤ a then memRead s (a - n) n else none

/-- The byte offset of lane `t`'s chunk within the transform (R160, R165). -/
def laneOffset (s : State) (xf : Transform) (t : Nat) : Nat :=
  xf.pos + chunkStart (unitBlocks s) s.cfg.threads t * s.bm.blockSize

/-- What lane `t` starts from: its sliced counter in CTR (R163), the ciphertext block just before its chunk in
CBC and CFB decrypt (R164). -/
def laneStartReg (s : State) (mode : CipherMode) (xf : Transform) (t : Nat) : Option (List Byte) :=
  match mode with
  | .ctr => some (addCounter s.bm.chain (t * blocksPerChunk (unitBlocks s) s.cfg.threads))
  | .cbc | .cfb =>
    if t = 0 then some s.bm.chain
    else bytesBefore s (xf.src + laneOffset s xf t) s.bm.blockSize

/-- The record of lane `t` at spawn (R165). -/
def spawnLane (s : State) (mode : CipherMode) (xf : Transform) (t : Nat) : Option Lane :=
  match laneStartReg s mode xf t with
  | some reg =>
    some
      { busy := true
        key := s.bm.key
        reg := reg
        src := xf.src + laneOffset s xf t
        dst := xf.dst + laneOffset s xf t
        n := chunkCount (unitBlocks s) s.cfg.threads t }
  | none => none

/-- The records of the given lanes at spawn. -/
def spawnLanes (s : State) (mode : CipherMode) (xf : Transform) : List Nat → Option (List Lane)
  | [] => some []
  | t :: ts =>
    match spawnLane s mode xf t, spawnLanes s mode xf ts with
    | some l, some ls => some (l :: ls)
    | _, _ => none

/-- `xf.next_chain`: the counter after the parallel block in CTR, its last ciphertext block otherwise (R165). -/
def unitNextChain (s : State) (mode : CipherMode) (xf : Transform) : Option (List Byte) :=
  match mode with
  | .ctr => some (addCounter s.bm.chain (unitBlocks s))
  | .cbc | .cfb => bytesBefore s (xf.src + xf.pos + s.bm.pbs) s.bm.blockSize

/-- `Spawn` (R165): every chaining block is read here, before any lane has written (R166). -/
def spawn (xf : Transform) (s : State) : Result :=
  match s.bm.mode with
  | none => .fault .noPrimitive
  | some mode =>
    match spawnLanes s mode xf (List.range s.cfg.threads), unitNextChain s mode xf with
    | some lanes, some nextChain =>
      .next
        { s with
          lanes := lanes
          bm := { s.bm with xf := some { xf with phase := .par nextChain } } }
    | _, _ => .fault .noSuchAddress

/-- One block of a lane: the output block and the lane's next `reg` (R167). -/
def laneBlock (c : BlockCipher) (mode : CipherMode) (key reg x : List Byte) : List Byte × List Byte :=
  match mode with
  | .ctr => (xorBytes x (c.E key reg), addCounter reg 1)
  | .cbc => (xorBytes (c.D key x) reg, x)
  | .cfb => (xorBytes (c.E key reg) x, x)

/-- `LaneStep(t)` of a lane whose record is `l` (R167). The block is read whole before it is written. -/
def laneStep (t : Nat) (l : Lane) (s : State) : Result :=
  match engine s with
  | none => .fault .noPrimitive
  | some (c, mode) =>
    match memRead s l.src s.bm.blockSize with
    | none => .fault .noSuchAddress
    | some x =>
      let r := laneBlock c mode l.key l.reg x
      match memWrite s l.dst s.bm.blockSize r.1 with
      | none => .fault .noSuchAddress
      | some s1 =>
        .next
          { s1 with
            lanes :=
              s1.lanes.set t
                { l with
                  reg := r.2
                  src := l.src + s.bm.blockSize
                  dst := l.dst + s.bm.blockSize
                  n := l.n - 1 } }

/-- `Join` (R169): the captured chain value is installed, every lane is zeroised and idle. -/
def join (xf : Transform) (nextChain : List Byte) (s : State) : Result :=
  .next
    { s with
      lanes := s.lanes.map wipeLane
      bm :=
        { s.bm with
          chain := nextChain
          xf := some { xf with pos := xf.pos + s.bm.pbs, npar := xf.npar - 1, phase := .idle } } }

end Sys2Proof.Machine
end

