-- ==== Sys2Proof/Machine/Operands.lean ====
section
/-! DEFINITION. The operand forms of the commands (30_encoding.md R94): base plus offset into a buffer of
stated size, key and IV ranges, and the overlap rule (20_memory.md R63, R64, R65). All sums are on
unbounded naturals, so none wraps (43_common_commands.md R243). -/

namespace Sys2Proof.Machine

/-- `BufRange(base, size, off, n)`: the effective address, or none where it raises `InvalidParameter` (R63). -/
def bufRange (s : State) (base size off : Word) (n : Nat) : Option Nat :=
  if size.toNat < off.toNat + n then none
  else if memSize s < base.toNat + size.toNat then none
  else some (base.toNat + off.toNat)

/-- `KeyRange(base, len)`: the address, or none where it raises `InvalidParameter` (R64). -/
def keyRange (s : State) (base len : Word) : Option Nat :=
  if memSize s < base.toNat + len.toNat then none else some base.toNat

/-- The input range of a transform of `n` bytes (R63). -/
def inputRange (s : State) (n : Nat) : Option Nat :=
  bufRange s s.regs.inBase s.regs.inSize s.regs.inOff n

/-- The output range of `n` bytes (R63). -/
def outputRange (s : State) (n : Nat) : Option Nat :=
  bufRange s s.regs.outBase s.regs.outSize s.regs.outOff n

/-- The overlap rule: in place, or disjoint (R65). -/
def overlapOk (a o n : Nat) : Bool := decide (a = o) || decide (a + n ≤ o) || decide (o + n ≤ a)

end Sys2Proof.Machine
end

