-- ==== Sys2Proof/Machine/BlockMode.lean ====
section
/-! DEFINITION. The commands of the block-mode engine (40_block_mode_commands.md) and the serial steps of an
accepted transform. The checks of each command stand in the order of its rule, all before its first effect
(R120). -/

namespace Sys2Proof.Machine

/-! ### Construction and keying -/

/-- The mode a selector names; none for 0, 4 (OFB) and 5..255 (R96). -/
def modeOfSel (sel : BitVec 8) : Option CipherMode :=
  if sel = 1 then some .ctr
  else if sel = 2 then some .cbc
  else if sel = 3 then some .cfb
  else none

/-- `parallel_min_size` (R122). -/
def parMin (blockSize threads : Nat) : Nat := blockSize * threads

/-- `parallel_max_size`: `PAR_MIN * ceil(104857600 / PAR_MIN)` (R122, 00_scope.md R7). -/
def parMax (pmin : Nat) : Nat := pmin * ((104857600 + pmin - 1) / pmin)

/-- The default `parallel_block_size`: `T * B * floor(65536 / B)` (R122). -/
def pbsDefault (blockSize threads : Nat) : Nat := threads * blockSize * (65536 / blockSize)

/-- Sizing, with `B = BM.B` (R122). -/
def sizeEngine (s : State) : State :=
  let pmin := parMin s.bm.blockSize s.cfg.threads
  let pbs := pbsDefault s.bm.blockSize s.cfg.threads
  { s with
    bm := { s.bm with pbs := pbs, par := s.cfg.parDefault }
    regs :=
      { s.regs with
        bmParMin := BitVec.ofNat 64 pmin
        bmParMax := BitVec.ofNat 64 (parMax pmin)
        bmParBlock := BitVec.ofNat 64 pbs
        bmIsParallel := BitVec.ofNat 64 (bit s.cfg.parDefault) } }

/-- The engine with a mode and a cipher selected and no key (R121). -/
def selectEngine (mode : CipherMode) (kind : BitVec 16) (c : BlockCipher) (s : State) : State :=
  { s with
    bm :=
      { wipeEngine s.bm with
        enc := false
        mode := some mode
        kind := kind
        blockSize := c.blockSize }
    regs :=
      { s.regs with
        bmMode := bmModeWord (some mode) kind false
        bmBlockSize := BitVec.ofNat 64 c.blockSize } }

/-- `BM_NEW` (R121). -/
def execBmNew (tag sel : BitVec 8) (kind : BitVec 16) (s : State) : Result :=
  if s.bm.state = .transforming then raise 0x01 tag .busy s
  else
    match modeOfSel sel with
    | none => raise 0x01 tag .unsupported s
    | some mode =>
      match blockCipher? kind with
      | none => raise 0x01 tag .unsupported s
      | some c =>
        if mode = .ctr ∧ c.blockSize ≠ 16 then raise 0x01 tag .unsupported s
        else
          .next (respond 0x01 tag .ok (setBmState .init (sizeEngine (selectEngine mode kind c s))))

/-- The engine keyed: the old key and chain zeroised, the new ones and the direction installed (R124). -/
def keyEngine (key iv : List Byte) (f : Bool) (s : State) : State :=
  { s with
    bm := { wipeEngine s.bm with key := key, chain := iv, enc := f }
    regs := { s.regs with bmMode := withEncryptBit s.regs.bmMode f } }

/-- `BM_INIT` (R124). -/
def execBmInit (tag : BitVec 8) (f : Bool) (s : State) : Result :=
  if s.bm.state = .transforming then raise 0x02 tag .busy s
  else if s.bm.mode = none then raise 0x02 tag .notInitialized s
  else if keyLenOk s.bm.kind s.regs.keyLen.toNat = false then raise 0x02 tag .invalidParameter s
  else if s.regs.ivLen.toNat ≠ s.bm.blockSize then raise 0x02 tag .invalidParameter s
  else
    match keyRange s s.regs.keyBase s.regs.keyLen, keyRange s s.regs.ivBase s.regs.ivLen with
    | some ka, some ia =>
      match memRead s ka s.regs.keyLen.toNat, memRead s ia s.bm.blockSize with
      | some key, some iv =>
        .next (respond 0x02 tag .ok (setBmState .ready (keyEngine key iv f s)))
      | _, _ => .fault .noSuchAddress
    | _, _ => raise 0x02 tag .invalidParameter s

/-! ### One block -/

/-- `BM_XBLK` (R128): the block is read whole before any byte is written. -/
def execBmXblk (tag : BitVec 8) (s : State) : Result :=
  if s.bm.state ≠ .ready then raise 0x03 tag .notInitialized s
  else
    match inputRange s s.bm.blockSize, outputRange s s.bm.blockSize with
    | some a, some o =>
      if overlapOk a o s.bm.blockSize = false then raise 0x03 tag .invalidParameter s
      else
        match engine s with
        | none => .fault .noPrimitive
        | some (c, mode) =>
          match memRead s a s.bm.blockSize with
          | none => .fault .noSuchAddress
          | some x =>
            let r := blockStep c mode s.bm.enc s.bm.key s.bm.chain x
            match memWrite s o s.bm.blockSize r.1 with
            | none => .fault .noSuchAddress
            | some s1 => .next (respond 0x03 tag .ok { s1 with bm := { s1.bm with chain := r.2 } })
    | _, _ => raise 0x03 tag .invalidParameter s

/-! ### Many blocks -/

/-- The record of an accepted transform of `n` bytes from `a` to `o` (R131). -/
def newTransform (tag : BitVec 8) (a o n : Nat) (s : State) : Transform where
  tag := tag
  src := a
  dst := o
  len := n
  pos := 0
  npar := if parallelOk s.bm then n / s.bm.pbs else 0
  phase := .idle

/-- `BM_XFRM` at issue (R131); an accepted transform is carried on by `CTL` and the lanes (R132). -/
def execBmXfrm (tag : BitVec 8) (s : State) : Result :=
  if s.bm.state ≠ .ready then raise 0x04 tag .notInitialized s
  else if needsWholeBlocks s.bm.mode = true ∧ s.regs.len.toNat % s.bm.blockSize ≠ 0 then
    raise 0x04 tag .invalidParameter s
  else
    match inputRange s s.regs.len.toNat, outputRange s s.regs.len.toNat with
    | some a, some o =>
      if overlapOk a o s.regs.len.toNat = false then raise 0x04 tag .invalidParameter s
      else if s.regs.len.toNat = 0 then .next (respond 0x04 tag .ok s)
      else
        .next
          (setBmState .transforming
            { s with bm := { s.bm with xf := some (newTransform tag a o s.regs.len.toNat s) } })
    | _, _ => raise 0x04 tag .invalidParameter s

/-- `SerialStep` (R133): one whole block, or the CTR tail. -/
def serialStep (xf : Transform) (s : State) : Result :=
  match engine s with
  | none => .fault .noPrimitive
  | some (c, mode) =>
    let m := min s.bm.blockSize (xf.len - xf.pos)
    match memRead s (xf.src + xf.pos) m with
    | none => .fault .noSuchAddress
    | some x =>
      let r :=
        if m = s.bm.blockSize then blockStep c mode s.bm.enc s.bm.key s.bm.chain x
        else tailStep c s.bm.key s.bm.chain x
      match memWrite s (xf.dst + xf.pos) m r.1 with
      | none => .fault .noSuchAddress
      | some s1 =>
        .next
          { s1 with bm := { s1.bm with chain := r.2, xf := some { xf with pos := xf.pos + m } } }

/-- `Complete` (R134). -/
def complete (xf : Transform) (s : State) : Result :=
  let s1 := setBmState .ready (respond 0x04 xf.tag .ok s)
  .next { s1 with bm := { s1.bm with xf := none } }

/-! ### Properties and release -/

/-- `BM_SETPBS` (R140). -/
def execBmSetpbs (tag : BitVec 8) (s : State) : Result :=
  if s.bm.state = .transforming then raise 0x05 tag .busy s
  else if s.bm.mode = none then raise 0x05 tag .notInitialized s
  else if s.regs.arg.toNat < s.regs.bmParMin.toNat ∨ s.regs.bmParMax.toNat < s.regs.arg.toNat ∨
      s.regs.arg.toNat % s.regs.bmParMin.toNat ≠ 0 then
    raise 0x05 tag .invalidParameter s
  else
    .next
      (respond 0x05 tag .ok
        { s with
          bm := { s.bm with pbs := s.regs.arg.toNat }
          regs := { s.regs with bmParBlock := s.regs.arg } })

/-- `BM_SETPAR` (R142). -/
def execBmSetpar (tag : BitVec 8) (f : Bool) (s : State) : Result :=
  if s.bm.state = .transforming then raise 0x06 tag .busy s
  else
    .next
      (respond 0x06 tag .ok
        { s with
          bm := { s.bm with par := f }
          regs := { s.regs with bmIsParallel := BitVec.ofNat 64 (bit f) } })

/-- `BM_RELEASE` (R144): the key state zeroised and emptied; mode, kind and sizing keep their values. -/
def execBmRelease (tag : BitVec 8) (s : State) : Result :=
  if s.bm.state = .transforming then raise 0x07 tag .busy s
  else
    .next
      (respond 0x07 tag .ok
        (setBmState .init
          { s with
            bm := { wipeEngine s.bm with enc := false }
            regs := { s.regs with bmMode := withEncryptBit s.regs.bmMode false } }))

end Sys2Proof.Machine
end

