-- ==== Sys2Proof/Machine/Stream.lean ====
section
/-! DEFINITION. The commands of the stream unit (42_stream_processor.md), the steps of its agents `SEQ`, `RDR`
and `CSM`, and how a run ends. -/

namespace Sys2Proof.Machine

/-! ### The target -/

/-- The digest or MAC a class and kind select; none for the other classes or a kind the registry lacks
(R191, R192). -/
def streamPrim? (cls : SpClass) (kind : BitVec 16) : Option StreamPrim :=
  match cls with
  | .digest => (digest? kind).map (·.toStreamPrim)
  | .mac => (mac? kind).map (·.toStreamPrim)
  | .cipher => none
  | .none => none

/-- What the end of a run does to its target: the primitive back in its initial state (R195), the engine back
to `ready` (R210, R212). -/
def restoreTarget (s : State) : Option State :=
  match s.sp.cls with
  | .digest =>
    (digest? s.sp.kind).map fun d => { s with sp := { s.sp with prim := some d.d0 } }
  | .mac =>
    (mac? s.sp.kind).map fun m =>
      let wiped := { s.sp with prim := s.sp.prim.map zeroise }
      { s with sp := { wiped with prim := some (m.m0 s.sp.key) } }
  | .cipher => some (setBmState .ready s)
  | .none => some s

/-! ### How a run ends -/

/-- `Abort(code)` (R210). -/
def abortRun (code : Code) (s : State) : Result :=
  match restoreTarget { s with sp := { s.sp with queue := [] } } with
  | none => .fault .noPrimitive
  | some s1 =>
    .next
      (setSpState .armed
        (respond 0x12 s1.sp.run.tag code { s1 with sp := { s1.sp with fault := none } }))

/-- The code of a digest or MAC run stored in `MEM`; nothing for the cipher class (R212). -/
def storeCode (s : State) : Except Fault State :=
  match s.sp.cls with
  | .digest | .mac =>
    match streamPrim? s.sp.cls s.sp.kind, s.sp.prim with
    | some p, some st =>
      match s.sp.run.out with
      | none => .error .noOutputRange
      | some (dst, dsz) =>
        match memWrite s dst dsz (p.fin st) with
        | some s1 => .ok s1
        | none => .error .noSuchAddress
    | _, _ => .error .noPrimitive
  | .cipher | .none => .ok s

/-- `Finish` (R212): the code, the target restored, the `FINAL` event, the response, the unit `armed`. -/
def finish (s : State) : Result :=
  match storeCode s with
  | .error f => .fault f
  | .ok s1 =>
    match restoreTarget s1 with
    | none => .fault .noPrimitive
    | some s2 =>
      .next
        (setSpState .armed
          (respond 0x12 s2.sp.run.tag .ok (emitEvent finalKind s2.sp.run.total s2)))

/-! ### Feeding the target -/

/-- What `Feed` comes to: the buffer is taken and accounted for, or the step ends there. -/
inductive Fed where
  | fed (s : State)
  | ended (r : Result)

/-- One buffer given to the target (R202): `upd` for a digest or MAC; for the cipher class the serial
transform, then the sink, whose failure aborts the run. -/
def feedTarget (bs : List Byte) (s : State) : Fed :=
  match s.sp.cls with
  | .digest | .mac =>
    match streamPrim? s.sp.cls s.sp.kind, s.sp.prim with
    | some p, some st => .fed { s with sp := { s.sp with prim := some (p.upd st bs) } }
    | _, _ => .ended (.fault .noPrimitive)
  | .cipher =>
    match engine s with
    | none => .ended (.fault .noPrimitive)
    | some (c, mode) =>
      let r := serialXform c mode s.bm.enc s.bm.key s.bm.chain bs
      let w := snkWrite r.1 { s with bm := { s.bm with chain := r.2 } }
      if w.1 then .fed w.2 else .ended (abortRun .io w.2)
  | .none => .fed s

/-- The positions `m * I` that a step from `old` to `new` reaches or passes and that lie before the end of the
stream, in increasing order (R202, R208). -/
def progressPositions (interval old new total : Nat) : List Nat :=
  if interval = 0 then []
  else
    ((List.range (new / interval - old / interval)).map
      (fun j => (old / interval + 1 + j) * interval)).filter (fun p => decide (p < total))

/-- `SP.cpos` and `SP_POS` moved past `n` bytes, with the `PROGRESS` events passed (R202). -/
def accountFed (n : Nat) (s : State) : State :=
  let pos := s.sp.cpos + n
  { s with
    sp := { s.sp with cpos := pos }
    regs := { s.regs with spPos := BitVec.ofNat 64 pos }
    evt :=
      s.evt ++
        (progressPositions s.sp.interval s.sp.cpos pos s.sp.run.total).map (eventWord progressKind) }

/-- `Feed(s)` (R202). -/
def feed (bs : List Byte) (s : State) : Fed :=
  match feedTarget bs s with
  | .fed s1 => .fed (accountFed bs.length s1)
  | .ended r => .ended r

/-! ### The agents of a run -/

/-- The size of the next request: `min(BUF_SIZE, total - rpos)` (R203, R205). -/
def requestSize (s : State) : Nat := min s.cfg.bufSize (s.sp.run.total - s.sp.rpos)

/-- `SP.rpos` moved past `n` bytes. -/
def advanceReader (n : Nat) (s : State) : State := { s with sp := { s.sp with rpos := s.sp.rpos + n } }

/-- `SeqStep` (R203). -/
def seqStep (s : State) : Result :=
  if s.sp.cancel then abortRun .cancelled s
  else
    match srcRead (requestSize s) s with
    | (.fail, s1) => abortRun .io s1
    | (.data bs, s1) =>
      if bs.length < requestSize s then abortRun .unexpectedEof s1
      else
        match feed bs (advanceReader (requestSize s) s1) with
        | .ended r => r
        | .fed s2 => if s2.sp.cpos = s2.sp.run.total then finish s2 else .next s2

/-- The reader records a fault and stops for good (R205). -/
def readerFault (code : Code) (s : State) : Result := .next { s with sp := { s.sp with fault := some code } }

/-- The reader pushes a buffer at the tail of the queue and is done when it has read all (R205). -/
def pushBuffer (bs : List Byte) (s : State) : State :=
  { s with
    sp :=
      { s.sp with
        queue := s.sp.queue ++ [bs]
        readerDone := if s.sp.rpos = s.sp.run.total then true else s.sp.readerDone } }

/-- `RdrStep` (R205). -/
def rdrStep (s : State) : Result :=
  if s.sp.cancel then readerFault .cancelled s
  else
    match srcRead (requestSize s) s with
    | (.fail, s1) => readerFault .io s1
    | (.data bs, s1) =>
      if bs.length < requestSize s then readerFault .unexpectedEof s1
      else .next (pushBuffer bs (advanceReader (requestSize s) s1))

/-- `CsmStep` (R206): a fault the reader found comes ahead of any buffer still queued. -/
def csmStep (s : State) : Result :=
  match s.sp.fault with
  | some code => abortRun code s
  | none =>
    match s.sp.queue with
    | [] => .next s
    | bs :: rest =>
      match feed bs { s with sp := { s.sp with queue := rest } } with
      | .ended r => r
      | .fed s1 => if s1.sp.readerDone = true ∧ s1.sp.queue = [] then finish s1 else .next s1

/-! ### The commands -/

/-- The class a selector names; none for 0 and 4..255 (R97). -/
def classOfSel (sel : BitVec 8) : Option SpClass :=
  if sel = 1 then some .digest
  else if sel = 2 then some .mac
  else if sel = 3 then some .cipher
  else none

/-- A target selected, the old key state zeroised (R192). -/
def selectTarget (cls : SpClass) (kind : BitVec 16) (prim : Option (List Byte)) (s : State) : State :=
  { s with
    sp := { wipeStream s.sp with cls := cls, kind := kind, prim := prim }
    regs := { s.regs with spKind := spKindWord cls kind } }

/-- `SP_NEW` (R192). -/
def execSpNew (tag sel : BitVec 8) (kind : BitVec 16) (s : State) : Result :=
  if s.sp.state = .running then raise 0x10 tag .busy s
  else
    match classOfSel sel with
    | some .digest =>
      match digest? kind with
      | none => raise 0x10 tag .unsupported s
      | some d =>
        .next (respond 0x10 tag .ok (setSpState .armed (selectTarget .digest kind (some d.d0) s)))
    | some .mac =>
      match mac? kind with
      | none => raise 0x10 tag .unsupported s
      | some _ => .next (respond 0x10 tag .ok (setSpState .attached (selectTarget .mac kind none s)))
    | some .cipher =>
      if kind ≠ 0 then raise 0x10 tag .invalidParameter s
      else .next (respond 0x10 tag .ok (setSpState .armed (selectTarget .cipher kind none s)))
    | _ => raise 0x10 tag .unsupported s

/-- `SP_KEY` (R194). -/
def execSpKey (tag : BitVec 8) (s : State) : Result :=
  if s.sp.state = .running then raise 0x11 tag .busy s
  else if s.sp.state = .empty then raise 0x11 tag .notInitialized s
  else if s.sp.cls ≠ .mac then raise 0x11 tag .unsupported s
  else if macKeyLenOk s.sp.kind s.regs.keyLen.toNat = false then raise 0x11 tag .invalidParameter s
  else
    match keyRange s s.regs.keyBase s.regs.keyLen with
    | none => raise 0x11 tag .invalidParameter s
    | some ka =>
      match memRead s ka s.regs.keyLen.toNat, mac? s.sp.kind with
      | some key, some m =>
        .next
          (respond 0x11 tag .ok
            (setSpState .armed
              { s with sp := { wipeStream s.sp with key := key, prim := some (m.m0 key) } }))
      | none, _ => .fault .noSuchAddress
      | _, none => .fault .noPrimitive

/-- The state of an accepted run, before the empty one ends (R200). -/
def startRun (tag : BitVec 8) (out : Option (Nat × Nat)) (nbs : Nat) (s : State) : State :=
  let total := s.regs.spTotal.toNat
  let path := runPath s.regs.spCtrl total s.cfg.bufSize
  let interval := progressInterval total nbs
  let s1 :=
    setSpState .running
      { s with
        sp :=
          { s.sp with
            run := { tag := tag, total := total, out := out }
            path := path
            interval := interval
            rpos := 0
            cpos := 0
            queue := []
            readerDone := false
            cancel := false
            fault := none }
        regs := { s.regs with spInterval := BitVec.ofNat 64 interval, spPos := 0 } }
  if s1.sp.cls = .cipher then setBmState .transforming s1 else s1

/-- An accepted run goes on to its agents; a run of no bytes ends in the same step (R200). -/
def acceptRun (tag : BitVec 8) (out : Option (Nat × Nat)) (nbs : Nat) (s : State) : Result :=
  if s.regs.spTotal.toNat = 0 then finish (startRun tag out nbs s) else .next (startRun tag out nbs s)

/-- `SP_RUN` at issue (R200). -/
def execSpRun (tag : BitVec 8) (s : State) : Result :=
  if s.sp.state = .running then raise 0x12 tag .busy s
  else if s.sp.state = .empty ∨ s.sp.state = .attached then raise 0x12 tag .notInitialized s
  else if s.sp.cls = .cipher ∧ s.bm.state ≠ .ready then raise 0x12 tag .notInitialized s
  else if s.sp.cls = .cipher ∧ s.cfg.bufSize % s.bm.blockSize ≠ 0 then raise 0x12 tag .unsupported s
  else if 2 ^ 56 ≤ s.regs.spTotal.toNat then raise 0x12 tag .invalidParameter s
  else if s.sp.cls = .cipher ∧ needsWholeBlocks s.bm.mode = true ∧
      s.regs.spTotal.toNat % s.bm.blockSize ≠ 0 then
    raise 0x12 tag .invalidParameter s
  else
    match s.sp.cls with
    | .digest | .mac =>
      match streamPrim? s.sp.cls s.sp.kind with
      | none => .fault .noPrimitive
      | some p =>
        match outputRange s p.digestSize with
        | none => raise 0x12 tag .invalidParameter s
        | some o => acceptRun tag (some (o, p.digestSize)) p.blockSize s
    | .cipher => acceptRun tag none s.bm.blockSize s
    | .none => .fault .noPrimitive

/-- `SP_CANCEL` (R218). -/
def execSpCancel (tag : BitVec 8) (s : State) : Result :=
  if s.sp.state = .running then
    .next (respond 0x13 tag .ok { s with sp := { s.sp with cancel := true } })
  else .next (respond 0x13 tag .ok s)

/-- `SP_RELEASE` (R220). -/
def execSpRelease (tag : BitVec 8) (s : State) : Result :=
  if s.sp.state = .running then raise 0x14 tag .busy s
  else
    .next
      (respond 0x14 tag .ok
        (setSpState .empty
          { s with
            sp := { wipeStream s.sp with cls := .none, kind := 0 }
            regs := { s.regs with spKind := 0 } }))

end Sys2Proof.Machine
end

