-- ==== Sys2Proof/Machine/Agents.lean ====
section
/-! DEFINITION. The agents of the hardware (00_scope.md R14; 43_common_commands.md R241): when each is enabled,
what its step does, and which one moves where the environment's events do not say. -/

namespace Sys2Proof.Machine

/-- Whether `CTL` has an enabled step: `Spawn`, `SerialStep` or `Complete` between units, `Join` once every lane
has finished (40 R133, R134; 41 R165, R169). Without a transform record it has none (42 R216). -/
def ctlEnabled (s : State) : Bool :=
  match s.bm.state, s.bm.xf with
  | .transforming, some xf =>
    match xf.phase with
    | .idle => decide (0 < xf.npar) || decide (xf.pos ≤ xf.len)
    | .par _ => s.lanes.all (fun l => l.n == 0)
  | _, _ => false

/-- The step `CTL` takes when it is enabled. -/
def ctlStep (s : State) : Result :=
  match s.bm.xf with
  | none => .next s
  | some xf =>
    match xf.phase with
    | .par nextChain => join xf nextChain s
    | .idle =>
      if 0 < xf.npar then spawn xf s
      else if xf.pos < xf.len then serialStep xf s
      else complete xf s

/-- `LANE[t]` is enabled when it is busy with blocks left (41 R167). -/
def laneEnabled (s : State) (t : Nat) : Bool :=
  match s.lanes[t]? with
  | some l => l.busy && decide (0 < l.n)
  | none => false

/-- Whether an agent has an enabled step (R14; 42 R203, R205, R206). -/
def enabled (s : State) : Agent → Bool
  | .ctl => ctlEnabled s
  | .lane t => laneEnabled s t
  | .seq => decide (s.sp.state = .running) && !s.sp.path && decide (s.sp.cpos < s.sp.run.total)
  | .rdr =>
    decide (s.sp.state = .running) && s.sp.path && !s.sp.readerDone && s.sp.fault.isNone &&
      decide (s.sp.queue.length < s.cfg.queueCap)
  | .csm => decide (s.sp.state = .running) && s.sp.path && (s.sp.fault.isSome || !s.sp.queue.isEmpty)

/-- The step of an enabled agent. -/
def agentAct (a : Agent) (s : State) : Result :=
  match a with
  | .ctl => ctlStep s
  | .lane t =>
    match s.lanes[t]? with
    | some l => laneStep t l s
    | none => .next s
  | .seq => seqStep s
  | .rdr => rdrStep s
  | .csm => csmStep s

/-- The turn of an agent: its step where it is enabled, nothing where it is not (log entry 2). -/
def agentStep (a : Agent) (s : State) : Result :=
  if enabled s a then agentAct a s else .next s

/-- The agents of a machine (60_exceptions.md R284). -/
def agents (s : State) : List Agent :=
  [.ctl, .seq, .rdr, .csm] ++ (List.range s.lanes.length).map .lane

/-- The agents that have an enabled step. -/
def enabledAgents (s : State) : List Agent := (agents s).filter (enabled s)

/-- The hardware left to itself: one of the enabled agents takes its step, which one a free value says (U4);
with none enabled nothing happens (60 R286, log entry 3). -/
def freeStep (s : State) : Result :=
  match enabledAgents s with
  | [] => .next s
  | a :: rest =>
    agentAct ((a :: rest).getD (Config.schedule s.tick % (a :: rest).length) a)
      { s with tick := s.tick + 1 }

end Sys2Proof.Machine
end

