-- ==== Sys2Proof/Machine/Common.lean ====
section
/-! DEFINITION. The command of neither unit (43_common_commands.md). -/

namespace Sys2Proof.Machine

/-- `NOP` (R240): its response, whatever the state of either unit. -/
def execNop (tag : BitVec 8) (s : State) : Result := .next (respond 0x00 tag .ok s)

end Sys2Proof.Machine
end

