-- ==== Sys2Proof/Machine/Dispatch.lean ====
section
/-! DEFINITION. The dispatch of a decoded command to its meaning, one arm per constructor (30_encoding.md R92). -/

namespace Sys2Proof.Machine

def exec (i : Instr) (s : State) : Host.Outcome State Fault Refusal :=
  match i with
  | .nop tag => Sys2Proof.Machine.execNop tag s
  | .bmNew tag sel kind => Sys2Proof.Machine.execBmNew tag sel kind s
  | .bmInit tag f => Sys2Proof.Machine.execBmInit tag f s
  | .bmXblk tag => Sys2Proof.Machine.execBmXblk tag s
  | .bmXfrm tag => Sys2Proof.Machine.execBmXfrm tag s
  | .bmSetpbs tag => Sys2Proof.Machine.execBmSetpbs tag s
  | .bmSetpar tag f => Sys2Proof.Machine.execBmSetpar tag f s
  | .bmRelease tag => Sys2Proof.Machine.execBmRelease tag s
  | .spNew tag sel kind => Sys2Proof.Machine.execSpNew tag sel kind s
  | .spKey tag => Sys2Proof.Machine.execSpKey tag s
  | .spRun tag => Sys2Proof.Machine.execSpRun tag s
  | .spCancel tag => Sys2Proof.Machine.execSpCancel tag s
  | .spRelease tag => Sys2Proof.Machine.execSpRelease tag s

end Sys2Proof.Machine
end

