-- ==== Sys2Proof/Machine/HostPort.lean ====
section
/-! DEFINITION. The transactions of the ports (30_encoding.md R90, R91) and the reset event
(70_reset_and_hazards.md R290). -/

namespace Sys2Proof.Machine

/-- `Issue(w)`: the word is decoded, and the command answered or accepted, in this step (R91, R101). -/
def issue (w : Word) (s : State) : Result :=
  match decode w with
  | .ok i => exec i s
  | .error (.unassignedOpcode opcode tag) => raise opcode tag .unsupported s
  | .error (.reservedBits opcode tag) => raise opcode tag .invalidParameter s

/-- A lane record under `Reset`: `key` and `reg` zeroised, then every field at its reset value (R30, R290). -/
def resetLane (l : Lane) : Lane :=
  let wiped := { l with key := zeroise l.key, reg := zeroise l.reg }
  { wiped with busy := false, key := [], reg := [], src := 0, dst := 0, n := 0 }

/-- The reset event (R290): keyed state zeroised, registers and hidden fields at their reset values, both logs
emptied. `MEM` and the stream ports are not touched (R290, R291; 93 U8); the host has observed nothing of
the new logs (log entry 17). -/
def resetEvent (s : State) : State :=
  { s with
    regs := Regs.reset s.cfg
    bm := Bme.reset s.cfg
    lanes := s.lanes.map resetLane
    sp := Spu.reset
    rsp := []
    evt := []
    port := { s.port with rspSeen := 0, evtSeen := 0 } }

/-- The host stores bytes in `MEM` (R60); an address outside it does not exist (log entry 12). -/
def hostMemWrite (a : Nat) (bs : List Byte) (s : State) : Result :=
  match memWrite s a bs.length bs with
  | some s1 => .next s1
  | none => .fault .noSuchAddress

/-- The host reads bytes of `MEM` (R60); an address outside it does not exist (log entry 12). -/
def hostMemRead (a n : Nat) (s : State) : Result :=
  match memRead s a n with
  | some bs => .next { s with port := { s.port with memData := bs } }
  | none => .fault .noSuchAddress

/-- `RegRead(i)`: the port returns the register's value; the register file is not changed (R21). -/
def hostRegRead (i : BitVec 6) (s : State) : State :=
  { s with port := { s.port with regData := regRead s i } }

/-- A response word the host has not observed is in the log (R33). -/
def rspPending (s : State) : Bool := decide (s.port.rspSeen < s.rsp.length)

/-- An event word the host has not observed is in the log (R33). -/
def evtPending (s : State) : Bool := decide (s.port.evtSeen < s.evt.length)

/-- The host observes the next response word (R33). -/
def observeRsp (s : State) : State := { s with port := { s.port with rspSeen := s.port.rspSeen + 1 } }

/-- The host observes the next event word (R33). -/
def observeEvt (s : State) : State := { s with port := { s.port with evtSeen := s.port.evtSeen + 1 } }

/-- The environment's events still to come. -/
def withEvents (events : List Event) (s : State) : State := { s with env := { s.env with events := events } }

/-- What one event does, `s` being the state with the event taken off the list. An await happens only once its
word is there (`ready`). -/
def happen (e : Event) (s : State) : Result :=
  match e with
  | .issue w => issue w s
  | .regWrite i v => .next (regWrite s i v)
  | .regRead i => .next (hostRegRead i s)
  | .memWrite a bs => hostMemWrite a bs s
  | .memRead a n => hostMemRead a n s
  | .awaitRsp => .next (observeRsp s)
  | .awaitEvt => .next (observeEvt s)
  | .agent a => agentStep a s
  | .setSource answers => .next { s with env := { s.env with source := answers } }
  | .setSink answers => .next { s with env := { s.env with sinkAnswers := answers } }
  | .reset => .next (resetEvent s)

/-- Whether the event at the head of the list can happen now: an await waits for its word (R102). -/
def ready (e : Event) (s : State) : Bool :=
  match e with
  | .awaitRsp => rspPending s
  | .awaitEvt => evtPending s
  | _ => true

end Sys2Proof.Machine
end

