-- ==== Sys2Proof/Machine/Step.lean ====
section
/-! DEFINITION. One step of the machine. There is no program counter and no fetch (10_state.md R25): what
happens next is the event at the head of the environment's list, and where that list is empty or the host
waits, the hardware moves alone (log entries 1, 2, 3). -/

namespace Sys2Proof.Machine

/-- One step. -/
def step (s : State) : Host.Outcome State Fault Refusal :=
  match s.env.events with
  | [] => freeStep s
  | e :: rest => if ready e s then happen e (withEvents rest s) else freeStep s

/-- `s` with a command word as the next thing the host issues: commands come from the host on the CMD port
(R25, R91), so the word is put where `step` takes its next event. -/
def State.withFetchWord (s : State) (nbits w : Nat) : State :=
  withEvents (.issue (commandWord nbits w) :: s.env.events) s

end Sys2Proof.Machine
end

