-- ==== Sys2Proof/Safety.lean ====
section
/-! DEFINITION. What a sound state of the machine is, in the terms the statements use: the invariant every step
keeps, the words a log may hold, runs of many steps, what the host owes a command in flight, and the work left before
the machine is idle. -/

namespace Sys2Proof.Machine

/-! ### The invariant, part by part -/

/-- Memory is in its canonical form and lists only addresses of `MEM` (20_memory.md R60). -/
def memoryOk (s : State) : Bool := Memory.wf s.mem && s.mem.all (fun c => decide (c.1 < memSize s))

/-- Every status and property register shows the hidden field it is the view of (10_state.md R22, R26, R27,
R31, R32). -/
def registersOk (s : State) : Bool :=
  s.regs.bmState == BitVec.ofNat 64 (bmStateCode s.bm.state) &&
  s.regs.bmMode == bmModeWord s.bm.mode s.bm.kind s.bm.enc &&
  s.regs.bmBlockSize == BitVec.ofNat 64 s.bm.blockSize &&
  s.regs.bmParMin == BitVec.ofNat 64 (parMin s.bm.blockSize s.cfg.threads) &&
  s.regs.bmParMax == BitVec.ofNat 64 (parMax (parMin s.bm.blockSize s.cfg.threads)) &&
  s.regs.bmParBlock == BitVec.ofNat 64 s.bm.pbs &&
  s.regs.bmIsParallel == BitVec.ofNat 64 (bit s.bm.par) &&
  s.regs.spState == spStateWord s.sp.state s.sp.path &&
  s.regs.spKind == spKindWord s.sp.cls s.sp.kind &&
  s.regs.spPos == BitVec.ofNat 64 s.sp.cpos &&
  s.regs.spInterval == BitVec.ofNat 64 s.sp.interval

/-- What is selected in the engine (R27, 40_block_mode_commands.md R121, R122, R140): nothing, or a mode and a
cipher of the registry with a legal `parallel_block_size`. -/
def selectionOk (s : State) : Bool :=
  match s.bm.mode with
  | none =>
    s.bm.state == .init && s.bm.kind == 0 && s.bm.blockSize == 0 && s.bm.pbs == 0
  | some mode =>
    match blockCipher? s.bm.kind with
    | none => false
    | some c =>
      s.bm.blockSize == c.blockSize && (mode != .ctr || c.blockSize == 16) &&
        decide (parMin c.blockSize s.cfg.threads ≤ s.bm.pbs) &&
        decide (s.bm.pbs ≤ parMax (parMin c.blockSize s.cfg.threads)) &&
        s.bm.pbs % parMin c.blockSize s.cfg.threads == 0

/-- The key state of the engine (R26, R27): none in `init`; a key of an accepted length and a chain of one
block otherwise. -/
def keyStateOk (s : State) : Bool :=
  match s.bm.state with
  | .init => s.bm.key.isEmpty && s.bm.chain.isEmpty && !s.bm.enc
  | .ready | .transforming =>
    s.bm.mode.isSome && keyLenOk s.bm.kind s.bm.key.length && s.bm.chain.length == s.bm.blockSize

/-- A lane outside a parallel block: not busy, no key state, no blocks left (R30, 41 R169). -/
def laneIdle (l : Lane) : Bool := !l.busy && l.key.isEmpty && l.reg.isEmpty && l.n == 0

/-- Lane `t` within a parallel block: it holds the engine's key and one block of chain, and the blocks it has
left are the last of its own chunk, in both buffers (41 R160, R165, R167, R168). -/
def laneBusyOk (s : State) (xf : Transform) (t : Nat) (l : Lane) : Bool :=
  l.busy && l.key == s.bm.key && l.reg.length == s.bm.blockSize &&
  decide (l.n ≤ chunkCount (unitBlocks s) s.cfg.threads t) &&
  l.src + l.n * s.bm.blockSize ==
    xf.src + laneOffset s xf t + chunkCount (unitBlocks s) s.cfg.threads t * s.bm.blockSize &&
  l.dst + l.n * s.bm.blockSize ==
    xf.dst + laneOffset s xf t + chunkCount (unitBlocks s) s.cfg.threads t * s.bm.blockSize

/-- Every lane record satisfies a check that is given its number. -/
def lanesAll (p : Nat → Lane → Bool) : Nat → List Lane → Bool
  | _, [] => true
  | t, l :: ls => p t l && lanesAll p (t + 1) ls

/-- The lanes in a phase of a transform (R28, R30). -/
def phaseOk (s : State) (xf : Transform) : Bool :=
  match xf.phase with
  | .idle => s.lanes.all laneIdle
  | .par nextChain =>
    decide (0 < xf.npar) && nextChain.length == s.bm.blockSize && lanesAll (laneBusyOk s xf) 0 s.lanes

/-- A transform in progress (R28, 40 R131, R132): its ranges lie in `MEM` and overlap only wholly, what is left
holds the parallel blocks still to run, and CBC and CFB stand at a block boundary. -/
def transformOk (s : State) : Bool :=
  match s.bm.xf with
  | none => s.lanes.all laneIdle
  | some xf =>
    s.bm.state == .transforming &&
    decide (xf.src + xf.len ≤ memSize s) && decide (xf.dst + xf.len ≤ memSize s) &&
    overlapOk xf.src xf.dst xf.len &&
    decide (xf.pos + xf.npar * s.bm.pbs ≤ xf.len) &&
    (!needsWholeBlocks s.bm.mode ||
      (xf.len % s.bm.blockSize == 0 && xf.pos % s.bm.blockSize == 0)) &&
    (xf.npar == 0 || s.bm.mode == some .ctr || !s.bm.enc) &&
    (xf.npar == 0 || xf.pos % s.bm.blockSize == 0) &&
    phaseOk s xf

/-- The engine is `transforming` for exactly one reason: a transform record, or a stream run of class 3
(R26, 42 R216). -/
def engineHeldOk (s : State) : Bool :=
  (s.bm.state == .transforming) ==
      (s.bm.xf.isSome || (s.sp.state == .running && s.sp.cls == .cipher)) &&
  !(s.bm.xf.isSome && s.sp.state == .running && s.sp.cls == .cipher)

/-- The initial state of the selected primitive (42 R195): `d0`, or `m0(SP.key)`; none for the other classes. -/
def initialPrim (s : State) : Option (List Byte) :=
  match s.sp.cls with
  | .digest => (digest? s.sp.kind).map (·.d0)
  | .mac => (mac? s.sp.kind).map (fun m => m.m0 s.sp.key)
  | .cipher => none
  | .none => none

/-- A target that can run (42 R192, R194): a digest of the registry, a keyed MAC, or the cipher class. -/
def targetOk (s : State) : Bool :=
  match s.sp.cls with
  | .digest => (digest? s.sp.kind).isSome && s.sp.key.isEmpty
  | .mac => macKeyLenOk s.sp.kind s.sp.key.length
  | .cipher => s.sp.kind == 0 && s.sp.key.isEmpty && s.sp.prim == none
  | .none => false

/-- The natural block size of the target (42 R191). -/
def targetBlockSize (s : State) : Nat :=
  match s.sp.cls with
  | .cipher => s.bm.blockSize
  | _ => match streamPrim? s.sp.cls s.sp.kind with
    | some p => p.blockSize
    | none => 0

/-- What a run holds of its target (42 R200): an output range in `MEM` of the code's size and a running
primitive; or an engine whose block size divides the buffer size. -/
def runTargetOk (s : State) : Bool :=
  match s.sp.cls with
  | .digest | .mac =>
    s.sp.prim.isSome &&
      match streamPrim? s.sp.cls s.sp.kind, s.sp.run.out with
      | some p, some (dst, dsz) => dsz == p.digestSize && decide (dst + dsz ≤ memSize s)
      | _, _ => false
  | .cipher =>
    s.sp.run.out == none && s.cfg.bufSize % s.bm.blockSize == 0 &&
      (!needsWholeBlocks s.bm.mode ||
        (s.sp.run.total % s.bm.blockSize == 0 && s.sp.rpos % s.bm.blockSize == 0 &&
          s.sp.queue.all (fun q => q.length % s.bm.blockSize == 0)))
  | .none => false

/-- The bytes that wait in the queue. -/
def queuedBytes (queue : List (List Byte)) : Nat := (queue.map List.length).sum

/-- The positions, queue and flags of a run (R32; 42 R202, R203, R205, R206). -/
def runPositionsOk (s : State) : Bool :=
  decide (s.sp.run.total < 2 ^ 56) && decide (s.sp.cpos < s.sp.run.total) &&
  decide (s.sp.rpos ≤ s.sp.run.total) && s.sp.rpos == s.sp.cpos + queuedBytes s.sp.queue &&
  s.sp.interval == progressInterval s.sp.run.total (targetBlockSize s) &&
  (if s.sp.path then
    decide (s.sp.queue.length ≤ s.cfg.queueCap) && s.sp.queue.all (fun q => !q.isEmpty) &&
      (s.sp.readerDone == decide (s.sp.rpos = s.sp.run.total)) &&
      (match s.sp.fault with
        | none => true
        | some code => !s.sp.readerDone && (code == .io || code == .unexpectedEof || code == .cancelled))
  else s.sp.queue.isEmpty && !s.sp.readerDone && s.sp.fault == none)

/-- The stream unit (R31, R32; 42 R195). -/
def streamOk (s : State) : Bool :=
  match s.sp.state with
  | .empty =>
    s.sp.cls == .none && s.sp.kind == 0 && s.sp.key.isEmpty && s.sp.prim == none
  | .attached =>
    s.sp.cls == .mac && (mac? s.sp.kind).isSome && s.sp.key.isEmpty && s.sp.prim == none
  | .armed => targetOk s && s.sp.prim == initialPrim s
  | .running => targetOk s && runTargetOk s && runPositionsOk s

/-- The response codes this hardware emits: all but CEX's five that belong to other components (60 R251). -/
def emittedCodes : List Code :=
  [.ok, .notInitialized, .invalidParameter, .unsupported, .io, .unexpectedEof, .busy, .cancelled]

/-- A response word that R98 and R251 allow: an emitted code, the bits above it zero. -/
def legalResponse (w : Word) : Bool :=
  emittedCodes.any (fun code => w.extractLsb' 16 8 == BitVec.ofNat 8 (codeNumber code)) &&
    w.extractLsb' 24 40 == 0

/-- An event word that R99 allows. -/
def legalEvent (w : Word) : Bool :=
  w.extractLsb' 56 8 == progressKind || w.extractLsb' 56 8 == finalKind

/-- Both logs hold only legal words, and the host has observed no word that is not there (R33). -/
def logsOk (s : State) : Bool :=
  s.rsp.all legalResponse && s.evt.all legalEvent &&
    decide (s.port.rspSeen ≤ s.rsp.length) && decide (s.port.evtSeen ≤ s.evt.length)

/-- The invariant of the machine: what holds after reset and after every step. -/
structure Inv (s : State) : Prop where
  build : s.cfg.ok = true
  memory : memoryOk s = true
  registers : registersOk s = true
  selection : selectionOk s = true
  keyState : keyStateOk s = true
  laneCount : s.lanes.length = s.cfg.threads
  transform : transformOk s = true
  engineHeld : engineHeldOk s = true
  stream : streamOk s = true
  logs : logsOk s = true

/-! ### Runs -/

/-- `n` steps, stopping at the first fault or refusal. -/
def runSteps : Nat → State → Result
  | 0, s => .next s
  | n + 1, s =>
    match step s with
    | .next t => runSteps n t
    | .fault f => .fault f
    | .refused r => .refused r

/-- The given agents take their turns, in this order and with no event of the host between (R14). -/
def runAgents (turns : List Agent) (s : State) : Result :=
  runSteps turns.length (withEvents (turns.map .agent) s)

/-- The check holds of every state that one of the next `n` steps starts from, and each of those steps is taken. -/
def heldDuring (p : State → Bool) : Nat → State → Bool
  | 0, _ => true
  | n + 1, s =>
    p s &&
      match step s with
      | .next t => heldDuring p n t
      | .fault _ => false
      | .refused _ => false

/-! ### Buffer ownership (70_reset_and_hazards.md R300) -/

/-- The ranges of `n` bytes at `a` and of `m` bytes at `b` share no byte. -/
def apart (a n b m : Nat) : Bool :=
  decide (n = 0) || decide (m = 0) || decide (a + n ≤ b) || decide (b + m ≤ a)

/-- The next event does not write the `n` bytes at `a`, and does not lose the command that owns them: it is no
store of the host into them, no `Reset`, and no `SP_RUN` whose code would go there (R300; log entry 19). -/
def eventSpares (a n : Nat) (s : State) : Bool :=
  match s.env.events with
  | .memWrite b bs :: _ => apart a n b bs.length
  | .reset :: _ => false
  | .issue w :: _ =>
    match decode w, streamPrim? s.sp.cls s.sp.kind with
    | .ok (.spRun _), some p =>
      match outputRange s p.digestSize with
      | some o => s.sp.state != .armed || apart a n o p.digestSize
      | none => true
    | _, _ => true
  | _ => true

/-- The run in progress will not store its code in the `n` bytes at `a` (log entry 19). -/
def runSpares (a n : Nat) (s : State) : Bool :=
  match s.sp.state, s.sp.run.out with
  | .running, some (dst, dsz) => apart a n dst dsz
  | _, _ => true

/-- The host leaves the ranges of a transform of `n` bytes from `a` to `o` alone in this state (R300). -/
def leavesRangesAlone (a o n : Nat) (s : State) : Bool :=
  eventSpares a n s && eventSpares o n s && runSpares a n s && runSpares o n s

/-- The agents of the block-mode engine. -/
def bmeAgent : Agent → Bool
  | .ctl => true
  | .lane _ => true
  | .seq | .rdr | .csm => false

/-- The agents of the stream unit. -/
def spuAgent (a : Agent) : Bool := !bmeAgent a

/-! ### What is left to do -/

/-- The commands accepted and not yet answered (30_encoding.md R91). -/
def inFlight (s : State) : Nat := bit s.bm.xf.isSome + bit (s.sp.state == .running)

/-- A bound on the steps an accepted transform still takes: two and a block count for each parallel block to
come, one for each block a spawned lane has left and for the join, one for each byte of the serial
remainder, one for the completion. -/
def transformWork (s : State) : Nat :=
  match s.bm.xf with
  | none => 0
  | some xf =>
    match xf.phase with
    | .idle => xf.npar * (unitBlocks s + 2) + (xf.len - xf.pos - xf.npar * s.bm.pbs) + 1
    | .par _ =>
      (s.lanes.map Lane.n).sum + 1 + (xf.npar - 1) * (unitBlocks s + 2) +
        (xf.len - xf.pos - xf.npar * s.bm.pbs) + 1

/-- A bound on the steps an accepted run still takes: one for each byte to be fed, and on the concurrent path
one for each byte to be read and one for a fault of the reader. -/
def streamWork (s : State) : Nat :=
  if s.sp.state = .running then
    (s.sp.run.total - s.sp.cpos) +
      (if s.sp.path then (s.sp.run.total - s.sp.rpos) + bit s.sp.fault.isNone else 0)
  else 0

/-- A bound on the steps before the hardware, left to itself, is idle (70_reset_and_hazards.md R306). -/
def work (s : State) : Nat := transformWork s + streamWork s

/-- The bytes a source will deliver before it first fails (42 R197). -/
def sourceBytes : List SrcAnswer → List Byte
  | [] => []
  | .fail :: _ => []
  | .data bs :: rest => bs ++ sourceBytes rest

end Sys2Proof.Machine
end

