-- ==== Sys2Proof/Certificates/Slice0/Obligations.lean ====
section
/-! DEFINITION. The statements put to the provers. Each docstring names the rule of spec/ it states; where a
statement rests on a choice of the model it names the log entry. `Inv` is the invariant of
Sys2Proof/Safety.lean, itself stated kept by every step (`Obligations.EveryStepKeepsInvariant`). -/

section

open Sys2Proof Sys2Proof.Machine

/-! ### Command words -/

/-- Decode and encode agree (30_encoding.md R92, R93): the word written for a command decodes to it, with
every operand at every value its field admits. -/
def Obligations.EncodeThenDecode : Prop :=
  ∀ i : Instr, i.wellFormed = true → decode (encode i) = .ok i

/-- No bit of a command word is dropped (R93, R95, R101): a word that decodes is the word written for its
command. -/
def Obligations.DecodeThenEncode : Prop :=
  ∀ (w : Word) (i : Instr), decode w = .ok i → encode i = w

/-- The decoder is the decoder summary of R95, which the spec marks as derived from R92 and R93: a word is the
command of a row exactly when it matches the row's mask and value, and a word that matches no row is refused.
-/
def Obligations.DecoderMatchesOpcodeTable : Prop :=
  ∀ w : Word,
    (∀ row ∈ opcodeTable,
      (w &&& row.mask = row.value ↔ ∃ i, decode w = .ok i ∧ mnemonicOf i = row.mnemonic)) ∧
    ((∀ row ∈ opcodeTable, w &&& row.mask ≠ row.value) → ∃ e, decode w = .error e)

/-- Words the spec writes out in its examples decode to the commands it gives them for, one of each command
(43 R240; 40 R121, R124, R128, R140, R142, R144; 42 R192, R194, R200, R218, R220; `BM_XFRM` from vector V14 of
95_test_vectors.md). -/
def Obligations.KnownWordsDecode : Prop :=
  decode 0x0000000000000900 = .ok (.nop 9) ∧
  decode 0x0000FFF000010101 = .ok (.bmNew 1 1 0xFFF0) ∧
  decode 0x0000000000010202 = .ok (.bmInit 2 true) ∧
  decode 0x0000000000000303 = .ok (.bmXblk 3) ∧
  decode 0x0000000000000704 = .ok (.bmXfrm 7) ∧
  decode 0x0000000000000405 = .ok (.bmSetpbs 4) ∧
  decode 0x0000000000000506 = .ok (.bmSetpar 5 false) ∧
  decode 0x0000000000000607 = .ok (.bmRelease 6) ∧
  decode 0x0000FFF200020110 = .ok (.spNew 1 2 0xFFF2) ∧
  decode 0x0000000000000211 = .ok (.spKey 2) ∧
  decode 0x0000000000000312 = .ok (.spRun 3) ∧
  decode 0x0000000000000413 = .ok (.spCancel 4) ∧
  decode 0x0000000000000514 = .ok (.spRelease 5)

/-- The order of decoding (R101): an unassigned opcode answers `Unsupported`; then a bit that must be zero
and is 1 answers `InvalidParameter`; neither changes anything but the response log; any other word is
left to its command. -/
def Obligations.IllegalWordsAnswered : Prop :=
  ∀ (w : Word) (s : State),
    let opcode := w.extractLsb' 0 8
    let tag := w.extractLsb' 8 8
    let mustBeZero : Format → Word := fun fmt =>
      match fmt with
      | .n => 0xFFFFFFFFFFFF0000
      | .f => 0xFFFFFFFFFFFE0000
      | .k => 0xFFFF0000FF000000
    (formatOf opcode = none → issue w s = .next (respond opcode tag .unsupported s)) ∧
    (∀ fmt, formatOf opcode = some fmt → w &&& mustBeZero fmt ≠ 0 →
      issue w s = .next (respond opcode tag .invalidParameter s)) ∧
    (∀ fmt, formatOf opcode = some fmt → w &&& mustBeZero fmt = 0 →
      ∃ i, decode w = .ok i ∧ issue w s = exec i s)

/-- The bits of a response word and of an event word (R98, R99), the number of every code (60 R251), and that
each word is appended at the end of its log with nothing else changed (R13). -/
def Obligations.LogWordLayout : Prop :=
  (∀ (opcode tag : BitVec 8) (code : Code) (s : State),
    let w := responseWord opcode tag code
    w.extractLsb' 0 8 = opcode ∧ w.extractLsb' 8 8 = tag ∧
      w.extractLsb' 16 8 =
        (match code with
        | .ok => 0
        | .notInitialized => 1
        | .invalidParameter => 2
        | .unsupported => 3
        | .authenticationFailed => 4
        | .protocolError => 5
        | .exchangeTimeout => 6
        | .peerRefused => 7
        | .payloadTooLarge => 8
        | .io => 9
        | .unexpectedEof => 10
        | .busy => 11
        | .cancelled => 12) ∧
      w.extractLsb' 24 40 = 0 ∧
      respond opcode tag code s = { s with rsp := s.rsp ++ [w] }) ∧
  (∀ (kind : BitVec 8) (pos : Nat) (s : State), pos < 2 ^ 56 →
    let w := eventWord kind pos
    (w.extractLsb' 0 56).toNat = pos ∧ w.extractLsb' 56 8 = kind ∧
      emitEvent kind pos s = { s with evt := s.evt ++ [w] })

/-! ### The step -/

/-- A step runs the decoded command (R91): when the host's next action is to issue a word that decodes to
`i`, the step is `exec i` with the action taken off the list; and `withFetchWord` puts a word there. That the
host's actions stand in a list is the model's choice (log entry 1). -/
def Obligations.StepRunsDecodedCommand : Prop :=
  (∀ (s : State) (w : Word) (i : Instr) (rest : List Event),
    s.env.events = .issue w :: rest → decode w = .ok i → step s = exec i (withEvents rest s)) ∧
  (∀ (s : State) (i : Instr), step (s.withFetchWord 64 (encode i).toNat) = exec i s)

/-- Any enabled agent may take the next step (00_scope.md R14). With no event to come the machine takes the
step of one of the enabled agents, which one being free (log entry 2), and with none enabled it stays as
it is (60 R286, log entry 3); a turn given to an agent is its step if it is enabled and nothing if not. -/
def Obligations.EnabledAgentSteps : Prop :=
  (∀ s : State, s.env.events = [] →
    (enabledAgents s = [] → step s = .next s) ∧
    (enabledAgents s ≠ [] →
      ∃ a ∈ enabledAgents s, step s = agentAct a { s with tick := s.tick + 1 })) ∧
  (∀ (s : State) (a : Agent) (rest : List Event), s.env.events = .agent a :: rest →
    (enabled (withEvents rest s) a = true → step s = agentAct a (withEvents rest s)) ∧
    (enabled (withEvents rest s) a = false → step s = .next (withEvents rest s)))

/-- When each agent is enabled: `Spawn` (41 R165), `SerialStep` and `Complete` (40 R133, R134), `Join` (41
R169), `LaneStep` (41 R167), `SeqStep` (42 R203), `RdrStep` (42 R205), `CsmStep` (42 R206). -/
def Obligations.AgentsEnabledWhen : Prop :=
  ∀ s : State,
    (enabled s .ctl = true ↔
      s.bm.state = .transforming ∧
        ∃ xf, s.bm.xf = some xf ∧
          ((xf.phase = .idle ∧ (0 < xf.npar ∨ (xf.npar = 0 ∧ xf.pos ≤ xf.len))) ∨
            (∃ nextChain, xf.phase = .par nextChain ∧ ∀ l ∈ s.lanes, l.n = 0))) ∧
    (∀ t, enabled s (.lane t) = true ↔ ∃ l, s.lanes[t]? = some l ∧ l.busy = true ∧ 0 < l.n) ∧
    (enabled s .seq = true ↔
      s.sp.state = .running ∧ s.sp.path = false ∧ s.sp.cpos < s.sp.run.total) ∧
    (enabled s .rdr = true ↔
      s.sp.state = .running ∧ s.sp.path = true ∧ s.sp.readerDone = false ∧ s.sp.fault = none ∧
        s.sp.queue.length < s.cfg.queueCap) ∧
    (enabled s .csm = true ↔
      s.sp.state = .running ∧ s.sp.path = true ∧ (s.sp.fault ≠ none ∨ s.sp.queue ≠ []))

/-! ### The commands, one statement each: every refusal in the order of the rule, and the whole next state -/

/-- `NOP` (43 R240): its response, in every state of either unit, and nothing else. -/
def Obligations.NopAnswers : Prop :=
  ∀ (tag : BitVec 8) (s : State),
    exec (.nop tag) s = .next { s with rsp := s.rsp ++ [responseWord 0x00 tag .ok] }

/-- `BM_NEW` (40 R121) with the sizing of R122. -/
def Obligations.BmNewSelectsAndSizes : Prop :=
  ∀ (tag sel : BitVec 8) (kind : BitVec 16) (s : State),
    (s.bm.state = .transforming → exec (.bmNew tag sel kind) s = .next (respond 0x01 tag .busy s)) ∧
    (s.bm.state ≠ .transforming →
      ((sel ≠ 1 ∧ sel ≠ 2 ∧ sel ≠ 3) ∨ blockCipher? kind = none ∨
        (∃ c, blockCipher? kind = some c ∧ sel = 1 ∧ c.blockSize ≠ 16)) →
      exec (.bmNew tag sel kind) s = .next (respond 0x01 tag .unsupported s)) ∧
    (∀ (c : BlockCipher) (mode : CipherMode), s.bm.state ≠ .transforming → blockCipher? kind = some c →
      ((sel = 1 ∧ mode = .ctr ∧ c.blockSize = 16) ∨ (sel = 2 ∧ mode = .cbc) ∨ (sel = 3 ∧ mode = .cfb)) →
      let pmin := c.blockSize * s.cfg.threads
      let pbs := s.cfg.threads * c.blockSize * (65536 / c.blockSize)
      exec (.bmNew tag sel kind) s =
        .next
          { s with
            bm :=
              { s.bm with
                state := .init
                mode := some mode
                kind := kind
                blockSize := c.blockSize
                enc := false
                key := []
                chain := []
                pbs := pbs
                par := decide (2 ≤ s.cfg.threads) }
            regs :=
              { s.regs with
                bmState := 0
                bmMode := BitVec.ofNat 64 (sel.toNat + kind.toNat * 65536)
                bmBlockSize := BitVec.ofNat 64 c.blockSize
                bmParMin := BitVec.ofNat 64 pmin
                bmParMax := BitVec.ofNat 64 (pmin * ((104857600 + pmin - 1) / pmin))
                bmParBlock := BitVec.ofNat 64 pbs
                bmIsParallel := if 2 ≤ s.cfg.threads then 1 else 0 }
            rsp := s.rsp ++ [responseWord 0x01 tag .ok] })

/-- `BM_INIT` (40 R124). Bit 32 of `BM_MODE` takes `f`, its other bits stay. -/
def Obligations.BmInitKeysEngine : Prop :=
  ∀ (tag : BitVec 8) (f : Bool) (s : State),
    (s.bm.state = .transforming → exec (.bmInit tag f) s = .next (respond 0x02 tag .busy s)) ∧
    (s.bm.state ≠ .transforming → s.bm.mode = none →
      exec (.bmInit tag f) s = .next (respond 0x02 tag .notInitialized s)) ∧
    (s.bm.state ≠ .transforming → s.bm.mode ≠ none →
      (keyLenOk s.bm.kind s.regs.keyLen.toNat = false ∨ s.regs.ivLen.toNat ≠ s.bm.blockSize ∨
        2 ^ s.cfg.addrBits < s.regs.keyBase.toNat + s.regs.keyLen.toNat ∨
        2 ^ s.cfg.addrBits < s.regs.ivBase.toNat + s.regs.ivLen.toNat) →
      exec (.bmInit tag f) s = .next (respond 0x02 tag .invalidParameter s)) ∧
    (s.bm.state ≠ .transforming → s.bm.mode ≠ none →
      keyLenOk s.bm.kind s.regs.keyLen.toNat = true → s.regs.ivLen.toNat = s.bm.blockSize →
      s.regs.keyBase.toNat + s.regs.keyLen.toNat ≤ 2 ^ s.cfg.addrBits →
      s.regs.ivBase.toNat + s.regs.ivLen.toNat ≤ 2 ^ s.cfg.addrBits →
      exec (.bmInit tag f) s =
        .next
          { s with
            bm :=
              { s.bm with
                state := .ready
                key := bytesAt s.mem s.regs.keyBase.toNat s.regs.keyLen.toNat
                chain := bytesAt s.mem s.regs.ivBase.toNat s.bm.blockSize
                enc := f }
            regs :=
              { s.regs with
                bmState := 1
                bmMode :=
                  if f then s.regs.bmMode &&& 0xFFFFFFFEFFFFFFFF ||| 0x100000000
                  else s.regs.bmMode &&& 0xFFFFFFFEFFFFFFFF }
            rsp := s.rsp ++ [responseWord 0x02 tag .ok] })

/-- `BM_XBLK` (40 R128): on any two legal ranges of one block it stores the output block of the mode's equation
of R126 in the output range, changes no other byte, and moves the chain as that equation says. -/
def Obligations.BmXblkTransformsOneBlock : Prop :=
  ∀ (tag : BitVec 8) (s : State),
    (s.bm.state ≠ .ready → exec (.bmXblk tag) s = .next (respond 0x03 tag .notInitialized s)) ∧
    (s.bm.state = .ready →
      (inputRange s s.bm.blockSize = none ∨ outputRange s s.bm.blockSize = none) →
      exec (.bmXblk tag) s = .next (respond 0x03 tag .invalidParameter s)) ∧
    (∀ a o, s.bm.state = .ready → inputRange s s.bm.blockSize = some a →
      outputRange s s.bm.blockSize = some o →
      ¬ (a = o ∨ a + s.bm.blockSize ≤ o ∨ o + s.bm.blockSize ≤ a) →
      exec (.bmXblk tag) s = .next (respond 0x03 tag .invalidParameter s)) ∧
    (∀ a o, Inv s → s.bm.state = .ready → inputRange s s.bm.blockSize = some a →
      outputRange s s.bm.blockSize = some o →
      (a = o ∨ a + s.bm.blockSize ≤ o ∨ o + s.bm.blockSize ≤ a) →
      ∃ c mode t,
        engine s = some (c, mode) ∧ exec (.bmXblk tag) s = .next t ∧
        (let x := bytesAt s.mem a s.bm.blockSize
         let chain := s.bm.chain
         let xor : List Byte → List Byte → List Byte := List.zipWith (· ^^^ ·)
         let r : List Byte × List Byte :=
           match mode, s.bm.enc with
           | .ctr, _ => (xor x (c.E s.bm.key chain), toBe 16 ((be chain + 1) % 2 ^ 128))
           | .cbc, true => (c.E s.bm.key (xor x chain), c.E s.bm.key (xor x chain))
           | .cbc, false => (xor (c.D s.bm.key x) chain, x)
           | .cfb, true => (xor (c.E s.bm.key chain) x, xor (c.E s.bm.key chain) x)
           | .cfb, false => (xor (c.E s.bm.key chain) x, x)
         bytesAt t.mem o s.bm.blockSize = r.1 ∧
         (∀ z, z < o ∨ o + s.bm.blockSize ≤ z → byteAt t.mem z = byteAt s.mem z) ∧
         t =
          { s with
            mem := t.mem
            bm := { s.bm with chain := r.2 }
            rsp := s.rsp ++ [responseWord 0x03 tag .ok] }))

/-- `BM_XFRM` at issue (40 R131): refused, executed at once where `LEN` is 0, or accepted. -/
def Obligations.BmXfrmAtIssue : Prop :=
  ∀ (tag : BitVec 8) (s : State),
    let n := s.regs.len.toNat
    let whole := (s.bm.mode = some .cbc ∨ s.bm.mode = some .cfb) → n % s.bm.blockSize = 0
    (s.bm.state ≠ .ready → exec (.bmXfrm tag) s = .next (respond 0x04 tag .notInitialized s)) ∧
    (s.bm.state = .ready → ¬ whole →
      exec (.bmXfrm tag) s = .next (respond 0x04 tag .invalidParameter s)) ∧
    (s.bm.state = .ready → whole → (inputRange s n = none ∨ outputRange s n = none) →
      exec (.bmXfrm tag) s = .next (respond 0x04 tag .invalidParameter s)) ∧
    (∀ a o, s.bm.state = .ready → whole → inputRange s n = some a → outputRange s n = some o →
      ¬ (a = o ∨ a + n ≤ o ∨ o + n ≤ a) →
      exec (.bmXfrm tag) s = .next (respond 0x04 tag .invalidParameter s)) ∧
    (∀ a o, s.bm.state = .ready → whole → inputRange s n = some a → outputRange s n = some o → n = 0 →
      exec (.bmXfrm tag) s = .next { s with rsp := s.rsp ++ [responseWord 0x04 tag .ok] }) ∧
    (∀ a o mode, s.bm.state = .ready → s.bm.mode = some mode → whole → inputRange s n = some a →
      outputRange s n = some o → (a = o ∨ a + n ≤ o ∨ o + n ≤ a) → 0 < n →
      exec (.bmXfrm tag) s =
        .next
          { s with
            bm :=
              { s.bm with
                state := .transforming
                xf :=
                  some
                    { tag := tag
                      src := a
                      dst := o
                      len := n
                      pos := 0
                      npar :=
                        if s.bm.par = true ∧ (mode = .ctr ∨ s.bm.enc = false) then n / s.bm.pbs else 0
                      phase := .idle } }
            regs := { s.regs with bmState := 2 } })

/-- `BM_SETPBS` (40 R140). That `PAR_MIN` and `PAR_MAX` are read from the registers `BM_PAR_MIN` and
`BM_PAR_MAX` in every state is the model's choice (log entry 14); under the invariant those registers hold the
values of R122. -/
def Obligations.BmSetpbsSetsBlock : Prop :=
  ∀ (tag : BitVec 8) (s : State),
    let v := s.regs.arg.toNat
    let pmin := s.regs.bmParMin.toNat
    let pmax := s.regs.bmParMax.toNat
    (s.bm.state = .transforming → exec (.bmSetpbs tag) s = .next (respond 0x05 tag .busy s)) ∧
    (s.bm.state ≠ .transforming → s.bm.mode = none →
      exec (.bmSetpbs tag) s = .next (respond 0x05 tag .notInitialized s)) ∧
    (s.bm.state ≠ .transforming → s.bm.mode ≠ none → (v < pmin ∨ pmax < v ∨ v % pmin ≠ 0) →
      exec (.bmSetpbs tag) s = .next (respond 0x05 tag .invalidParameter s)) ∧
    (s.bm.state ≠ .transforming → s.bm.mode ≠ none → pmin ≤ v → v ≤ pmax → v % pmin = 0 →
      exec (.bmSetpbs tag) s =
        .next
          { s with
            bm := { s.bm with pbs := v }
            regs := { s.regs with bmParBlock := s.regs.arg }
            rsp := s.rsp ++ [responseWord 0x05 tag .ok] })

/-- `BM_SETPAR` (40 R142). -/
def Obligations.BmSetparSetsFlag : Prop :=
  ∀ (tag : BitVec 8) (f : Bool) (s : State),
    (s.bm.state = .transforming → exec (.bmSetpar tag f) s = .next (respond 0x06 tag .busy s)) ∧
    (s.bm.state ≠ .transforming →
      exec (.bmSetpar tag f) s =
        .next
          { s with
            bm := { s.bm with par := f }
            regs := { s.regs with bmIsParallel := if f then 1 else 0 }
            rsp := s.rsp ++ [responseWord 0x06 tag .ok] })

/-- `BM_RELEASE` (40 R144): key, chain and direction go, mode, kind and sizing stay. -/
def Obligations.BmReleaseEmptiesKeyState : Prop :=
  ∀ (tag : BitVec 8) (s : State),
    (s.bm.state = .transforming → exec (.bmRelease tag) s = .next (respond 0x07 tag .busy s)) ∧
    (s.bm.state ≠ .transforming →
      exec (.bmRelease tag) s =
        .next
          { s with
            bm := { s.bm with state := .init, key := [], chain := [], enc := false }
            regs := { s.regs with bmState := 0, bmMode := s.regs.bmMode &&& 0xFFFFFFFEFFFFFFFF }
            rsp := s.rsp ++ [responseWord 0x07 tag .ok] })

/-- `SP_NEW` (42 R192): its refusals, and the three targets. -/
def Obligations.SpNewSelectsTarget : Prop :=
  ∀ (tag sel : BitVec 8) (kind : BitVec 16) (s : State),
    let pathBit : Word := if s.sp.path then 4 else 0
    (s.sp.state = .running → exec (.spNew tag sel kind) s = .next (respond 0x10 tag .busy s)) ∧
    (s.sp.state ≠ .running →
      ((sel ≠ 1 ∧ sel ≠ 2 ∧ sel ≠ 3) ∨ (sel = 1 ∧ digest? kind = none) ∨
        (sel = 2 ∧ mac? kind = none)) →
      exec (.spNew tag sel kind) s = .next (respond 0x10 tag .unsupported s)) ∧
    (s.sp.state ≠ .running → sel = 3 → kind ≠ 0 →
      exec (.spNew tag sel kind) s = .next (respond 0x10 tag .invalidParameter s)) ∧
    (∀ (cls : SpClass) (prim : Option (List Byte)) (st : SpState), s.sp.state ≠ .running →
      ((sel = 1 ∧ cls = .digest ∧ st = .armed ∧ ∃ d, digest? kind = some d ∧ prim = some d.d0) ∨
        (sel = 2 ∧ cls = .mac ∧ st = .attached ∧ prim = none ∧ ∃ m, mac? kind = some m) ∨
        (sel = 3 ∧ cls = .cipher ∧ st = .armed ∧ prim = none ∧ kind = 0)) →
      exec (.spNew tag sel kind) s =
        .next
          { s with
            sp := { s.sp with state := st, cls := cls, kind := kind, key := [], prim := prim }
            regs :=
              { s.regs with
                spKind := BitVec.ofNat 64 (sel.toNat + kind.toNat * 65536)
                spState := (if st = .attached then 1 else 2) ||| pathBit }
            rsp := s.rsp ++ [responseWord 0x10 tag .ok] })

/-- `SP_KEY` (42 R194). -/
def Obligations.SpKeyKeysMac : Prop :=
  ∀ (tag : BitVec 8) (s : State),
    (s.sp.state = .running → exec (.spKey tag) s = .next (respond 0x11 tag .busy s)) ∧
    (s.sp.state = .empty → exec (.spKey tag) s = .next (respond 0x11 tag .notInitialized s)) ∧
    ((s.sp.state = .attached ∨ s.sp.state = .armed) → s.sp.cls ≠ .mac →
      exec (.spKey tag) s = .next (respond 0x11 tag .unsupported s)) ∧
    ((s.sp.state = .attached ∨ s.sp.state = .armed) → s.sp.cls = .mac →
      (macKeyLenOk s.sp.kind s.regs.keyLen.toNat = false ∨
        2 ^ s.cfg.addrBits < s.regs.keyBase.toNat + s.regs.keyLen.toNat) →
      exec (.spKey tag) s = .next (respond 0x11 tag .invalidParameter s)) ∧
    (∀ m : Mac, (s.sp.state = .attached ∨ s.sp.state = .armed) → s.sp.cls = .mac →
      mac? s.sp.kind = some m → m.keyLenOk s.regs.keyLen.toNat = true →
      s.regs.keyBase.toNat + s.regs.keyLen.toNat ≤ 2 ^ s.cfg.addrBits →
      let key := bytesAt s.mem s.regs.keyBase.toNat s.regs.keyLen.toNat
      exec (.spKey tag) s =
        .next
          { s with
            sp := { s.sp with state := .armed, key := key, prim := some (m.m0 key) }
            regs := { s.regs with spState := if s.sp.path then 6 else 2 }
            rsp := s.rsp ++ [responseWord 0x11 tag .ok] })

/-- The refusals of `SP_RUN` at issue, in the order of 42 R200. -/
def Obligations.SpRunRefusals : Prop :=
  ∀ (tag : BitVec 8) (s : State),
    let total := s.regs.spTotal.toNat
    let usable :=
      s.sp.cls = .cipher → s.bm.state = .ready ∧ s.cfg.bufSize % s.bm.blockSize = 0
    (s.sp.state = .running → exec (.spRun tag) s = .next (respond 0x12 tag .busy s)) ∧
    ((s.sp.state = .empty ∨ s.sp.state = .attached) →
      exec (.spRun tag) s = .next (respond 0x12 tag .notInitialized s)) ∧
    (s.sp.state = .armed → s.sp.cls = .cipher → s.bm.state ≠ .ready →
      exec (.spRun tag) s = .next (respond 0x12 tag .notInitialized s)) ∧
    (s.sp.state = .armed → s.sp.cls = .cipher → s.bm.state = .ready →
      s.cfg.bufSize % s.bm.blockSize ≠ 0 →
      exec (.spRun tag) s = .next (respond 0x12 tag .unsupported s)) ∧
    (s.sp.state = .armed → usable → 2 ^ 56 ≤ total →
      exec (.spRun tag) s = .next (respond 0x12 tag .invalidParameter s)) ∧
    (s.sp.state = .armed → s.sp.cls = .cipher → usable → total < 2 ^ 56 →
      (s.bm.mode = some .cbc ∨ s.bm.mode = some .cfb) → total % s.bm.blockSize ≠ 0 →
      exec (.spRun tag) s = .next (respond 0x12 tag .invalidParameter s)) ∧
    (∀ p : StreamPrim, s.sp.state = .armed → (s.sp.cls = .digest ∨ s.sp.cls = .mac) →
      streamPrim? s.sp.cls s.sp.kind = some p → total < 2 ^ 56 → outputRange s p.digestSize = none →
      exec (.spRun tag) s = .next (respond 0x12 tag .invalidParameter s))

/-- `SP_RUN` accepted (42 R200, R199, R201): a stream of at least one byte, over a digest or MAC with a legal
output range, or over a ready engine. A class 3 run has no output range (log entry 11). -/
def Obligations.SpRunAccepted : Prop :=
  ∀ (tag : BitVec 8) (s : State),
    let total := s.regs.spTotal.toNat
    let path := s.regs.spCtrl.getLsbD 0 && s.regs.spCtrl.getLsbD 1 && decide (s.cfg.bufSize ≤ total)
    let running : Option (Nat × Nat) → Nat → Spu := fun out nbs =>
      { s.sp with
        state := .running
        run := { tag := tag, total := total, out := out }
        path := path
        interval := (total + 99) / 100 / nbs * nbs
        rpos := 0
        cpos := 0
        queue := []
        readerDone := false
        cancel := false
        fault := none }
    let shown : Nat → Regs := fun nbs =>
      { s.regs with
        spState := if path then 7 else 3
        spInterval := BitVec.ofNat 64 ((total + 99) / 100 / nbs * nbs)
        spPos := 0 }
    (∀ (p : StreamPrim) (o : Nat), s.sp.state = .armed → (s.sp.cls = .digest ∨ s.sp.cls = .mac) →
      streamPrim? s.sp.cls s.sp.kind = some p → 0 < total → total < 2 ^ 56 →
      outputRange s p.digestSize = some o →
      exec (.spRun tag) s =
        .next
          { s with
            sp := running (some (o, p.digestSize)) p.blockSize
            regs := shown p.blockSize }) ∧
    (s.sp.state = .armed → s.sp.cls = .cipher → s.bm.state = .ready →
      s.cfg.bufSize % s.bm.blockSize = 0 → 0 < total → total < 2 ^ 56 →
      ((s.bm.mode = some .cbc ∨ s.bm.mode = some .cfb) → total % s.bm.blockSize = 0) →
      exec (.spRun tag) s =
        .next
          { s with
            sp := running none s.bm.blockSize
            bm := { s.bm with state := .transforming }
            regs := { shown s.bm.blockSize with bmState := 2 } })

/-- A run of no bytes ends in the step that issues it (42 R200, R212): the code of the empty stream is stored
and no other byte changes, `FINAL(0)` and the response `Ok` are emitted, and the unit is `armed` again
on the sequential path, its target as before. A class 3 run has no output range (log entry 11). -/
def Obligations.SpRunOfNoBytes : Prop :=
  ∀ (tag : BitVec 8) (s : State), Inv s → s.sp.state = .armed → s.regs.spTotal.toNat = 0 →
    let rested : Option (Nat × Nat) → Spu := fun out =>
      { s.sp with
        run := { tag := tag, total := 0, out := out }
        path := false
        interval := 0
        rpos := 0
        cpos := 0
        queue := []
        readerDone := false
        cancel := false
        fault := none }
    let shown : Regs := { s.regs with spState := 2, spInterval := 0, spPos := 0 }
    (∀ (p : StreamPrim) (o : Nat) (prim : List Byte), (s.sp.cls = .digest ∨ s.sp.cls = .mac) →
      streamPrim? s.sp.cls s.sp.kind = some p → s.sp.prim = some prim →
      outputRange s p.digestSize = some o →
      ∃ t, exec (.spRun tag) s = .next t ∧
        bytesAt t.mem o p.digestSize = p.fin prim ∧
        (∀ x, x < o ∨ o + p.digestSize ≤ x → byteAt t.mem x = byteAt s.mem x) ∧
        t =
          { s with
            mem := t.mem
            sp := rested (some (o, p.digestSize))
            regs := shown
            evt := s.evt ++ [eventWord 2 0]
            rsp := s.rsp ++ [responseWord 0x12 tag .ok] }) ∧
    (s.sp.cls = .cipher → s.bm.state = .ready → s.cfg.bufSize % s.bm.blockSize = 0 →
      exec (.spRun tag) s =
        .next
          { s with
            sp := rested none
            regs := shown
            evt := s.evt ++ [eventWord 2 0]
            rsp := s.rsp ++ [responseWord 0x12 tag .ok] })

/-- `SP_CANCEL` (42 R218): it sets the flag of a run in progress, and is always answered `Ok`. -/
def Obligations.SpCancelSetsFlag : Prop :=
  ∀ (tag : BitVec 8) (s : State),
    (s.sp.state = .running →
      exec (.spCancel tag) s =
        .next { s with sp := { s.sp with cancel := true }, rsp := s.rsp ++ [responseWord 0x13 tag .ok] }) ∧
    (s.sp.state ≠ .running →
      exec (.spCancel tag) s = .next { s with rsp := s.rsp ++ [responseWord 0x13 tag .ok] })

/-- `SP_RELEASE` (42 R220). -/
def Obligations.SpReleaseEmptiesTarget : Prop :=
  ∀ (tag : BitVec 8) (s : State),
    (s.sp.state = .running → exec (.spRelease tag) s = .next (respond 0x14 tag .busy s)) ∧
    (s.sp.state ≠ .running →
      exec (.spRelease tag) s =
        .next
          { s with
            sp := { s.sp with state := .empty, cls := .none, kind := 0, key := [], prim := none }
            regs := { s.regs with spKind := 0, spState := if s.sp.path then 4 else 0 }
            rsp := s.rsp ++ [responseWord 0x14 tag .ok] })

/-! ### What holds of every issued word -/

/-- Errors at issue are precise (60 R253): when the step that issues a word emits a response with a non-zero
code, nothing changes but that one word of `RSP`. -/
def Obligations.RejectedCommandChangesNothing : Prop :=
  ∀ (w r : Word) (s t : State), issue w s = .next t → t.rsp = s.rsp ++ [r] → r.extractLsb' 16 8 ≠ 0 →
    t = { s with rsp := s.rsp ++ [r] }

/-- The three outcomes of a command (30 R91) under the invariant: rejected with a non-zero code and nothing
else; executed, with its response `Ok` and no work left in flight; or accepted, with no response yet and
one command more in flight. The response echoes opcode and tag of the word (R98). -/
def Obligations.EveryCommandIsAnswered : Prop :=
  ∀ (w : Word) (s : State), Inv s →
    let opcode := w.extractLsb' 0 8
    let tag := w.extractLsb' 8 8
    ∃ t, issue w s = .next t ∧
      ((∃ code, code ≠ .ok ∧ t = respond opcode tag code s) ∨
        (t.rsp = s.rsp ++ [responseWord opcode tag .ok] ∧ inFlight t = inFlight s) ∨
        ((decode w = .ok (.bmXfrm tag) ∨ decode w = .ok (.spRun tag)) ∧ t.rsp = s.rsp ∧
          inFlight t = inFlight s + 1))

/-- Which command answers which code at issue (60 R256, but for the codes a run ends with); the spec marks the
table as derived from the command rules. -/
def Obligations.AnswerCodes : Prop :=
  ∀ (w r : Word) (s t : State), issue w s = .next t → t.rsp = s.rsp ++ [r] →
    let possible : List Code :=
      match decode w with
      | .error (.unassignedOpcode _ _) => [.unsupported]
      | .error (.reservedBits _ _) => [.invalidParameter]
      | .ok (.nop _) => [.ok]
      | .ok (.bmNew _ _ _) => [.ok, .unsupported, .busy]
      | .ok (.bmInit _ _) => [.ok, .notInitialized, .invalidParameter, .busy]
      | .ok (.bmXblk _) => [.ok, .notInitialized, .invalidParameter]
      | .ok (.bmXfrm _) => [.ok, .notInitialized, .invalidParameter]
      | .ok (.bmSetpbs _) => [.ok, .notInitialized, .invalidParameter, .busy]
      | .ok (.bmSetpar _ _) => [.ok, .busy]
      | .ok (.bmRelease _) => [.ok, .busy]
      | .ok (.spNew _ _ _) => [.ok, .invalidParameter, .unsupported, .busy]
      | .ok (.spKey _) => [.ok, .notInitialized, .invalidParameter, .unsupported, .busy]
      | .ok (.spRun _) => [.ok, .notInitialized, .invalidParameter, .unsupported, .busy]
      | .ok (.spCancel _) => [.ok]
      | .ok (.spRelease _) => [.ok, .busy]
    ∃ code ∈ possible, r = responseWord (w.extractLsb' 0 8) (w.extractLsb' 8 8) code

/-- What a busy unit answers, with no other effect (60 R258, its table). -/
def Obligations.BusyUnitAnswers : Prop :=
  ∀ (tag sel : BitVec 8) (kind : BitVec 16) (f : Bool) (s : State),
    (s.bm.state = .transforming →
      exec (.bmXblk tag) s = .next (respond 0x03 tag .notInitialized s) ∧
      exec (.bmXfrm tag) s = .next (respond 0x04 tag .notInitialized s) ∧
      exec (.bmNew tag sel kind) s = .next (respond 0x01 tag .busy s) ∧
      exec (.bmInit tag f) s = .next (respond 0x02 tag .busy s) ∧
      exec (.bmSetpbs tag) s = .next (respond 0x05 tag .busy s) ∧
      exec (.bmSetpar tag f) s = .next (respond 0x06 tag .busy s) ∧
      exec (.bmRelease tag) s = .next (respond 0x07 tag .busy s) ∧
      (s.sp.state ≠ .running → s.sp.cls = .cipher →
        exec (.spRun tag) s = .next (respond 0x12 tag .notInitialized s))) ∧
    (s.sp.state = .running →
      exec (.spNew tag sel kind) s = .next (respond 0x10 tag .busy s) ∧
      exec (.spKey tag) s = .next (respond 0x11 tag .busy s) ∧
      exec (.spRun tag) s = .next (respond 0x12 tag .busy s) ∧
      exec (.spRelease tag) s = .next (respond 0x14 tag .busy s) ∧
      exec (.spCancel tag) s =
        .next (respond 0x13 tag .ok { s with sp := { s.sp with cancel := true } })) ∧
    exec (.nop tag) s = .next (respond 0x00 tag .ok s)

/-- The two units are independent (60 R258): a command of one neither reads nor writes the hidden state of the
other, but for a class 3 `SP_RUN`. -/
def Obligations.UnitsAreIndependent : Prop :=
  ∀ (i : Instr) (s t : State), exec i s = .next t →
    (∀ sp : Spu,
      (match i with
        | .spNew _ _ _ | .spKey _ | .spRun _ | .spCancel _ | .spRelease _ => False
        | _ => True) →
      t.sp = s.sp ∧ t.evt = s.evt ∧ exec i { s with sp := sp } = .next { t with sp := sp }) ∧
    (∀ bm : Bme,
      (match i with
        | .bmNew _ _ _ | .bmInit _ _ | .bmXblk _ | .bmXfrm _ | .bmSetpbs _ | .bmSetpar _ _
        | .bmRelease _ => False
        | .spRun _ => s.sp.cls ≠ .cipher
        | _ => True) →
      t.bm = s.bm ∧ t.lanes = s.lanes ∧ exec i { s with bm := bm } = .next { t with bm := bm })

/-! ### Ranges, memory, registers, sizing -/

/-- The buffer range check and the key range check (20 R63, R64), all sums on unbounded naturals. -/
def Obligations.RangeChecks : Prop :=
  ∀ (s : State) (base size off : Word) (n : Nat),
    ((size.toNat < off.toNat + n ∨ 2 ^ s.cfg.addrBits < base.toNat + size.toNat) →
      bufRange s base size off n = none) ∧
    (off.toNat + n ≤ size.toNat → base.toNat + size.toNat ≤ 2 ^ s.cfg.addrBits →
      bufRange s base size off n = some (base.toNat + off.toNat)) ∧
    (2 ^ s.cfg.addrBits < base.toNat + size.toNat → keyRange s base size = none) ∧
    (base.toNat + size.toNat ≤ 2 ^ s.cfg.addrBits → keyRange s base size = some base.toNat) ∧
    inputRange s n = bufRange s s.regs.inBase s.regs.inSize s.regs.inOff n ∧
    outputRange s n = bufRange s s.regs.outBase s.regs.outSize s.regs.outOff n

/-- `MemRead` and `MemWrite` (20 R62): byte `i` of a read is `MEM[a + i]`, a write sets `MEM[a + i]` to `v[i]`
and no other byte, both only inside `MEM`; `n = 0` reads and writes nothing. `Memory.wf` says that the list
that stands for `MEM` is in canonical form. A host store and a host read (20 R60) are such a write and such a
read, one step each; that one outside `MEM` faults, and that what a read returned stands in `port.memData`,
are the model's choices (log entries 12, 15). -/
def Obligations.MemoryReadsWhatWasWritten : Prop :=
  ∀ (s : State) (a n : Nat) (v : List Byte), Memory.wf s.mem = true → v.length = n →
    (2 ^ s.cfg.addrBits < a + n → memRead s a n = none ∧ memWrite s a n v = none) ∧
    (a + n ≤ 2 ^ s.cfg.addrBits →
      (∃ bs, memRead s a n = some bs ∧ bs.length = n ∧ ∀ i, i < n → bs[i]? = some (byteAt s.mem (a + i))) ∧
      (∃ t, memWrite s a n v = some t ∧ Memory.wf t.mem = true ∧ t = { s with mem := t.mem } ∧
        memRead t a n = some v ∧
        (∀ i, i < n → v[i]? = some (byteAt t.mem (a + i))) ∧
        (∀ x, x < a ∨ a + n ≤ x → byteAt t.mem x = byteAt s.mem x) ∧
        (n = 0 → t = s))) ∧
    (∀ rest, s.env.events = .memWrite a v :: rest →
      (2 ^ s.cfg.addrBits < a + n → step s = .fault .noSuchAddress) ∧
      (a + n ≤ 2 ^ s.cfg.addrBits →
        ∃ t, step s = .next t ∧ t = { s with mem := t.mem, env := { s.env with events := rest } } ∧
          (∀ i, i < n → v[i]? = some (byteAt t.mem (a + i))) ∧
          (∀ x, x < a ∨ a + n ≤ x → byteAt t.mem x = byteAt s.mem x))) ∧
    (∀ rest, s.env.events = .memRead a n :: rest →
      (2 ^ s.cfg.addrBits < a + n → step s = .fault .noSuchAddress) ∧
      (a + n ≤ 2 ^ s.cfg.addrBits →
        ∃ bs, bs.length = n ∧ (∀ i, i < n → bs[i]? = some (byteAt s.mem (a + i))) ∧
          step s =
            .next
              { s with
                port := { s.port with memData := bs }
                env := { s.env with events := rest } }))

/-- The register file (10 R21, R22): which register each index shows, what an unimplemented index reads as,
which indices a host write reaches, and that neither access of the REG port touches anything else.
`s.regs.bmState` is the stored word of `BM_STATE`, and so on. That what a read returned stands in
`port.regData` is the model's choice (log entry 15). -/
def Obligations.RegisterFile : Prop :=
  ∀ (s : State) (i j : BitVec 6) (v : Word),
    let writable := (0x10 ≤ i.toNat ∧ i.toNat ≤ 0x1B) ∨ i.toNat = 0x22 ∨ i.toNat = 0x23
    let absent :=
      (0x09 ≤ i.toNat ∧ i.toNat ≤ 0x0F) ∨ (0x1C ≤ i.toNat ∧ i.toNat ≤ 0x1F) ∨ 0x28 ≤ i.toNat
    (writable → regRead (regWrite s i v) i = v) ∧
    (writable → j ≠ i → regRead (regWrite s i v) j = regRead s j) ∧
    (¬ writable → regWrite s i v = s) ∧
    (absent → regRead s i = 0) ∧
    (regRead s 0x00 = 0x4345582D43334334 ∧ regRead s 0x01 = s.regs.bmState ∧
      regRead s 0x02 = s.regs.bmMode ∧ regRead s 0x03 = s.regs.bmBlockSize ∧
      regRead s 0x04 = s.regs.bmParMin ∧ regRead s 0x05 = s.regs.bmParMax ∧
      regRead s 0x06 = s.regs.bmParBlock ∧ regRead s 0x07 = s.regs.bmIsParallel ∧
      regRead s 0x08 = BitVec.ofNat 64 s.cfg.threads) ∧
    (regRead s 0x10 = s.regs.inBase ∧ regRead s 0x11 = s.regs.inSize ∧ regRead s 0x12 = s.regs.inOff ∧
      regRead s 0x13 = s.regs.outBase ∧ regRead s 0x14 = s.regs.outSize ∧ regRead s 0x15 = s.regs.outOff ∧
      regRead s 0x16 = s.regs.len ∧ regRead s 0x17 = s.regs.keyBase ∧ regRead s 0x18 = s.regs.keyLen ∧
      regRead s 0x19 = s.regs.ivBase ∧ regRead s 0x1A = s.regs.ivLen ∧ regRead s 0x1B = s.regs.arg) ∧
    (regRead s 0x20 = s.regs.spState ∧ regRead s 0x21 = s.regs.spKind ∧ regRead s 0x22 = s.regs.spTotal ∧
      regRead s 0x23 = s.regs.spCtrl ∧ regRead s 0x24 = BitVec.ofNat 64 s.cfg.bufSize ∧
      regRead s 0x25 = BitVec.ofNat 64 s.cfg.queueCap ∧ regRead s 0x26 = s.regs.spPos ∧
      regRead s 0x27 = s.regs.spInterval) ∧
    (∃ regs, regWrite s i v = { s with regs := regs }) ∧
    (∀ rest, s.env.events = .regWrite i v :: rest →
      step s = .next { regWrite s i v with env := { s.env with events := rest } }) ∧
    (∀ rest, s.env.events = .regRead i :: rest →
      step s =
        .next
          { s with
            port := { s.port with regData := regRead s i }
            env := { s.env with events := rest } })

/-- The default sizes are legal (40 R122, its last sentence, which the spec marks as derived from the three
formulas): `PAR_MIN ≤ pbs ≤ T * 65536 ≤ 16777216 < PAR_MAX`, the default
block a multiple of `PAR_MIN`; and `PAR_MAX` is the least multiple of `PAR_MIN` that is at least 100 MiB
(00 R6, R7). -/
def Obligations.DefaultSizesAreLegal : Prop :=
  ∀ B T : Nat, 1 ≤ B → B ≤ 8191 → 1 ≤ T → T ≤ 256 →
    parMin B T = B * T ∧
    parMin B T ≤ pbsDefault B T ∧ pbsDefault B T ≤ T * 65536 ∧ T * 65536 ≤ 16777216 ∧
    16777216 < parMax (parMin B T) ∧ pbsDefault B T % parMin B T = 0 ∧
    104857600 ≤ parMax (parMin B T) ∧ parMax (parMin B T) % parMin B T = 0 ∧
    (∀ m, m % parMin B T = 0 → 104857600 ≤ m → parMax (parMin B T) ≤ m)

/-! ### Every step of the machine -/

/-- The invariant holds right after reset, on the default build and on every legal one (70 R290, R291, R296).
The default build is the model's choice (log entry 5). -/
def Obligations.ResetHasInvariant : Prop :=
  Inv State.reset ∧ ∀ cfg : Params, cfg.ok = true → Inv (State.powerUp cfg)

/-- Every step keeps the invariant: memory stays canonical and inside `2^ADDR_BITS`, every status and
property register shows its hidden field (10 R22), the engine holds a key exactly when it is keyed (R27),
the lanes hold none outside a parallel block (41 R169), what a transform still has to do lies in its
validated ranges (40 R131), an armed target is in its initial state (42 R195), the queue is bounded
(R32), and the logs hold only legal words (60 R251). -/
def Obligations.EveryStepKeepsInvariant : Prop :=
  ∀ s t : State, Inv s → step s = .next t → Inv t

/-- What cannot fail (60 R254; 20 R62): under the invariant no step stops, unless the host itself reaches for
an address that does not exist (log entry 12). -/
def Obligations.StepsNeverStop : Prop :=
  ∀ s : State, Inv s →
    (∀ a bs rest, s.env.events = .memWrite a bs :: rest → a + bs.length ≤ 2 ^ s.cfg.addrBits) →
    (∀ a n rest, s.env.events = .memRead a n :: rest → a + n ≤ 2 ^ s.cfg.addrBits) →
    ∃ t, step s = .next t

/-- Every issued word produces exactly one response word, sooner or later (30 R91): responses emitted plus
commands in flight rise by one with an `Issue`, and by nothing with any other step but `Reset`. -/
def Obligations.OneResponsePerCommand : Prop :=
  ∀ s t : State, Inv s → step s = .next t →
    (∀ w rest, s.env.events = .issue w :: rest →
      t.rsp.length + inFlight t = s.rsp.length + inFlight s + 1) ∧
    ((∀ w rest, s.env.events ≠ .issue w :: rest) → (∀ rest, s.env.events ≠ .reset :: rest) →
      t.rsp.length + inFlight t = s.rsp.length + inFlight s)

/-- The logs are append-only (10 R33): a step that is not `Reset` keeps every word of both, and adds at most
one response. -/
def Obligations.LogsOnlyGrow : Prop :=
  ∀ s t : State, step s = .next t → (∀ rest, s.env.events ≠ .reset :: rest) →
    (∃ more, t.rsp = s.rsp ++ more ∧ more.length ≤ 1) ∧ (∃ more, t.evt = s.evt ++ more)

/-- The operand registers are written only by the host (10 R23, and R22 for `SP_TOTAL` and `SP_CTRL`): every
step but a register write and `Reset` leaves each as it was. No step changes the build (00 R6). -/
def Obligations.OperandRegistersBelongToHost : Prop :=
  ∀ s t : State, step s = .next t →
    t.cfg = s.cfg ∧
    ((∀ i v rest, s.env.events ≠ .regWrite i v :: rest) → (∀ rest, s.env.events ≠ .reset :: rest) →
      ∀ r ∈ [Reg.inBase, .inSize, .inOff, .outBase, .outSize, .outOff, .len, .keyBase, .keyLen, .ivBase,
        .ivLen, .arg, .spTotal, .spCtrl], getReg t r = getReg s r)

/-- The host observes every word of each log, in order, each once (10 R33, 30 R102): an await at the head of
the events takes the next word when there is one and changes nothing else; until then it stands and an enabled
agent moves, or nothing. No other step but `Reset` moves either count, and what the REG and MEM ports last
returned changes only with their reads. The events that give the stream ports their coming answers change
nothing else. All these fields are the model's own (log entries 1, 9, 10, 15). -/
def Obligations.HostObservesLogs : Prop :=
  ∀ (s : State) (rest : List Event),
    let moved : State := { s with env := { s.env with events := rest } }
    let waits : Prop :=
      (enabledAgents s = [] → step s = .next s) ∧
      (enabledAgents s ≠ [] →
        ∃ a ∈ enabledAgents s, step s = agentAct a { s with tick := s.tick + 1 })
    (s.env.events = .awaitRsp :: rest →
      (s.port.rspSeen < s.rsp.length →
        step s = .next { moved with port := { s.port with rspSeen := s.port.rspSeen + 1 } }) ∧
      (s.rsp.length ≤ s.port.rspSeen → waits)) ∧
    (s.env.events = .awaitEvt :: rest →
      (s.port.evtSeen < s.evt.length →
        step s = .next { moved with port := { s.port with evtSeen := s.port.evtSeen + 1 } }) ∧
      (s.evt.length ≤ s.port.evtSeen → waits)) ∧
    (∀ answers, s.env.events = .setSource answers :: rest →
      step s = .next { moved with env := { moved.env with source := answers } }) ∧
    (∀ answers, s.env.events = .setSink answers :: rest →
      step s = .next { moved with env := { moved.env with sinkAnswers := answers } }) ∧
    (∀ t, step s = .next t → (∀ r, s.env.events ≠ .reset :: r) →
      ((∀ r, s.env.events ≠ .awaitRsp :: r) → t.port.rspSeen = s.port.rspSeen) ∧
      ((∀ r, s.env.events ≠ .awaitEvt :: r) → t.port.evtSeen = s.port.evtSeen) ∧
      ((∀ i r, s.env.events ≠ .regRead i :: r) → t.port.regData = s.port.regData) ∧
      ((∀ a n r, s.env.events ≠ .memRead a n :: r) → t.port.memData = s.port.memData))

/-- The hardware writes memory only inside a range a command validated (20 R60, R63): where a step that is no
store of the host changes a byte, the byte lies in the output range of the transform in progress, of the
run in progress, or of the `BM_XBLK` or empty `SP_RUN` being issued. -/
def Obligations.HardwareWritesOnlyOutputRanges : Prop :=
  ∀ (s t : State) (x : Nat), Inv s → step s = .next t →
    (∀ a bs rest, s.env.events ≠ .memWrite a bs :: rest) → byteAt t.mem x ≠ byteAt s.mem x →
    (∃ xf, s.bm.xf = some xf ∧ xf.dst ≤ x ∧ x < xf.dst + xf.len) ∨
    (∃ dst dsz, s.sp.state = .running ∧ s.sp.run.out = some (dst, dsz) ∧ dst ≤ x ∧ x < dst + dsz) ∨
    (∃ w rest tag o, s.env.events = .issue w :: rest ∧ decode w = .ok (.bmXblk tag) ∧
      outputRange s s.bm.blockSize = some o ∧ o ≤ x ∧ x < o + s.bm.blockSize) ∨
    (∃ w rest tag p o, s.env.events = .issue w :: rest ∧ decode w = .ok (.spRun tag) ∧
      streamPrim? s.sp.cls s.sp.kind = some p ∧ outputRange s p.digestSize = some o ∧ o ≤ x ∧
      x < o + p.digestSize)

/-- Key state has one writer at a time (70 R302; 10 R26, R31): while the engine is `transforming` no step but
`Reset` changes its selection, key, direction or sizing, and it leaves `transforming` only for `ready`,
in a step that emits a response; likewise the stream unit while `running`. -/
def Obligations.BusyUnitsAreHeld : Prop :=
  ∀ s t : State, Inv s → step s = .next t → (∀ rest, s.env.events ≠ .reset :: rest) →
    (s.bm.state = .transforming →
      t.bm.mode = s.bm.mode ∧ t.bm.kind = s.bm.kind ∧ t.bm.blockSize = s.bm.blockSize ∧
      t.bm.enc = s.bm.enc ∧ t.bm.key = s.bm.key ∧ t.bm.pbs = s.bm.pbs ∧ t.bm.par = s.bm.par ∧
      (t.bm.state = .transforming ∨
        (t.bm.state = .ready ∧ t.rsp.length = s.rsp.length + 1))) ∧
    (s.sp.state = .running →
      t.sp.cls = s.sp.cls ∧ t.sp.kind = s.sp.kind ∧ t.sp.key = s.sp.key ∧ t.sp.run = s.sp.run ∧
      t.sp.path = s.sp.path ∧ t.sp.interval = s.sp.interval ∧
      (t.sp.state = .running ∨ (t.sp.state = .armed ∧ t.rsp.length = s.rsp.length + 1)))

/-- The reset event (70 R290, R291) at any time: every register and hidden field at its reset value, both logs
empty, `MEM` not changed, no agent of the hardware enabled. That the counts of what the host has observed
start anew, what it last read stays, and the stream ports keep their coming answers is the model's choice (log
entry 17). -/
def Obligations.ResetEvent : Prop :=
  ∀ (s : State) (rest : List Event), s.env.events = .reset :: rest →
    ∃ t, step s = .next t ∧
      (∀ r : Reg, getReg t r =
        match r with
        | .id => 0x4345582D43334334
        | .bmIsParallel => if 2 ≤ s.cfg.threads then 1 else 0
        | .bmThreads => BitVec.ofNat 64 s.cfg.threads
        | .spBufSize => BitVec.ofNat 64 s.cfg.bufSize
        | .spQueueCap => BitVec.ofNat 64 s.cfg.queueCap
        | _ => 0) ∧
      t.bm =
        { state := .init, mode := none, kind := 0, blockSize := 0, enc := false, key := [], chain := []
          pbs := 0, par := decide (2 ≤ s.cfg.threads), xf := none } ∧
      t.lanes =
        List.replicate s.lanes.length
          { busy := false, key := [], reg := [], src := 0, dst := 0, n := 0 } ∧
      t.sp =
        { state := .empty, cls := .none, kind := 0, key := [], prim := none
          run := { tag := 0, total := 0, out := some (0, 0) }
          path := false, interval := 0, rpos := 0, cpos := 0, queue := [], readerDone := false
          cancel := false, fault := none } ∧
      t.rsp = [] ∧ t.evt = [] ∧ t.mem = s.mem ∧ t.cfg = s.cfg ∧
      t.port = { s.port with rspSeen := 0, evtSeen := 0 } ∧
      t.env = { s.env with events := rest } ∧ t.tick = s.tick ∧
      enabledAgents t = []

/-! ### The mode functions -/

/-- Round trip (40 R136, which the spec marks as derived from R126 and 00 R9(a); the laws of R9 are fields of
the type of a cipher, log entry 8): decrypting what was encrypted gives the data back, with the same final
chain, which is the last ciphertext block in CBC and CFB and the counter moved by the number of blocks, a
partial one counted, in CTR. -/
def Obligations.RoundTrip : Prop :=
  ∀ (c : BlockCipher) (mode : CipherMode) (key chain data : List Byte),
    c.keyLenOk key.length = true → chain.length = c.blockSize →
    (mode = .ctr → c.blockSize = 16) → (mode ≠ .ctr → data.length % c.blockSize = 0) →
    let e := serialXform c mode true key chain data
    serialXform c mode false key chain e.1 = (data, e.2) ∧
    (mode = .ctr → e.2 = toBe 16 ((be chain + (data.length + 15) / 16) % 2 ^ 128)) ∧
    (mode ≠ .ctr → data ≠ [] → e.2 = e.1.drop (e.1.length - c.blockSize))

/-- `SerialXform` (40 R129): no byte is transformed to none, one block by the equation of R126, the tail of a
CTR stream by R130, which uses the FIRST bytes of the keystream block; and a stream cut at a multiple of the
block size gives the same bytes and the same chain (70 R303 and the argument of 42 R215, both marked by the
spec as derived from R129). -/
def Obligations.SerialTransformSplits : Prop :=
  ∀ (c : BlockCipher) (mode : CipherMode) (enc : Bool) (key chain : List Byte),
    let xor : List Byte → List Byte → List Byte := List.zipWith (· ^^^ ·)
    let next := toBe 16 ((be chain + 1) % 2 ^ 128)
    serialXform c mode enc key chain [] = ([], chain) ∧
    (∀ x : List Byte, x.length = c.blockSize →
      serialXform c mode enc key chain x =
        match mode, enc with
        | .ctr, _ => (xor x (c.E key chain), next)
        | .cbc, true => (c.E key (xor x chain), c.E key (xor x chain))
        | .cbc, false => (xor (c.D key x) chain, x)
        | .cfb, true => (xor (c.E key chain) x, xor (c.E key chain) x)
        | .cfb, false => (xor (c.E key chain) x, x)) ∧
    (∀ x : List Byte, x ≠ [] → x.length < c.blockSize →
      serialXform c .ctr enc key chain x = (xor x ((c.E key chain).take x.length), next)) ∧
    (∀ a b : List Byte, a.length % c.blockSize = 0 →
      serialXform c mode enc key chain (a ++ b) =
        ((serialXform c mode enc key chain a).1 ++
            (serialXform c mode enc key (serialXform c mode enc key chain a).2 b).1,
          (serialXform c mode enc key (serialXform c mode enc key chain a).2 b).2))

/-- The CTR counter (40 R126, 41 R163, and 43 R243, a table the spec marks as derived): a 128-bit big-endian
number, counted modulo `2^128`, so that steps add up and `ff…ff` is followed by `00…00`; byte 0 is the most
significant (00 R12, 20 R66). -/
def Obligations.CounterArithmetic : Prop :=
  ∀ (chain : List Byte) (a b : Nat), chain.length = 16 →
    (addCounter chain a).length = 16 ∧
    be (addCounter chain a) = (be chain + a) % 2 ^ 128 ∧
    addCounter (addCounter chain a) b = addCounter chain (a + b) ∧
    addCounter chain 0 = chain ∧
    addCounter chain (2 ^ 128) = chain ∧
    addCounter (List.replicate 16 0xFF) 1 = List.replicate 16 0x00 ∧
    (∀ (first : Byte) (rest : List Byte),
      be (first :: rest) = first.toNat * 256 ^ rest.length + be rest) ∧
    (∀ n v : Nat, v < 256 ^ n → (toBe n v).length = n ∧ be (toBe n v) = v)

/-! ### Parallel decomposition -/

/-- The chunks partition the parallel block (41 R160 to R162, which the spec marks as derived): each starts
where the one before ends, the last ends the block, and every byte belongs to exactly one lane. Under the
invariant all lanes get the same number of blocks, at least one. -/
def Obligations.ChunksPartitionBlock : Prop :=
  (∀ k T B : Nat, 0 < T → 0 < B →
    (∀ t, t + 1 < T → chunkStart k T (t + 1) = chunkStart k T t + chunkCount k T t) ∧
    chunkStart k T (T - 1) + chunkCount k T (T - 1) = k ∧
    (∀ x, x < k * B →
      ∃ t, t < T ∧ (chunkStart k T t * B ≤ x ∧ x < (chunkStart k T t + chunkCount k T t) * B) ∧
        ∀ u, u < T → chunkStart k T u * B ≤ x → x < (chunkStart k T u + chunkCount k T u) * B → u = t)) ∧
  (∀ (s : State) (t : Nat), Inv s → s.bm.mode ≠ none → t < s.cfg.threads →
    chunkCount (unitBlocks s) s.cfg.threads t = unitBlocks s / s.cfg.threads ∧
      1 ≤ unitBlocks s / s.cfg.threads)

/-- `Spawn` (41 R165, R163, R164): the record of every lane, and the chain the join will install. -/
def Obligations.SpawnCapturesLanes : Prop :=
  ∀ (s : State) (xf : Transform) (mode : CipherMode), Inv s → s.bm.xf = some xf → xf.phase = .idle →
    0 < xf.npar → s.bm.mode = some mode →
    let B := s.bm.blockSize
    let k := s.bm.pbs / B
    let bpc := k / s.cfg.threads
    let base := xf.src + xf.pos
    ∃ t nextChain,
      agentAct .ctl s = .next t ∧
      t =
        { s with
          lanes := t.lanes
          bm := { s.bm with xf := some { xf with phase := .par nextChain } } } ∧
      nextChain =
        (if mode = .ctr then toBe 16 ((be s.bm.chain + k) % 2 ^ 128)
          else bytesAt s.mem (base + s.bm.pbs - B) B) ∧
      t.lanes.length = s.cfg.threads ∧
      ∀ i, i < s.cfg.threads →
        t.lanes[i]? =
          some
            { busy := true
              key := s.bm.key
              reg :=
                if mode = .ctr then toBe 16 ((be s.bm.chain + i * bpc) % 2 ^ 128)
                else if i = 0 then s.bm.chain
                else bytesAt s.mem (base + i * bpc * B - B) B
              src := base + i * bpc * B
              dst := xf.dst + xf.pos + i * bpc * B
              n := if i + 1 < s.cfg.threads then bpc else k - (s.cfg.threads - 1) * bpc }

/-- `LaneStep` (41 R167, R168): one block of the lane is transformed with the lane's own key and register,
stored where the lane's output stands, and no other byte and no other lane changes. -/
def Obligations.LaneStepTransformsOneBlock : Prop :=
  ∀ (s : State) (i : Nat) (l : Lane) (c : BlockCipher) (mode : CipherMode), Inv s →
    enabled s (.lane i) = true → s.lanes[i]? = some l → engine s = some (c, mode) →
    let B := s.bm.blockSize
    let x := bytesAt s.mem l.src B
    let y :=
      match mode with
      | .ctr => xorBytes x (c.E l.key l.reg)
      | .cbc => xorBytes (c.D l.key x) l.reg
      | .cfb => xorBytes (c.E l.key l.reg) x
    let reg := if mode = .ctr then toBe 16 ((be l.reg + 1) % 2 ^ 128) else x
    ∃ t, agentAct (.lane i) s = .next t ∧
      bytesAt t.mem l.dst B = y ∧
      (∀ a, a < l.dst ∨ l.dst + B ≤ a → byteAt t.mem a = byteAt s.mem a) ∧
      t =
        { s with
          mem := t.mem
          lanes := s.lanes.set i { l with reg := reg, src := l.src + B, dst := l.dst + B, n := l.n - 1 } }

/-- `Join` (41 R169): the captured chain is installed, every lane is emptied of key state and idle, and the
transform moves past the parallel block. -/
def Obligations.JoinEndsParallelBlock : Prop :=
  ∀ (s : State) (xf : Transform) (nextChain : List Byte), s.bm.xf = some xf →
    xf.phase = .par nextChain →
    agentAct .ctl s =
      .next
        { s with
          lanes := s.lanes.map (fun l => { l with busy := false, key := [], reg := [] })
          bm :=
            { s.bm with
              chain := nextChain
              xf :=
                some { xf with pos := xf.pos + s.bm.pbs, npar := xf.npar - 1, phase := .idle } } }

/-! ### The stream unit's agents -/

/-- Progress positions (42 R202, and R208, whose count the spec marks as derived from R202): a step past
several multiples of the interval reports each, in increasing order; the reports of successive steps follow
one another; and a whole stream reports the multiples `m * I < total` for `m` from 1, `ceil(total / I) - 1` of
them. -/
def Obligations.ProgressPositions : Prop :=
  ∀ I total a b c : Nat, 0 < I → a ≤ b → b ≤ c →
    progressPositions I a c total = progressPositions I a b total ++ progressPositions I b c total ∧
    progressPositions I 0 total total =
      (List.range ((total + I - 1) / I - 1)).map (fun m => (m + 1) * I) ∧
    (∀ p, p ∈ progressPositions I a b total ↔ a < p ∧ p ≤ b ∧ p < total ∧ p % I = 0)

/-- `RdrStep` (42 R205): its five outcomes. That the source is the list of its coming answers, and so what it
answers and what it is after the answer, is the model's choice (log entry 9). -/
def Obligations.ReaderStep : Prop :=
  ∀ s : State, enabled s .rdr = true →
    let n := min s.cfg.bufSize (s.sp.run.total - s.sp.rpos)
    let answered : State := { s with env := { s.env with source := (sourceAnswer n s.env.source).2 } }
    (s.sp.cancel = true →
      agentAct .rdr s = .next { s with sp := { s.sp with fault := some .cancelled } }) ∧
    (s.sp.cancel = false → (sourceAnswer n s.env.source).1 = .fail →
      agentAct .rdr s = .next { answered with sp := { s.sp with fault := some .io } }) ∧
    (∀ bs, s.sp.cancel = false → (sourceAnswer n s.env.source).1 = .data bs → bs.length < n →
      agentAct .rdr s = .next { answered with sp := { s.sp with fault := some .unexpectedEof } }) ∧
    (∀ bs, s.sp.cancel = false → (sourceAnswer n s.env.source).1 = .data bs → n ≤ bs.length →
      agentAct .rdr s =
        .next
          { answered with
            sp :=
              { s.sp with
                rpos := s.sp.rpos + n
                queue := s.sp.queue ++ [bs]
                readerDone :=
                  if s.sp.rpos + n = s.sp.run.total then true else s.sp.readerDone } })

/-- The runs that `SEQ` and `CSM` end with an error, their causes and effects (42 R202, R203, R206, R210; 60
R264). `SEQ` looks at the cancel flag, then at a failing source, then at a short answer; `CSM` acts on a fault
the reader recorded, with its code and ahead of the queue; a buffer that either goes on to feed ends the run
only where the sink of a class 3 run refuses it. An aborted run emits no event and writes no memory, its queue
is emptied, its primitive back in its initial state, the bytes fed stay counted, the unit is `armed`; an
engine in use is `ready` and keeps the chain after the last buffer it transformed, another is untouched. The
source and the sink are lists of answers and the sink keeps nothing of a buffer it refuses: the model's choice
(log entries 9, 10). -/
def Obligations.AbortedRun : Prop :=
  ∀ (s : State) (a : Agent), Inv s → (a = .seq ∨ a = .csm) → enabled s a = true →
    let n := min s.cfg.bufSize (s.sp.run.total - s.sp.rpos)
    let taken : Except Code (List Byte) :=
      if a = .seq then
        if s.sp.cancel then .error .cancelled
        else
          match (sourceAnswer n s.env.source).1 with
          | .fail => .error .io
          | .data bs => if bs.length < n then .error .unexpectedEof else .ok bs
      else
        match s.sp.fault with
        | some code => .error code
        | none => .ok (s.sp.queue.headD [])
    let refused := s.sp.cls = .cipher ∧ s.env.sinkAnswers.head? = some false
    let aborted : Code → Nat → List Byte → State → Prop := fun code rpos chain t =>
      t =
        { s with
          env := t.env
          sp :=
            { s.sp with
              state := .armed
              queue := []
              fault := none
              prim := initialPrim s
              rpos := rpos }
          bm :=
            if s.sp.cls = .cipher then { s.bm with state := .ready, chain := chain } else s.bm
          regs :=
            { s.regs with
              spState := if s.sp.path then 6 else 2
              bmState := if s.sp.cls = .cipher then 1 else s.regs.bmState }
          rsp := s.rsp ++ [responseWord 0x12 s.sp.run.tag code] } ∧
      t.env.sunk = s.env.sunk ∧ t.env.events = s.env.events
    ∃ t, agentAct a s = .next t ∧
      match taken with
      | .error code =>
        (code = .io ∨ code = .unexpectedEof ∨ code = .cancelled) ∧ aborted code s.sp.rpos s.bm.chain t
      | .ok bs =>
        (∀ c mode, refused → engine s = some (c, mode) →
          aborted .io (if a = .seq then s.sp.rpos + n else s.sp.rpos)
            (serialXform c mode s.bm.enc s.bm.key s.bm.chain bs).2 t) ∧
        (¬ refused → ∀ code, code ≠ .ok → t.rsp ≠ s.rsp ++ [responseWord 0x12 s.sp.run.tag code])

/-- The bounded queue cannot deadlock (70 R305, which the spec marks as derived from R205 and R206): a
concurrent run always has its reader or its consumer enabled, a full queue has the consumer enabled, and a
reader that is done has not left the consumer with nothing to do. -/
def Obligations.QueueCannotDeadlock : Prop :=
  ∀ s : State, Inv s → s.sp.state = .running → s.sp.path = true →
    (enabled s .rdr = true ∨ enabled s .csm = true) ∧
    (s.cfg.queueCap ≤ s.sp.queue.length → enabled s .csm = true) ∧
    (s.sp.readerDone = true → enabled s .csm = true)

/-! ### Progress -/

/-- Every enabled step of an agent can be taken and lowers the bound on the work left, so that no schedule goes
on for ever. R306 of 70 claims an end under fairness; the bound `work` is the model's own. -/
def Obligations.EveryAgentStepLowersWork : Prop :=
  ∀ (s : State) (a : Agent), Inv s → enabled s a = true → ∃ t, agentAct a s = .next t ∧ work t < work s

/-- Every accepted command ends (70 R306): left to itself, whichever enabled agent moves each time, the machine
is idle after at most `work s` steps, with nothing in flight. The bound is the model's own, and the free
scheduler always moves an enabled agent (log entry 2). -/
def Obligations.AcceptedCommandsEnd : Prop :=
  ∀ s : State, Inv s → s.env.events = [] →
    ∃ t, runSteps (work s) s = .next t ∧ enabledAgents t = [] ∧ inFlight t = 0

/-! ### Results -/

/-- Result of a `BM_XFRM` (40 R135 and 41 R171, which the spec marks as derived and asks a model to prove):
whatever `is_parallel`, the parallel block size, the number of lanes and the order in which the agents take
their turns, an accepted transform that has ended has left in its output range the bytes, and in the chain the
value, that `SerialXform` gives for the input bytes at acceptance; no other byte of memory and no other field
of the engine has changed, and its one response is `Ok`. The host does nothing in between (70 R300), and no
stream run is in progress. -/
def Obligations.TransformResult : Prop :=
  ∀ (s t0 t : State) (tag : BitVec 8) (turns : List Agent) (a o : Nat), Inv s →
    s.sp.state ≠ .running → exec (.bmXfrm tag) s = .next t0 → t0.bm.state = .transforming →
    s.bm.state = .ready → inputRange s s.regs.len.toNat = some a →
    outputRange s s.regs.len.toNat = some o →
    runAgents turns t0 = .next t → t.bm.state = .ready →
    ∃ c mode,
      engine s = some (c, mode) ∧
      (let r := serialXform c mode s.bm.enc s.bm.key s.bm.chain (bytesAt s.mem a s.regs.len.toNat)
       bytesAt t.mem o s.regs.len.toNat = r.1 ∧
       (∀ x, x < o ∨ o + s.regs.len.toNat ≤ x → byteAt t.mem x = byteAt s.mem x) ∧
       t.bm = { s.bm with chain := r.2 } ∧ t.regs = s.regs ∧
       t.rsp = s.rsp ++ [responseWord 0x04 tag .ok] ∧ t.evt = s.evt ∧ t.sp = s.sp)

/-- Result of a `BM_XFRM` whatever the host does meanwhile (40 R135; 70 R300, R304): commands of either unit,
a stream run in flight or started, register accesses, stores and reads of memory, in any order with the turns
of the agents and the steps of the free scheduler. Until the step that ends the transform the host must leave
its two ranges alone (`leavesRangesAlone`): it stores nothing there, issues no `Reset`, and sends no code of a
stream run there; that R300 bars the last is the model's reading (log entry 19). Then the output range and the
chain are what `SerialXform` gives for the input bytes at acceptance, no other field and no register of the
engine has changed, and its response `Ok` is the last word of the log and was not in it before the transform
ended. -/
def Obligations.TransformResultUnderHost : Prop :=
  ∀ (s t0 t : State) (tag : BitVec 8) (steps a o : Nat), Inv s → s.bm.state = .ready →
    inputRange s s.regs.len.toNat = some a → outputRange s s.regs.len.toNat = some o →
    exec (.bmXfrm tag) s = .next t0 → t0.bm.state = .transforming →
    heldDuring
        (fun u => leavesRangesAlone a o s.regs.len.toNat u && u.bm.state == .transforming) steps t0 = true →
    runSteps steps t0 = .next t → t.bm.state = .ready →
    ∃ c mode more,
      engine s = some (c, mode) ∧
      (let r := serialXform c mode s.bm.enc s.bm.key s.bm.chain (bytesAt s.mem a s.regs.len.toNat)
       bytesAt t.mem o s.regs.len.toNat = r.1 ∧
       t.bm = { s.bm with chain := r.2 } ∧
       (∀ reg ∈ [Reg.bmState, .bmMode, .bmBlockSize, .bmParMin, .bmParMax, .bmParBlock, .bmIsParallel],
         getReg t reg = getReg s reg) ∧
       t.rsp = s.rsp ++ more ++ [responseWord 0x04 tag .ok] ∧ responseWord 0x04 tag .ok ∉ more)

/-- Result of a completed digest or MAC run (42 R214, which the spec marks as derived and asks a model to prove;
R208; the source as a list of answers, log entry 9): whatever the path, the buffer size, the queue
capacity and the order of turns, a run that answered `Ok` has read `total` bytes of the source and stored
`fin(upd(s0, data))`, changed no other byte, and emitted the progress positions and one `FINAL`. -/
def Obligations.StreamCodeResult : Prop :=
  ∀ (s t0 t : State) (tag : BitVec 8) (turns : List Agent) (p : StreamPrim) (s0 : List Byte) (o : Nat),
    Inv s → s.bm.state ≠ .transforming → (s.sp.cls = .digest ∨ s.sp.cls = .mac) →
    streamPrim? s.sp.cls s.sp.kind = some p → s.sp.prim = some s0 → outputRange s p.digestSize = some o →
    exec (.spRun tag) s = .next t0 → t0.sp.state = .running → s.sp.state = .armed →
    runAgents turns t0 = .next t → t.rsp = s.rsp ++ [responseWord 0x12 tag .ok] →
    let total := s.regs.spTotal.toNat
    let data := (sourceBytes s.env.source).take total
    let I := (total + 99) / 100 / p.blockSize * p.blockSize
    data.length = total ∧ bytesAt t.mem o p.digestSize = p.fin (p.upd s0 data) ∧
    (∀ x, x < o ∨ o + p.digestSize ≤ x → byteAt t.mem x = byteAt s.mem x) ∧
    t.evt =
      s.evt ++ (List.range ((total + I - 1) / I - 1)).map (fun m => eventWord 1 ((m + 1) * I)) ++
        [eventWord 2 total] ∧
    t.sp.state = .armed ∧ t.sp.prim = some s0 ∧ t.sp.cpos = total ∧ t.bm = s.bm ∧ t.lanes = s.lanes

/-- Result of a completed class 3 run (42 R215, which the spec marks as derived; R208; the source and the sink as
lists, log entries 9 and 10): what the sink was given, and the chain at the end, are
those of `SerialXform` over the `total` bytes of the source; `MEM` is not touched. -/
def Obligations.StreamCipherResult : Prop :=
  ∀ (s t0 t : State) (tag : BitVec 8) (turns : List Agent), Inv s → s.sp.cls = .cipher →
    exec (.spRun tag) s = .next t0 → t0.sp.state = .running → s.sp.state = .armed →
    runAgents turns t0 = .next t → t.rsp = s.rsp ++ [responseWord 0x12 tag .ok] →
    let total := s.regs.spTotal.toNat
    let data := (sourceBytes s.env.source).take total
    let I := (total + 99) / 100 / s.bm.blockSize * s.bm.blockSize
    ∃ c mode,
      engine s = some (c, mode) ∧
      (let r := serialXform c mode s.bm.enc s.bm.key s.bm.chain data
       data.length = total ∧ t.env.sunk = s.env.sunk ++ r.1 ∧ t.bm = { s.bm with chain := r.2 } ∧
       t.mem = s.mem ∧
       t.evt =
        s.evt ++ (List.range ((total + I - 1) / I - 1)).map (fun m => eventWord 1 ((m + 1) * I)) ++
          [eventWord 2 total] ∧
       t.sp.state = .armed ∧ t.sp.cpos = total ∧ t.lanes = s.lanes)

end
end

