-- ==== Sys2Proof/Laws/Bytes.lean ====
section
/-! SUPPORT. Lengths and values of byte strings, of the CTR counter and of the mode functions. -/

namespace Sys2Proof.Machine

@[simp] theorem xorBytes_length (a b : List Byte) : (xorBytes a b).length = min a.length b.length := by
  simp [xorBytes]

@[simp] theorem xorBytes_nil (a : List Byte) : xorBytes a [] = [] := by simp [xorBytes]

@[simp] theorem nil_xorBytes (a : List Byte) : xorBytes [] a = [] := by simp [xorBytes]

theorem xorBytes_append (a b c d : List Byte) (h : a.length = c.length) :
    xorBytes (a ++ b) (c ++ d) = xorBytes a c ++ xorBytes b d := by
  simp [xorBytes, List.zipWith_append h]

/-- Exclusive OR with the same string twice gives the first string back. -/
theorem xorBytes_cancel (a k : List Byte) (h : a.length ≤ k.length) : xorBytes (xorBytes a k) k = a := by
  induction a generalizing k with
  | nil => simp
  | cons b a ih =>
    cases k with
    | nil => simp at h
    | cons c k =>
      have hb : (b ^^^ c) ^^^ c = b := by rw [BitVec.xor_assoc, BitVec.xor_self, BitVec.xor_zero]
      have := ih k (by simpa using h)
      simp only [xorBytes] at this
      simp [xorBytes, hb, this]

theorem xorBytes_comm (a b : List Byte) : xorBytes a b = xorBytes b a := by
  induction a generalizing b with
  | nil => simp
  | cons x a ih =>
    cases b with
    | nil => simp
    | cons y b =>
      have := ih b
      simp only [xorBytes] at this
      simp [xorBytes, this, BitVec.xor_comm]

@[simp] theorem zeroise_length (s : List Byte) : (zeroise s).length = s.length := by simp [zeroise]

@[simp] theorem addCounter_length (chain : List Byte) (d : Nat) : (addCounter chain d).length = 16 :=
  toBe_length 16 _

theorem be_foldl (s : List Byte) (v : Nat) :
    s.foldl (fun v b => v * 256 + b.toNat) v = v * 256 ^ s.length + be s := by
  induction s generalizing v with
  | nil => simp [be]
  | cons b s ih =>
    have h1 := ih (v * 256 + b.toNat)
    have h2 := ih (0 * 256 + b.toNat)
    simp only [be, List.foldl_cons, List.length_cons] at *
    rw [h1, h2]
    ring

theorem be_cons (b : Byte) (s : List Byte) : be (b :: s) = b.toNat * 256 ^ s.length + be s := by
  have := be_foldl s (0 * 256 + b.toNat)
  simp only [be, List.foldl_cons] at *
  simpa using this

theorem be_lt (s : List Byte) : be s < 256 ^ s.length := by
  induction s with
  | nil => simp [be]
  | cons b s ih =>
    rw [be_cons, List.length_cons, pow_succ]
    have := b.isLt
    nlinarith [Nat.pos_of_ne_zero (pow_ne_zero s.length (by norm_num : (256 : Nat) ≠ 0))]

theorem be_toBe (n v : Nat) : be (toBe n v) = v % 256 ^ n := by
  induction n with
  | zero => simp [toBe, be, Nat.mod_one]
  | succ n ih =>
    rw [toBe, be_cons, toBe_length, ih, BitVec.toNat_ofNat, show (2 : Nat) ^ 8 = 256 by norm_num,
      pow_succ 256 n, Nat.mod_mul (x := v) (a := 256 ^ n) (b := 256)]
    ring

theorem toBe_be (s : List Byte) : toBe s.length (be s) = s := by
  suffices h : ∀ (s : List Byte) (k : Nat), toBe s.length (k * 256 ^ s.length + be s) = s by
    simpa using h s 0
  intro s
  induction s with
  | nil => intro k; rfl
  | cons b s ih =>
    intro k
    have hlt := be_lt s
    have hpos : 0 < 256 ^ s.length := by positivity
    rw [List.length_cons, toBe, be_cons]
    congr 1
    · have : (k * 256 ^ (s.length + 1) + (b.toNat * 256 ^ s.length + be s)) / 256 ^ s.length
          = k * 256 + b.toNat := by
        rw [show k * 256 ^ (s.length + 1) + (b.toNat * 256 ^ s.length + be s)
            = be s + (k * 256 + b.toNat) * 256 ^ s.length by ring,
          Nat.add_mul_div_right _ _ hpos, Nat.div_eq_of_lt hlt, Nat.zero_add]
      rw [this]
      apply BitVec.eq_of_toNat_eq
      have := b.isLt
      rw [BitVec.toNat_ofNat]
      omega
    · rw [show k * 256 ^ (s.length + 1) + (b.toNat * 256 ^ s.length + be s)
          = (k * 256 + b.toNat) * 256 ^ s.length + be s by ring]
      exact ih _

theorem be_addCounter (chain : List Byte) (d : Nat) :
    be (addCounter chain d) = (be chain + d) % 2 ^ 128 := by
  rw [addCounter, be_toBe]
  norm_num

/-- The two results of one block are blocks, when the key is one the cipher accepts. -/
theorem blockStep_length (c : BlockCipher) (mode : CipherMode) (enc : Bool) (key chain x : List Byte)
    (hk : c.keyLenOk key.length = true) (hc : chain.length = c.blockSize) (hx : x.length = c.blockSize)
    (hm : mode = .ctr → c.blockSize = 16) :
    (blockStep c mode enc key chain x).1.length = c.blockSize ∧
      (blockStep c mode enc key chain x).2.length = c.blockSize := by
  have hE := c.E_length key chain hk hc
  have hD := c.D_length key x hk hx
  have hEx := c.E_length key (xorBytes x chain) hk (by simp [hx, hc])
  cases mode <;> cases enc <;> simp_all [blockStep]

end Sys2Proof.Machine
end

