-- ==== Sys2Proof/Laws/Memory.lean ====
section
/-! SUPPORT. Buffer memory: what a store changes, what it leaves, and the canonical form it keeps. -/

namespace Sys2Proof.Machine

theorem byteAt_of_lt (m : Memory) (a : Nat) (h : ∀ c ∈ m, a < c.1) : byteAt m a = unlistedByte := by
  induction m with
  | nil => rfl
  | cons c m ih =>
    obtain ⟨k, b⟩ := c
    have hk : a < k := h (k, b) (by simp)
    have : ¬ a = k := by omega
    simp only [byteAt, this, if_false]
    exact ih fun c hc => h c (by simp [hc])

/-- The canonical form, cell by cell: the first is no unlisted byte and lies below all the others. -/
theorem Memory.wf_cons (k : Nat) (b : Byte) (m : Memory) :
    Memory.wf ((k, b) :: m) = true ↔ b ≠ unlistedByte ∧ (∀ c ∈ m, k < c.1) ∧ Memory.wf m = true := by
  induction m generalizing k b with
  | nil => simp [Memory.wf]
  | cons d m ih =>
    obtain ⟨j, v⟩ := d
    simp only [Memory.wf, Bool.and_eq_true, bne_iff_ne, decide_eq_true_eq, ih j v, List.mem_cons]
    constructor
    · rintro ⟨⟨hb, hk⟩, hv, hj, hm⟩
      refine ⟨hb, ?_, hv, hj, hm⟩
      rintro c (rfl | hc)
      · exact hk
      · exact lt_trans hk (hj c hc)
    · rintro ⟨hb, hk, hv, hj, hm⟩
      exact ⟨⟨hb, hk (j, v) (.inl rfl)⟩, hv, hj, hm⟩

/-- Reading a byte after a store: the byte stored at its address, the old one elsewhere. -/
theorem byteAt_setByte (m : Memory) (a x : Nat) (b : Byte) (h : Memory.wf m = true) :
    byteAt (setByte m a b) x = if x = a then b else byteAt m x := by
  induction m with
  | nil =>
    by_cases hb : b = unlistedByte <;> by_cases hx : x = a <;> simp [setByte, byteAt, hb, hx]
  | cons c m ih =>
    obtain ⟨k, v⟩ := c
    obtain ⟨hv, hk, hm⟩ := (Memory.wf_cons k v m).1 h
    have ih := ih hm
    unfold setByte
    split
    · rename_i hak
      split
      · rename_i hb
        by_cases hx : x = a
        · subst hx
          have hne : ¬ x = k := by omega
          simp only [byteAt, hne, if_false, if_true, hb]
          exact byteAt_of_lt m x fun c hc => lt_trans hak (hk c hc)
        · simp [hx]
      · by_cases hx : x = a <;> simp [byteAt, hx]
    · split
      · rename_i hak
        split
        · rename_i hb
          by_cases hx : x = a
          · rw [if_pos hx, hb, hx, hak]
            exact byteAt_of_lt m k hk
          · have : ¬ x = k := by omega
            simp [hx, byteAt, this]
        · by_cases hx : x = a
          · simp [byteAt, hx]
          · have : ¬ x = k := by omega
            simp [byteAt, hx, this]
      · rename_i h1 h2
        by_cases hxk : x = k
        · have : ¬ x = a := by omega
          have : ¬ k = a := by omega
          simp [byteAt, hxk, this]
        · simp [byteAt, hxk, ih]

theorem setByte_addresses (m : Memory) (a : Nat) (b : Byte) (c : Host.Cell) (hc : c ∈ setByte m a b) :
    c.1 = a ∨ c ∈ m := by
  induction m with
  | nil =>
    simp only [setByte] at hc
    split at hc <;> simp_all
  | cons d m ih =>
    obtain ⟨k, v⟩ := d
    simp only [setByte] at hc
    split at hc
    · split at hc
      · exact .inr hc
      · rcases List.mem_cons.1 hc with rfl | hc
        · exact .inl rfl
        · exact .inr hc
    · split at hc
      · split at hc
        · exact .inr (List.mem_cons_of_mem _ hc)
        · rcases List.mem_cons.1 hc with rfl | hc
          · exact .inl rfl
          · exact .inr (List.mem_cons_of_mem _ hc)
      · rcases List.mem_cons.1 hc with rfl | hc
        · exact .inr (by simp)
        · rcases ih hc with h | h
          · exact .inl h
          · exact .inr (List.mem_cons_of_mem _ h)

/-- A store of one byte keeps the canonical form. -/
theorem setByte_wf (m : Memory) (a : Nat) (b : Byte) (h : Memory.wf m = true) :
    Memory.wf (setByte m a b) = true := by
  induction m with
  | nil =>
    simp only [setByte]
    split <;> simp_all [Memory.wf]
  | cons d m ih =>
    obtain ⟨k, v⟩ := d
    obtain ⟨hv, hk, hm⟩ := (Memory.wf_cons k v m).1 h
    simp only [setByte]
    split
    · rename_i hak
      split
      · exact h
      · rename_i hb
        refine (Memory.wf_cons _ _ _).2 ⟨hb, ?_, h⟩
        intro c hc
        rcases List.mem_cons.1 hc with rfl | hc
        · exact hak
        · exact lt_trans hak (hk c hc)
    · split
      · rename_i hak
        split
        · exact hm
        · rename_i hb
          exact (Memory.wf_cons _ _ _).2 ⟨hb, fun c hc => hak ▸ hk c hc, hm⟩
      · refine (Memory.wf_cons _ _ _).2 ⟨hv, ?_, ih hm⟩
        intro c hc
        rcases setByte_addresses m a b c hc with h | h
        · omega
        · exact hk c h

theorem setBytes_wf (m : Memory) (a : Nat) (bs : List Byte) (h : Memory.wf m = true) :
    Memory.wf (setBytes m a bs) = true := by
  induction bs generalizing m a with
  | nil => exact h
  | cons b bs ih => exact ih _ _ (setByte_wf m a b h)

/-- Reading a byte after a store of a byte string: the stored byte inside its range, the old one outside. -/
theorem byteAt_setBytes (m : Memory) (a x : Nat) (bs : List Byte) (h : Memory.wf m = true) :
    byteAt (setBytes m a bs) x =
      if a ≤ x ∧ x < a + bs.length then bs.getD (x - a) 0 else byteAt m x := by
  induction bs generalizing m a with
  | nil =>
    rw [if_neg (by simp only [List.length_nil]; omega)]; rfl
  | cons b bs ih =>
    rw [setBytes, ih _ _ (setByte_wf m a b h), byteAt_setByte m a x b h, List.length_cons]
    by_cases h1 : a + 1 ≤ x ∧ x < a + 1 + bs.length
    · have h2 : a ≤ x ∧ x < a + (bs.length + 1) := by omega
      have h3 : x - a = (x - (a + 1)) + 1 := by omega
      rw [if_pos h1, if_pos h2, h3, List.getD_cons_succ]
    · rw [if_neg h1]
      by_cases h2 : x = a
      · have h3 : a ≤ x ∧ x < a + (bs.length + 1) := by omega
        rw [if_pos h2, if_pos h3, h2, Nat.sub_self, List.getD_cons_zero]
      · have h3 : ¬ (a ≤ x ∧ x < a + (bs.length + 1)) := by omega
        rw [if_neg h2, if_neg h3]

theorem byteAt_setBytes_of_not_mem (m : Memory) (a x : Nat) (bs : List Byte) (h : Memory.wf m = true)
    (hx : ¬ (a ≤ x ∧ x < a + bs.length)) : byteAt (setBytes m a bs) x = byteAt m x := by
  rw [byteAt_setBytes m a x bs h, if_neg hx]

theorem setBytes_addresses (m : Memory) (a : Nat) (bs : List Byte) (c : Host.Cell)
    (hc : c ∈ setBytes m a bs) : (a ≤ c.1 ∧ c.1 < a + bs.length) ∨ c ∈ m := by
  induction bs generalizing m a with
  | nil => exact .inr hc
  | cons b bs ih =>
    rcases ih _ _ hc with h | h
    · left; simp only [List.length_cons]; omega
    · rcases setByte_addresses m a b c h with h | h
      · left; simp only [List.length_cons]; omega
      · exact .inr h

@[simp] theorem bytesAt_length (m : Memory) (a n : Nat) : (bytesAt m a n).length = n := by
  induction n generalizing a with
  | zero => rfl
  | succ n ih => simp [bytesAt, ih]

theorem bytesAt_congr (m m' : Memory) (a n : Nat)
    (h : ∀ x, a ≤ x → x < a + n → byteAt m x = byteAt m' x) : bytesAt m a n = bytesAt m' a n := by
  induction n generalizing a with
  | zero => rfl
  | succ n ih =>
    rw [bytesAt, bytesAt, h a (le_refl a) (by omega), ih (a + 1) fun x h1 h2 => h x (by omega) (by omega)]

theorem bytesAt_add (m : Memory) (a n k : Nat) :
    bytesAt m a (n + k) = bytesAt m a n ++ bytesAt m (a + n) k := by
  induction n generalizing a with
  | zero => simp [bytesAt]
  | succ n ih =>
    rw [show n + 1 + k = n + k + 1 by omega, bytesAt, bytesAt, ih (a + 1), List.cons_append,
      show a + 1 + n = a + (n + 1) by omega]

theorem bytesAt_drop (m : Memory) (a n k : Nat) :
    (bytesAt m a n).drop k = bytesAt m (a + k) (n - k) := by
  rcases Nat.le_total k n with h | h
  · obtain ⟨j, rfl⟩ := Nat.exists_eq_add_of_le h
    rw [bytesAt_add, List.drop_append_of_le_length (by simp), List.drop_of_length_le (by simp)]
    simp
  · rw [List.drop_of_length_le (by simpa using h), Nat.sub_eq_zero_of_le h]; rfl

theorem bytesAt_take (m : Memory) (a n k : Nat) : (bytesAt m a n).take k = bytesAt m a (min k n) := by
  rcases Nat.le_total k n with h | h
  · obtain ⟨j, rfl⟩ := Nat.exists_eq_add_of_le h
    rw [bytesAt_add, List.take_append_of_le_length (by simp), List.take_of_length_le (by simp)]
    simp
  · rw [List.take_of_length_le (by simpa using h), Nat.min_eq_right h]

/-! ### The two accesses -/

/-- What `MemRead` can do: it answers the bytes of a range inside `MEM`, and nothing else. -/
theorem memRead_eq_some (s : State) (a n : Nat) (bs : List Byte) :
    memRead s a n = some bs ↔ a + n ≤ memSize s ∧ bs = bytesAt s.mem a n := by
  unfold memRead
  split <;> simp_all [eq_comm]

/-- What `MemWrite` can do: it stores into a range inside `MEM`, and changes nothing else. -/
theorem memWrite_eq_some (s t : State) (a n : Nat) (v : List Byte) :
    memWrite s a n v = some t ↔
      a + n ≤ memSize s ∧ t = { s with mem := setBytes s.mem a (v.take n) } := by
  unfold memWrite
  split <;> simp_all [eq_comm]

end Sys2Proof.Machine
end

