-- ==== Sys2Proof/Laws/State.lean ====
section
/-! SUPPORT. One lemma per field of the state per named update, so that no proof unfolds a record update. -/

namespace Sys2Proof.Machine

/-! ### `respond` -/

@[simp] theorem respond_cfg (opcode tag : BitVec 8) (code : Code) (s : State) :
    (respond opcode tag code s).cfg = s.cfg := rfl
@[simp] theorem respond_regs (opcode tag : BitVec 8) (code : Code) (s : State) :
    (respond opcode tag code s).regs = s.regs := rfl
@[simp] theorem respond_bm (opcode tag : BitVec 8) (code : Code) (s : State) :
    (respond opcode tag code s).bm = s.bm := rfl
@[simp] theorem respond_lanes (opcode tag : BitVec 8) (code : Code) (s : State) :
    (respond opcode tag code s).lanes = s.lanes := rfl
@[simp] theorem respond_sp (opcode tag : BitVec 8) (code : Code) (s : State) :
    (respond opcode tag code s).sp = s.sp := rfl
@[simp] theorem respond_mem (opcode tag : BitVec 8) (code : Code) (s : State) :
    (respond opcode tag code s).mem = s.mem := rfl
@[simp] theorem respond_rsp (opcode tag : BitVec 8) (code : Code) (s : State) :
    (respond opcode tag code s).rsp = s.rsp ++ [responseWord opcode tag code] := rfl
@[simp] theorem respond_evt (opcode tag : BitVec 8) (code : Code) (s : State) :
    (respond opcode tag code s).evt = s.evt := rfl
@[simp] theorem respond_port (opcode tag : BitVec 8) (code : Code) (s : State) :
    (respond opcode tag code s).port = s.port := rfl
@[simp] theorem respond_env (opcode tag : BitVec 8) (code : Code) (s : State) :
    (respond opcode tag code s).env = s.env := rfl
@[simp] theorem respond_tick (opcode tag : BitVec 8) (code : Code) (s : State) :
    (respond opcode tag code s).tick = s.tick := rfl

/-! ### `emitEvent` -/

@[simp] theorem emitEvent_cfg (kind : BitVec 8) (pos : Nat) (s : State) :
    (emitEvent kind pos s).cfg = s.cfg := rfl
@[simp] theorem emitEvent_regs (kind : BitVec 8) (pos : Nat) (s : State) :
    (emitEvent kind pos s).regs = s.regs := rfl
@[simp] theorem emitEvent_bm (kind : BitVec 8) (pos : Nat) (s : State) :
    (emitEvent kind pos s).bm = s.bm := rfl
@[simp] theorem emitEvent_lanes (kind : BitVec 8) (pos : Nat) (s : State) :
    (emitEvent kind pos s).lanes = s.lanes := rfl
@[simp] theorem emitEvent_sp (kind : BitVec 8) (pos : Nat) (s : State) :
    (emitEvent kind pos s).sp = s.sp := rfl
@[simp] theorem emitEvent_mem (kind : BitVec 8) (pos : Nat) (s : State) :
    (emitEvent kind pos s).mem = s.mem := rfl
@[simp] theorem emitEvent_rsp (kind : BitVec 8) (pos : Nat) (s : State) :
    (emitEvent kind pos s).rsp = s.rsp := rfl
@[simp] theorem emitEvent_evt (kind : BitVec 8) (pos : Nat) (s : State) :
    (emitEvent kind pos s).evt = s.evt ++ [eventWord kind pos] := rfl
@[simp] theorem emitEvent_port (kind : BitVec 8) (pos : Nat) (s : State) :
    (emitEvent kind pos s).port = s.port := rfl
@[simp] theorem emitEvent_env (kind : BitVec 8) (pos : Nat) (s : State) :
    (emitEvent kind pos s).env = s.env := rfl
@[simp] theorem emitEvent_tick (kind : BitVec 8) (pos : Nat) (s : State) :
    (emitEvent kind pos s).tick = s.tick := rfl

/-! ### `setBmState` -/

@[simp] theorem setBmState_cfg (st : BmState) (s : State) : (setBmState st s).cfg = s.cfg := rfl
@[simp] theorem setBmState_regs (st : BmState) (s : State) :
    (setBmState st s).regs = { s.regs with bmState := BitVec.ofNat 64 (bmStateCode st) } := rfl
@[simp] theorem setBmState_bm (st : BmState) (s : State) :
    (setBmState st s).bm = { s.bm with state := st } := rfl
@[simp] theorem setBmState_lanes (st : BmState) (s : State) : (setBmState st s).lanes = s.lanes := rfl
@[simp] theorem setBmState_sp (st : BmState) (s : State) : (setBmState st s).sp = s.sp := rfl
@[simp] theorem setBmState_mem (st : BmState) (s : State) : (setBmState st s).mem = s.mem := rfl
@[simp] theorem setBmState_rsp (st : BmState) (s : State) : (setBmState st s).rsp = s.rsp := rfl
@[simp] theorem setBmState_evt (st : BmState) (s : State) : (setBmState st s).evt = s.evt := rfl
@[simp] theorem setBmState_port (st : BmState) (s : State) : (setBmState st s).port = s.port := rfl
@[simp] theorem setBmState_env (st : BmState) (s : State) : (setBmState st s).env = s.env := rfl
@[simp] theorem setBmState_tick (st : BmState) (s : State) : (setBmState st s).tick = s.tick := rfl

/-! ### `setSpState` -/

@[simp] theorem setSpState_cfg (st : SpState) (s : State) : (setSpState st s).cfg = s.cfg := rfl
@[simp] theorem setSpState_regs (st : SpState) (s : State) :
    (setSpState st s).regs = { s.regs with spState := spStateWord st s.sp.path } := rfl
@[simp] theorem setSpState_bm (st : SpState) (s : State) : (setSpState st s).bm = s.bm := rfl
@[simp] theorem setSpState_lanes (st : SpState) (s : State) : (setSpState st s).lanes = s.lanes := rfl
@[simp] theorem setSpState_sp (st : SpState) (s : State) :
    (setSpState st s).sp = { s.sp with state := st } := rfl
@[simp] theorem setSpState_mem (st : SpState) (s : State) : (setSpState st s).mem = s.mem := rfl
@[simp] theorem setSpState_rsp (st : SpState) (s : State) : (setSpState st s).rsp = s.rsp := rfl
@[simp] theorem setSpState_evt (st : SpState) (s : State) : (setSpState st s).evt = s.evt := rfl
@[simp] theorem setSpState_port (st : SpState) (s : State) : (setSpState st s).port = s.port := rfl
@[simp] theorem setSpState_env (st : SpState) (s : State) : (setSpState st s).env = s.env := rfl
@[simp] theorem setSpState_tick (st : SpState) (s : State) : (setSpState st s).tick = s.tick := rfl

/-! ### `withEvents` -/

@[simp] theorem withEvents_cfg (events : List Event) (s : State) :
    (withEvents events s).cfg = s.cfg := rfl
@[simp] theorem withEvents_regs (events : List Event) (s : State) :
    (withEvents events s).regs = s.regs := rfl
@[simp] theorem withEvents_bm (events : List Event) (s : State) : (withEvents events s).bm = s.bm := rfl
@[simp] theorem withEvents_lanes (events : List Event) (s : State) :
    (withEvents events s).lanes = s.lanes := rfl
@[simp] theorem withEvents_sp (events : List Event) (s : State) : (withEvents events s).sp = s.sp := rfl
@[simp] theorem withEvents_mem (events : List Event) (s : State) :
    (withEvents events s).mem = s.mem := rfl
@[simp] theorem withEvents_rsp (events : List Event) (s : State) :
    (withEvents events s).rsp = s.rsp := rfl
@[simp] theorem withEvents_evt (events : List Event) (s : State) :
    (withEvents events s).evt = s.evt := rfl
@[simp] theorem withEvents_port (events : List Event) (s : State) :
    (withEvents events s).port = s.port := rfl
@[simp] theorem withEvents_env (events : List Event) (s : State) :
    (withEvents events s).env = { s.env with events := events } := rfl
@[simp] theorem withEvents_tick (events : List Event) (s : State) :
    (withEvents events s).tick = s.tick := rfl

/-! ### `advanceReader` -/

@[simp] theorem advanceReader_cfg (n : Nat) (s : State) : (advanceReader n s).cfg = s.cfg := rfl
@[simp] theorem advanceReader_regs (n : Nat) (s : State) : (advanceReader n s).regs = s.regs := rfl
@[simp] theorem advanceReader_bm (n : Nat) (s : State) : (advanceReader n s).bm = s.bm := rfl
@[simp] theorem advanceReader_lanes (n : Nat) (s : State) : (advanceReader n s).lanes = s.lanes := rfl
@[simp] theorem advanceReader_sp (n : Nat) (s : State) :
    (advanceReader n s).sp = { s.sp with rpos := s.sp.rpos + n } := rfl
@[simp] theorem advanceReader_mem (n : Nat) (s : State) : (advanceReader n s).mem = s.mem := rfl
@[simp] theorem advanceReader_rsp (n : Nat) (s : State) : (advanceReader n s).rsp = s.rsp := rfl
@[simp] theorem advanceReader_evt (n : Nat) (s : State) : (advanceReader n s).evt = s.evt := rfl
@[simp] theorem advanceReader_port (n : Nat) (s : State) : (advanceReader n s).port = s.port := rfl
@[simp] theorem advanceReader_env (n : Nat) (s : State) : (advanceReader n s).env = s.env := rfl
@[simp] theorem advanceReader_tick (n : Nat) (s : State) : (advanceReader n s).tick = s.tick := rfl

/-! ### `observeRsp` -/

@[simp] theorem observeRsp_cfg (s : State) : (observeRsp s).cfg = s.cfg := rfl
@[simp] theorem observeRsp_regs (s : State) : (observeRsp s).regs = s.regs := rfl
@[simp] theorem observeRsp_bm (s : State) : (observeRsp s).bm = s.bm := rfl
@[simp] theorem observeRsp_lanes (s : State) : (observeRsp s).lanes = s.lanes := rfl
@[simp] theorem observeRsp_sp (s : State) : (observeRsp s).sp = s.sp := rfl
@[simp] theorem observeRsp_mem (s : State) : (observeRsp s).mem = s.mem := rfl
@[simp] theorem observeRsp_rsp (s : State) : (observeRsp s).rsp = s.rsp := rfl
@[simp] theorem observeRsp_evt (s : State) : (observeRsp s).evt = s.evt := rfl
@[simp] theorem observeRsp_port (s : State) :
    (observeRsp s).port = { s.port with rspSeen := s.port.rspSeen + 1 } := rfl
@[simp] theorem observeRsp_env (s : State) : (observeRsp s).env = s.env := rfl
@[simp] theorem observeRsp_tick (s : State) : (observeRsp s).tick = s.tick := rfl

/-! ### `observeEvt` -/

@[simp] theorem observeEvt_cfg (s : State) : (observeEvt s).cfg = s.cfg := rfl
@[simp] theorem observeEvt_regs (s : State) : (observeEvt s).regs = s.regs := rfl
@[simp] theorem observeEvt_bm (s : State) : (observeEvt s).bm = s.bm := rfl
@[simp] theorem observeEvt_lanes (s : State) : (observeEvt s).lanes = s.lanes := rfl
@[simp] theorem observeEvt_sp (s : State) : (observeEvt s).sp = s.sp := rfl
@[simp] theorem observeEvt_mem (s : State) : (observeEvt s).mem = s.mem := rfl
@[simp] theorem observeEvt_rsp (s : State) : (observeEvt s).rsp = s.rsp := rfl
@[simp] theorem observeEvt_evt (s : State) : (observeEvt s).evt = s.evt := rfl
@[simp] theorem observeEvt_port (s : State) :
    (observeEvt s).port = { s.port with evtSeen := s.port.evtSeen + 1 } := rfl
@[simp] theorem observeEvt_env (s : State) : (observeEvt s).env = s.env := rfl
@[simp] theorem observeEvt_tick (s : State) : (observeEvt s).tick = s.tick := rfl

/-! ### `hostRegRead` -/

@[simp] theorem hostRegRead_cfg (i : BitVec 6) (s : State) : (hostRegRead i s).cfg = s.cfg := rfl
@[simp] theorem hostRegRead_regs (i : BitVec 6) (s : State) : (hostRegRead i s).regs = s.regs := rfl
@[simp] theorem hostRegRead_bm (i : BitVec 6) (s : State) : (hostRegRead i s).bm = s.bm := rfl
@[simp] theorem hostRegRead_lanes (i : BitVec 6) (s : State) : (hostRegRead i s).lanes = s.lanes := rfl
@[simp] theorem hostRegRead_sp (i : BitVec 6) (s : State) : (hostRegRead i s).sp = s.sp := rfl
@[simp] theorem hostRegRead_mem (i : BitVec 6) (s : State) : (hostRegRead i s).mem = s.mem := rfl
@[simp] theorem hostRegRead_rsp (i : BitVec 6) (s : State) : (hostRegRead i s).rsp = s.rsp := rfl
@[simp] theorem hostRegRead_evt (i : BitVec 6) (s : State) : (hostRegRead i s).evt = s.evt := rfl
@[simp] theorem hostRegRead_port (i : BitVec 6) (s : State) :
    (hostRegRead i s).port = { s.port with regData := regRead s i } := rfl
@[simp] theorem hostRegRead_env (i : BitVec 6) (s : State) : (hostRegRead i s).env = s.env := rfl
@[simp] theorem hostRegRead_tick (i : BitVec 6) (s : State) : (hostRegRead i s).tick = s.tick := rfl

/-! ### `keyEngine` -/

@[simp] theorem keyEngine_cfg (key iv : List Byte) (f : Bool) (s : State) :
    (keyEngine key iv f s).cfg = s.cfg := rfl
@[simp] theorem keyEngine_regs (key iv : List Byte) (f : Bool) (s : State) :
    (keyEngine key iv f s).regs = { s.regs with bmMode := withEncryptBit s.regs.bmMode f } := rfl
@[simp] theorem keyEngine_bm (key iv : List Byte) (f : Bool) (s : State) :
    (keyEngine key iv f s).bm = { wipeEngine s.bm with key := key, chain := iv, enc := f } := rfl
@[simp] theorem keyEngine_lanes (key iv : List Byte) (f : Bool) (s : State) :
    (keyEngine key iv f s).lanes = s.lanes := rfl
@[simp] theorem keyEngine_sp (key iv : List Byte) (f : Bool) (s : State) :
    (keyEngine key iv f s).sp = s.sp := rfl
@[simp] theorem keyEngine_mem (key iv : List Byte) (f : Bool) (s : State) :
    (keyEngine key iv f s).mem = s.mem := rfl
@[simp] theorem keyEngine_rsp (key iv : List Byte) (f : Bool) (s : State) :
    (keyEngine key iv f s).rsp = s.rsp := rfl
@[simp] theorem keyEngine_evt (key iv : List Byte) (f : Bool) (s : State) :
    (keyEngine key iv f s).evt = s.evt := rfl
@[simp] theorem keyEngine_port (key iv : List Byte) (f : Bool) (s : State) :
    (keyEngine key iv f s).port = s.port := rfl
@[simp] theorem keyEngine_env (key iv : List Byte) (f : Bool) (s : State) :
    (keyEngine key iv f s).env = s.env := rfl
@[simp] theorem keyEngine_tick (key iv : List Byte) (f : Bool) (s : State) :
    (keyEngine key iv f s).tick = s.tick := rfl

/-! ### `srcRead` -/

@[simp] theorem srcRead_snd_cfg (n : Nat) (s : State) : ((srcRead n s).2).cfg = s.cfg := rfl
@[simp] theorem srcRead_snd_regs (n : Nat) (s : State) : ((srcRead n s).2).regs = s.regs := rfl
@[simp] theorem srcRead_snd_bm (n : Nat) (s : State) : ((srcRead n s).2).bm = s.bm := rfl
@[simp] theorem srcRead_snd_lanes (n : Nat) (s : State) : ((srcRead n s).2).lanes = s.lanes := rfl
@[simp] theorem srcRead_snd_sp (n : Nat) (s : State) : ((srcRead n s).2).sp = s.sp := rfl
@[simp] theorem srcRead_snd_mem (n : Nat) (s : State) : ((srcRead n s).2).mem = s.mem := rfl
@[simp] theorem srcRead_snd_rsp (n : Nat) (s : State) : ((srcRead n s).2).rsp = s.rsp := rfl
@[simp] theorem srcRead_snd_evt (n : Nat) (s : State) : ((srcRead n s).2).evt = s.evt := rfl
@[simp] theorem srcRead_snd_port (n : Nat) (s : State) : ((srcRead n s).2).port = s.port := rfl
@[simp] theorem srcRead_snd_env (n : Nat) (s : State) :
    ((srcRead n s).2).env = { s.env with source := (sourceAnswer n s.env.source).2 } := rfl
@[simp] theorem srcRead_snd_tick (n : Nat) (s : State) : ((srcRead n s).2).tick = s.tick := rfl

/-! ### `snkWrite` -/

@[simp] theorem snkWrite_snd_cfg (bs : List Byte) (s : State) : ((snkWrite bs s).2).cfg = s.cfg := rfl
@[simp] theorem snkWrite_snd_regs (bs : List Byte) (s : State) : ((snkWrite bs s).2).regs = s.regs := rfl
@[simp] theorem snkWrite_snd_bm (bs : List Byte) (s : State) : ((snkWrite bs s).2).bm = s.bm := rfl
@[simp] theorem snkWrite_snd_lanes (bs : List Byte) (s : State) :
    ((snkWrite bs s).2).lanes = s.lanes := rfl
@[simp] theorem snkWrite_snd_sp (bs : List Byte) (s : State) : ((snkWrite bs s).2).sp = s.sp := rfl
@[simp] theorem snkWrite_snd_mem (bs : List Byte) (s : State) : ((snkWrite bs s).2).mem = s.mem := rfl
@[simp] theorem snkWrite_snd_rsp (bs : List Byte) (s : State) : ((snkWrite bs s).2).rsp = s.rsp := rfl
@[simp] theorem snkWrite_snd_evt (bs : List Byte) (s : State) : ((snkWrite bs s).2).evt = s.evt := rfl
@[simp] theorem snkWrite_snd_port (bs : List Byte) (s : State) : ((snkWrite bs s).2).port = s.port := rfl
@[simp] theorem snkWrite_snd_tick (bs : List Byte) (s : State) : ((snkWrite bs s).2).tick = s.tick := rfl

/-! ### `resetEvent` -/

@[simp] theorem resetEvent_cfg (s : State) : (resetEvent s).cfg = s.cfg := rfl
@[simp] theorem resetEvent_regs (s : State) : (resetEvent s).regs = Regs.reset s.cfg := rfl
@[simp] theorem resetEvent_bm (s : State) : (resetEvent s).bm = Bme.reset s.cfg := rfl
@[simp] theorem resetEvent_lanes (s : State) : (resetEvent s).lanes = s.lanes.map resetLane := rfl
@[simp] theorem resetEvent_sp (s : State) : (resetEvent s).sp = Spu.reset := rfl
@[simp] theorem resetEvent_mem (s : State) : (resetEvent s).mem = s.mem := rfl
@[simp] theorem resetEvent_rsp (s : State) : (resetEvent s).rsp = [] := rfl
@[simp] theorem resetEvent_evt (s : State) : (resetEvent s).evt = [] := rfl
@[simp] theorem resetEvent_port (s : State) :
    (resetEvent s).port = { s.port with rspSeen := 0, evtSeen := 0 } := rfl
@[simp] theorem resetEvent_env (s : State) : (resetEvent s).env = s.env := rfl
@[simp] theorem resetEvent_tick (s : State) : (resetEvent s).tick = s.tick := rfl

/-! ### `sizeEngine` -/

@[simp] theorem sizeEngine_cfg (s : State) : (sizeEngine s).cfg = s.cfg := rfl
@[simp] theorem sizeEngine_lanes (s : State) : (sizeEngine s).lanes = s.lanes := rfl
@[simp] theorem sizeEngine_sp (s : State) : (sizeEngine s).sp = s.sp := rfl
@[simp] theorem sizeEngine_mem (s : State) : (sizeEngine s).mem = s.mem := rfl
@[simp] theorem sizeEngine_rsp (s : State) : (sizeEngine s).rsp = s.rsp := rfl
@[simp] theorem sizeEngine_evt (s : State) : (sizeEngine s).evt = s.evt := rfl
@[simp] theorem sizeEngine_port (s : State) : (sizeEngine s).port = s.port := rfl
@[simp] theorem sizeEngine_env (s : State) : (sizeEngine s).env = s.env := rfl
@[simp] theorem sizeEngine_tick (s : State) : (sizeEngine s).tick = s.tick := rfl

/-! ### `selectEngine` -/

@[simp] theorem selectEngine_cfg (mode : CipherMode) (kind : BitVec 16) (c : BlockCipher) (s : State) :
    (selectEngine mode kind c s).cfg = s.cfg := by simp only [selectEngine]
@[simp] theorem selectEngine_lanes (mode : CipherMode) (kind : BitVec 16) (c : BlockCipher) (s : State) :
    (selectEngine mode kind c s).lanes = s.lanes := by simp only [selectEngine]
@[simp] theorem selectEngine_sp (mode : CipherMode) (kind : BitVec 16) (c : BlockCipher) (s : State) :
    (selectEngine mode kind c s).sp = s.sp := by simp only [selectEngine]
@[simp] theorem selectEngine_mem (mode : CipherMode) (kind : BitVec 16) (c : BlockCipher) (s : State) :
    (selectEngine mode kind c s).mem = s.mem := by simp only [selectEngine]
@[simp] theorem selectEngine_rsp (mode : CipherMode) (kind : BitVec 16) (c : BlockCipher) (s : State) :
    (selectEngine mode kind c s).rsp = s.rsp := by simp only [selectEngine]
@[simp] theorem selectEngine_evt (mode : CipherMode) (kind : BitVec 16) (c : BlockCipher) (s : State) :
    (selectEngine mode kind c s).evt = s.evt := by simp only [selectEngine]
@[simp] theorem selectEngine_port (mode : CipherMode) (kind : BitVec 16) (c : BlockCipher) (s : State) :
    (selectEngine mode kind c s).port = s.port := by simp only [selectEngine]
@[simp] theorem selectEngine_env (mode : CipherMode) (kind : BitVec 16) (c : BlockCipher) (s : State) :
    (selectEngine mode kind c s).env = s.env := by simp only [selectEngine]
@[simp] theorem selectEngine_tick (mode : CipherMode) (kind : BitVec 16) (c : BlockCipher) (s : State) :
    (selectEngine mode kind c s).tick = s.tick := by simp only [selectEngine]

/-! ### `selectTarget` -/

@[simp] theorem selectTarget_cfg (cls : SpClass) (kind : BitVec 16) (prim : Option (List Byte)) (s : State) :
    (selectTarget cls kind prim s).cfg = s.cfg := rfl
@[simp] theorem selectTarget_regs (cls : SpClass) (kind : BitVec 16) (prim : Option (List Byte)) (s : State) :
    (selectTarget cls kind prim s).regs = { s.regs with spKind := spKindWord cls kind } := rfl
@[simp] theorem selectTarget_bm (cls : SpClass) (kind : BitVec 16) (prim : Option (List Byte)) (s : State) :
    (selectTarget cls kind prim s).bm = s.bm := rfl
@[simp] theorem selectTarget_lanes (cls : SpClass) (kind : BitVec 16) (prim : Option (List Byte)) (s : State) :
    (selectTarget cls kind prim s).lanes = s.lanes := rfl
@[simp] theorem selectTarget_sp (cls : SpClass) (kind : BitVec 16) (prim : Option (List Byte)) (s : State) :
    (selectTarget cls kind prim s).sp = { wipeStream s.sp with cls := cls, kind := kind, prim := prim } := rfl
@[simp] theorem selectTarget_mem (cls : SpClass) (kind : BitVec 16) (prim : Option (List Byte)) (s : State) :
    (selectTarget cls kind prim s).mem = s.mem := rfl
@[simp] theorem selectTarget_rsp (cls : SpClass) (kind : BitVec 16) (prim : Option (List Byte)) (s : State) :
    (selectTarget cls kind prim s).rsp = s.rsp := rfl
@[simp] theorem selectTarget_evt (cls : SpClass) (kind : BitVec 16) (prim : Option (List Byte)) (s : State) :
    (selectTarget cls kind prim s).evt = s.evt := rfl
@[simp] theorem selectTarget_port (cls : SpClass) (kind : BitVec 16) (prim : Option (List Byte)) (s : State) :
    (selectTarget cls kind prim s).port = s.port := rfl
@[simp] theorem selectTarget_env (cls : SpClass) (kind : BitVec 16) (prim : Option (List Byte)) (s : State) :
    (selectTarget cls kind prim s).env = s.env := rfl
@[simp] theorem selectTarget_tick (cls : SpClass) (kind : BitVec 16) (prim : Option (List Byte)) (s : State) :
    (selectTarget cls kind prim s).tick = s.tick := rfl

/-! ### `accountFed` -/

@[simp] theorem accountFed_cfg (n : Nat) (s : State) : (accountFed n s).cfg = s.cfg := rfl
@[simp] theorem accountFed_regs (n : Nat) (s : State) :
    (accountFed n s).regs = { s.regs with spPos := BitVec.ofNat 64 (s.sp.cpos + n) } := rfl
@[simp] theorem accountFed_bm (n : Nat) (s : State) : (accountFed n s).bm = s.bm := rfl
@[simp] theorem accountFed_lanes (n : Nat) (s : State) : (accountFed n s).lanes = s.lanes := rfl
@[simp] theorem accountFed_sp (n : Nat) (s : State) :
    (accountFed n s).sp = { s.sp with cpos := s.sp.cpos + n } := rfl
@[simp] theorem accountFed_mem (n : Nat) (s : State) : (accountFed n s).mem = s.mem := rfl
@[simp] theorem accountFed_rsp (n : Nat) (s : State) : (accountFed n s).rsp = s.rsp := rfl
@[simp] theorem accountFed_evt (n : Nat) (s : State) :
    (accountFed n s).evt = s.evt ++ (progressPositions s.sp.interval s.sp.cpos (s.sp.cpos + n) s.sp.run.total).map (eventWord progressKind) := rfl
@[simp] theorem accountFed_port (n : Nat) (s : State) : (accountFed n s).port = s.port := rfl
@[simp] theorem accountFed_env (n : Nat) (s : State) : (accountFed n s).env = s.env := rfl
@[simp] theorem accountFed_tick (n : Nat) (s : State) : (accountFed n s).tick = s.tick := rfl

/-! ### `pushBuffer` -/

@[simp] theorem pushBuffer_cfg (bs : List Byte) (s : State) : (pushBuffer bs s).cfg = s.cfg := rfl
@[simp] theorem pushBuffer_regs (bs : List Byte) (s : State) : (pushBuffer bs s).regs = s.regs := rfl
@[simp] theorem pushBuffer_bm (bs : List Byte) (s : State) : (pushBuffer bs s).bm = s.bm := rfl
@[simp] theorem pushBuffer_lanes (bs : List Byte) (s : State) : (pushBuffer bs s).lanes = s.lanes := rfl
@[simp] theorem pushBuffer_mem (bs : List Byte) (s : State) : (pushBuffer bs s).mem = s.mem := rfl
@[simp] theorem pushBuffer_rsp (bs : List Byte) (s : State) : (pushBuffer bs s).rsp = s.rsp := rfl
@[simp] theorem pushBuffer_evt (bs : List Byte) (s : State) : (pushBuffer bs s).evt = s.evt := rfl
@[simp] theorem pushBuffer_port (bs : List Byte) (s : State) : (pushBuffer bs s).port = s.port := rfl
@[simp] theorem pushBuffer_env (bs : List Byte) (s : State) : (pushBuffer bs s).env = s.env := rfl
@[simp] theorem pushBuffer_tick (bs : List Byte) (s : State) : (pushBuffer bs s).tick = s.tick := rfl

/-! ### Records of the units -/

@[simp] theorem wipeEngine_eq (bm : Bme) : wipeEngine bm = { bm with key := [], chain := [] } := rfl

@[simp] theorem wipeLane_eq (l : Lane) : wipeLane l = { l with busy := false, key := [], reg := [] } := rfl

@[simp] theorem wipeStream_eq (sp : Spu) : wipeStream sp = { sp with key := [], prim := none } := rfl

@[simp] theorem resetLane_eq (l : Lane) : resetLane l = Lane.reset := rfl

@[simp] theorem raise_eq (opcode tag : BitVec 8) (code : Code) (s : State) :
    raise opcode tag code s = .next (respond opcode tag code s) := rfl

end Sys2Proof.Machine
end

