-- ==== Sys2Proof/Laws/Operations.lean ====
section
/-! SUPPORT. For each shared operation and each agent's step, one lemma that says once everything it can do
when it answers a next state. -/

namespace Sys2Proof.Machine

/-! ### Ranges -/

theorem bufRange_eq_some (s : State) (base size off : Word) (n a : Nat) :
    bufRange s base size off n = some a ↔
      off.toNat + n ≤ size.toNat ∧ base.toNat + size.toNat ≤ memSize s ∧ a = base.toNat + off.toNat := by
  unfold bufRange
  split
  · simp; omega
  · split
    · simp; omega
    · simp; omega

theorem keyRange_eq_some (s : State) (base len : Word) (a : Nat) :
    keyRange s base len = some a ↔ base.toNat + len.toNat ≤ memSize s ∧ a = base.toNat := by
  unfold keyRange
  split
  · simp; omega
  · simp; omega

/-- A range of `n` bytes that the check lets through lies in `MEM`. -/
theorem bufRange_inside (s : State) (base size off : Word) (n a : Nat)
    (h : bufRange s base size off n = some a) : a + n ≤ memSize s := by
  obtain ⟨h1, h2, rfl⟩ := (bufRange_eq_some s base size off n a).1 h
  omega

/-! ### The target of a run -/

theorem streamPrim?_digest (kind : BitVec 16) (d : Digest) (h : digest? kind = some d) :
    streamPrim? .digest kind = some d.toStreamPrim := by simp [streamPrim?, h]

theorem streamPrim?_mac (kind : BitVec 16) (m : Mac) (h : mac? kind = some m) :
    streamPrim? .mac kind = some m.toStreamPrim := by simp [streamPrim?, h]

/-- What restoring the target can do. -/
theorem restoreTarget_cases (s t : State) (h : restoreTarget s = some t) :
    (s.sp.cls = .digest ∧ ∃ d, digest? s.sp.kind = some d ∧ t = { s with sp := { s.sp with prim := some d.d0 } }) ∨
    (s.sp.cls = .mac ∧ ∃ m, mac? s.sp.kind = some m ∧
      t = { s with sp := { s.sp with prim := some (m.m0 s.sp.key) } }) ∨
    (s.sp.cls = .cipher ∧ t = setBmState .ready s) ∨ (s.sp.cls = .none ∧ t = s) := by
  unfold restoreTarget at h
  split at h
  · rename_i hc
    cases hd : digest? s.sp.kind with
    | none => simp [hd] at h
    | some d => left; exact ⟨hc, d, rfl, by simpa [hd] using h.symm⟩
  · rename_i hc
    cases hm : mac? s.sp.kind with
    | none => simp [hm] at h
    | some m => right; left; exact ⟨hc, m, rfl, by simpa [hm] using h.symm⟩
  · rename_i hc; right; right; left; exact ⟨hc, by simpa using h.symm⟩
  · rename_i hc; right; right; right; exact ⟨hc, by simpa using h.symm⟩

/-- What an abort can do: the queue and the fault emptied, the target restored, one response, `armed`. -/
theorem abortRun_cases (code : Code) (s t : State) (h : abortRun code s = .next t) :
    ∃ u, restoreTarget { s with sp := { s.sp with queue := [] } } = some u ∧
      t = setSpState .armed (respond 0x12 u.sp.run.tag code { u with sp := { u.sp with fault := none } }) := by
  unfold abortRun at h
  split at h
  · cases h
  · rename_i u hu
    exact ⟨u, hu, by simpa using h.symm⟩

/-- What storing the code of a run can do. -/
theorem storeCode_cases (s t : State) (h : storeCode s = .ok t) :
    ((s.sp.cls = .digest ∨ s.sp.cls = .mac) ∧ ∃ p st dst dsz, streamPrim? s.sp.cls s.sp.kind = some p ∧
      s.sp.prim = some st ∧ s.sp.run.out = some (dst, dsz) ∧ dst + dsz ≤ memSize s ∧
      t = { s with mem := setBytes s.mem dst ((p.fin st).take dsz) }) ∨
    ((s.sp.cls = .cipher ∨ s.sp.cls = .none) ∧ t = s) := by
  have code : ∀ cls : SpClass,
      (match streamPrim? cls s.sp.kind, s.sp.prim with
        | some p, some st =>
          match s.sp.run.out with
          | none => (Except.error Fault.noOutputRange : Except Fault State)
          | some (dst, dsz) =>
            match memWrite s dst dsz (p.fin st) with
            | some s1 => Except.ok s1
            | none => Except.error Fault.noSuchAddress
        | _, _ => Except.error Fault.noPrimitive) = Except.ok t →
      ∃ p st dst dsz, streamPrim? cls s.sp.kind = some p ∧ s.sp.prim = some st ∧
        s.sp.run.out = some (dst, dsz) ∧ dst + dsz ≤ memSize s ∧
        t = { s with mem := setBytes s.mem dst ((p.fin st).take dsz) } := by
    intro cls h
    split at h
    · rename_i p st hp hst
      split at h
      · cases h
      · rename_i dst dsz ho
        split at h
        · rename_i u hu
          cases h
          obtain ⟨h1, h2⟩ := (memWrite_eq_some s t dst dsz _).1 hu
          exact ⟨p, st, dst, dsz, hp, hst, ho, h1, h2⟩
        · cases h
    · cases h
  unfold storeCode at h
  cases hc : s.sp.cls with
  | digest =>
    simp only [hc] at h
    exact .inl ⟨.inl rfl, code .digest h⟩
  | mac =>
    simp only [hc] at h
    exact .inl ⟨.inr rfl, code .mac h⟩
  | cipher =>
    simp only [hc, Except.ok.injEq] at h
    exact .inr ⟨.inl rfl, h.symm⟩
  | none =>
    simp only [hc, Except.ok.injEq] at h
    exact .inr ⟨.inr rfl, h.symm⟩

/-- What the end of a run can do: the code stored, the target restored, `FINAL`, one response, `armed`. -/
theorem finish_cases (s t : State) (h : finish s = .next t) :
    ∃ u v, storeCode s = .ok u ∧ restoreTarget u = some v ∧
      t = setSpState .armed (respond 0x12 v.sp.run.tag .ok (emitEvent finalKind v.sp.run.total v)) := by
  unfold finish at h
  split at h
  · cases h
  · rename_i u hu
    split at h
    · cases h
    · rename_i v hv
      exact ⟨u, v, hu, hv, by simpa using h.symm⟩

/-! ### Feeding -/

/-- What feeding a buffer to the target can do when the run goes on. -/
theorem feedTarget_fed (bs : List Byte) (s t : State) (h : feedTarget bs s = .fed t) :
    ((s.sp.cls = .digest ∨ s.sp.cls = .mac) ∧ ∃ p st, streamPrim? s.sp.cls s.sp.kind = some p ∧
      s.sp.prim = some st ∧ t = { s with sp := { s.sp with prim := some (p.upd st bs) } }) ∨
    (s.sp.cls = .cipher ∧ ∃ c mode, engine s = some (c, mode) ∧
      (let r := serialXform c mode s.bm.enc s.bm.key s.bm.chain bs
       sinkAnswer s.env.sinkAnswers = true ∧
       t = (snkWrite r.1 { s with bm := { s.bm with chain := r.2 } }).2)) ∨
    (s.sp.cls = .none ∧ t = s) := by
  unfold feedTarget at h
  cases hc : s.sp.cls with
  | digest =>
    simp only [hc] at h
    split at h
    · rename_i p st hp hst
      exact .inl ⟨.inl rfl, p, st, hp, hst, by simpa [hc] using h.symm⟩
    · cases h
  | mac =>
    simp only [hc] at h
    split at h
    · rename_i p st hp hst
      exact .inl ⟨.inr rfl, p, st, hp, hst, by simpa [hc] using h.symm⟩
    · cases h
  | cipher =>
    simp only [hc] at h
    split at h
    · cases h
    · rename_i c mode he
      split at h
      · rename_i hs
        exact .inr (.inl ⟨rfl, c, mode, he, by simpa [snkWrite] using hs, by simpa using h.symm⟩)
      · cases h
  | none =>
    simp only [hc] at h
    exact .inr (.inr ⟨rfl, by simpa using h.symm⟩)

/-- What feeding a buffer can do when it ends the run: the sink refused the bytes, and the run is aborted. -/
theorem feedTarget_ended (bs : List Byte) (s t : State) (h : feedTarget bs s = .ended (.next t)) :
    s.sp.cls = .cipher ∧ ∃ c mode, engine s = some (c, mode) ∧
      (let r := serialXform c mode s.bm.enc s.bm.key s.bm.chain bs
       sinkAnswer s.env.sinkAnswers = false ∧
       abortRun .io (snkWrite r.1 { s with bm := { s.bm with chain := r.2 } }).2 = .next t) := by
  unfold feedTarget at h
  cases hc : s.sp.cls with
  | digest => simp only [hc] at h; split at h <;> cases h
  | mac => simp only [hc] at h; split at h <;> cases h
  | cipher =>
    simp only [hc] at h
    split at h
    · cases h
    · rename_i c mode he
      split at h
      · cases h
      · rename_i hs
        refine ⟨rfl, c, mode, he, by simpa [snkWrite] using hs, ?_⟩
        simpa using h
  | none => simp only [hc] at h; cases h

theorem feed_fed (bs : List Byte) (s t : State) (h : feed bs s = .fed t) :
    ∃ u, feedTarget bs s = .fed u ∧ t = accountFed bs.length u := by
  unfold feed at h
  split at h
  · rename_i u hu; exact ⟨u, hu, by simpa using h.symm⟩
  · cases h

theorem feed_ended (bs : List Byte) (s : State) (r : Result) (h : feed bs s = .ended r) :
    feedTarget bs s = .ended r := by
  unfold feed at h
  split at h
  · cases h
  · rename_i r' hr; simpa [hr] using h

/-! ### The agents of a run -/

/-- A source delivers no more than was asked for. -/
theorem sourceAnswer_length (n : Nat) (answers : List SrcAnswer) (bs : List Byte)
    (h : (sourceAnswer n answers).1 = .data bs) : bs.length ≤ n := by
  unfold sourceAnswer at h
  split at h
  · simp only [SrcAnswer.data.injEq] at h; subst h; simp
  · cases h
  · split at h
    · simp only [SrcAnswer.data.injEq] at h; subst h; assumption
    · simp only [SrcAnswer.data.injEq] at h; subst h; simp

/-- The state with the source moved past its answer to the next request. -/
def sourceMoved (s : State) : State := (srcRead (requestSize s) s).2

@[simp] theorem sourceMoved_eq (s : State) :
    sourceMoved s =
      { s with env := { s.env with source := (sourceAnswer (requestSize s) s.env.source).2 } } := rfl

/-- What `SeqStep` can do (42 R203): abort for the cancel flag, the source or the sink, or feed a whole request
and finish with the last. -/
theorem seqStep_cases (s t : State) (h : seqStep s = .next t) :
    (s.sp.cancel = true ∧ abortRun .cancelled s = .next t) ∨
    (s.sp.cancel = false ∧ (sourceAnswer (requestSize s) s.env.source).1 = .fail ∧
      abortRun .io (sourceMoved s) = .next t) ∨
    (∃ bs, s.sp.cancel = false ∧ (sourceAnswer (requestSize s) s.env.source).1 = .data bs ∧
      bs.length < requestSize s ∧ abortRun .unexpectedEof (sourceMoved s) = .next t) ∨
    (∃ bs, s.sp.cancel = false ∧ (sourceAnswer (requestSize s) s.env.source).1 = .data bs ∧
      bs.length = requestSize s ∧
      (feed bs (advanceReader (requestSize s) (sourceMoved s)) = .ended (.next t) ∨
        ∃ u, feed bs (advanceReader (requestSize s) (sourceMoved s)) = .fed u ∧
          ((u.sp.cpos = u.sp.run.total ∧ finish u = .next t) ∨
            (u.sp.cpos ≠ u.sp.run.total ∧ t = u)))) := by
  unfold seqStep at h
  split at h
  · rename_i hc; exact .inl ⟨hc, h⟩
  · rename_i hc
    simp only [Bool.not_eq_true] at hc
    split at h
    · rename_i s1 hs
      have h1 : (sourceAnswer (requestSize s) s.env.source).1 = .fail := by
        simpa [srcRead] using congrArg Prod.fst hs
      have h2 : s1 = sourceMoved s := by rw [sourceMoved, hs]
      exact .inr (.inl ⟨hc, h1, h2 ▸ h⟩)
    · rename_i bs s1 hs
      have h1 : (sourceAnswer (requestSize s) s.env.source).1 = .data bs := by
        simpa [srcRead] using congrArg Prod.fst hs
      have h2 : s1 = sourceMoved s := by rw [sourceMoved, hs]
      subst h2
      have hle := sourceAnswer_length _ _ _ h1
      split at h
      · rename_i hl; exact .inr (.inr (.inl ⟨bs, hc, h1, hl, h⟩))
      · rename_i hl
        refine .inr (.inr (.inr ⟨bs, hc, h1, by omega, ?_⟩))
        split at h
        · rename_i r hr
          subst h; exact .inl hr
        · rename_i u hu
          refine .inr ⟨u, hu, ?_⟩
          split at h
          · rename_i hp; exact .inl ⟨hp, h⟩
          · rename_i hp; exact .inr ⟨hp, by simpa using h.symm⟩

/-- What `RdrStep` can do (42 R205). -/
theorem rdrStep_cases (s t : State) (h : rdrStep s = .next t) :
    (s.sp.cancel = true ∧ t = { s with sp := { s.sp with fault := some .cancelled } }) ∨
    (s.sp.cancel = false ∧ (sourceAnswer (requestSize s) s.env.source).1 = .fail ∧
      t = { sourceMoved s with sp := { s.sp with fault := some .io } }) ∨
    (∃ bs, s.sp.cancel = false ∧ (sourceAnswer (requestSize s) s.env.source).1 = .data bs ∧
      bs.length < requestSize s ∧
      t = { sourceMoved s with sp := { s.sp with fault := some .unexpectedEof } }) ∨
    (∃ bs, s.sp.cancel = false ∧ (sourceAnswer (requestSize s) s.env.source).1 = .data bs ∧
      bs.length = requestSize s ∧
      t = pushBuffer bs (advanceReader (requestSize s) (sourceMoved s))) := by
  unfold rdrStep at h
  split at h
  · rename_i hc; exact .inl ⟨hc, by simpa [readerFault] using h.symm⟩
  · rename_i hc
    simp only [Bool.not_eq_true] at hc
    split at h
    · rename_i s1 hs
      have h1 : (sourceAnswer (requestSize s) s.env.source).1 = .fail := by
        simpa [srcRead] using congrArg Prod.fst hs
      have h2 : s1 = sourceMoved s := by rw [sourceMoved, hs]
      subst h2
      exact .inr (.inl ⟨hc, h1, by simpa [readerFault] using h.symm⟩)
    · rename_i bs s1 hs
      have h1 : (sourceAnswer (requestSize s) s.env.source).1 = .data bs := by
        simpa [srcRead] using congrArg Prod.fst hs
      have h2 : s1 = sourceMoved s := by rw [sourceMoved, hs]
      subst h2
      have hle := sourceAnswer_length _ _ _ h1
      split at h
      · rename_i hl
        exact .inr (.inr (.inl ⟨bs, hc, h1, hl, by simpa [readerFault] using h.symm⟩))
      · rename_i hl
        exact .inr (.inr (.inr ⟨bs, hc, h1, by omega, by simpa only [Host.Outcome.next.injEq] using h.symm⟩))

/-- What `CsmStep` can do (42 R206). -/
theorem csmStep_cases (s t : State) (h : csmStep s = .next t) :
    (∃ code, s.sp.fault = some code ∧ abortRun code s = .next t) ∨
    (s.sp.fault = none ∧ s.sp.queue = [] ∧ t = s) ∨
    (∃ bs rest, s.sp.fault = none ∧ s.sp.queue = bs :: rest ∧
      (feed bs { s with sp := { s.sp with queue := rest } } = .ended (.next t) ∨
        ∃ u, feed bs { s with sp := { s.sp with queue := rest } } = .fed u ∧
          ((u.sp.readerDone = true ∧ u.sp.queue = [] ∧ finish u = .next t) ∨
            (¬ (u.sp.readerDone = true ∧ u.sp.queue = []) ∧ t = u)))) := by
  unfold csmStep at h
  split at h
  · rename_i code hf; exact .inl ⟨code, hf, h⟩
  · rename_i hf
    split at h
    · rename_i hq; exact .inr (.inl ⟨hf, hq, by simpa using h.symm⟩)
    · rename_i bs rest hq
      refine .inr (.inr ⟨bs, rest, hf, hq, ?_⟩)
      split at h
      · rename_i r hr; subst h; exact .inl hr
      · rename_i u hu
        refine .inr ⟨u, hu, ?_⟩
        split at h
        · rename_i hp; exact .inl ⟨hp.1, hp.2, h⟩
        · rename_i hp; exact .inr ⟨hp, by simpa using h.symm⟩

/-! ### The steps of a transform -/

/-- What `SerialStep` can do (40 R133). -/
theorem serialStep_cases (xf : Transform) (s t : State) (h : serialStep xf s = .next t) :
    ∃ c mode, engine s = some (c, mode) ∧
      (let m := min s.bm.blockSize (xf.len - xf.pos)
       let x := bytesAt s.mem (xf.src + xf.pos) m
       let r :=
        if m = s.bm.blockSize then blockStep c mode s.bm.enc s.bm.key s.bm.chain x
        else tailStep c s.bm.key s.bm.chain x
       xf.src + xf.pos + m ≤ memSize s ∧ xf.dst + xf.pos + m ≤ memSize s ∧
       t =
        { s with
          mem := setBytes s.mem (xf.dst + xf.pos) (r.1.take m)
          bm := { s.bm with chain := r.2, xf := some { xf with pos := xf.pos + m } } }) := by
  unfold serialStep at h
  split at h
  · cases h
  · rename_i c mode he
    refine ⟨c, mode, he, ?_⟩
    simp only at h ⊢
    split at h
    · cases h
    · rename_i x hx
      obtain ⟨h1, rfl⟩ := (memRead_eq_some _ _ _ _).1 hx
      split at h
      · cases h
      · rename_i s1 hs
        obtain ⟨h2, rfl⟩ := (memWrite_eq_some _ _ _ _ _).1 hs
        exact ⟨h1, h2, by simpa using h.symm⟩

/-- What `LaneStep` can do (41 R167). -/
theorem laneStep_cases (i : Nat) (l : Lane) (s t : State) (h : laneStep i l s = .next t) :
    ∃ c mode, engine s = some (c, mode) ∧
      (let r := laneBlock c mode l.key l.reg (bytesAt s.mem l.src s.bm.blockSize)
       l.src + s.bm.blockSize ≤ memSize s ∧ l.dst + s.bm.blockSize ≤ memSize s ∧
       t =
        { s with
          mem := setBytes s.mem l.dst (r.1.take s.bm.blockSize)
          lanes :=
            s.lanes.set i
              { l with
                reg := r.2
                src := l.src + s.bm.blockSize
                dst := l.dst + s.bm.blockSize
                n := l.n - 1 } }) := by
  unfold laneStep at h
  split at h
  · cases h
  · rename_i c mode he
    refine ⟨c, mode, he, ?_⟩
    split at h
    · cases h
    · rename_i x hx
      obtain ⟨h1, rfl⟩ := (memRead_eq_some _ _ _ _).1 hx
      simp only at h ⊢
      split at h
      · cases h
      · rename_i s1 hs
        obtain ⟨h2, rfl⟩ := (memWrite_eq_some _ _ _ _ _).1 hs
        exact ⟨h1, h2, by simpa using h.symm⟩

/-- What `Spawn` can do (41 R165). -/
theorem spawn_cases (xf : Transform) (s t : State) (h : spawn xf s = .next t) :
    ∃ mode lanes nextChain, s.bm.mode = some mode ∧
      spawnLanes s mode xf (List.range s.cfg.threads) = some lanes ∧
      unitNextChain s mode xf = some nextChain ∧
      t =
        { s with
          lanes := lanes
          bm := { s.bm with xf := some { xf with phase := .par nextChain } } } := by
  unfold spawn at h
  split at h
  · cases h
  · rename_i mode hm
    split at h
    · rename_i lanes nc hl hn
      exact ⟨mode, lanes, nc, hm, hl, hn, by simpa using h.symm⟩
    · cases h

/-- The records spawned, lane by lane. -/
theorem spawnLanes_eq_some (s : State) (mode : CipherMode) (xf : Transform) (ts : List Nat)
    (lanes : List Lane) (h : spawnLanes s mode xf ts = some lanes) :
    lanes.length = ts.length ∧
      ∀ (i : Nat) (l : Lane), lanes[i]? = some l → ∃ t, ts[i]? = some t ∧ spawnLane s mode xf t = some l := by
  induction ts generalizing lanes with
  | nil => simp only [spawnLanes, Option.some.injEq] at h; subst h; simp
  | cons t ts ih =>
    unfold spawnLanes at h
    split at h
    · rename_i l ls hl hls
      simp only [Option.some.injEq] at h
      subst h
      obtain ⟨h1, h2⟩ := ih ls hls
      refine ⟨by simp [h1], ?_⟩
      intro i m hi
      cases i with
      | zero => exact ⟨t, rfl, by simpa [hl] using hi⟩
      | succ i => simpa using h2 i m (by simpa using hi)
    · cases h

/-- The turn of an agent: its step, or nothing. -/
theorem agentStep_cases (a : Agent) (s t : State) (h : agentStep a s = .next t) :
    (enabled s a = true ∧ agentAct a s = .next t) ∨ (enabled s a = false ∧ t = s) := by
  unfold agentStep at h
  split at h
  · rename_i he; exact .inl ⟨he, h⟩
  · rename_i he; exact .inr ⟨by simpa using he, by simpa using h.symm⟩

/-- What `CTL` can do (40 R133, R134; 41 R165, R169). -/
theorem ctlStep_cases (s t : State) (h : ctlStep s = .next t) :
    (s.bm.xf = none ∧ t = s) ∨
    (∃ xf nextChain, s.bm.xf = some xf ∧ xf.phase = .par nextChain ∧ join xf nextChain s = .next t) ∨
    (∃ xf, s.bm.xf = some xf ∧ xf.phase = .idle ∧
      ((0 < xf.npar ∧ spawn xf s = .next t) ∨
        (xf.npar = 0 ∧ xf.pos < xf.len ∧ serialStep xf s = .next t) ∨
        (xf.npar = 0 ∧ xf.len ≤ xf.pos ∧ complete xf s = .next t))) := by
  unfold ctlStep at h
  split at h
  · rename_i hx; exact .inl ⟨hx, by simpa using h.symm⟩
  · rename_i xf hx
    split at h
    · rename_i nc hp; exact .inr (.inl ⟨xf, nc, hx, hp, h⟩)
    · rename_i hp
      refine .inr (.inr ⟨xf, hx, hp, ?_⟩)
      split at h
      · rename_i hn; exact .inl ⟨hn, h⟩
      · rename_i hn
        split at h
        · rename_i hl; exact .inr (.inl ⟨by omega, hl, h⟩)
        · rename_i hl; exact .inr (.inr ⟨by omega, by omega, h⟩)

/-- What the hardware left to itself can do: nothing, or the step of one enabled agent. -/
theorem freeStep_cases (s t : State) (h : freeStep s = .next t) :
    (enabledAgents s = [] ∧ t = s) ∨
    (∃ a, enabled s a = true ∧ agentAct a { s with tick := s.tick + 1 } = .next t) := by
  unfold freeStep at h
  split at h
  · rename_i he; exact .inl ⟨he, by simpa using h.symm⟩
  · rename_i a rest he
    refine .inr ⟨_, ?_, h⟩
    have hlt : Config.schedule s.tick % (a :: rest).length < (a :: rest).length :=
      Nat.mod_lt _ (by simp)
    rw [List.getD_eq_getElem _ _ hlt]
    have hm : (a :: rest)[Config.schedule s.tick % (a :: rest).length] ∈ enabledAgents s :=
      by rw [he]; exact List.getElem_mem hlt
    exact (List.mem_filter.1 hm).2

/-- What a step can do: the next event, or a step of the hardware left to itself. -/
theorem step_cases (s t : State) (h : step s = .next t) :
    (∃ e rest, s.env.events = e :: rest ∧ ready e s = true ∧ happen e (withEvents rest s) = .next t) ∨
    ((s.env.events = [] ∨ ∃ e rest, s.env.events = e :: rest ∧ ready e s = false) ∧
      freeStep s = .next t) := by
  unfold step at h
  split at h
  · rename_i he; exact .inr ⟨.inl he, h⟩
  · rename_i e rest he
    split at h
    · rename_i hr; exact .inl ⟨e, rest, he, hr, h⟩
    · rename_i hr; exact .inr ⟨.inr ⟨e, rest, he, by simpa using hr⟩, h⟩

end Sys2Proof.Machine
end

