-- ==== Sys2Proof/Laws/Commands.lean ====
section
/-! SUPPORT. For each command, one lemma that says once everything it can do when it answers a next state: it
is rejected with a code and nothing else, or it has the one effect of its rule. -/

namespace Sys2Proof.Machine

/-- `t` is `s` with one rejection more in the response log. -/
def rejectedAs (opcode tag : BitVec 8) (codes : List Code) (s t : State) : Prop :=
  ∃ code ∈ codes, code ≠ .ok ∧ t = respond opcode tag code s

theorem rejected_of_raise (opcode tag : BitVec 8) (codes : List Code) (code : Code) (s t : State)
    (hc : code ∈ codes) (hk : code ≠ .ok) (h : raise opcode tag code s = .next t) :
    rejectedAs opcode tag codes s t :=
  ⟨code, hc, hk, by simpa using h.symm⟩

theorem execBmNew_cases (tag sel : BitVec 8) (kind : BitVec 16) (s t : State)
    (h : execBmNew tag sel kind s = .next t) :
    rejectedAs 0x01 tag [.busy, .unsupported] s t ∨
    (∃ mode c, s.bm.state ≠ .transforming ∧ modeOfSel sel = some mode ∧ blockCipher? kind = some c ∧
      (mode = .ctr → c.blockSize = 16) ∧
      t = respond 0x01 tag .ok (setBmState .init (sizeEngine (selectEngine mode kind c s)))) := by
  unfold execBmNew at h
  split at h
  · exact .inl (rejected_of_raise _ _ _ _ _ _ (by simp) (by simp) h)
  · rename_i hst
    split at h
    · exact .inl (rejected_of_raise _ _ _ _ _ _ (by simp) (by simp) h)
    · rename_i mode hm
      split at h
      · exact .inl (rejected_of_raise _ _ _ _ _ _ (by simp) (by simp) h)
      · rename_i c hc
        split at h
        · exact .inl (rejected_of_raise _ _ _ _ _ _ (by simp) (by simp) h)
        · rename_i hb
          refine .inr ⟨mode, c, hst, hm, hc, ?_, by simpa only [Host.Outcome.next.injEq] using h.symm⟩
          intro hmode
          by_contra hne
          exact hb ⟨hmode, hne⟩

theorem execBmInit_cases (tag : BitVec 8) (f : Bool) (s t : State) (h : execBmInit tag f s = .next t) :
    rejectedAs 0x02 tag [.busy, .notInitialized, .invalidParameter] s t ∨
    (s.bm.state ≠ .transforming ∧ s.bm.mode ≠ none ∧ keyLenOk s.bm.kind s.regs.keyLen.toNat = true ∧
      s.regs.ivLen.toNat = s.bm.blockSize ∧
      t =
        respond 0x02 tag .ok
          (setBmState .ready
            (keyEngine (bytesAt s.mem s.regs.keyBase.toNat s.regs.keyLen.toNat)
              (bytesAt s.mem s.regs.ivBase.toNat s.bm.blockSize) f s))) := by
  unfold execBmInit at h
  split at h
  · exact .inl (rejected_of_raise _ _ _ _ _ _ (by simp) (by simp) h)
  split at h
  · exact .inl (rejected_of_raise _ _ _ _ _ _ (by simp) (by simp) h)
  split at h
  · exact .inl (rejected_of_raise _ _ _ _ _ _ (by simp) (by simp) h)
  split at h
  · exact .inl (rejected_of_raise _ _ _ _ _ _ (by simp) (by simp) h)
  rename_i h1 h2 h3 h4
  split at h
  · rename_i ka ia hka hia
    obtain ⟨-, rfl⟩ := (keyRange_eq_some _ _ _ _).1 hka
    obtain ⟨-, rfl⟩ := (keyRange_eq_some _ _ _ _).1 hia
    split at h
    · rename_i key iv hk hi
      obtain ⟨-, rfl⟩ := (memRead_eq_some _ _ _ _).1 hk
      obtain ⟨-, rfl⟩ := (memRead_eq_some _ _ _ _).1 hi
      exact .inr ⟨h1, h2, by simpa using h3, by simpa using h4,
        by simpa only [Host.Outcome.next.injEq] using h.symm⟩
    · cases h
  · exact .inl (rejected_of_raise _ _ _ _ _ _ (by simp) (by simp) h)

theorem execBmXblk_cases (tag : BitVec 8) (s t : State) (h : execBmXblk tag s = .next t) :
    rejectedAs 0x03 tag [.notInitialized, .invalidParameter] s t ∨
    (∃ a o c mode, s.bm.state = .ready ∧ inputRange s s.bm.blockSize = some a ∧
      outputRange s s.bm.blockSize = some o ∧ overlapOk a o s.bm.blockSize = true ∧
      engine s = some (c, mode) ∧
      (let r := blockStep c mode s.bm.enc s.bm.key s.bm.chain (bytesAt s.mem a s.bm.blockSize)
       t =
        respond 0x03 tag .ok
          { s with
            mem := setBytes s.mem o (r.1.take s.bm.blockSize)
            bm := { s.bm with chain := r.2 } })) := by
  unfold execBmXblk at h
  split at h
  · exact .inl (rejected_of_raise _ _ _ _ _ _ (by simp) (by simp) h)
  rename_i h1
  split at h
  · rename_i a o ha ho
    split at h
    · exact .inl (rejected_of_raise _ _ _ _ _ _ (by simp) (by simp) h)
    rename_i hov
    split at h
    · cases h
    rename_i c mode he
    split at h
    · cases h
    rename_i x hx
    obtain ⟨-, rfl⟩ := (memRead_eq_some _ _ _ _).1 hx
    simp only at h
    split at h
    · cases h
    rename_i s1 hs
    obtain ⟨-, rfl⟩ := (memWrite_eq_some _ _ _ _ _).1 hs
    exact .inr ⟨a, o, c, mode, by simpa using h1, ha, ho, by simpa using hov, he,
      by simpa only [Host.Outcome.next.injEq] using h.symm⟩
  · exact .inl (rejected_of_raise _ _ _ _ _ _ (by simp) (by simp) h)

theorem execBmXfrm_cases (tag : BitVec 8) (s t : State) (h : execBmXfrm tag s = .next t) :
    rejectedAs 0x04 tag [.notInitialized, .invalidParameter] s t ∨
    (∃ a o, s.bm.state = .ready ∧
      (needsWholeBlocks s.bm.mode = true → s.regs.len.toNat % s.bm.blockSize = 0) ∧
      inputRange s s.regs.len.toNat = some a ∧ outputRange s s.regs.len.toNat = some o ∧
      overlapOk a o s.regs.len.toNat = true ∧
      ((s.regs.len.toNat = 0 ∧ t = respond 0x04 tag .ok s) ∨
        (s.regs.len.toNat ≠ 0 ∧
          t =
            setBmState .transforming
              { s with bm := { s.bm with xf := some (newTransform tag a o s.regs.len.toNat s) } }))) := by
  unfold execBmXfrm at h
  split at h
  · exact .inl (rejected_of_raise _ _ _ _ _ _ (by simp) (by simp) h)
  split at h
  · exact .inl (rejected_of_raise _ _ _ _ _ _ (by simp) (by simp) h)
  rename_i h1 h2
  split at h
  · rename_i a o ha ho
    split at h
    · exact .inl (rejected_of_raise _ _ _ _ _ _ (by simp) (by simp) h)
    rename_i hov
    refine .inr ⟨a, o, by simpa using h1, ?_, ha, ho, by simpa using hov, ?_⟩
    · intro hw; by_contra hne; exact h2 ⟨hw, hne⟩
    · split at h
      · rename_i hl; exact .inl ⟨hl, by simpa only [Host.Outcome.next.injEq] using h.symm⟩
      · rename_i hl; exact .inr ⟨hl, by simpa only [Host.Outcome.next.injEq] using h.symm⟩
  · exact .inl (rejected_of_raise _ _ _ _ _ _ (by simp) (by simp) h)

theorem execBmSetpbs_cases (tag : BitVec 8) (s t : State) (h : execBmSetpbs tag s = .next t) :
    rejectedAs 0x05 tag [.busy, .notInitialized, .invalidParameter] s t ∨
    (s.bm.state ≠ .transforming ∧ s.bm.mode ≠ none ∧ s.regs.bmParMin.toNat ≤ s.regs.arg.toNat ∧
      s.regs.arg.toNat ≤ s.regs.bmParMax.toNat ∧ s.regs.arg.toNat % s.regs.bmParMin.toNat = 0 ∧
      t =
        respond 0x05 tag .ok
          { s with
            bm := { s.bm with pbs := s.regs.arg.toNat }
            regs := { s.regs with bmParBlock := s.regs.arg } }) := by
  unfold execBmSetpbs at h
  split at h
  · exact .inl (rejected_of_raise _ _ _ _ _ _ (by simp) (by simp) h)
  split at h
  · exact .inl (rejected_of_raise _ _ _ _ _ _ (by simp) (by simp) h)
  split at h
  · exact .inl (rejected_of_raise _ _ _ _ _ _ (by simp) (by simp) h)
  rename_i h1 h2 h3
  exact .inr ⟨h1, h2, by omega, by omega, by omega, by simpa only [Host.Outcome.next.injEq] using h.symm⟩

theorem execBmSetpar_cases (tag : BitVec 8) (f : Bool) (s t : State) (h : execBmSetpar tag f s = .next t) :
    rejectedAs 0x06 tag [.busy] s t ∨
    (s.bm.state ≠ .transforming ∧
      t =
        respond 0x06 tag .ok
          { s with
            bm := { s.bm with par := f }
            regs := { s.regs with bmIsParallel := BitVec.ofNat 64 (bit f) } }) := by
  unfold execBmSetpar at h
  split at h
  · exact .inl (rejected_of_raise _ _ _ _ _ _ (by simp) (by simp) h)
  · rename_i h1; exact .inr ⟨h1, by simpa only [Host.Outcome.next.injEq] using h.symm⟩

theorem execBmRelease_cases (tag : BitVec 8) (s t : State) (h : execBmRelease tag s = .next t) :
    rejectedAs 0x07 tag [.busy] s t ∨
    (s.bm.state ≠ .transforming ∧
      t =
        respond 0x07 tag .ok
          (setBmState .init
            { s with
              bm := { wipeEngine s.bm with enc := false }
              regs := { s.regs with bmMode := withEncryptBit s.regs.bmMode false } })) := by
  unfold execBmRelease at h
  split at h
  · exact .inl (rejected_of_raise _ _ _ _ _ _ (by simp) (by simp) h)
  · rename_i h1; exact .inr ⟨h1, by simpa only [Host.Outcome.next.injEq] using h.symm⟩

theorem execSpNew_cases (tag sel : BitVec 8) (kind : BitVec 16) (s t : State)
    (h : execSpNew tag sel kind s = .next t) :
    rejectedAs 0x10 tag [.busy, .unsupported, .invalidParameter] s t ∨
    (s.sp.state ≠ .running ∧
      ((sel = 1 ∧ ∃ d, digest? kind = some d ∧
          t = respond 0x10 tag .ok (setSpState .armed (selectTarget .digest kind (some d.d0) s))) ∨
        (sel = 2 ∧ (∃ m, mac? kind = some m) ∧
          t = respond 0x10 tag .ok (setSpState .attached (selectTarget .mac kind none s))) ∨
        (sel = 3 ∧ kind = 0 ∧
          t = respond 0x10 tag .ok (setSpState .armed (selectTarget .cipher kind none s))))) := by
  unfold execSpNew at h
  split at h
  · exact .inl (rejected_of_raise _ _ _ _ _ _ (by simp) (by simp) h)
  rename_i h1
  have sels : ∀ cls, classOfSel sel = some cls →
      (sel = 1 ∧ cls = .digest) ∨ (sel = 2 ∧ cls = .mac) ∨ (sel = 3 ∧ cls = .cipher) := by
    intro cls hc
    unfold classOfSel at hc
    split at hc
    · rename_i h; exact .inl ⟨h, by simpa using hc.symm⟩
    split at hc
    · rename_i h; exact .inr (.inl ⟨h, by simpa using hc.symm⟩)
    split at hc
    · rename_i h; exact .inr (.inr ⟨h, by simpa using hc.symm⟩)
    · cases hc
  split at h
  · rename_i hc
    have hs : sel = 1 := by rcases sels _ hc with h | h | h <;> simp_all
    split at h
    · exact .inl (rejected_of_raise _ _ _ _ _ _ (by simp) (by simp) h)
    · rename_i d hd
      exact .inr ⟨h1, .inl ⟨hs, d, hd, by simpa only [Host.Outcome.next.injEq] using h.symm⟩⟩
  · rename_i hc
    have hs : sel = 2 := by rcases sels _ hc with h | h | h <;> simp_all
    split at h
    · exact .inl (rejected_of_raise _ _ _ _ _ _ (by simp) (by simp) h)
    · rename_i m hm
      exact .inr ⟨h1, .inr (.inl ⟨hs, ⟨m, hm⟩, by simpa only [Host.Outcome.next.injEq] using h.symm⟩)⟩
  · rename_i hc
    have hs : sel = 3 := by rcases sels _ hc with h | h | h <;> simp_all
    split at h
    · exact .inl (rejected_of_raise _ _ _ _ _ _ (by simp) (by simp) h)
    · rename_i hk
      exact .inr ⟨h1, .inr (.inr ⟨hs, by simpa using hk, by simpa only [Host.Outcome.next.injEq] using h.symm⟩)⟩
  · exact .inl (rejected_of_raise _ _ _ _ _ _ (by simp) (by simp) h)

theorem execSpKey_cases (tag : BitVec 8) (s t : State) (h : execSpKey tag s = .next t) :
    rejectedAs 0x11 tag [.busy, .notInitialized, .unsupported, .invalidParameter] s t ∨
    (∃ m, (s.sp.state = .attached ∨ s.sp.state = .armed) ∧ s.sp.cls = .mac ∧ mac? s.sp.kind = some m ∧
      macKeyLenOk s.sp.kind s.regs.keyLen.toNat = true ∧
      (let key := bytesAt s.mem s.regs.keyBase.toNat s.regs.keyLen.toNat
       t =
        respond 0x11 tag .ok
          (setSpState .armed
            { s with sp := { wipeStream s.sp with key := key, prim := some (m.m0 key) } }))) := by
  unfold execSpKey at h
  split at h
  · exact .inl (rejected_of_raise _ _ _ _ _ _ (by simp) (by simp) h)
  split at h
  · exact .inl (rejected_of_raise _ _ _ _ _ _ (by simp) (by simp) h)
  split at h
  · exact .inl (rejected_of_raise _ _ _ _ _ _ (by simp) (by simp) h)
  split at h
  · exact .inl (rejected_of_raise _ _ _ _ _ _ (by simp) (by simp) h)
  rename_i h1 h2 h3 h4
  split at h
  · exact .inl (rejected_of_raise _ _ _ _ _ _ (by simp) (by simp) h)
  rename_i ka hka
  obtain ⟨-, rfl⟩ := (keyRange_eq_some _ _ _ _).1 hka
  split at h
  · rename_i key m hk hm
    obtain ⟨-, rfl⟩ := (memRead_eq_some _ _ _ _).1 hk
    refine .inr ⟨m, ?_, by simpa using h3, hm, by simpa using h4,
      by simpa only [Host.Outcome.next.injEq] using h.symm⟩
    cases hs : s.sp.state <;> simp_all
  · cases h
  · cases h

theorem execSpRun_cases (tag : BitVec 8) (s t : State) (h : execSpRun tag s = .next t) :
    rejectedAs 0x12 tag [.busy, .notInitialized, .unsupported, .invalidParameter] s t ∨
    (s.sp.state = .armed ∧ s.regs.spTotal.toNat < 2 ^ 56 ∧
      (((s.sp.cls = .digest ∨ s.sp.cls = .mac) ∧
          ∃ p o, streamPrim? s.sp.cls s.sp.kind = some p ∧ outputRange s p.digestSize = some o ∧
            acceptRun tag (some (o, p.digestSize)) p.blockSize s = .next t) ∨
        (s.sp.cls = .cipher ∧ s.bm.state = .ready ∧ s.cfg.bufSize % s.bm.blockSize = 0 ∧
          (needsWholeBlocks s.bm.mode = true → s.regs.spTotal.toNat % s.bm.blockSize = 0) ∧
          acceptRun tag none s.bm.blockSize s = .next t))) := by
  unfold execSpRun at h
  split at h
  · exact .inl (rejected_of_raise _ _ _ _ _ _ (by simp) (by simp) h)
  split at h
  · exact .inl (rejected_of_raise _ _ _ _ _ _ (by simp) (by simp) h)
  split at h
  · exact .inl (rejected_of_raise _ _ _ _ _ _ (by simp) (by simp) h)
  split at h
  · exact .inl (rejected_of_raise _ _ _ _ _ _ (by simp) (by simp) h)
  split at h
  · exact .inl (rejected_of_raise _ _ _ _ _ _ (by simp) (by simp) h)
  split at h
  · exact .inl (rejected_of_raise _ _ _ _ _ _ (by simp) (by simp) h)
  rename_i h1 h2 h3 h4 h5 h6
  have hst : s.sp.state = .armed := by cases hs : s.sp.state <;> simp_all
  have code : ∀ cls : SpClass,
      (match streamPrim? cls s.sp.kind with
        | none => (Host.Outcome.fault Fault.noPrimitive : Result)
        | some p =>
          match outputRange s p.digestSize with
          | none => raise 0x12 tag .invalidParameter s
          | some o => acceptRun tag (some (o, p.digestSize)) p.blockSize s) = .next t →
      rejectedAs 0x12 tag [.busy, .notInitialized, .unsupported, .invalidParameter] s t ∨
      ∃ p o, streamPrim? cls s.sp.kind = some p ∧ outputRange s p.digestSize = some o ∧
        acceptRun tag (some (o, p.digestSize)) p.blockSize s = .next t := by
    intro cls h
    split at h
    · cases h
    rename_i p hp
    split at h
    · exact .inl (rejected_of_raise _ _ _ _ _ _ (by simp) (by simp) h)
    rename_i o ho
    exact .inr ⟨p, o, hp, ho, h⟩
  cases hc : s.sp.cls with
  | digest =>
    simp only [hc] at h
    rcases code .digest h with h | h
    · exact .inl h
    · exact .inr ⟨hst, by omega, .inl ⟨.inl rfl, h⟩⟩
  | mac =>
    simp only [hc] at h
    rcases code .mac h with h | h
    · exact .inl h
    · exact .inr ⟨hst, by omega, .inl ⟨.inr rfl, h⟩⟩
  | cipher =>
    simp only [hc, true_and] at h h3 h4 h6
    refine .inr ⟨hst, by omega, .inr ⟨rfl, by simpa using h3, by simpa using h4, ?_, h⟩⟩
    intro hw; by_contra hne; exact h6 ⟨hw, hne⟩
  | none => simp only [hc] at h; cases h

/-- What accepting a run can do: it starts, and a run of no bytes ends in the same step. -/
theorem acceptRun_cases (tag : BitVec 8) (out : Option (Nat × Nat)) (nbs : Nat) (s t : State)
    (h : acceptRun tag out nbs s = .next t) :
    (s.regs.spTotal.toNat = 0 ∧ finish (startRun tag out nbs s) = .next t) ∨
    (s.regs.spTotal.toNat ≠ 0 ∧ t = startRun tag out nbs s) := by
  unfold acceptRun at h
  split at h
  · rename_i hl; exact .inl ⟨hl, h⟩
  · rename_i hl; exact .inr ⟨hl, by simpa only [Host.Outcome.next.injEq] using h.symm⟩

theorem execSpCancel_cases (tag : BitVec 8) (s t : State) (h : execSpCancel tag s = .next t) :
    (s.sp.state = .running ∧ t = respond 0x13 tag .ok { s with sp := { s.sp with cancel := true } }) ∨
    (s.sp.state ≠ .running ∧ t = respond 0x13 tag .ok s) := by
  unfold execSpCancel at h
  split at h
  · rename_i hs; exact .inl ⟨hs, by simpa using h.symm⟩
  · rename_i hs; exact .inr ⟨hs, by simpa using h.symm⟩

theorem execSpRelease_cases (tag : BitVec 8) (s t : State) (h : execSpRelease tag s = .next t) :
    rejectedAs 0x14 tag [.busy] s t ∨
    (s.sp.state ≠ .running ∧
      t =
        respond 0x14 tag .ok
          (setSpState .empty
            { s with
              sp := { wipeStream s.sp with cls := .none, kind := 0 }
              regs := { s.regs with spKind := 0 } })) := by
  unfold execSpRelease at h
  split at h
  · exact .inl (rejected_of_raise _ _ _ _ _ _ (by simp) (by simp) h)
  · rename_i h1; exact .inr ⟨h1, by simpa only [Host.Outcome.next.injEq] using h.symm⟩

end Sys2Proof.Machine
end

