-- ==== Sys2Proof/Laws/Encoding.lean ====
section
/-! SUPPORT. Facts about command words: where each field of a written word stands (30_encoding.md R93), and that
every command is well formed (R101). -/

namespace Sys2Proof.Laws.Encoding

theorem extract_append_low {n m : Nat} (x : BitVec n) (y : BitVec m) (a k : Nat) (h : a + k ≤ m) :
    (x ++ y).extractLsb' a k = y.extractLsb' a k := by
  apply BitVec.eq_of_getLsbD_eq
  intro i hi
  simp only [BitVec.getLsbD_extractLsb', BitVec.getLsbD_append, hi, show a + i < m by omega, if_true]

theorem extract_append_high {n m : Nat} (x : BitVec n) (y : BitVec m) (a k : Nat) (h : m ≤ a) :
    (x ++ y).extractLsb' a k = x.extractLsb' (a - m) k := by
  apply BitVec.eq_of_getLsbD_eq
  intro i hi
  simp only [BitVec.getLsbD_extractLsb', BitVec.getLsbD_append, hi, show ¬ a + i < m by omega, if_false]
  congr 2
  omega

theorem extract_whole {n : Nat} (x : BitVec n) : x.extractLsb' 0 n = x := by simp

theorem wordOfRaw_opcode (r : RawCommand) : (wordOfRaw r).extractLsb' 0 8 = r.opcode := by
  rw [wordOfRaw, extract_append_low _ _ _ _ (by decide), extract_whole]

theorem wordOfRaw_tag (r : RawCommand) : (wordOfRaw r).extractLsb' 8 8 = r.tag := by
  rw [wordOfRaw, extract_append_high _ _ _ _ (by decide), extract_append_low _ _ _ _ (by decide),
    extract_whole]

theorem wordOfRaw_sel (r : RawCommand) : (wordOfRaw r).extractLsb' 16 8 = r.sel := by
  rw [wordOfRaw, extract_append_high _ _ _ _ (by decide), extract_append_high _ _ _ _ (by decide),
    extract_append_low _ _ _ _ (by decide), extract_whole]

theorem wordOfRaw_reservedLow (r : RawCommand) : (wordOfRaw r).extractLsb' 24 8 = r.reservedLow := by
  rw [wordOfRaw, extract_append_high _ _ _ _ (by decide), extract_append_high _ _ _ _ (by decide),
    extract_append_high _ _ _ _ (by decide), extract_append_low _ _ _ _ (by decide), extract_whole]

theorem wordOfRaw_kind (r : RawCommand) : (wordOfRaw r).extractLsb' 32 16 = r.kind := by
  rw [wordOfRaw, extract_append_high _ _ _ _ (by decide), extract_append_high _ _ _ _ (by decide),
    extract_append_high _ _ _ _ (by decide), extract_append_high _ _ _ _ (by decide),
    extract_append_low _ _ _ _ (by decide), extract_whole]

theorem wordOfRaw_reservedHigh (r : RawCommand) : (wordOfRaw r).extractLsb' 48 16 = r.reservedHigh := by
  rw [wordOfRaw, extract_append_high _ _ _ _ (by decide), extract_append_high _ _ _ _ (by decide),
    extract_append_high _ _ _ _ (by decide), extract_append_high _ _ _ _ (by decide),
    extract_append_high _ _ _ _ (by decide), extract_whole]

/-- Every command is well formed: the widths of R93 are in the types of its arguments. -/
theorem wellFormed_true (i : Instr) : i.wellFormed = true := by
  cases i
  case bmInit tag f => cases f <;> simp [Instr.wellFormed, RawCommand.wellFormed, rawOfInstr, rawFields, formatOf, reservedClear, selOfFlag]
  case bmSetpar tag f => cases f <;> simp [Instr.wellFormed, RawCommand.wellFormed, rawOfInstr, rawFields, formatOf, reservedClear, selOfFlag]
  all_goals rfl

end Sys2Proof.Laws.Encoding
end

