-- ==== Sys2Proof/Laws/Invariant.lean ====
section
/-! SUPPORT. What each part of the invariant says, as a proposition, so that no proof unfolds a Boolean check. -/

namespace Sys2Proof.Machine

theorem memoryOk_iff (s : State) :
    memoryOk s = true ↔ Memory.wf s.mem = true ∧ ∀ c ∈ s.mem, c.1 < memSize s := by
  simp [memoryOk]

theorem registersOk_iff (s : State) :
    registersOk s = true ↔
      s.regs.bmState = BitVec.ofNat 64 (bmStateCode s.bm.state) ∧
      s.regs.bmMode = bmModeWord s.bm.mode s.bm.kind s.bm.enc ∧
      s.regs.bmBlockSize = BitVec.ofNat 64 s.bm.blockSize ∧
      s.regs.bmParMin = BitVec.ofNat 64 (parMin s.bm.blockSize s.cfg.threads) ∧
      s.regs.bmParMax = BitVec.ofNat 64 (parMax (parMin s.bm.blockSize s.cfg.threads)) ∧
      s.regs.bmParBlock = BitVec.ofNat 64 s.bm.pbs ∧
      s.regs.bmIsParallel = BitVec.ofNat 64 (bit s.bm.par) ∧
      s.regs.spState = spStateWord s.sp.state s.sp.path ∧
      s.regs.spKind = spKindWord s.sp.cls s.sp.kind ∧
      s.regs.spPos = BitVec.ofNat 64 s.sp.cpos ∧
      s.regs.spInterval = BitVec.ofNat 64 s.sp.interval := by
  simp only [registersOk, Bool.and_eq_true, beq_iff_eq, and_assoc]

theorem selectionOk_iff (s : State) :
    selectionOk s = true ↔
      (s.bm.mode = none ∧ s.bm.state = .init ∧ s.bm.kind = 0 ∧ s.bm.blockSize = 0 ∧ s.bm.pbs = 0) ∨
      (∃ mode c, s.bm.mode = some mode ∧ blockCipher? s.bm.kind = some c ∧
        s.bm.blockSize = c.blockSize ∧ (mode = .ctr → c.blockSize = 16) ∧
        parMin c.blockSize s.cfg.threads ≤ s.bm.pbs ∧
        s.bm.pbs ≤ parMax (parMin c.blockSize s.cfg.threads) ∧
        s.bm.pbs % parMin c.blockSize s.cfg.threads = 0) := by
  unfold selectionOk
  cases hm : s.bm.mode with
  | none => simp [and_assoc]
  | some mode =>
    cases hc : blockCipher? s.bm.kind with
    | none => simp
    | some c =>
      simp only [Bool.and_eq_true, beq_iff_eq, decide_eq_true_eq, Bool.or_eq_true, bne_iff_ne, reduceCtorEq,
        false_and, false_or, Option.some.injEq, exists_and_left, exists_eq_left', and_assoc,
        ← imp_iff_not_or, ne_eq]

theorem keyStateOk_iff (s : State) :
    keyStateOk s = true ↔
      (s.bm.state = .init → s.bm.key = [] ∧ s.bm.chain = [] ∧ s.bm.enc = false) ∧
      (s.bm.state ≠ .init →
        s.bm.mode ≠ none ∧ keyLenOk s.bm.kind s.bm.key.length = true ∧
          s.bm.chain.length = s.bm.blockSize) := by
  unfold keyStateOk
  cases h : s.bm.state <;> simp [Option.isSome_iff_ne_none, and_assoc]

theorem laneIdle_iff (l : Lane) :
    laneIdle l = true ↔ l.busy = false ∧ l.key = [] ∧ l.reg = [] ∧ l.n = 0 := by
  simp [laneIdle, and_assoc]

theorem laneBusyOk_iff (s : State) (xf : Transform) (t : Nat) (l : Lane) :
    laneBusyOk s xf t l = true ↔
      l.busy = true ∧ l.key = s.bm.key ∧ l.reg.length = s.bm.blockSize ∧
      l.n ≤ chunkCount (unitBlocks s) s.cfg.threads t ∧
      l.src + l.n * s.bm.blockSize =
        xf.src + laneOffset s xf t + chunkCount (unitBlocks s) s.cfg.threads t * s.bm.blockSize ∧
      l.dst + l.n * s.bm.blockSize =
        xf.dst + laneOffset s xf t + chunkCount (unitBlocks s) s.cfg.threads t * s.bm.blockSize := by
  simp only [laneBusyOk, Bool.and_eq_true, beq_iff_eq, decide_eq_true_eq, and_assoc]

theorem lanesAll_iff (p : Nat → Lane → Bool) (k : Nat) (ls : List Lane) :
    lanesAll p k ls = true ↔ ∀ i l, ls[i]? = some l → p (k + i) l = true := by
  induction ls generalizing k with
  | nil => simp [lanesAll]
  | cons l ls ih =>
    simp only [lanesAll, Bool.and_eq_true, ih]
    constructor
    · rintro ⟨h0, h⟩ i m hi
      cases i with
      | zero => simp only [List.getElem?_cons_zero, Option.some.injEq] at hi; subst hi; exact h0
      | succ i =>
        simp only [List.getElem?_cons_succ] at hi
        rw [show k + (i + 1) = k + 1 + i by omega]
        exact h i m hi
    · intro h
      refine ⟨h 0 l rfl, fun i m hi => ?_⟩
      rw [show k + 1 + i = k + (i + 1) by omega]
      exact h (i + 1) m (by simpa using hi)

theorem phaseOk_idle (s : State) (xf : Transform) (h : xf.phase = .idle) :
    phaseOk s xf = true ↔ ∀ l ∈ s.lanes, laneIdle l = true := by
  simp [phaseOk, h]

theorem phaseOk_par (s : State) (xf : Transform) (nextChain : List Byte) (h : xf.phase = .par nextChain) :
    phaseOk s xf = true ↔
      0 < xf.npar ∧ nextChain.length = s.bm.blockSize ∧
        ∀ i l, s.lanes[i]? = some l → laneBusyOk s xf i l = true := by
  simp only [phaseOk, h, Bool.and_eq_true, decide_eq_true_eq, beq_iff_eq, lanesAll_iff, Nat.zero_add, and_assoc]

theorem overlapOk_iff (a o n : Nat) : overlapOk a o n = true ↔ a = o ∨ a + n ≤ o ∨ o + n ≤ a := by
  simp [overlapOk, or_assoc]

theorem needsWholeBlocks_iff (mode : Option CipherMode) :
    needsWholeBlocks mode = true ↔ mode = some .cbc ∨ mode = some .cfb := by
  rcases mode with _ | _ | _ | _ <;> simp [needsWholeBlocks]

theorem transformOk_none (s : State) (h : s.bm.xf = none) :
    transformOk s = true ↔ ∀ l ∈ s.lanes, laneIdle l = true := by
  simp [transformOk, h]

theorem transformOk_some (s : State) (xf : Transform) (h : s.bm.xf = some xf) :
    transformOk s = true ↔
      s.bm.state = .transforming ∧ xf.src + xf.len ≤ memSize s ∧ xf.dst + xf.len ≤ memSize s ∧
      (xf.src = xf.dst ∨ xf.src + xf.len ≤ xf.dst ∨ xf.dst + xf.len ≤ xf.src) ∧
      xf.pos + xf.npar * s.bm.pbs ≤ xf.len ∧
      (needsWholeBlocks s.bm.mode = true → xf.len % s.bm.blockSize = 0 ∧ xf.pos % s.bm.blockSize = 0) ∧
      (xf.npar = 0 ∨ s.bm.mode = some .ctr ∨ s.bm.enc = false) ∧
      (xf.npar = 0 ∨ xf.pos % s.bm.blockSize = 0) ∧ phaseOk s xf = true := by
  simp only [transformOk, h, Bool.and_eq_true, beq_iff_eq, decide_eq_true_eq, Bool.or_eq_true, overlapOk_iff,
    Bool.not_eq_true', and_assoc, or_assoc, imp_iff_not_or, Bool.not_eq_true]

theorem engineHeldOk_iff (s : State) :
    engineHeldOk s = true ↔
      (s.bm.state = .transforming ↔
        (s.bm.xf ≠ none ∨ (s.sp.state = .running ∧ s.sp.cls = .cipher))) ∧
      ¬ (s.bm.xf ≠ none ∧ s.sp.state = .running ∧ s.sp.cls = .cipher) := by
  unfold engineHeldOk
  cases s.bm.state <;> cases s.bm.xf <;> cases s.sp.state <;> cases s.sp.cls <;> simp <;> rfl

theorem beq_decide_iff (b : Bool) (p : Prop) [Decidable p] : (b == decide p) = true ↔ (b = true ↔ p) := by
  cases b <;> simp

theorem runPositionsOk_iff (s : State) :
    runPositionsOk s = true ↔
      s.sp.run.total < 2 ^ 56 ∧ s.sp.cpos < s.sp.run.total ∧ s.sp.rpos ≤ s.sp.run.total ∧
      s.sp.rpos = s.sp.cpos + queuedBytes s.sp.queue ∧
      s.sp.interval = progressInterval s.sp.run.total (targetBlockSize s) ∧
      (s.sp.path = true →
        s.sp.queue.length ≤ s.cfg.queueCap ∧ (∀ q ∈ s.sp.queue, q ≠ []) ∧
        (s.sp.readerDone = true ↔ s.sp.rpos = s.sp.run.total) ∧
        (∀ code, s.sp.fault = some code →
          s.sp.readerDone = false ∧ (code = .io ∨ code = .unexpectedEof ∨ code = .cancelled))) ∧
      (s.sp.path = false → s.sp.queue = [] ∧ s.sp.readerDone = false ∧ s.sp.fault = none) := by
  unfold runPositionsOk
  cases hp : s.sp.path <;> cases hf : s.sp.fault <;>
    simp [and_assoc, beq_decide_iff, or_assoc, -beq_iff_eq, beq_iff_eq (α := Nat), beq_iff_eq (α := Code)]

theorem targetOk_iff (s : State) :
    targetOk s = true ↔
      (s.sp.cls = .digest ∧ (∃ d, digest? s.sp.kind = some d) ∧ s.sp.key = []) ∨
      (s.sp.cls = .mac ∧ macKeyLenOk s.sp.kind s.sp.key.length = true) ∨
      (s.sp.cls = .cipher ∧ s.sp.kind = 0 ∧ s.sp.key = [] ∧ s.sp.prim = none) := by
  unfold targetOk
  cases s.sp.cls <;> simp [Option.isSome_iff_exists, and_assoc]

theorem runTargetOk_iff (s : State) :
    runTargetOk s = true ↔
      ((s.sp.cls = .digest ∨ s.sp.cls = .mac) ∧
        ∃ p st dst, streamPrim? s.sp.cls s.sp.kind = some p ∧ s.sp.prim = some st ∧
          s.sp.run.out = some (dst, p.digestSize) ∧ dst + p.digestSize ≤ memSize s) ∨
      (s.sp.cls = .cipher ∧ s.sp.run.out = none ∧ s.cfg.bufSize % s.bm.blockSize = 0 ∧
        (needsWholeBlocks s.bm.mode = true →
          s.sp.run.total % s.bm.blockSize = 0 ∧ s.sp.rpos % s.bm.blockSize = 0 ∧
            ∀ q ∈ s.sp.queue, q.length % s.bm.blockSize = 0)) := by
  unfold runTargetOk
  have code : ∀ cls : SpClass,
      (s.sp.prim.isSome &&
        match streamPrim? cls s.sp.kind, s.sp.run.out with
        | some p, some (dst, dsz) => dsz == p.digestSize && decide (dst + dsz ≤ memSize s)
        | _, _ => false) = true ↔
      ∃ p st dst, streamPrim? cls s.sp.kind = some p ∧ s.sp.prim = some st ∧
        s.sp.run.out = some (dst, p.digestSize) ∧ dst + p.digestSize ≤ memSize s := by
    intro cls
    cases hp : streamPrim? cls s.sp.kind with
    | none => simp
    | some p =>
      cases ho : s.sp.run.out with
      | none => simp
      | some o =>
        obtain ⟨dst, dsz⟩ := o
        cases s.sp.prim with
        | none => simp
        | some st =>
          simp only [Option.isSome_some, Bool.true_and, Bool.and_eq_true, beq_iff_eq, decide_eq_true_eq,
            Option.some.injEq, Prod.mk.injEq]
          constructor
          · rintro ⟨rfl, h⟩; exact ⟨p, st, dst, rfl, rfl, ⟨rfl, rfl⟩, h⟩
          · rintro ⟨_, _, _, rfl, rfl, ⟨rfl, rfl⟩, h⟩; exact ⟨rfl, h⟩
  cases hc : s.sp.cls with
  | none => simp
  | digest => exact (code .digest).trans (by simp)
  | mac => exact (code .mac).trans (by simp)
  | cipher =>
    simp only [Bool.and_eq_true, beq_iff_eq, Bool.or_eq_true, Bool.not_eq_true', List.all_eq_true, reduceCtorEq,
      false_or, false_and, true_and, and_assoc, imp_iff_not_or, Bool.not_eq_true]

theorem streamOk_iff (s : State) :
    streamOk s = true ↔
      (s.sp.state = .empty → s.sp.cls = .none ∧ s.sp.kind = 0 ∧ s.sp.key = [] ∧ s.sp.prim = none) ∧
      (s.sp.state = .attached →
        s.sp.cls = .mac ∧ (∃ m, mac? s.sp.kind = some m) ∧ s.sp.key = [] ∧ s.sp.prim = none) ∧
      (s.sp.state = .armed → targetOk s = true ∧ s.sp.prim = initialPrim s) ∧
      (s.sp.state = .running → targetOk s = true ∧ runTargetOk s = true ∧ runPositionsOk s = true) := by
  unfold streamOk
  cases s.sp.state <;> simp [Option.isSome_iff_exists, and_assoc]

theorem logsOk_iff (s : State) :
    logsOk s = true ↔
      (∀ w ∈ s.rsp, legalResponse w = true) ∧ (∀ w ∈ s.evt, legalEvent w = true) ∧
      s.port.rspSeen ≤ s.rsp.length ∧ s.port.evtSeen ≤ s.evt.length := by
  simp [logsOk, and_assoc]

/-! ### Runs and buffer ownership -/

@[simp] theorem heldDuring_zero (p : State → Bool) (s : State) : heldDuring p 0 s = true := rfl

theorem heldDuring_succ (p : State → Bool) (n : Nat) (s : State) :
    heldDuring p (n + 1) s = true ↔ p s = true ∧ ∃ t, step s = .next t ∧ heldDuring p n t = true := by
  rw [heldDuring, Bool.and_eq_true]
  cases step s <;> simp

@[simp] theorem runSteps_zero (s : State) : runSteps 0 s = .next s := rfl

theorem runSteps_succ (n : Nat) (s t : State) :
    runSteps (n + 1) s = .next t ↔ ∃ u, step s = .next u ∧ runSteps n u = .next t := by
  rw [runSteps]
  cases step s <;> simp

theorem apart_iff (a n b m : Nat) :
    apart a n b m = true ↔ ∀ x, a ≤ x → x < a + n → b ≤ x → x < b + m → False := by
  simp only [apart, Bool.or_eq_true, decide_eq_true_eq]
  constructor
  · omega
  · intro h
    by_contra hc
    exact h (max a b) (by omega) (by omega) (by omega) (by omega)

theorem leavesRangesAlone_iff (a o n : Nat) (s : State) :
    leavesRangesAlone a o n s = true ↔
      eventSpares a n s = true ∧ eventSpares o n s = true ∧ runSpares a n s = true ∧ runSpares o n s = true := by
  simp only [leavesRangesAlone, Bool.and_eq_true, and_assoc]

end Sys2Proof.Machine
end

