-- ==== Sys2Proof/Laws/PerInstr.lean ====
section
/-! SUPPORT. Statements made of every command, one lemma per constructor of `Instr`. -/

namespace Sys2Proof.Laws.EncodeFields

/-- The operands of a command as its word carries them: opcode, tag, `sel`, `kind` (30_encoding.md R92, R93). -/
def fields : Instr → BitVec 8 × BitVec 8 × BitVec 8 × BitVec 16
  | .nop tag => (0x00, tag, 0, 0)
  | .bmNew tag sel kind => (0x01, tag, sel, kind)
  | .bmInit tag f => (0x02, tag, if f then 1 else 0, 0)
  | .bmXblk tag => (0x03, tag, 0, 0)
  | .bmXfrm tag => (0x04, tag, 0, 0)
  | .bmSetpbs tag => (0x05, tag, 0, 0)
  | .bmSetpar tag f => (0x06, tag, if f then 1 else 0, 0)
  | .bmRelease tag => (0x07, tag, 0, 0)
  | .spNew tag sel kind => (0x10, tag, sel, kind)
  | .spKey tag => (0x11, tag, 0, 0)
  | .spRun tag => (0x12, tag, 0, 0)
  | .spCancel tag => (0x13, tag, 0, 0)
  | .spRelease tag => (0x14, tag, 0, 0)

/-- The word of a command carries its opcode, tag, `sel` and `kind` at the bits of R93, its reserved bits are
zero, and it is well formed. -/
def Statement (i : Instr) : Prop :=
  (encode i).extractLsb' 0 8 = (fields i).1 ∧ (encode i).extractLsb' 8 8 = (fields i).2.1 ∧
  (encode i).extractLsb' 16 8 = (fields i).2.2.1 ∧ (encode i).extractLsb' 32 16 = (fields i).2.2.2 ∧
  (encode i).extractLsb' 24 8 = 0 ∧ (encode i).extractLsb' 48 16 = 0 ∧ i.wellFormed = true

theorem of_raw (i : Instr) (op tag sel : BitVec 8) (kind : BitVec 16)
    (hr : rawOfInstr i = rawFields op tag sel kind) (hf : fields i = (op, tag, sel, kind)) : Statement i := by
  simp only [Statement, encode, hr, hf, Encoding.wordOfRaw_opcode, Encoding.wordOfRaw_tag,
    Encoding.wordOfRaw_sel, Encoding.wordOfRaw_kind, Encoding.wordOfRaw_reservedLow,
    Encoding.wordOfRaw_reservedHigh, Encoding.wellFormed_true, rawFields, and_self]

theorem nop (tag : BitVec 8) : Statement (.nop tag) :=
  of_raw _ _ _ _ _ rfl rfl

theorem bmNew (tag : BitVec 8) (sel : BitVec 8) (kind : BitVec 16) : Statement (.bmNew tag sel kind) :=
  of_raw _ _ _ _ _ rfl rfl

theorem bmInit (tag : BitVec 8) (f : Bool) : Statement (.bmInit tag f) :=
  of_raw _ _ _ _ _ rfl rfl

theorem bmXblk (tag : BitVec 8) : Statement (.bmXblk tag) :=
  of_raw _ _ _ _ _ rfl rfl

theorem bmXfrm (tag : BitVec 8) : Statement (.bmXfrm tag) :=
  of_raw _ _ _ _ _ rfl rfl

theorem bmSetpbs (tag : BitVec 8) : Statement (.bmSetpbs tag) :=
  of_raw _ _ _ _ _ rfl rfl

theorem bmSetpar (tag : BitVec 8) (f : Bool) : Statement (.bmSetpar tag f) :=
  of_raw _ _ _ _ _ rfl rfl

theorem bmRelease (tag : BitVec 8) : Statement (.bmRelease tag) :=
  of_raw _ _ _ _ _ rfl rfl

theorem spNew (tag : BitVec 8) (sel : BitVec 8) (kind : BitVec 16) : Statement (.spNew tag sel kind) :=
  of_raw _ _ _ _ _ rfl rfl

theorem spKey (tag : BitVec 8) : Statement (.spKey tag) :=
  of_raw _ _ _ _ _ rfl rfl

theorem spRun (tag : BitVec 8) : Statement (.spRun tag) :=
  of_raw _ _ _ _ _ rfl rfl

theorem spCancel (tag : BitVec 8) : Statement (.spCancel tag) :=
  of_raw _ _ _ _ _ rfl rfl

theorem spRelease (tag : BitVec 8) : Statement (.spRelease tag) :=
  of_raw _ _ _ _ _ rfl rfl

end Sys2Proof.Laws.EncodeFields
end

