-- ==== Sys2Proof/Tests/Slice0.lean ====
section
/-! SUPPORT. The model's own tests: ill-formed words refused, words written out from the spec's encoding
decoded, worked values of spec/95_test_vectors.md, and for every statement with hypotheses a state and
operands that meet them all. Expected values are the spec's unless a docstring says otherwise. -/

namespace Sys2Proof.Tests

open Sys2Proof Sys2Proof.Machine

set_option Elab.async false

/-! ### Helpers -/

/-- The machine after the given events, which all happen. -/
def after (events : List Event) (s : State) : State :=
  match runSteps events.length (withEvents events s) with
  | .next t => t
  | _ => s

/-- A step's result is the given next state. -/
def leads (r : Result) (t : State) : Bool :=
  match r with
  | .next u => decide (u = t)
  | _ => false

theorem leads_next (r : Result) (t : State) (h : leads r t = true) : r = .next t := by
  cases r <;> simp_all [leads]

/-- The invariant as one check. -/
def invOk (s : State) : Bool :=
  s.cfg.ok && memoryOk s && registersOk s && selectionOk s && keyStateOk s &&
    decide (s.lanes.length = s.cfg.threads) && transformOk s && engineHeldOk s && streamOk s && logsOk s

theorem inv_of_ok (s : State) (h : invOk s = true) : Inv s := by
  simp only [invOk, Bool.and_eq_true, decide_eq_true_eq] at h
  obtain ⟨⟨⟨⟨⟨⟨⟨⟨⟨h1, h2⟩, h3⟩, h4⟩, h5⟩, h6⟩, h7⟩, h8⟩, h9⟩, h10⟩ := h
  exact ⟨h1, h2, h3, h4, h5, h6, h7, h8, h9, h10⟩

/-- The fixture digest, MAC and cipher, where a state's kind is known. -/
theorem digest_of (cls : SpClass) (kind : BitVec 16) (hc : cls = .digest) (h : kind = 0xFFF1) :
    streamPrim? cls kind = some toyPrim := by subst hc; subst h; rfl

theorem mac_of (kind : BitVec 16) (h : kind = 0xFFF2) : mac? kind = some toyMac := by subst h; rfl

theorem engine_of (s : State) (mode : CipherMode) (hm : s.bm.mode = some mode) (hk : s.bm.kind = 0xFFF0) :
    engine s = some (toyB, mode) := by
  rw [engine, hm, hk]; rfl

/-- The bytes `lo`, `lo + 1`, …, `n` of them. -/
def ramp (lo n : Nat) : List Byte := (List.range n).map (fun i => BitVec.ofNat 8 (lo + i))

/-- The fixture key `K` and IV of spec/95 section 2. -/
def K : List Byte := ramp 0x10 16

def IV : List Byte :=
  [0xf0, 0xe1, 0xd2, 0xc3, 0xb4, 0xa5, 0x96, 0x87, 0x78, 0x69, 0x5a, 0x4b, 0x3c, 0x2d, 0x1e, 0x0f]

def P : List Byte := ramp 0x20 16

/-- Two lanes, 128-byte buffers, a queue of 2, 32 address bits (spec/95 sections 2, 4.3, but for `T`). -/
def cfg : Params := { threads := 2, bufSize := 128, queueCap := 2, addrBits := 32 }

def start : State := State.powerUp cfg

def cmd (i : Instr) : Event := .issue (encode i)

/-- The operand registers of an input and an output buffer. -/
def setIn (base size off : Word) : List Event :=
  [.regWrite 0x10 base, .regWrite 0x11 size, .regWrite 0x12 off]

def setOut (base size off : Word) : List Event :=
  [.regWrite 0x13 base, .regWrite 0x14 size, .regWrite 0x15 off]

/-- A selected engine: `BM_NEW`, key and IV bytes in `MEM`, their registers written. -/
def selected (sel : BitVec 8) : State :=
  after
    [cmd (.bmNew 1 sel 0xFFF0), .memWrite 0x100 K, .memWrite 0x110 IV, .regWrite 0x17 0x100,
      .regWrite 0x18 16, .regWrite 0x19 0x110, .regWrite 0x1A 16] start

/-- A ready engine with 32-byte parallel blocks, `P` at `0x200`, 68-byte buffers set. -/
def readied (sel : BitVec 8) (f : Bool) (out : Word) (len : Word) : State :=
  after
    ([.regWrite 0x1B 32, cmd (.bmSetpbs 4), cmd (.bmInit 2 f), .memWrite 0x200 P] ++
      setIn 0x200 68 0 ++ setOut out 68 0 ++ [.regWrite 0x16 len]) (selected sel)

/-- An accepted transform of 68 bytes: two parallel blocks and a serial tail. -/
def transforming : State := after [cmd (.bmXfrm 5)] (readied 1 true 0x400 68)

/-- The same with its first parallel block spawned. -/
def spawned : State := after [.agent .ctl] transforming

/-- An armed stream unit over the digest, with the registers and the source of a run of `total` bytes. -/
def digestArmed (total ctl : Word) (source : List SrcAnswer) : State :=
  after
    ([cmd (.spNew 1 1 0xFFF1), .setSource source, .regWrite 0x22 total, .regWrite 0x23 ctl] ++
      setOut 0x500 4 0) start

/-- A MAC selected, with a key of 32 bytes placed (spec/95 section 4.3). -/
def macAttached : State :=
  after
    [cmd (.spNew 1 2 0xFFF2), .memWrite 0x400 (ramp 0 32), .regWrite 0x17 0x400, .regWrite 0x18 32] start

/-- The cipher class over a ready engine, for a run of `total` bytes. -/
def cipherArmed (sel : BitVec 8) (total ctl : Word) : State :=
  after
    [cmd (.spNew 6 3 0), .setSource [.data (ramp 7 300)], .regWrite 0x22 total, .regWrite 0x23 ctl]
    (readied sel true 0x400 68)

/-- A concurrent digest run of 300 bytes just accepted, and one whose queue is full. -/
def running : State := after [cmd (.spRun 3)] (digestArmed 300 3 [.data (ramp 7 300)])

def queueFull : State := after [.agent .rdr, .agent .rdr] running

/-! ### Well-formed words: each check refuses an ill-formed one (R93, R101) -/

theorem test_illformed_opcode : (rawFields 0xFF 6 0 0).wellFormed = false := by decide

theorem test_illformed_reserved_low :
    ({ rawFields 0x00 7 0 0 with reservedLow := 1 } : RawCommand).wellFormed = false := by decide

theorem test_illformed_reserved_high :
    ({ rawFields 0x01 7 1 0xFFF0 with reservedHigh := 1 } : RawCommand).wellFormed = false := by decide

theorem test_illformed_sel_in_format_n : (rawFields 0x03 0 1 0).wellFormed = false := by decide

theorem test_illformed_kind_in_format_n : (rawFields 0x12 0 0 1).wellFormed = false := by decide

theorem test_illformed_sel_in_format_f : (rawFields 0x02 0 2 0).wellFormed = false := by decide

theorem test_illformed_kind_in_format_f : (rawFields 0x06 0 1 1).wellFormed = false := by decide

/-! ### Words written out from the encoding of R93 -/

theorem test_decode_nop : decode 0x0000000000000900 = .ok (.nop 9) := by decide

theorem test_decode_bm_new : decode 0x0000FFF000010101 = .ok (.bmNew 1 1 0xFFF0) := by decide

theorem test_decode_bm_init : decode 0x0000000000010202 = .ok (.bmInit 2 true) := by decide

theorem test_decode_bm_xblk : decode 0x0000000000000303 = .ok (.bmXblk 3) := by decide

theorem test_decode_bm_xfrm : decode 0x0000000000000104 = .ok (.bmXfrm 1) := by decide

theorem test_decode_bm_setpbs : decode 0x0000000000000405 = .ok (.bmSetpbs 4) := by decide

theorem test_decode_bm_setpar : decode 0x0000000000000506 = .ok (.bmSetpar 5 false) := by decide

theorem test_decode_bm_release : decode 0x0000000000000607 = .ok (.bmRelease 6) := by decide

theorem test_decode_sp_new : decode 0x0000FFF200020110 = .ok (.spNew 1 2 0xFFF2) := by decide

theorem test_decode_sp_key : decode 0x0000000000000211 = .ok (.spKey 2) := by decide

theorem test_decode_sp_run : decode 0x0000000000000312 = .ok (.spRun 3) := by decide

theorem test_decode_sp_cancel : decode 0x0000000000000413 = .ok (.spCancel 4) := by decide

theorem test_decode_sp_release : decode 0x0000000000000514 = .ok (.spRelease 5) := by decide

/-- V40, V41: the words that are refused, and why. -/
theorem test_decode_refused :
    decode 0x00000000000006FF = .error (.unassignedOpcode 0xFF 6) ∧
      decode 0x0000000001000700 = .error (.reservedBits 0 7) ∧
      decode 0x0000000000020202 = .error (.reservedBits 2 2) := by decide

theorem test_decode_table_word : decodeTableWord 64 0x0000000000010202 = some (.bmInit 2 true) := by decide

/-! ### Worked values: V1 to V9 and R199, R126 -/

/-- V1. -/
theorem test_toy_cipher :
    toyB.E K IV =
        [0xf1, 0xe3, 0xd5, 0xc7, 0xb9, 0xab, 0x9d, 0x8f, 0x81, 0x73, 0x65, 0x57, 0x49, 0x3b, 0x2d, 0x0f] ∧
      toyB.D K (toyB.E K IV) = IV := by decide +kernel

/-- V2: the carry runs through three bytes; and the wrap of R243. -/
theorem test_counter :
    addCounter (List.replicate 12 0 ++ [0, 0xff, 0xff, 0xff]) 1 = List.replicate 12 0 ++ [1, 0, 0, 0] ∧
      addCounter (List.replicate 16 0xff) 1 = List.replicate 16 0 := by decide +kernel

/-- V3, the examples of R126: CTR, CBC encrypt, CBC decrypt, CFB encrypt, CFB decrypt. -/
theorem test_block_step :
    let y := [0xd1, 0xc2, 0xf7, 0xe4, 0x9d, 0x8e, 0xbb, 0xa8, 0xa9, 0x5a, 0x4f, 0x7c, 0x65, 0x16, 0x03, 0x20]
    let z := [0xd0, 0x01, 0xf2, 0xa3, 0x94, 0xc5, 0xb6, 0x67, 0x58, 0x89, 0x7a, 0x2b, 0x1c, 0x4d, 0x3e, 0xef]
    blockStep toyB .ctr true K IV P = (y, IV.take 15 ++ [0x10]) ∧
      blockStep toyB .ctr false K IV P = (y, IV.take 15 ++ [0x10]) ∧
      blockStep toyB .cbc true K IV P = (z, z) ∧
      blockStep toyB .cbc false K IV P =
        ([0xe0, 0xf1, 0xc2, 0xd3, 0xa4, 0xb5, 0x86, 0x97, 0x68, 0x79, 0x4a, 0x5b, 0x2c, 0x3d, 0x0e, 0x1f],
          P) ∧
      blockStep toyB .cfb true K IV P = (y, y) ∧
      blockStep toyB .cfb false K IV P = (y, P) := by decide +kernel

/-- The examples of R199. -/
theorem test_interval :
    [progressInterval 117674 128, progressInterval 117674 8, progressInterval 69041 128,
        progressInterval 65536 128, progressInterval 65536 8, progressInterval 100 8,
        progressInterval 799 8, progressInterval 0 8] =
      [1152, 1176, 640, 640, 656, 0, 8, 0] := by decide +kernel

/-- V33: the code of the empty stream, and the digest of "foobar" keyed by 6b (V37). -/
theorem test_toy_digest :
    toyDigest.fin toyDigest.d0 = [0x81, 0x1c, 0x9d, 0xc5] ∧
      toyMac.fin (toyMac.upd (toyMac.m0 [0x6b]) [0x66, 0x6f, 0x6f, 0x62, 0x61, 0x72]) =
        [0x93, 0x48, 0x24, 0x1b] := by decide +kernel

/-! ### One step of a command -/

/-- The example of R121. -/
theorem test_bm_new :
    let s := after [cmd (.bmNew 1 1 0xFFF0)] (State.powerUp { cfg with threads := 4 })
    [regRead s 2, regRead s 3, regRead s 4, regRead s 5, regRead s 6, regRead s 7, regRead s 1] =
        [0xFFF00001, 16, 64, 104857600, 262144, 1, 0] ∧
      s.rsp = [0x0000000000000101] := by decide +kernel

/-- V29: three lanes, where 100 MiB is no multiple of `PAR_MIN`. -/
theorem test_bm_new_three_lanes :
    let s := after [cmd (.bmNew 1 1 0xFFF0)] (State.powerUp { cfg with threads := 3 })
    [regRead s 4, regRead s 5, regRead s 6] = [48, 104857632, 196608] := by decide +kernel

/-- The example of R124. -/
theorem test_bm_init :
    let s := after [cmd (.bmInit 2 true)] (selected 1)
    s.bm.key = K ∧ s.bm.chain = IV ∧ regRead s 2 = 0x1FFF00001 ∧ regRead s 1 = 1 ∧
      s.rsp = [0x0000000000000101, 0x0000000000000202] := by decide +kernel

/-- V28: an IV that ends exactly at `2^32` is read, eight bytes further on it is refused. -/
theorem test_bm_init_at_end_of_memory :
    (after [.regWrite 0x19 0xFFFFFFF0, cmd (.bmInit 2 true)] (selected 1)).bm.state = .ready ∧
      (after [.regWrite 0x19 0xFFFFFFF8, cmd (.bmInit 2 true)] (selected 1)).rsp =
        [0x0000000000000101, 0x0000000000020202] := by decide +kernel

/-- V26: one block in place, and the chain after it. -/
theorem test_bm_xblk_in_place :
    let s := after [cmd (.bmXblk 2)] (readied 1 true 0x200 68)
    bytesAt s.mem 0x200 16 =
        [0xd1, 0xc2, 0xf7, 0xe4, 0x9d, 0x8e, 0xbb, 0xa8, 0xa9, 0x5a, 0x4f, 0x7c, 0x65, 0x16, 0x03, 0x20] ∧
      s.bm.chain = IV.take 15 ++ [0x10] := by decide +kernel

/-- V25: a transform of no bytes. -/
theorem test_bm_xfrm_empty :
    (after [cmd (.bmXfrm 1)] (readied 1 true 0x400 0)).rsp.getLast? = some 0x0000000000000104 ∧
      (after [cmd (.bmXfrm 1)] (readied 1 true 0x400 0)).bm.state = .ready := by decide +kernel

/-- R140: 1000 is no multiple of 64. -/
theorem test_bm_setpbs_refused :
    (after [.regWrite 0x1B 1000, cmd (.bmSetpbs 4)] (selected 1)).rsp =
      [0x0000000000000101, 0x0000000000020405] := by decide +kernel

/-- V24. -/
theorem test_bm_before_new :
    (after [cmd (.bmSetpar 1 false), cmd (.bmSetpbs 2), cmd (.bmRelease 3)] start).rsp =
        [0x0000000000000106, 0x0000000000010205, 0x0000000000000307] ∧
      regRead (after [cmd (.bmSetpar 1 false)] start) 7 = 0 := by decide +kernel

/-- The examples of R192 and R194. -/
theorem test_sp_key :
    (after [cmd (.spKey 2)] macAttached).rsp = [0x0000000000000110, 0x0000000000000211] ∧
      regRead macAttached 0x20 = 1 ∧ regRead macAttached 0x21 = 0xFFF20002 ∧
      regRead (after [cmd (.spKey 2)] macAttached) 0x20 = 2 := by decide +kernel

/-- V33: a run of no bytes. -/
theorem test_sp_run_empty :
    let s := after [cmd (.spRun 3)] (digestArmed 0 3 [])
    s.evt = [0x0200000000000000] ∧ bytesAt s.mem 0x500 4 = [0x81, 0x1c, 0x9d, 0xc5] ∧
      regRead s 0x20 = 2 := by decide +kernel

/-- V34: a cancel before the first step of the sequential driver. -/
theorem test_sp_cancel :
    let s := after [cmd (.spRun 3), cmd (.spCancel 4), .agent .seq] (digestArmed 300 0 [.data (ramp 7 300)])
    s.rsp = [0x0000000000000110, 0x0000000000000413, 0x00000000000C0312] ∧ s.evt = [] ∧
      regRead s 0x26 = 0 := by decide +kernel

/-- V32: the second read is 72 bytes of 128. -/
theorem test_sp_run_short_read :
    let s := after [cmd (.spRun 3), .agent .seq, .agent .seq] (digestArmed 300 0 [.data (ramp 7 200)])
    s.rsp = [0x0000000000000110, 0x00000000000A0312] ∧ regRead s 0x26 = 128 := by decide +kernel

/-! ### Witnesses: the hypotheses of the statements can be met -/

theorem witness_EncodeThenDecode : (Instr.bmInit 2 true).wellFormed = true := by decide

theorem witness_DecodeThenEncode : decode 0x0000FFF000010101 = .ok (.bmNew 1 1 0xFFF0) := by decide

theorem witness_DecoderMatchesOpcodeTable :
    ∀ row ∈ opcodeTable, (0x00000000000006FF : Word) &&& row.mask ≠ row.value := by decide

theorem witness_IllegalWordsAnswered :
    formatOf 0xFF = none ∧
      (formatOf ((0x0000000001000700 : Word).extractLsb' 0 8) = some .n ∧
        (0x0000000001000700 : Word) &&& 0xFFFFFFFFFFFF0000 ≠ 0) ∧
      (formatOf ((0x0000000000020202 : Word).extractLsb' 0 8) = some .f ∧
        (0x0000000000020202 : Word) &&& 0xFFFFFFFFFFFE0000 ≠ 0) ∧
      (formatOf ((0x0001000000010101 : Word).extractLsb' 0 8) = some .k ∧
        (0x0001000000010101 : Word) &&& 0xFFFF0000FF000000 ≠ 0) ∧
      (formatOf ((0x0000FFF000010101 : Word).extractLsb' 0 8) = some .k ∧
        (0x0000FFF000010101 : Word) &&& 0xFFFF0000FF000000 = 0) := by decide

theorem witness_LogWordLayout : (2 : Nat) ^ 56 - 1 < 2 ^ 56 := by decide

theorem witness_StepRunsDecodedCommand :
    (withEvents [cmd (.nop 9)] start).env.events = .issue 0x0000000000000900 :: [] ∧
      decode 0x0000000000000900 = .ok (.nop 9) := by decide +kernel

theorem witness_EnabledAgentSteps :
    (start.env.events = [] ∧ enabledAgents start = []) ∧
      (transforming.env.events = [] ∧ enabledAgents transforming ≠ []) ∧
      enabled (withEvents [] transforming) .ctl = true ∧ enabled (withEvents [] transforming) .seq = false := by
  decide +kernel

theorem witness_AgentsEnabledWhen :
    enabled transforming .ctl = true ∧ enabled spawned (.lane 1) = true ∧ enabled running .rdr = true ∧
      enabled queueFull .csm = true ∧ enabled queueFull .rdr = false ∧
      enabled (after [cmd (.spRun 3)] (digestArmed 300 0 [])) .seq = true := by decide +kernel

theorem witness_BmNewSelectsAndSizes_busy : transforming.bm.state = .transforming := by decide +kernel

theorem witness_BmNewSelectsAndSizes_unsupported :
    start.bm.state ≠ .transforming ∧ ((4 : BitVec 8) ≠ 1 ∧ (4 : BitVec 8) ≠ 2 ∧ (4 : BitVec 8) ≠ 3) ∧
      blockCipher? 0xFFF1 = none ∧ (∃ c, blockCipher? 0xFFF3 = some c ∧ c.blockSize ≠ 16) :=
  ⟨by decide, by decide, rfl, toyB8, rfl, by decide⟩

theorem witness_BmNewSelectsAndSizes_completes :
    start.bm.state ≠ .transforming ∧ blockCipher? 0xFFF0 = some toyB ∧ toyB.blockSize = 16 ∧
      blockCipher? 0xFFF3 = some toyB8 :=
  ⟨by decide, rfl, rfl, rfl⟩

theorem witness_BmInitKeysEngine_refused :
    (start.bm.state ≠ .transforming ∧ start.bm.mode = none) ∧
      ((selected 1).bm.state ≠ .transforming ∧ (selected 1).bm.mode ≠ none ∧
        keyLenOk (selected 1).bm.kind 15 = false ∧ (8 : Nat) ≠ (selected 1).bm.blockSize ∧
        2 ^ (selected 1).cfg.addrBits < (0xFFFFFFF1 : Word).toNat + (selected 1).regs.keyLen.toNat ∧
        2 ^ (selected 1).cfg.addrBits < (0xFFFFFFF1 : Word).toNat + (selected 1).regs.ivLen.toNat) := by
  decide +kernel

theorem witness_BmInitKeysEngine_completes :
    let s := after [.regWrite 0x19 0xFFFFFFF0] (selected 1)
    s.bm.state ≠ .transforming ∧ s.bm.mode ≠ none ∧ keyLenOk s.bm.kind s.regs.keyLen.toNat = true ∧
      s.regs.ivLen.toNat = s.bm.blockSize ∧
      s.regs.keyBase.toNat + s.regs.keyLen.toNat ≤ 2 ^ s.cfg.addrBits ∧
      s.regs.ivBase.toNat + s.regs.ivLen.toNat ≤ 2 ^ s.cfg.addrBits := by decide +kernel

theorem witness_BmXblkTransformsOneBlock_refused :
    let s := readied 1 true 0x208 68
    start.bm.state ≠ .ready ∧ s.bm.state = .ready ∧
      (after [.regWrite 0x12 53] s).bm.state = .ready ∧
      inputRange (after [.regWrite 0x12 53] s) s.bm.blockSize = none ∧
      outputRange (after [.regWrite 0x13 0xFFFFFFC0] s) s.bm.blockSize = none ∧
      inputRange s s.bm.blockSize = some 0x200 ∧ outputRange s s.bm.blockSize = some 0x208 ∧
      ¬ ((0x200 : Nat) = 0x208 ∨ 0x200 + s.bm.blockSize ≤ 0x208 ∨ 0x208 + s.bm.blockSize ≤ 0x200) := by
  decide +kernel

theorem witness_BmXblkTransformsOneBlock_completes :
    let s := after [.regWrite 0x12 52] (readied 1 true 0x400 68)
    Inv s ∧ s.bm.state = .ready ∧ inputRange s s.bm.blockSize = some 0x234 ∧
      outputRange s s.bm.blockSize = some 0x400 ∧
      ((0x234 : Nat) = 0x400 ∨ 0x234 + s.bm.blockSize ≤ 0x400 ∨ 0x400 + s.bm.blockSize ≤ 0x234) :=
  ⟨inv_of_ok _ (by decide +kernel), by decide +kernel⟩

theorem witness_BmXfrmAtIssue_refused :
    let s := readied 2 true 0x400 68
    start.bm.state ≠ .ready ∧
      (s.bm.state = .ready ∧ s.bm.mode = some .cbc ∧ s.regs.len.toNat % s.bm.blockSize ≠ 0) ∧
      ((readied 1 true 0x400 69).bm.state = .ready ∧ (readied 1 true 0x400 69).bm.mode = some .ctr ∧
        inputRange (readied 1 true 0x400 69) 69 = none) ∧
      (inputRange (readied 1 true 0x208 68) 68 = some 0x200 ∧
        outputRange (readied 1 true 0x208 68) 68 = some 0x208 ∧
        ¬ ((0x200 : Nat) = 0x208 ∨ 0x200 + 68 ≤ 0x208 ∨ 0x208 + 68 ≤ 0x200)) := by decide +kernel

theorem witness_BmXfrmAtIssue_completes :
    let s := readied 1 true 0x200 68
    s.bm.state = .ready ∧ s.bm.mode = some .ctr ∧ inputRange s 68 = some 0x200 ∧
      outputRange s 68 = some 0x200 ∧ s.regs.len.toNat = 68 ∧
      (readied 1 true 0x400 0).bm.state = .ready ∧ (readied 1 true 0x400 0).regs.len.toNat = 0 ∧
      inputRange (readied 1 true 0x400 0) 0 = some 0x200 ∧
      outputRange (readied 1 true 0x400 0) 0 = some 0x400 := by decide +kernel

theorem witness_BmSetpbsSetsBlock_refused :
    let s := selected 1
    start.bm.state ≠ .transforming ∧ start.bm.mode = none ∧ s.bm.state ≠ .transforming ∧ s.bm.mode ≠ none ∧
      (31 : Nat) < s.regs.bmParMin.toNat ∧ s.regs.bmParMax.toNat < 104857601 ∧
      1000 % s.regs.bmParMin.toNat ≠ 0 := by decide +kernel

theorem witness_BmSetpbsSetsBlock_completes :
    let s := after [.regWrite 0x1B 104857600] (selected 1)
    s.bm.state ≠ .transforming ∧ s.bm.mode ≠ none ∧ s.regs.bmParMin.toNat ≤ s.regs.arg.toNat ∧
      s.regs.arg.toNat ≤ s.regs.bmParMax.toNat ∧ s.regs.arg.toNat % s.regs.bmParMin.toNat = 0 := by
  decide +kernel

theorem witness_BmSetparSetsFlag : start.bm.state ≠ .transforming ∧ transforming.bm.state = .transforming := by
  decide +kernel

theorem witness_BmReleaseEmptiesKeyState :
    (readied 1 true 0x400 68).bm.state ≠ .transforming ∧ transforming.bm.state = .transforming := by
  decide +kernel

theorem witness_SpNewSelectsTarget_refused :
    running.sp.state = .running ∧ start.sp.state ≠ .running ∧
      ((4 : BitVec 8) ≠ 1 ∧ (4 : BitVec 8) ≠ 2 ∧ (4 : BitVec 8) ≠ 3) ∧ digest? 0xFFF2 = none ∧
      mac? 0xFFF1 = none ∧ (1 : BitVec 16) ≠ 0 :=
  ⟨by decide +kernel, by decide, by decide, rfl, rfl, by decide⟩

theorem witness_SpNewSelectsTarget_completes :
    start.sp.state ≠ .running ∧ (∃ d, digest? 0xFFF1 = some d ∧ some toyDigestStart = some d.d0) ∧
      (∃ m, mac? 0xFFF2 = some m) :=
  ⟨by decide, ⟨toyDigest, rfl, rfl⟩, toyMac, rfl⟩

theorem witness_SpKeyKeysMac_refused :
    running.sp.state = .running ∧ start.sp.state = .empty ∧
      ((digestArmed 0 0 []).sp.state = .armed ∧ (digestArmed 0 0 []).sp.cls ≠ .mac) ∧
      (macAttached.sp.state = .attached ∧ macAttached.sp.cls = .mac ∧
        macKeyLenOk macAttached.sp.kind 65 = false ∧
        2 ^ macAttached.cfg.addrBits < (0xFFFFFFE1 : Word).toNat + macAttached.regs.keyLen.toNat) := by
  decide +kernel

theorem witness_SpKeyKeysMac_completes :
    macAttached.sp.state = .attached ∧ macAttached.sp.cls = .mac ∧ mac? macAttached.sp.kind = some toyMac ∧
      toyMac.keyLenOk macAttached.regs.keyLen.toNat = true ∧
      (0xFFFFFFE0 : Word).toNat + macAttached.regs.keyLen.toNat ≤ 2 ^ macAttached.cfg.addrBits ∧
      macAttached.regs.keyBase.toNat + macAttached.regs.keyLen.toNat ≤ 2 ^ macAttached.cfg.addrBits :=
  ⟨by decide +kernel, by decide +kernel, mac_of _ (by decide +kernel), by decide +kernel, by decide +kernel,
    by decide +kernel⟩

theorem witness_SpRunRefusals :
    running.sp.state = .running ∧ macAttached.sp.state = .attached ∧ start.sp.state = .empty ∧
      ((after [cmd (.spNew 1 3 0)] start).sp.state = .armed ∧
        (after [cmd (.spNew 1 3 0)] start).sp.cls = .cipher ∧ start.bm.state ≠ .ready) ∧
      ((cipherArmed 1 300 0).sp.state = .armed ∧ (cipherArmed 1 300 0).sp.cls = .cipher ∧
        (cipherArmed 1 300 0).bm.state = .ready ∧ 100 % (cipherArmed 1 300 0).bm.blockSize ≠ 0) ∧
      ((cipherArmed 2 100 0).bm.mode = some .cbc ∧
        (cipherArmed 2 100 0).cfg.bufSize % (cipherArmed 2 100 0).bm.blockSize = 0 ∧
        (cipherArmed 2 100 0).regs.spTotal.toNat % (cipherArmed 2 100 0).bm.blockSize ≠ 0) ∧
      2 ^ 56 ≤ (digestArmed 0x100000000000000 0 []).regs.spTotal.toNat ∧
      (digestArmed 0x100000000000000 0 []).sp.cls ≠ .cipher ∧
      outputRange (after [.regWrite 0x14 3] (digestArmed 300 0 [])) 4 = none ∧
      (after [.regWrite 0x14 3] (digestArmed 300 0 [])).sp.state = .armed := by decide +kernel

theorem witness_SpRunRefusals_code :
    streamPrim? (digestArmed 300 0 []).sp.cls (digestArmed 300 0 []).sp.kind = some toyPrim :=
  digest_of _ _ (by decide +kernel) (by decide +kernel)

theorem witness_SpRunAccepted :
    let s := digestArmed 0xFFFFFFFFFFFFFF 3 []
    let c := cipherArmed 2 256 3
    (s.sp.state = .armed ∧ s.sp.cls = .digest ∧ 0 < s.regs.spTotal.toNat ∧ s.regs.spTotal.toNat < 2 ^ 56 ∧
        outputRange s toyPrim.digestSize = some 0x500) ∧
      (c.sp.state = .armed ∧ c.sp.cls = .cipher ∧ c.bm.state = .ready ∧
        c.cfg.bufSize % c.bm.blockSize = 0 ∧ 0 < c.regs.spTotal.toNat ∧
        c.regs.spTotal.toNat % c.bm.blockSize = 0) := by decide +kernel

theorem witness_SpRunAccepted_code :
    streamPrim? (digestArmed 0xFFFFFFFFFFFFFF 3 []).sp.cls (digestArmed 0xFFFFFFFFFFFFFF 3 []).sp.kind =
      some toyPrim :=
  digest_of _ _ (by decide +kernel) (by decide +kernel)

theorem witness_SpRunOfNoBytes_code :
    let s := digestArmed 0 3 []
    Inv s ∧ s.sp.state = .armed ∧ s.regs.spTotal.toNat = 0 ∧ s.sp.cls = .digest ∧
      streamPrim? s.sp.cls s.sp.kind = some toyPrim ∧ s.sp.prim = some toyDigestStart ∧
      outputRange s toyPrim.digestSize = some 0x500 :=
  ⟨inv_of_ok _ (by decide +kernel), by decide +kernel, by decide +kernel, by decide +kernel,
    digest_of _ _ (by decide +kernel) (by decide +kernel), by decide +kernel, by decide +kernel⟩

theorem witness_SpRunOfNoBytes_cipher :
    let s := cipherArmed 1 0 0
    Inv s ∧ s.sp.state = .armed ∧ s.regs.spTotal.toNat = 0 ∧ s.sp.cls = .cipher ∧ s.bm.state = .ready ∧
      s.cfg.bufSize % s.bm.blockSize = 0 :=
  ⟨inv_of_ok _ (by decide +kernel), by decide +kernel⟩

theorem witness_SpCancelSetsFlag : running.sp.state = .running ∧ start.sp.state ≠ .running := by
  decide +kernel

theorem witness_SpReleaseEmptiesTarget : running.sp.state = .running ∧ macAttached.sp.state ≠ .running := by
  decide +kernel

theorem witness_RejectedCommandChangesNothing :
    leads (issue (encode (.bmXblk 5)) start) (respond 0x03 5 .notInitialized start) = true ∧
      (responseWord 0x03 5 .notInitialized).extractLsb' 16 8 ≠ 0 := by decide +kernel

theorem witness_EveryCommandIsAnswered : Inv start ∧ Inv transforming ∧ Inv running :=
  ⟨inv_of_ok _ (by decide +kernel), inv_of_ok _ (by decide +kernel), inv_of_ok _ (by decide +kernel)⟩

theorem witness_AnswerCodes :
    leads (issue (encode (.bmInit 5 true)) transforming) (respond 0x02 5 .busy transforming) = true := by
  decide +kernel

theorem witness_BusyUnitAnswers :
    let s := after [cmd (.spNew 6 3 0)] transforming
    s.bm.state = .transforming ∧ s.sp.state ≠ .running ∧ s.sp.cls = .cipher ∧
      running.sp.state = .running := by decide +kernel

theorem witness_UnitsAreIndependent :
    leads (exec (.bmXfrm 5) (readied 1 true 0x400 68)) transforming = true ∧
      leads (exec (.spRun 3) (digestArmed 300 3 [.data (ramp 7 300)])) running = true ∧
      (digestArmed 300 3 []).sp.cls ≠ .cipher := by decide +kernel

theorem witness_RangeChecks :
    (68 : Nat) < 53 + 16 ∧ 2 ^ start.cfg.addrBits < (0xFFFFFFF1 : Word).toNat + (16 : Word).toNat ∧
      52 + 16 ≤ 68 ∧ (0xFFFFFFF0 : Word).toNat + (16 : Word).toNat ≤ 2 ^ start.cfg.addrBits := by
  decide +kernel

theorem witness_MemoryReadsWhatWasWritten :
    Memory.wf (selected 1).mem = true ∧ K.length = 16 ∧ 2 ^ (selected 1).cfg.addrBits < 0xFFFFFFF1 + 16 ∧
      0xFFFFFFF0 + 16 ≤ 2 ^ (selected 1).cfg.addrBits ∧
      (withEvents [.memWrite 0xFFFFFFF0 K] (selected 1)).env.events = .memWrite 0xFFFFFFF0 K :: [] ∧
      Memory.wf (withEvents [.memWrite 0xFFFFFFF0 K] (selected 1)).mem = true ∧
      (withEvents [.memRead 0xFFFFFFF1 16] (selected 1)).env.events = .memRead 0xFFFFFFF1 16 :: [] ∧
      Memory.wf (withEvents [.memRead 0xFFFFFFF1 16] (selected 1)).mem = true := by decide +kernel

theorem witness_RegisterFile :
    (∀ i ∈ ([0x10, 0x1B, 0x22, 0x23] : List (BitVec 6)),
        (0x10 ≤ i.toNat ∧ i.toNat ≤ 0x1B) ∨ i.toNat = 0x22 ∨ i.toNat = 0x23) ∧
      (0x10 : BitVec 6) ≠ 0x1B ∧
      (∀ i ∈ ([0x09, 0x0F, 0x1C, 0x1F, 0x28, 0x3F] : List (BitVec 6)),
        (0x09 ≤ i.toNat ∧ i.toNat ≤ 0x0F) ∨ (0x1C ≤ i.toNat ∧ i.toNat ≤ 0x1F) ∨ 0x28 ≤ i.toNat) ∧
      (∀ i ∈ ([0x00, 0x0F, 0x1C, 0x21, 0x24] : List (BitVec 6)),
        ¬ ((0x10 ≤ i.toNat ∧ i.toNat ≤ 0x1B) ∨ i.toNat = 0x22 ∨ i.toNat = 0x23)) ∧
      (withEvents [.regWrite 0x10 5] start).env.events = .regWrite 0x10 5 :: [] ∧
      (withEvents [.regRead 0x27] start).env.events = .regRead 0x27 :: [] := by decide +kernel

theorem witness_HostObservesLogs :
    let s := after [cmd (.nop 9)] start
    ((withEvents [.awaitRsp] s).env.events = .awaitRsp :: [] ∧ s.port.rspSeen < s.rsp.length) ∧
      (start.rsp.length ≤ start.port.rspSeen ∧ enabledAgents (withEvents [.awaitRsp] start) = []) ∧
      ((withEvents [.awaitRsp] running).rsp.length = 1 ∧
        (after [.awaitRsp] running).rsp.length ≤ (after [.awaitRsp] running).port.rspSeen ∧
        enabledAgents (withEvents [.awaitRsp] (after [.awaitRsp] running)) ≠ []) ∧
      ((after [cmd (.spRun 3)] (digestArmed 0 0 [])).port.evtSeen <
          (after [cmd (.spRun 3)] (digestArmed 0 0 [])).evt.length ∧
        running.evt.length ≤ running.port.evtSeen) ∧
      leads (step (withEvents [cmd (.nop 9)] start)) s = true := by decide +kernel

theorem witness_DefaultSizesAreLegal : (1 : Nat) ≤ 8191 ∧ (8191 : Nat) ≤ 8191 ∧ (256 : Nat) ≤ 256 := by decide

theorem witness_ResetHasInvariant : cfg.ok = true ∧ ({ cfg with threads := 256 } : Params).ok = true := by
  decide

theorem witness_EveryStepKeepsInvariant :
    Inv (withEvents [.agent .ctl] transforming) ∧ step (withEvents [.agent .ctl] transforming) = .next spawned :=
  ⟨inv_of_ok _ (by decide +kernel), leads_next _ _ (by decide +kernel)⟩

theorem witness_StepsNeverStop :
    Inv (withEvents [.memWrite 0xFFFFFFFF [1]] start) ∧ 0xFFFFFFFF + [(1 : Byte)].length ≤ 2 ^ start.cfg.addrBits ∧
      Inv (withEvents [.memRead 0xFFFFFFFF 1] start) ∧ 0xFFFFFFFF + 1 ≤ 2 ^ start.cfg.addrBits ∧
      Inv (withEvents [.agent .csm] queueFull) :=
  ⟨inv_of_ok _ (by decide +kernel), by decide +kernel, inv_of_ok _ (by decide +kernel), by decide +kernel,
    inv_of_ok _ (by decide +kernel)⟩

theorem witness_OneResponsePerCommand :
    Inv (withEvents [cmd (.bmXfrm 5)] (readied 1 true 0x400 68)) ∧
      step (withEvents [cmd (.bmXfrm 5)] (readied 1 true 0x400 68)) = .next transforming ∧
      Inv (withEvents [.agent .rdr] running) ∧
      step (withEvents [.agent .rdr] running) = .next (after [.agent .rdr] running) :=
  ⟨inv_of_ok _ (by decide +kernel), leads_next _ _ (by decide +kernel), inv_of_ok _ (by decide +kernel),
    leads_next _ _ (by decide +kernel)⟩

theorem witness_LogsOnlyGrow :
    step (withEvents [cmd (.nop 9)] start) = .next (after [cmd (.nop 9)] start) :=
  leads_next _ _ (by decide +kernel)

theorem witness_OperandRegistersBelongToHost :
    step (withEvents [cmd (.bmXblk 2)] (readied 1 true 0x200 68)) =
      .next (after [cmd (.bmXblk 2)] (readied 1 true 0x200 68)) :=
  leads_next _ _ (by decide +kernel)

theorem witness_HardwareWritesOnlyOutputRanges_block :
    let s := withEvents [cmd (.bmXblk 2)] (readied 1 true 0x200 68)
    let t := after [cmd (.bmXblk 2)] (readied 1 true 0x200 68)
    Inv s ∧ step s = .next t ∧ byteAt t.mem 0x20F ≠ byteAt s.mem 0x20F :=
  ⟨inv_of_ok _ (by decide +kernel), leads_next _ _ (by decide +kernel), by decide +kernel⟩

theorem witness_HardwareWritesOnlyOutputRanges_lane :
    let s := withEvents [.agent (.lane 1)] spawned
    let t := after [.agent (.lane 1)] spawned
    Inv s ∧ step s = .next t ∧ byteAt t.mem 0x41F ≠ byteAt s.mem 0x41F :=
  ⟨inv_of_ok _ (by decide +kernel), leads_next _ _ (by decide +kernel), by decide +kernel⟩

theorem witness_HardwareWritesOnlyOutputRanges_run :
    let r := after [cmd (.spRun 3)] (digestArmed 8 0 [.data (ramp 7 8)])
    let s := withEvents [.agent .seq] r
    let t := after [.agent .seq] r
    let s2 := withEvents [cmd (.spRun 3)] (digestArmed 0 0 [])
    let t2 := after [cmd (.spRun 3)] (digestArmed 0 0 [])
    (Inv s ∧ step s = .next t ∧ byteAt t.mem 0x503 ≠ byteAt s.mem 0x503) ∧
      (Inv s2 ∧ step s2 = .next t2 ∧ byteAt t2.mem 0x500 ≠ byteAt s2.mem 0x500) :=
  ⟨⟨inv_of_ok _ (by decide +kernel), leads_next _ _ (by decide +kernel), by decide +kernel⟩,
    inv_of_ok _ (by decide +kernel), leads_next _ _ (by decide +kernel), by decide +kernel⟩

theorem witness_BusyUnitsAreHeld :
    (Inv (withEvents [cmd (.bmRelease 9)] transforming) ∧ transforming.bm.state = .transforming ∧
        step (withEvents [cmd (.bmRelease 9)] transforming) =
          .next (after [cmd (.bmRelease 9)] transforming)) ∧
      (Inv (withEvents [.agent .csm] queueFull) ∧ queueFull.sp.state = .running ∧
        step (withEvents [.agent .csm] queueFull) = .next (after [.agent .csm] queueFull)) :=
  ⟨⟨inv_of_ok _ (by decide +kernel), by decide +kernel, leads_next _ _ (by decide +kernel)⟩,
    inv_of_ok _ (by decide +kernel), by decide +kernel, leads_next _ _ (by decide +kernel)⟩

theorem witness_ResetEvent : (withEvents [.reset] spawned).env.events = .reset :: [] := rfl

theorem witness_RoundTrip :
    toyB.keyLenOk K.length = true ∧ IV.length = toyB.blockSize ∧ toyB.blockSize = 16 ∧
      (ramp 0 48).length % toyB.blockSize = 0 ∧ ramp 0 48 ≠ [] := by decide +kernel

theorem witness_SerialTransformSplits :
    (ramp 0 32).length % toyB.blockSize = 0 ∧ P.length = toyB.blockSize ∧ ramp 0 1 ≠ [] ∧
      (ramp 0 1).length < toyB.blockSize ∧ (ramp 0 15).length < toyB.blockSize := by decide +kernel

/-- R130: the tail uses the first bytes of the keystream block, of which the test cipher's are unlike the last. -/
theorem test_serial_tail :
    serialXform toyB .ctr true K IV [0, 0] = ([0xf1, 0xe3], IV.take 15 ++ [0x10]) := by decide +kernel

theorem witness_CounterArithmetic : IV.length = 16 ∧ 256 ^ 16 - 1 < 256 ^ 16 := by decide

theorem witness_ChunksPartitionBlock :
    (0 < 4 ∧ 0 < 16 ∧ 3 + 1 ≤ 4 ∧ 64 * 16 - 1 < 64 * 16) ∧
      Inv (selected 1) ∧ (selected 1).bm.mode ≠ none ∧ 1 < (selected 1).cfg.threads :=
  ⟨by decide, inv_of_ok _ (by decide +kernel), by decide +kernel, by decide +kernel⟩

theorem witness_SpawnCapturesLanes :
    ∃ xf, Inv transforming ∧ transforming.bm.xf = some xf ∧ xf.phase = .idle ∧ 0 < xf.npar ∧
      transforming.bm.mode = some .ctr :=
  ⟨newTransform 5 0x200 0x400 68 (readied 1 true 0x400 68), inv_of_ok _ (by decide +kernel),
    by decide +kernel, by decide +kernel, by decide +kernel, by decide +kernel⟩

theorem witness_LaneStepTransformsOneBlock :
    Inv spawned ∧ enabled spawned (.lane 1) = true ∧ spawned.lanes[1]? = some (spawned.lanes.getD 1 Lane.reset) ∧
      engine spawned = some (toyB, .ctr) :=
  ⟨inv_of_ok _ (by decide +kernel), by decide +kernel, by decide +kernel,
    engine_of _ _ (by decide +kernel) (by decide +kernel)⟩

theorem witness_JoinEndsParallelBlock :
    ∃ xf nextChain, spawned.bm.xf = some xf ∧ xf.phase = .par nextChain :=
  ⟨{ newTransform 5 0x200 0x400 68 (readied 1 true 0x400 68) with phase := .par (addCounter IV 2) },
    addCounter IV 2, by decide +kernel, rfl⟩

theorem witness_ProgressPositions : (0 : Nat) < 8 ∧ (0 : Nat) ≤ 128 ∧ (128 : Nat) ≤ 1000 := by decide

theorem witness_ReaderStep :
    (enabled (after [cmd (.spCancel 4)] running) .rdr = true ∧
        (after [cmd (.spCancel 4)] running).sp.cancel = true) ∧
      (enabled (after [.setSource [.fail]] running) .rdr = true ∧ running.sp.cancel = false ∧
        (sourceAnswer 128 [.fail]).1 = .fail) ∧
      (sourceAnswer 128 [.data (ramp 7 127)]).1 = .data (ramp 7 127) ∧
      (sourceAnswer 128 running.env.source).1 = .data (ramp 7 128) ∧
      min running.cfg.bufSize (running.sp.run.total - running.sp.rpos) = 128 := by decide +kernel

/-- A sequential digest run of 300 bytes just accepted, with the given source. -/
def sequential (source : List SrcAnswer) : State := after [cmd (.spRun 3)] (digestArmed 300 0 source)

/-- A class 3 run of 300 bytes just accepted, its sink refusing the first buffer. -/
def refusing (ctl : Word) : State := after [cmd (.spRun 7), .setSink [false]] (cipherArmed 1 300 ctl)

/-- Cancel, source failure and short answer on the sequential path (R203). -/
theorem witness_AbortedRun_sequential :
    let c := after [cmd (.spCancel 4)] (sequential [.data (ramp 7 300)])
    let f := sequential [.fail]
    let e := sequential [.data (ramp 7 127)]
    (Inv c ∧ enabled c .seq = true ∧ c.sp.cancel = true) ∧
      (Inv f ∧ enabled f .seq = true ∧ f.sp.cancel = false ∧ (sourceAnswer 128 f.env.source).1 = .fail) ∧
      (Inv e ∧ enabled e .seq = true ∧ e.sp.cancel = false ∧
        (sourceAnswer 128 e.env.source).1 = .data (ramp 7 127)) ∧
      min c.cfg.bufSize (c.sp.run.total - c.sp.rpos) = 128 :=
  ⟨⟨inv_of_ok _ (by decide +kernel), by decide +kernel⟩, ⟨inv_of_ok _ (by decide +kernel), by decide +kernel⟩,
    ⟨inv_of_ok _ (by decide +kernel), by decide +kernel⟩, by decide +kernel⟩

/-- A recorded fault ahead of a queued buffer (R206), and what the consumer answers. -/
theorem witness_AbortedRun_recorded :
    let s := after [.agent .rdr, .setSource [.fail], .agent .rdr] running
    let t := after [.agent .csm] s
    Inv s ∧ enabled s .csm = true ∧ s.sp.fault = some .io ∧ s.sp.queue ≠ [] ∧
      leads (agentAct .csm s) t = true ∧ t.rsp = s.rsp ++ [0x0000000000090312] :=
  ⟨inv_of_ok _ (by decide +kernel), by decide +kernel⟩

/-- A refused buffer on either path (R202), and a buffer that is taken. -/
theorem witness_AbortedRun_sink :
    let s := refusing 0
    let c := after [.agent .rdr] (refusing 3)
    let ok := sequential [.data (ramp 7 300)]
    (Inv s ∧ enabled s .seq = true ∧ s.sp.cls = .cipher ∧ s.env.sinkAnswers.head? = some false ∧
        s.sp.cancel = false ∧ (sourceAnswer 128 s.env.source).1 = .data (ramp 7 128) ∧
        engine s = some (toyB, .ctr)) ∧
      (Inv c ∧ enabled c .csm = true ∧ c.sp.cls = .cipher ∧ c.env.sinkAnswers.head? = some false ∧
        c.sp.fault = none ∧ engine c = some (toyB, .ctr)) ∧
      (Inv ok ∧ enabled ok .seq = true ∧ ok.sp.cls ≠ .cipher ∧
        (sourceAnswer 128 ok.env.source).1 = .data (ramp 7 128)) :=
  ⟨⟨inv_of_ok _ (by decide +kernel), by decide +kernel, by decide +kernel, by decide +kernel,
      by decide +kernel, by decide +kernel, engine_of _ _ (by decide +kernel) (by decide +kernel)⟩,
    ⟨inv_of_ok _ (by decide +kernel), by decide +kernel, by decide +kernel, by decide +kernel,
      by decide +kernel, engine_of _ _ (by decide +kernel) (by decide +kernel)⟩,
    inv_of_ok _ (by decide +kernel), by decide +kernel⟩

theorem witness_QueueCannotDeadlock :
    (Inv queueFull ∧ queueFull.sp.state = .running ∧ queueFull.sp.path = true ∧
        queueFull.cfg.queueCap ≤ queueFull.sp.queue.length) ∧
      (Inv (after [.agent .csm, .agent .rdr] queueFull) ∧
        (after [.agent .csm, .agent .rdr] queueFull).sp.readerDone = true ∧
        (after [.agent .csm, .agent .rdr] queueFull).sp.state = .running) :=
  ⟨⟨inv_of_ok _ (by decide +kernel), by decide +kernel⟩, inv_of_ok _ (by decide +kernel), by decide +kernel⟩

theorem witness_EveryAgentStepLowersWork :
    Inv spawned ∧ enabled spawned (.lane 0) = true ∧ Inv transforming ∧ enabled transforming .ctl = true ∧
      Inv queueFull ∧ enabled queueFull .csm = true :=
  ⟨inv_of_ok _ (by decide +kernel), by decide +kernel, inv_of_ok _ (by decide +kernel), by decide +kernel,
    inv_of_ok _ (by decide +kernel), by decide +kernel⟩

theorem witness_AcceptedCommandsEnd :
    Inv transforming ∧ transforming.env.events = [] ∧ 0 < work transforming :=
  ⟨inv_of_ok _ (by decide +kernel), by decide +kernel⟩

/-- The turns of a whole transform of two parallel blocks and a tail, the lanes in either order. -/
def transformTurns : List Agent :=
  [.ctl, .lane 1, .lane 0, .ctl, .ctl, .lane 0, .lane 1, .ctl, .ctl, .ctl]

theorem witness_TransformResult :
    let s := readied 1 true 0x400 68
    let t := after (transformTurns.map .agent) transforming
    Inv s ∧ s.sp.state ≠ .running ∧ exec (.bmXfrm 5) s = .next transforming ∧
      transforming.bm.state = .transforming ∧ s.bm.state = .ready ∧
      inputRange s s.regs.len.toNat = some 0x200 ∧ outputRange s s.regs.len.toNat = some 0x400 ∧
      runAgents transformTurns transforming = .next t ∧ t.bm.state = .ready :=
  ⟨inv_of_ok _ (by decide +kernel), by decide +kernel, leads_next _ _ (by decide +kernel), by decide +kernel,
    by decide +kernel, by decide +kernel, by decide +kernel, leads_next _ _ (by decide +kernel),
    by decide +kernel⟩

/-- The same transform with a digest run in flight from the start, and the host writing operand registers and other
memory, issuing commands to both units, reading, and observing a response meanwhile. -/
def busyReadied : State :=
  withEvents
    ([.agent .ctl, .regWrite 0x10 0, .regWrite 0x16 5, .agent (.lane 1), .agent .rdr,
        .memWrite 0x444 [1, 2], .agent (.lane 0), cmd (.bmXfrm 5), .agent .ctl, .memRead 0x200 68,
        cmd (.bmRelease 9), .agent .csm, .awaitRsp] ++
      ([.ctl, .lane 0, .lane 1, .ctl, .rdr, .csm, .ctl, .ctl] : List Agent).map .agent)
    (after
      ([cmd (.spNew 1 1 0xFFF1), .setSource [.data (ramp 7 300)], .regWrite 0x22 300, .regWrite 0x23 3] ++
        setOut 0x500 4 0 ++ [cmd (.spRun 3)] ++ setOut 0x400 68 0)
      (readied 1 true 0x400 68))

/-- That transform accepted, the host's events still to come. -/
def busyTransforming : State :=
  match exec (.bmXfrm 5) busyReadied with
  | .next t => t
  | _ => busyReadied

/-- And ended, 21 steps later. -/
def busyEnded : State :=
  match runSteps 21 busyTransforming with
  | .next t => t
  | _ => busyTransforming

theorem witness_TransformResultUnderHost :
    let s := busyReadied
    Inv s ∧ s.bm.state = .ready ∧ inputRange s s.regs.len.toNat = some 0x200 ∧
      outputRange s s.regs.len.toNat = some 0x400 ∧ s.sp.state = .running ∧
      exec (.bmXfrm 5) s = .next busyTransforming ∧ busyTransforming.bm.state = .transforming ∧
      heldDuring (fun u => leavesRangesAlone 0x200 0x400 s.regs.len.toNat u && u.bm.state == .transforming) 21
        busyTransforming = true ∧
      runSteps 21 busyTransforming = .next busyEnded ∧ busyEnded.bm.state = .ready :=
  ⟨inv_of_ok _ (by decide +kernel), by decide +kernel, by decide +kernel, by decide +kernel,
    by decide +kernel, leads_next _ _ (by decide +kernel), by decide +kernel, by decide +kernel,
    leads_next _ _ (by decide +kernel), by decide +kernel⟩

/-- What that run comes to: the bytes of the serial transform, the chain 5 counters on, one response of its own. -/
theorem test_transform_under_host :
    let r := serialXform toyB .ctr true K IV (P ++ List.replicate 52 0)
    bytesAt busyEnded.mem 0x400 68 = r.1 ∧ busyEnded.bm.chain = r.2 ∧
      busyEnded.rsp.getLast? = some 0x0000000000000504 := by decide +kernel

/-- The turns of a concurrent run of three buffers. -/
def runTurns : List Agent := [.rdr, .rdr, .csm, .csm, .rdr, .csm]

theorem witness_StreamCodeResult :
    let s := digestArmed 300 3 [.data (ramp 7 300)]
    let t := after (runTurns.map .agent) running
    Inv s ∧ s.bm.state ≠ .transforming ∧ s.sp.cls = .digest ∧
      streamPrim? s.sp.cls s.sp.kind = some toyPrim ∧ s.sp.prim = some toyDigestStart ∧
      outputRange s toyPrim.digestSize = some 0x500 ∧ exec (.spRun 3) s = .next running ∧
      running.sp.state = .running ∧ s.sp.state = .armed ∧ runAgents runTurns running = .next t ∧
      t.rsp = s.rsp ++ [responseWord 0x12 3 .ok] :=
  ⟨inv_of_ok _ (by decide +kernel), by decide +kernel, by decide +kernel,
    digest_of _ _ (by decide +kernel) (by decide +kernel), by decide +kernel,
    by decide +kernel, leads_next _ _ (by decide +kernel), by decide +kernel, by decide +kernel,
    leads_next _ _ (by decide +kernel), by decide +kernel⟩

theorem witness_StreamCipherResult :
    let s := cipherArmed 1 300 3
    let t0 := after [cmd (.spRun 7)] s
    let t := after (runTurns.map .agent) t0
    Inv s ∧ s.sp.cls = .cipher ∧ exec (.spRun 7) s = .next t0 ∧ t0.sp.state = .running ∧
      s.sp.state = .armed ∧ runAgents runTurns t0 = .next t ∧
      t.rsp = s.rsp ++ [responseWord 0x12 7 .ok] :=
  ⟨inv_of_ok _ (by decide +kernel), by decide +kernel, leads_next _ _ (by decide +kernel), by decide +kernel,
    by decide +kernel, leads_next _ _ (by decide +kernel), by decide +kernel⟩

end Sys2Proof.Tests
end

section
/-! SUPPORT. Who takes the next step (00_scope.md R14, 60_exceptions.md R286): the equations of `step` where no
event is to come and where a turn stands at the head of the events, and the obligation they settle. -/

namespace Sys2Proof.Machine

variable {s : State} {a : Agent} {rest : List Event}

theorem step_eq_freeStep_of_no_events (h : s.env.events = []) : step s = freeStep s := by
  simp only [step, h]

/-- A turn never waits, so it is taken off the list at once (`ready`). -/
theorem step_eq_agentStep_of_turn (h : s.env.events = .agent a :: rest) :
    step s = agentStep a (withEvents rest s) := by
  simp only [step, h, ready, happen, if_true]

theorem agentStep_of_enabled (h : enabled s a = true) : agentStep a s = agentAct a s :=
  if_pos h

theorem agentStep_of_not_enabled (h : enabled s a = false) : agentStep a s = .next s :=
  if_neg (by simp [h])

theorem freeStep_of_none_enabled (h : enabledAgents s = []) : freeStep s = .next s := by
  simp only [freeStep, h]

/-- The free value of log entry 2 is taken modulo the number of enabled agents, so it always points at one of
them and the default of `getD` is never used. -/
theorem getD_mod_length_mem {α : Type} (x d : α) (xs : List α) (n : Nat) :
    (x :: xs).getD (n % (x :: xs).length) d ∈ x :: xs := by
  have hlt : n % (x :: xs).length < (x :: xs).length := Nat.mod_lt _ (by simp)
  rw [List.getD_eq_getElem _ _ hlt]
  exact List.getElem_mem hlt

/-- Unlike `freeStep_cases`, which reads a step that has answered, this holds whatever the agent's step answers. -/
theorem freeStep_of_some_enabled (h : enabledAgents s ≠ []) :
    ∃ a ∈ enabledAgents s, freeStep s = agentAct a { s with tick := s.tick + 1 } := by
  obtain ⟨b, bs, hb⟩ := List.exists_cons_of_ne_nil h
  refine ⟨(b :: bs).getD (Config.schedule s.tick % (b :: bs).length) b, ?_, ?_⟩
  · rw [hb]; exact getD_mod_length_mem b b bs _
  · simp only [freeStep, hb]

end Sys2Proof.Machine

namespace Sys2Proof.Proofs

open Sys2Proof.Machine

/-- Settles O8: the equations of `step` for an empty list of events and for a turn. -/
theorem enabledAgentSteps : Obligations.EnabledAgentSteps := by
  refine ⟨fun s hs => ?_, fun s a rest hs => ?_⟩
  · rw [step_eq_freeStep_of_no_events hs]
    exact ⟨freeStep_of_none_enabled, freeStep_of_some_enabled⟩
  · rw [step_eq_agentStep_of_turn hs]
    exact ⟨agentStep_of_enabled, agentStep_of_not_enabled⟩

end Sys2Proof.Proofs
end

section
/-! SUPPORT. The register file (10_state.md R21, R22): which registers the host writes, the register map and its
inverse, and what a register reads as after a host write. -/

namespace Sys2Proof.Machine

variable {s : State} {i j : BitVec 6} {v : Word} {rest : List Event}

/-- The registers written only by the host: the operands of R23, and `SP_TOTAL` and `SP_CTRL` of R22. -/
def hostRegs : List Reg :=
  [.inBase, .inSize, .inOff, .outBase, .outSize, .outOff, .len, .keyBase, .keyLen, .ivBase, .ivLen, .arg,
    .spTotal, .spCtrl]

/-- The index of a register in the map of R22. -/
def indexOfReg : Reg → BitVec 6
  | .id => 0x00
  | .bmState => 0x01
  | .bmMode => 0x02
  | .bmBlockSize => 0x03
  | .bmParMin => 0x04
  | .bmParMax => 0x05
  | .bmParBlock => 0x06
  | .bmIsParallel => 0x07
  | .bmThreads => 0x08
  | .inBase => 0x10
  | .inSize => 0x11
  | .inOff => 0x12
  | .outBase => 0x13
  | .outSize => 0x14
  | .outOff => 0x15
  | .len => 0x16
  | .keyBase => 0x17
  | .keyLen => 0x18
  | .ivBase => 0x19
  | .ivLen => 0x1A
  | .arg => 0x1B
  | .spState => 0x20
  | .spKind => 0x21
  | .spTotal => 0x22
  | .spCtrl => 0x23
  | .spBufSize => 0x24
  | .spQueueCap => 0x25
  | .spPos => 0x26
  | .spInterval => 0x27

/-- The indices a host write reaches (R22). -/
abbrev HostWritable (i : BitVec 6) : Prop :=
  (0x10 ≤ i.toNat ∧ i.toNat ≤ 0x1B) ∨ i.toNat = 0x22 ∨ i.toNat = 0x23

/-- The indices with no register behind them (R22). -/
abbrev Unimplemented (i : BitVec 6) : Prop :=
  (0x09 ≤ i.toNat ∧ i.toNat ≤ 0x0F) ∨ (0x1C ≤ i.toNat ∧ i.toNat ≤ 0x1F) ∨ 0x28 ≤ i.toNat

theorem indexOfReg_of_regOfIndex : ∀ (i : BitVec 6), ∀ r ∈ regOfIndex i, indexOfReg r = i := by decide

/-- No register stands at two indices. -/
theorem regOfIndex_injective {r : Reg} (hi : regOfIndex i = some r) (hj : regOfIndex j = some r) : i = j :=
  (indexOfReg_of_regOfIndex i r hi).symm.trans (indexOfReg_of_regOfIndex j r hj)

/-- The indices a host write reaches are those of the registers the host writes. -/
theorem regOfIndex_writable :
    ∀ i : BitVec 6, HostWritable i → ∃ r ∈ hostRegs, regOfIndex i = some r := by decide

theorem regOfIndex_not_writable :
    ∀ i : BitVec 6, ¬ HostWritable i → ∀ r ∈ regOfIndex i, r ∉ hostRegs := by decide

theorem regOfIndex_absent :
    ∀ i : BitVec 6, Unimplemented i → regOfIndex i = none := by decide

/-- A host write of a register: the value where the register is one the host writes, every other register as it
was. -/
theorem getReg_hostSetReg (s : State) (name r : Reg) (v : Word) :
    getReg { s with regs := hostSetReg s.regs name v } r =
      if r = name ∧ name ∈ hostRegs then v else getReg s r := by
  cases name <;> cases r <;> rfl

theorem hostSetReg_of_not_mem (regs : Regs) (name : Reg) (v : Word) (h : name ∉ hostRegs) :
    hostSetReg regs name v = regs := by
  cases name <;> simp [hostRegs] at h <;> rfl

theorem regRead_of_some {r : Reg} (h : regOfIndex i = some r) : regRead s i = getReg s r := by
  simp only [regRead, h]

theorem regRead_of_none (h : regOfIndex i = none) : regRead s i = 0 := by
  simp only [regRead, h]

theorem regWrite_of_some {r : Reg} (h : regOfIndex i = some r) :
    regWrite s i v = { s with regs := hostSetReg s.regs r v } := by
  simp only [regWrite, h]

theorem regWrite_of_none (h : regOfIndex i = none) : regWrite s i v = s := by
  simp only [regWrite, h]

/-- A write changes only the register file. -/
theorem regWrite_eq (s : State) (i : BitVec 6) (v : Word) :
    regWrite s i v = { s with regs := (regWrite s i v).regs } := by
  unfold regWrite
  split <;> rfl

theorem regWrite_env (s : State) (i : BitVec 6) (v : Word) : (regWrite s i v).env = s.env := by
  rw [regWrite_eq]

theorem regRead_regWrite_same {r : Reg} (hi : regOfIndex i = some r) (hr : r ∈ hostRegs) :
    regRead (regWrite s i v) i = v := by
  rw [regWrite_of_some hi, regRead_of_some hi, getReg_hostSetReg, if_pos ⟨rfl, hr⟩]

theorem regRead_regWrite_other {r : Reg} (hi : regOfIndex i = some r) (hij : j ≠ i) :
    regRead (regWrite s i v) j = regRead s j := by
  rw [regWrite_of_some hi]
  cases hj : regOfIndex j with
  | none => rw [regRead_of_none hj, regRead_of_none hj]
  | some q =>
    have hq : q ≠ r := fun hqr => hij (regOfIndex_injective hj (hqr ▸ hi))
    rw [regRead_of_some hj, regRead_of_some hj, getReg_hostSetReg, if_neg fun h => hq h.1]

theorem regWrite_of_not_writable (h : ¬ HostWritable i) : regWrite s i v = s := by
  cases hi : regOfIndex i with
  | none => exact regWrite_of_none hi
  | some r => rw [regWrite_of_some hi, hostSetReg_of_not_mem _ _ _ (regOfIndex_not_writable i h r hi)]

/-- A register write touches nothing the events are part of, so it may be seen as done before or after the event is
taken off the list. -/
theorem regWrite_withEvents (s : State) (i : BitVec 6) (v : Word) (events : List Event) :
    regWrite (withEvents events s) i v = withEvents events (regWrite s i v) := by
  unfold regWrite
  split <;> rfl

/-- An event that is no await is taken off the list and happens. -/
theorem step_eq_happen_of_ready {e : Event} (h : s.env.events = e :: rest) (hr : ready e s = true) :
    step s = happen e (withEvents rest s) := by
  simp only [step, h, hr, if_true]

end Sys2Proof.Machine

namespace Sys2Proof.Proofs

open Sys2Proof.Machine

/-- Settles O32: the map of R22 index by index, and the REG port by the equation of a host write. -/
theorem registerFile : Obligations.RegisterFile := by
  intro s i j v
  refine ⟨fun hw => ?_, fun hw hij => ?_, regWrite_of_not_writable, fun ha => ?_, ?_, ?_, ?_, ?_,
    fun rest he => ?_, fun rest he => ?_⟩
  · obtain ⟨r, hr, hi⟩ := regOfIndex_writable i hw
    exact regRead_regWrite_same hi hr
  · obtain ⟨r, -, hi⟩ := regOfIndex_writable i hw
    exact regRead_regWrite_other hi hij
  · exact regRead_of_none (regOfIndex_absent i ha)
  · exact ⟨rfl, rfl, rfl, rfl, rfl, rfl, rfl, rfl, rfl⟩
  · exact ⟨rfl, rfl, rfl, rfl, rfl, rfl, rfl, rfl, rfl, rfl, rfl, rfl⟩
  · exact ⟨rfl, rfl, rfl, rfl, rfl, rfl, rfl, rfl⟩
  · exact ⟨_, regWrite_eq s i v⟩
  · rw [step_eq_happen_of_ready he rfl, happen, regWrite_withEvents, withEvents, regWrite_env]
  · rw [step_eq_happen_of_ready he rfl]
    rfl

end Sys2Proof.Proofs
end

section
/-! SUPPORT. The frame of a step of the hardware: the build, the registers the host writes and the host's side of the
ports stay as they are, and the logs only grow (10_state.md R22, R23, R33; 00_scope.md R6). -/

namespace Sys2Proof.Machine

variable {s t u : State} {n m : Nat}

/-- The words of the registers that only the host writes. -/
def Regs.operands (r : Regs) : List Word :=
  [r.inBase, r.inSize, r.inOff, r.outBase, r.outSize, r.outOff, r.len, r.keyBase, r.keyLen, r.ivBase, r.ivLen,
    r.arg, r.spTotal, r.spCtrl]

/-- What a step of the hardware leaves as it was, `n` bounding the responses it adds. -/
structure HardwareFrame (n : Nat) (s t : State) : Prop where
  cfg : t.cfg = s.cfg
  operands : t.regs.operands = s.regs.operands
  port : t.port = s.port
  rsp : ∃ more, t.rsp = s.rsp ++ more ∧ more.length ≤ n
  evt : ∃ more, t.evt = s.evt ++ more

/-- The operand registers read as before. -/
theorem getReg_of_operands (h : t.regs.operands = s.regs.operands) : ∀ r ∈ hostRegs, getReg t r = getReg s r := by
  simpa [hostRegs, Regs.operands, getReg] using h

/-! ### The three updates that end or start a command, each with its response outermost -/

/-- A run started in the stream unit, before the engine is taken (42 R200). -/
def runStarted (tag : BitVec 8) (out : Option (Nat × Nat)) (nbs : Nat) (s : State) : State :=
  setSpState .running
    { s with
      sp :=
        { s.sp with
          run := { tag := tag, total := s.regs.spTotal.toNat, out := out }
          path := runPath s.regs.spCtrl s.regs.spTotal.toNat s.cfg.bufSize
          interval := progressInterval s.regs.spTotal.toNat nbs
          rpos := 0
          cpos := 0
          queue := []
          readerDone := false
          cancel := false
          fault := none }
      regs :=
        { s.regs with
          spInterval := BitVec.ofNat 64 (progressInterval s.regs.spTotal.toNat nbs)
          spPos := 0 } }

theorem startRun_eq (tag : BitVec 8) (out : Option (Nat × Nat)) (nbs : Nat) (s : State) :
    startRun tag out nbs s =
      if s.sp.cls = .cipher then setBmState .transforming (runStarted tag out nbs s)
      else runStarted tag out nbs s := rfl

theorem abortRun_answers {code : Code} (h : abortRun code s = .next t) :
    ∃ u, restoreTarget { s with sp := { s.sp with queue := [] } } = some u ∧
      t = respond 0x12 u.sp.run.tag code (setSpState .armed { u with sp := { u.sp with fault := none } }) :=
  abortRun_cases code s t h

theorem finish_answers (h : finish s = .next t) :
    ∃ u v, storeCode s = .ok u ∧ restoreTarget u = some v ∧
      t = respond 0x12 v.sp.run.tag .ok (emitEvent finalKind v.sp.run.total (setSpState .armed v)) :=
  finish_cases s t h

/-- A transform completed, before its response (40 R134). -/
def transformEnded (s : State) : State :=
  setBmState .ready { s with bm := { s.bm with xf := none } }

theorem complete_eq (xf : Transform) (s : State) :
    complete xf s = .next (respond 0x04 xf.tag .ok (transformEnded s)) := rfl

namespace HardwareFrame

/-- A step that leaves the logs alone. -/
theorem of_quiet (hc : t.cfg = s.cfg) (ho : t.regs.operands = s.regs.operands) (hp : t.port = s.port)
    (hr : t.rsp = s.rsp) (he : t.evt = s.evt) : HardwareFrame n s t :=
  ⟨hc, ho, hp, ⟨[], by simp [hr]⟩, ⟨[], by simp [he]⟩⟩

theorem refl (s : State) : HardwareFrame n s s := of_quiet rfl rfl rfl rfl rfl

theorem trans (h : HardwareFrame n s t) (k : HardwareFrame m t u) : HardwareFrame (n + m) s u := by
  obtain ⟨r, hr, hrn⟩ := h.rsp
  obtain ⟨q, hq, hqm⟩ := k.rsp
  obtain ⟨e, he⟩ := h.evt
  obtain ⟨f, hf⟩ := k.evt
  exact ⟨k.cfg.trans h.cfg, k.operands.trans h.operands, k.port.trans h.port,
    ⟨r ++ q, by rw [hq, hr, List.append_assoc], by rw [List.length_append]; omega⟩,
    ⟨e ++ f, by rw [hf, he, List.append_assoc]⟩⟩

/-- Work that answers nothing before a step adds no response to the bound. -/
theorem after_quiet (h : HardwareFrame 0 s t) (k : HardwareFrame m t u) : HardwareFrame m s u :=
  Nat.zero_add m ▸ h.trans k

theorem mono (h : HardwareFrame n s t) (hnm : n ≤ m) : HardwareFrame m s t := by
  obtain ⟨r, hr, hrn⟩ := h.rsp
  exact { h with rsp := ⟨r, hr, hrn.trans hnm⟩ }

theorem respond (op tag : BitVec 8) (code : Code) (s : State) :
    HardwareFrame 1 s (Machine.respond op tag code s) :=
  ⟨rfl, rfl, rfl, ⟨_, rfl, le_refl 1⟩, ⟨[], by simp⟩⟩

/-- Work that answers nothing, then an answer. -/
theorem answer (op tag : BitVec 8) (code : Code) (h : HardwareFrame 0 s t) :
    HardwareFrame 1 s (Machine.respond op tag code t) :=
  h.after_quiet (respond op tag code t)

theorem emitEvent (kind : BitVec 8) (pos : Nat) (s : State) : HardwareFrame 0 s (Machine.emitEvent kind pos s) :=
  ⟨rfl, rfl, rfl, ⟨[], by simp⟩, ⟨_, rfl⟩⟩

theorem accountFed (k : Nat) (s : State) : HardwareFrame 0 s (Machine.accountFed k s) :=
  ⟨rfl, rfl, rfl, ⟨[], by simp⟩, ⟨_, rfl⟩⟩

theorem startRun (tag : BitVec 8) (out : Option (Nat × Nat)) (nbs : Nat) (s : State) :
    HardwareFrame 0 s (Machine.startRun tag out nbs s) := by
  rw [startRun_eq]
  split <;> exact of_quiet rfl rfl rfl rfl rfl

/-! ### How a run ends -/

theorem restoreTarget (h : restoreTarget s = some t) : HardwareFrame 0 s t := by
  obtain ⟨-, d, -, rfl⟩ | ⟨-, m, -, rfl⟩ | ⟨-, rfl⟩ | ⟨-, rfl⟩ := restoreTarget_cases s t h <;>
    exact of_quiet rfl rfl rfl rfl rfl

theorem abortRun {code : Code} (h : abortRun code s = .next t) : HardwareFrame 1 s t := by
  obtain ⟨u, hu, rfl⟩ := abortRun_answers h
  have emptied : HardwareFrame 0 s { s with sp := { s.sp with queue := [] } } := of_quiet rfl rfl rfl rfl rfl
  have armed : HardwareFrame 0 u (setSpState .armed { u with sp := { u.sp with fault := none } }) :=
    of_quiet rfl rfl rfl rfl rfl
  exact answer _ _ _ (emptied.after_quiet ((restoreTarget hu).after_quiet armed))

theorem storeCode (h : storeCode s = .ok t) : HardwareFrame 0 s t := by
  obtain ⟨-, p, st, dst, dsz, -, -, -, -, rfl⟩ | ⟨-, rfl⟩ := storeCode_cases s t h <;>
    exact of_quiet rfl rfl rfl rfl rfl

theorem finish (h : finish s = .next t) : HardwareFrame 1 s t := by
  obtain ⟨u, v, hu, hv, rfl⟩ := finish_answers h
  have armed : HardwareFrame 0 v (setSpState .armed v) := of_quiet rfl rfl rfl rfl rfl
  exact answer _ _ _ ((storeCode hu).after_quiet ((restoreTarget hv).after_quiet
    (armed.after_quiet (emitEvent _ _ _))))

/-! ### The agents of a run -/

theorem sourceMoved (s : State) : HardwareFrame 0 s (Machine.sourceMoved s) := of_quiet rfl rfl rfl rfl rfl

theorem feed_fed {bs : List Byte} (h : feed bs s = .fed t) : HardwareFrame 0 s t := by
  obtain ⟨u, hu, rfl⟩ := Machine.feed_fed bs s t h
  have fed : HardwareFrame 0 s u := by
    obtain ⟨-, p, st, -, -, rfl⟩ | ⟨-, c, mode, -, -, rfl⟩ | ⟨-, rfl⟩ := feedTarget_fed bs s u hu <;>
      exact of_quiet rfl rfl rfl rfl rfl
  exact fed.after_quiet (accountFed _ _)

theorem feed_ended {bs : List Byte} (h : feed bs s = .ended (.next t)) : HardwareFrame 1 s t := by
  obtain ⟨-, c, mode, -, -, ha⟩ := feedTarget_ended bs s t (Machine.feed_ended bs s _ h)
  refine after_quiet ?_ (abortRun ha)
  exact of_quiet rfl rfl rfl rfl rfl

theorem seqStep (h : seqStep s = .next t) : HardwareFrame 1 s t := by
  have advanced : HardwareFrame 0 s (advanceReader (requestSize s) (Machine.sourceMoved s)) :=
    of_quiet rfl rfl rfl rfl rfl
  obtain ⟨-, ha⟩ | ⟨-, -, ha⟩ | ⟨bs, -, -, -, ha⟩ | ⟨bs, -, -, -, hfeed⟩ := seqStep_cases s t h
  · exact abortRun ha
  · exact (sourceMoved s).after_quiet (abortRun ha)
  · exact (sourceMoved s).after_quiet (abortRun ha)
  · obtain he | ⟨u, hu, ⟨-, hfin⟩ | ⟨-, rfl⟩⟩ := hfeed
    · exact advanced.after_quiet (feed_ended he)
    · exact advanced.after_quiet ((feed_fed hu).after_quiet (finish hfin))
    · exact (advanced.after_quiet (feed_fed hu)).mono (by omega)

theorem rdrStep (h : rdrStep s = .next t) : HardwareFrame 1 s t := by
  obtain ⟨-, rfl⟩ | ⟨-, -, rfl⟩ | ⟨bs, -, -, -, rfl⟩ | ⟨bs, -, -, -, rfl⟩ := rdrStep_cases s t h <;>
    exact of_quiet rfl rfl rfl rfl rfl

theorem csmStep (h : csmStep s = .next t) : HardwareFrame 1 s t := by
  obtain ⟨code, -, ha⟩ | ⟨-, -, rfl⟩ | ⟨bs, rest, -, -, hfeed⟩ := csmStep_cases s t h
  · exact abortRun ha
  · exact refl _
  · have popped : HardwareFrame 0 s { s with sp := { s.sp with queue := rest } } := of_quiet rfl rfl rfl rfl rfl
    obtain he | ⟨u, hu, ⟨-, -, hfin⟩ | ⟨-, rfl⟩⟩ := hfeed
    · exact popped.after_quiet (feed_ended he)
    · exact popped.after_quiet ((feed_fed hu).after_quiet (finish hfin))
    · exact (popped.after_quiet (feed_fed hu)).mono (by omega)

/-! ### The agents of a transform -/

theorem complete {xf : Transform} (h : complete xf s = .next t) : HardwareFrame 1 s t := by
  rw [complete_eq, Host.Outcome.next.injEq] at h
  subst h
  exact answer _ _ _ (of_quiet rfl rfl rfl rfl rfl)

theorem ctlStep (h : ctlStep s = .next t) : HardwareFrame 1 s t := by
  obtain ⟨-, rfl⟩ | ⟨xf, nc, -, -, hj⟩ | ⟨xf, -, -, ⟨-, hs⟩ | ⟨-, -, hs⟩ | ⟨-, -, hs⟩⟩ := ctlStep_cases s t h
  · exact refl _
  · simp only [join, Host.Outcome.next.injEq] at hj
    subst hj
    exact of_quiet rfl rfl rfl rfl rfl
  · obtain ⟨mode, lanes, nc, -, -, -, rfl⟩ := spawn_cases xf s t hs
    exact of_quiet rfl rfl rfl rfl rfl
  · obtain ⟨c, mode, -, -, -, rfl⟩ := serialStep_cases xf s t hs
    exact of_quiet rfl rfl rfl rfl rfl
  · exact complete hs

theorem agentAct {a : Agent} (h : agentAct a s = .next t) : HardwareFrame 1 s t := by
  cases a with
  | ctl => exact ctlStep h
  | lane i =>
    simp only [Machine.agentAct] at h
    split at h
    · obtain ⟨c, mode, -, -, -, rfl⟩ := laneStep_cases i _ s t h
      exact of_quiet rfl rfl rfl rfl rfl
    · cases h
      exact refl _
  | seq => exact seqStep h
  | rdr => exact rdrStep h
  | csm => exact csmStep h

theorem agentStep {a : Agent} (h : agentStep a s = .next t) : HardwareFrame 1 s t := by
  obtain ⟨-, h⟩ | ⟨-, rfl⟩ := agentStep_cases a s t h
  · exact agentAct h
  · exact refl _

theorem freeStep (h : freeStep s = .next t) : HardwareFrame 1 s t := by
  obtain ⟨-, rfl⟩ | ⟨a, -, h⟩ := freeStep_cases s t h
  · exact refl _
  · have ticked : HardwareFrame 0 s { s with tick := s.tick + 1 } := of_quiet rfl rfl rfl rfl rfl
    exact ticked.after_quiet (agentAct h)

/-! ### The commands -/

theorem rejectedAs {op tag : BitVec 8} {codes : List Code} (h : rejectedAs op tag codes s t) :
    HardwareFrame 1 s t := by
  obtain ⟨code, -, -, rfl⟩ := h
  exact HardwareFrame.respond _ _ _ _

theorem acceptRun {tag : BitVec 8} {out : Option (Nat × Nat)} {nbs : Nat} (h : acceptRun tag out nbs s = .next t) :
    HardwareFrame 1 s t := by
  obtain ⟨-, hfin⟩ | ⟨-, rfl⟩ := acceptRun_cases tag out nbs s t h
  · exact (startRun _ _ _ _).after_quiet (finish hfin)
  · exact (startRun _ _ _ _).mono (by omega)

theorem exec {i : Instr} (h : exec i s = .next t) : HardwareFrame 1 s t := by
  cases i with
  | nop tag =>
    simp only [Machine.exec, execNop, Host.Outcome.next.injEq] at h
    subst h
    exact HardwareFrame.respond _ _ _ _
  | bmNew tag sel kind =>
    obtain hr | ⟨mode, c, -, -, -, -, rfl⟩ := execBmNew_cases tag sel kind s t h
    · exact rejectedAs hr
    · exact answer _ _ _ (of_quiet rfl rfl rfl rfl rfl)
  | bmInit tag f =>
    obtain hr | ⟨-, -, -, -, rfl⟩ := execBmInit_cases tag f s t h
    · exact rejectedAs hr
    · exact answer _ _ _ (of_quiet rfl rfl rfl rfl rfl)
  | bmXblk tag =>
    obtain hr | ⟨a, o, c, mode, -, -, -, -, -, rfl⟩ := execBmXblk_cases tag s t h
    · exact rejectedAs hr
    · exact answer _ _ _ (of_quiet rfl rfl rfl rfl rfl)
  | bmXfrm tag =>
    obtain hr | ⟨a, o, -, -, -, -, -, ⟨-, rfl⟩ | ⟨-, rfl⟩⟩ := execBmXfrm_cases tag s t h
    · exact rejectedAs hr
    · exact HardwareFrame.respond _ _ _ _
    · exact of_quiet rfl rfl rfl rfl rfl
  | bmSetpbs tag =>
    obtain hr | ⟨-, -, -, -, -, rfl⟩ := execBmSetpbs_cases tag s t h
    · exact rejectedAs hr
    · exact answer _ _ _ (of_quiet rfl rfl rfl rfl rfl)
  | bmSetpar tag f =>
    obtain hr | ⟨-, rfl⟩ := execBmSetpar_cases tag f s t h
    · exact rejectedAs hr
    · exact answer _ _ _ (of_quiet rfl rfl rfl rfl rfl)
  | bmRelease tag =>
    obtain hr | ⟨-, rfl⟩ := execBmRelease_cases tag s t h
    · exact rejectedAs hr
    · exact answer _ _ _ (of_quiet rfl rfl rfl rfl rfl)
  | spNew tag sel kind =>
    obtain hr | ⟨-, ⟨-, d, -, rfl⟩ | ⟨-, -, rfl⟩ | ⟨-, -, rfl⟩⟩ := execSpNew_cases tag sel kind s t h
    · exact rejectedAs hr
    all_goals exact answer _ _ _ (of_quiet rfl rfl rfl rfl rfl)
  | spKey tag =>
    obtain hr | ⟨m, -, -, -, -, rfl⟩ := execSpKey_cases tag s t h
    · exact rejectedAs hr
    · exact answer _ _ _ (of_quiet rfl rfl rfl rfl rfl)
  | spRun tag =>
    obtain hr | ⟨-, -, ⟨-, p, o, -, -, ha⟩ | ⟨-, -, -, -, ha⟩⟩ := execSpRun_cases tag s t h
    · exact rejectedAs hr
    · exact acceptRun ha
    · exact acceptRun ha
  | spCancel tag =>
    obtain ⟨-, rfl⟩ | ⟨-, rfl⟩ := execSpCancel_cases tag s t h <;>
      exact answer _ _ _ (of_quiet rfl rfl rfl rfl rfl)
  | spRelease tag =>
    obtain hr | ⟨-, rfl⟩ := execSpRelease_cases tag s t h
    · exact rejectedAs hr
    · exact answer _ _ _ (of_quiet rfl rfl rfl rfl rfl)

end HardwareFrame

/-- What issuing a word can do: its command, or the answer to a word that is none (R101). -/
theorem issue_cases (w : Word) (s t : State) (h : issue w s = .next t) :
    (∃ i, decode w = .ok i ∧ exec i s = .next t) ∨
    (∃ op tag, decode w = .error (.unassignedOpcode op tag) ∧ t = respond op tag .unsupported s) ∨
    (∃ op tag, decode w = .error (.reservedBits op tag) ∧ t = respond op tag .invalidParameter s) := by
  unfold issue at h
  split at h
  · rename_i i hi; exact .inl ⟨i, hi, h⟩
  · rename_i op tag hd; exact .inr (.inl ⟨op, tag, hd, by simpa using h.symm⟩)
  · rename_i op tag hd; exact .inr (.inr ⟨op, tag, hd, by simpa using h.symm⟩)

theorem HardwareFrame.issue {w : Word} (h : issue w s = .next t) : HardwareFrame 1 s t := by
  obtain ⟨i, -, hi⟩ | ⟨op, tag, -, rfl⟩ | ⟨op, tag, -, rfl⟩ := issue_cases w s t h
  · exact HardwareFrame.exec hi
  · exact HardwareFrame.respond _ _ _ _
  · exact HardwareFrame.respond _ _ _ _

theorem hostMemWrite_cases (a : Nat) (bs : List Byte) (s t : State) (h : hostMemWrite a bs s = .next t) :
    a + bs.length ≤ memSize s ∧ t = { s with mem := setBytes s.mem a bs } := by
  unfold hostMemWrite at h
  split at h
  · rename_i u hu
    cases h
    simpa using (memWrite_eq_some s _ a bs.length bs).1 hu
  · cases h

theorem hostMemRead_cases (a k : Nat) (s t : State) (h : hostMemRead a k s = .next t) :
    a + k ≤ memSize s ∧ t = { s with port := { s.port with memData := bytesAt s.mem a k } } := by
  unfold hostMemRead at h
  split at h
  · rename_i bs hbs
    cases h
    obtain ⟨hle, rfl⟩ := (memRead_eq_some s a k bs).1 hbs
    exact ⟨hle, rfl⟩
  · cases h

/-- The transactions of the host that are outside the hardware's frame, each with the state it leaves. -/
inductive HostStep (s : State) : Event → State → Prop where
  | regWrite (i : BitVec 6) (v : Word) : HostStep s (.regWrite i v) (regWrite s i v)
  | regRead (i : BitVec 6) : HostStep s (.regRead i) (hostRegRead i s)
  | memRead (a k : Nat) :
      HostStep s (.memRead a k) { s with port := { s.port with memData := bytesAt s.mem a k } }
  | awaitRsp : HostStep s .awaitRsp (observeRsp s)
  | awaitEvt : HostStep s .awaitEvt (observeEvt s)
  | reset : HostStep s .reset (resetEvent s)

/-- What a step does, told by who acts: the hardware within its frame, or the host by one of its transactions. -/
theorem step_frame_or_host (h : step s = .next t) :
    HardwareFrame 1 s t ∨ ∃ e rest, s.env.events = e :: rest ∧ HostStep (withEvents rest s) e t := by
  obtain ⟨e, rest, he, -, hh⟩ | ⟨-, hf⟩ := step_cases s t h
  · have taken : HardwareFrame 0 s (withEvents rest s) := .of_quiet rfl rfl rfl rfl rfl
    cases e with
    | issue w => exact .inl (taken.after_quiet (.issue hh))
    | agent a => exact .inl (taken.after_quiet (.agentStep hh))
    | memWrite a bs =>
      obtain ⟨-, rfl⟩ := hostMemWrite_cases a bs _ t hh
      exact .inl (.of_quiet rfl rfl rfl rfl rfl)
    | setSource answers => cases hh; exact .inl (.of_quiet rfl rfl rfl rfl rfl)
    | setSink answers => cases hh; exact .inl (.of_quiet rfl rfl rfl rfl rfl)
    | memRead a k =>
      obtain ⟨-, rfl⟩ := hostMemRead_cases a k _ t hh
      exact .inr ⟨_, rest, he, .memRead a k⟩
    | regWrite i v => cases hh; exact .inr ⟨_, rest, he, .regWrite i v⟩
    | regRead i => cases hh; exact .inr ⟨_, rest, he, .regRead i⟩
    | awaitRsp => cases hh; exact .inr ⟨_, rest, he, .awaitRsp⟩
    | awaitEvt => cases hh; exact .inr ⟨_, rest, he, .awaitEvt⟩
    | reset => cases hh; exact .inr ⟨_, rest, he, .reset⟩
  · exact .inl (.freeStep hf)

/-- A register write leaves the build, the host's side of the ports and both logs. -/
theorem regWrite_quiet (s : State) (i : BitVec 6) (v : Word) :
    (regWrite s i v).cfg = s.cfg ∧ (regWrite s i v).port = s.port ∧ (regWrite s i v).rsp = s.rsp ∧
      (regWrite s i v).evt = s.evt := by
  rw [regWrite_eq]
  exact ⟨rfl, rfl, rfl, rfl⟩

/-! ### An await that has to wait -/

theorem step_eq_freeStep_of_not_ready {e : Event} {rest : List Event} (h : s.env.events = e :: rest)
    (hr : ready e s = false) : step s = freeStep s := by
  simp [step, h, hr]

theorem ready_awaitRsp_iff : ready .awaitRsp s = true ↔ s.port.rspSeen < s.rsp.length := by
  simp [ready, rspPending]

theorem ready_awaitEvt_iff : ready .awaitEvt s = true ↔ s.port.evtSeen < s.evt.length := by
  simp [ready, evtPending]

/-- An await whose word is not there stands, and the hardware moves alone. -/
theorem waits_of_not_ready {e : Event} {rest : List Event} (h : s.env.events = e :: rest)
    (hr : ¬ ready e s = true) :
    (enabledAgents s = [] → step s = .next s) ∧
    (enabledAgents s ≠ [] → ∃ a ∈ enabledAgents s, step s = agentAct a { s with tick := s.tick + 1 }) := by
  rw [step_eq_freeStep_of_not_ready h (by simpa using hr)]
  exact ⟨freeStep_of_none_enabled, freeStep_of_some_enabled⟩

end Sys2Proof.Machine

namespace Sys2Proof.Proofs

open Sys2Proof.Machine

/-- Settles O38: the frame of the hardware, and the host's transactions, of which only `Reset` touches a log. -/
theorem logsOnlyGrow : Obligations.LogsOnlyGrow := by
  intro s t h hreset
  have quiet (hr : t.rsp = s.rsp) (he : t.evt = s.evt) :
      (∃ more, t.rsp = s.rsp ++ more ∧ more.length ≤ 1) ∧ ∃ more, t.evt = s.evt ++ more :=
    ⟨⟨[], by simp [hr]⟩, ⟨[], by simp [he]⟩⟩
  obtain hf | ⟨e, rest, he, hh⟩ := step_frame_or_host h
  · exact ⟨hf.rsp, hf.evt⟩
  · cases hh with
    | regWrite i v =>
      obtain ⟨-, -, hr, he⟩ := regWrite_quiet (withEvents rest s) i v
      exact quiet hr he
    | regRead i => exact quiet rfl rfl
    | memRead a k => exact quiet rfl rfl
    | awaitRsp => exact quiet rfl rfl
    | awaitEvt => exact quiet rfl rfl
    | reset => exact absurd he (hreset rest)

/-- Settles O39: the frame of the hardware, and the host's transactions, of which none but a register write and
`Reset` touches the register file. -/
theorem operandRegistersBelongToHost : Obligations.OperandRegistersBelongToHost := by
  intro s t h
  obtain hf | ⟨e, rest, he, hh⟩ := step_frame_or_host h
  · exact ⟨hf.cfg, fun _ _ => getReg_of_operands hf.operands⟩
  · cases hh with
    | regWrite i v =>
      obtain ⟨hc, -⟩ := regWrite_quiet (withEvents rest s) i v
      exact ⟨hc, fun hw _ => absurd he (hw i v rest)⟩
    | regRead i => exact ⟨rfl, fun _ _ => getReg_of_operands rfl⟩
    | memRead a k => exact ⟨rfl, fun _ _ => getReg_of_operands rfl⟩
    | awaitRsp => exact ⟨rfl, fun _ _ => getReg_of_operands rfl⟩
    | awaitEvt => exact ⟨rfl, fun _ _ => getReg_of_operands rfl⟩
    | reset => exact ⟨rfl, fun _ hreset => absurd he (hreset rest)⟩

/-- What the host has seen and read moves only with the transaction it belongs to. -/
theorem port_moves_only_with_its_event {s t : State} (h : step s = .next t)
    (hreset : ∀ r, s.env.events ≠ .reset :: r) :
    ((∀ r, s.env.events ≠ .awaitRsp :: r) → t.port.rspSeen = s.port.rspSeen) ∧
    ((∀ r, s.env.events ≠ .awaitEvt :: r) → t.port.evtSeen = s.port.evtSeen) ∧
    ((∀ i r, s.env.events ≠ .regRead i :: r) → t.port.regData = s.port.regData) ∧
    ((∀ a n r, s.env.events ≠ .memRead a n :: r) → t.port.memData = s.port.memData) := by
  obtain hf | ⟨e, rest, he, hh⟩ := step_frame_or_host h
  · rw [hf.port]
    exact ⟨fun _ => rfl, fun _ => rfl, fun _ => rfl, fun _ => rfl⟩
  · cases hh with
    | regWrite i v =>
      obtain ⟨-, hp, -⟩ := regWrite_quiet (withEvents rest s) i v
      rw [hp]
      exact ⟨fun _ => rfl, fun _ => rfl, fun _ => rfl, fun _ => rfl⟩
    | regRead i => exact ⟨fun _ => rfl, fun _ => rfl, fun hne => absurd he (hne i rest), fun _ => rfl⟩
    | memRead a k => exact ⟨fun _ => rfl, fun _ => rfl, fun _ => rfl, fun hne => absurd he (hne a k rest)⟩
    | awaitRsp => exact ⟨fun hne => absurd he (hne rest), fun _ => rfl, fun _ => rfl, fun _ => rfl⟩
    | awaitEvt => exact ⟨fun _ => rfl, fun hne => absurd he (hne rest), fun _ => rfl, fun _ => rfl⟩
    | reset => exact absurd he (hreset rest)

/-- Settles O60: an await is taken off the list exactly when it is ready, and nothing else moves the host's side. -/
theorem hostObservesLogs : Obligations.HostObservesLogs := by
  intro s rest
  refine ⟨fun he => ⟨fun hlt => ?_, fun hle => ?_⟩, fun he => ⟨fun hlt => ?_, fun hle => ?_⟩,
    fun answers he => step_eq_happen_of_ready he rfl, fun answers he => step_eq_happen_of_ready he rfl,
    fun t => port_moves_only_with_its_event⟩
  · exact step_eq_happen_of_ready he (ready_awaitRsp_iff.2 hlt)
  · exact waits_of_not_ready he (mt ready_awaitRsp_iff.1 (by omega))
  · exact step_eq_happen_of_ready he (ready_awaitEvt_iff.2 hlt)
  · exact waits_of_not_ready he (mt ready_awaitEvt_iff.1 (by omega))

end Sys2Proof.Proofs
end

section
/-! SUPPORT. Sizes and words: what the invariant needs of the sizing of the engine (40_block_mode_commands.md R122,
R140), of the words in registers and logs, and of the chain value each mode function leaves. -/

namespace Sys2Proof.Machine

/-! ### Build and sizing -/

theorem Params.ok_iff (p : Params) :
    p.ok = true ↔
      (1 ≤ p.threads ∧ p.threads ≤ 256) ∧ (1 ≤ p.bufSize ∧ p.bufSize < 2 ^ 64) ∧
      (2 ≤ p.queueCap ∧ p.queueCap < 2 ^ 64) ∧ (1 ≤ p.addrBits ∧ p.addrBits ≤ 64) := by
  simp only [Params.ok, Bool.and_eq_true, decide_eq_true_eq, and_assoc]

theorem parMin_pos_le {B T : Nat} (hB : 1 ≤ B) (hB' : B ≤ 8191) (hT : 1 ≤ T) (hT' : T ≤ 256) :
    1 ≤ parMin B T ∧ parMin B T ≤ 8191 * 256 :=
  ⟨Nat.mul_pos hB hT, Nat.mul_le_mul hB' hT'⟩

/-- `PAR_MAX` is 100 MiB rounded up to a multiple of `PAR_MIN`. -/
theorem parMax_bounds {p : Nat} (hp : 1 ≤ p) : 104857600 ≤ parMax p ∧ parMax p ≤ 104857600 + p - 1 := by
  have lower := Nat.lt_mul_div_succ (104857600 + p - 1) hp
  have upper := Nat.mul_div_le (104857600 + p - 1) p
  rw [Nat.mul_add, Nat.mul_one] at lower
  unfold parMax
  omega

/-- The default block size is one `BM_SETPBS` would take. -/
theorem pbsDefault_legal {B T : Nat} (hB : 1 ≤ B) (hB' : B ≤ 8191) (hT : 1 ≤ T) (hT' : T ≤ 256) :
    parMin B T ≤ pbsDefault B T ∧ pbsDefault B T ≤ parMax (parMin B T) ∧
      pbsDefault B T % parMin B T = 0 := by
  have eq : pbsDefault B T = parMin B T * (65536 / B) := by rw [pbsDefault, parMin, Nat.mul_comm T B]
  have one : 1 ≤ 65536 / B := (Nat.one_le_div_iff hB).2 (by omega)
  have small : pbsDefault B T ≤ 256 * 65536 := by
    rw [pbsDefault, Nat.mul_assoc]
    exact Nat.mul_le_mul hT' (Nat.mul_div_le 65536 B)
  have large := (parMax_bounds (parMin_pos_le hB hB' hT hT').1).1
  exact ⟨eq ▸ Nat.le_mul_of_pos_right _ one, by omega, by rw [eq, Nat.mul_mod_right]⟩

/-- The two bounds fit the registers that show them. -/
theorem parMin_parMax_toNat {B T : Nat} (hB : 1 ≤ B) (hB' : B ≤ 8191) (hT : 1 ≤ T) (hT' : T ≤ 256) :
    (BitVec.ofNat 64 (parMin B T)).toNat = parMin B T ∧
      (BitVec.ofNat 64 (parMax (parMin B T))).toNat = parMax (parMin B T) := by
  obtain ⟨pos, le⟩ := parMin_pos_le hB hB' hT hT'
  have max := (parMax_bounds pos).2
  simp only [BitVec.toNat_ofNat]
  exact ⟨Nat.mod_eq_of_lt (by omega), Nat.mod_eq_of_lt (by omega)⟩

/-! ### Words -/

theorem modeCode_le (mode : Option CipherMode) : modeCode mode ≤ 3 := by
  rcases mode with _ | _ | _ | _ <;> simp [modeCode]

theorem getLsbD_bmModeWord (mode : Option CipherMode) (kind : BitVec 16) (enc : Bool) (i : Nat) (hi : i < 64) :
    (bmModeWord mode kind enc).getLsbD i =
      if i < 32 then (modeCode mode + kind.toNat * 2 ^ 16).testBit i else (bit enc).testBit (i - 32) := by
  have low : modeCode mode + kind.toNat * 2 ^ 16 < 2 ^ 32 := by
    have := modeCode_le mode
    have := kind.isLt
    omega
  rw [bmModeWord, BitVec.getLsbD_ofNat, Nat.mul_comm (bit enc), Nat.add_comm _ (2 ^ 32 * bit enc),
    Nat.testBit_two_pow_mul_add _ low]
  simp [hi]

/-- Writing bit 32 of `BM_MODE` changes the direction it shows and nothing else (R124, R144). -/
theorem withEncryptBit_bmModeWord (mode : Option CipherMode) (kind : BitVec 16) (enc f : Bool) :
    withEncryptBit (bmModeWord mode kind enc) f = bmModeWord mode kind f := by
  have mask : (0xFFFFFFFEFFFFFFFF : Word) = ~~~ BitVec.twoPow 64 32 := by decide
  have flag : (if f then (0x100000000 : Word) else 0) = if f then BitVec.twoPow 64 32 else 0 := by
    cases f <;> decide
  apply BitVec.eq_of_getLsbD_eq
  intro i hi
  rw [withEncryptBit, mask, flag, BitVec.getLsbD_or, BitVec.getLsbD_and, BitVec.getLsbD_not,
    getLsbD_bmModeWord _ _ _ _ hi, getLsbD_bmModeWord _ _ _ _ hi]
  obtain hlt | rfl | hgt := Nat.lt_trichotomy i 32
  · cases f <;> simp [hlt, hi, show ¬ i = 32 by omega]
  · cases f <;> simp [bit]
  · have high (b : Bool) : (bit b).testBit (i - 32) = false := by
      obtain ⟨j, hj⟩ : ∃ j, i - 32 = j + 1 := ⟨i - 33, by omega⟩
      cases b <;> simp [bit, hj, Nat.testBit_succ]
    cases f <;> simp [high, hi, show ¬ i < 32 by omega, show ¬ i = 32 by omega]

theorem legalResponse_responseWord {code : Code} (hc : code ∈ emittedCodes) (op tag : BitVec 8) :
    legalResponse (responseWord op tag code) = true := by
  have field : (responseWord op tag code).extractLsb' 16 8 = BitVec.ofNat 8 (codeNumber code) := by
    rw [responseWord, Laws.Encoding.extract_append_high _ _ _ _ (by decide),
      Laws.Encoding.extract_append_high _ _ _ _ (by decide),
      Laws.Encoding.extract_append_low _ _ _ _ (by decide), Laws.Encoding.extract_whole]
  have zero : (responseWord op tag code).extractLsb' 24 40 = 0 := by
    rw [responseWord, Laws.Encoding.extract_append_high _ _ _ _ (by decide),
      Laws.Encoding.extract_append_high _ _ _ _ (by decide),
      Laws.Encoding.extract_append_high _ _ _ _ (by decide), Laws.Encoding.extract_whole]
    rfl
  rw [legalResponse, field, zero, Bool.and_eq_true]
  exact ⟨List.any_eq_true.2 ⟨code, hc, by simp⟩, by simp⟩

theorem eventWord_kind (kind : BitVec 8) (pos : Nat) : (eventWord kind pos).extractLsb' 56 8 = kind := by
  rw [eventWord, Laws.Encoding.extract_append_high _ _ _ _ (by decide), Laws.Encoding.extract_whole]

theorem legalEvent_progress (pos : Nat) : legalEvent (eventWord progressKind pos) = true := by
  simp [legalEvent, eventWord_kind]

theorem legalEvent_final (pos : Nat) : legalEvent (eventWord finalKind pos) = true := by
  simp [legalEvent, eventWord_kind]

/-! ### The chain value after the mode functions -/

theorem tailStep_chain_length (c : BlockCipher) (key chain x : List Byte) :
    (tailStep c key chain x).2.length = 16 := by simp [tailStep]

theorem laneBlock_reg_length (c : BlockCipher) (mode : CipherMode) (key reg x : List Byte)
    (hx : x.length = c.blockSize) (hm : mode = .ctr → c.blockSize = 16) :
    (laneBlock c mode key reg x).2.length = c.blockSize := by
  cases mode <;> simp_all [laneBlock]

theorem serialBlocks_chain_length (c : BlockCipher) (mode : CipherMode) (enc : Bool) (key : List Byte) (n : Nat)
    (chain data : List Byte) (hk : c.keyLenOk key.length = true) (hm : mode = .ctr → c.blockSize = 16)
    (hc : chain.length = c.blockSize) (hd : n * c.blockSize ≤ data.length) :
    (serialBlocks c mode enc key n chain data).2.length = c.blockSize := by
  induction n generalizing chain data with
  | zero => exact hc
  | succ n ih =>
    rw [Nat.add_mul, Nat.one_mul] at hd
    have block : (data.take c.blockSize).length = c.blockSize := by rw [List.length_take]; omega
    exact ih _ _ (blockStep_length c mode enc key chain _ hk hc block hm).2 (by rw [List.length_drop]; omega)

/-- The serial meaning of a transform leaves one block of chain; a tail is met in CTR only. -/
theorem serialXform_chain_length (c : BlockCipher) (mode : CipherMode) (enc : Bool) (key chain data : List Byte)
    (hk : c.keyLenOk key.length = true) (hm : mode = .ctr → c.blockSize = 16) (hc : chain.length = c.blockSize)
    (hw : needsWholeBlocks (some mode) = true → data.length % c.blockSize = 0) :
    (serialXform c mode enc key chain data).2.length = c.blockSize := by
  have whole := serialBlocks_chain_length c mode enc key (data.length / c.blockSize) chain data hk hm hc
    (Nat.div_mul_le_self _ _)
  unfold serialXform
  simp only
  split
  · exact whole
  · rename_i htail
    cases mode with
    | ctr => rw [tailStep_chain_length, hm rfl]
    | cbc | cfb =>
      refine absurd ?_ htail
      have := Nat.div_add_mod' data.length c.blockSize
      rw [List.length_drop]
      have := hw rfl
      omega

/-- An engine that is selected and keyed: the cipher and the mode it works with, and the sizes they give. -/
structure EngineReady (s : State) (c : BlockCipher) (mode : CipherMode) : Prop where
  mode_eq : s.bm.mode = some mode
  blockSize_eq : s.bm.blockSize = c.blockSize
  ctr_block : mode = .ctr → c.blockSize = 16
  pbs_whole : s.bm.pbs % c.blockSize = 0
  key_ok : c.keyLenOk s.bm.key.length = true
  chain_length : s.bm.chain.length = c.blockSize

theorem engine_eq_some (s : State) (c : BlockCipher) (mode : CipherMode) :
    engine s = some (c, mode) ↔ s.bm.mode = some mode ∧ blockCipher? s.bm.kind = some c := by
  unfold engine
  cases s.bm.mode <;> cases blockCipher? s.bm.kind <;> simp [and_comm]

/-- The engine of a state that is selected and keyed as the invariant asks. -/
theorem engineReady_of_engine {s : State} {c : BlockCipher} {mode : CipherMode} (hsel : selectionOk s = true)
    (hkey : keyStateOk s = true) (hst : s.bm.state ≠ .init) (he : engine s = some (c, mode)) :
    EngineReady s c mode := by
  obtain ⟨hmode, hcipher⟩ := (engine_eq_some s c mode).1 he
  obtain ⟨-, hkeyed⟩ := (keyStateOk_iff s).1 hkey
  obtain ⟨-, hlen, hchain⟩ := hkeyed hst
  obtain ⟨hnone, -⟩ | ⟨mode', c', hmode', hcipher', hB, hctr, -, -, hpbs⟩ := (selectionOk_iff s).1 hsel
  · rw [hmode] at hnone; cases hnone
  · cases hmode.symm.trans hmode'
    cases hcipher.symm.trans hcipher'
    have whole : s.bm.pbs % c.blockSize = 0 :=
      Nat.mod_eq_zero_of_dvd ((Nat.dvd_mul_right _ _).trans (Nat.dvd_of_mod_eq_zero hpbs))
    exact ⟨hmode, hB, hctr, whole, by simpa [keyLenOk, hcipher] using hlen, hchain.trans hB⟩

/-- A selected engine has a cipher and a mode. -/
theorem engine_of_mode {s : State} {mode : CipherMode} (hsel : selectionOk s = true) (hm : s.bm.mode = some mode) :
    ∃ c, engine s = some (c, mode) := by
  obtain ⟨hnone, -⟩ | ⟨mode', c, hmode', hcipher, -⟩ := (selectionOk_iff s).1 hsel
  · rw [hm] at hnone; cases hnone
  · cases hm.symm.trans hmode'
    exact ⟨c, (engine_eq_some s c mode).2 ⟨hm, hcipher⟩⟩

end Sys2Proof.Machine
end

section
/-! SUPPORT. How the invariant meets each kind of update: the fields it does not read, the logs, memory, and the block
engine (commands, `CTL` and the lanes). -/

namespace Sys2Proof.Machine

variable {s t : State}

/-! ### Updates that touch one part -/

theorem logsOk_respond {code : Code} (h : logsOk s = true) (hc : code ∈ emittedCodes) (op tag : BitVec 8) :
    logsOk (respond op tag code s) = true := by
  obtain ⟨hrsp, hevt, hr, he⟩ := (logsOk_iff s).1 h
  refine (logsOk_iff _).2 ⟨fun w hw => ?_, hevt, ?_, he⟩
  · rw [respond_rsp, List.mem_append, List.mem_singleton] at hw
    obtain hw | rfl := hw
    · exact hrsp w hw
    · exact legalResponse_responseWord hc op tag
  · rw [respond_rsp, List.length_append]
    exact Nat.le_add_right_of_le hr

theorem logsOk_events {more : List Word} (h : logsOk s = true) (hm : ∀ w ∈ more, legalEvent w = true) :
    logsOk { s with evt := s.evt ++ more } = true := by
  obtain ⟨hrsp, hevt, hr, he⟩ := (logsOk_iff s).1 h
  refine (logsOk_iff _).2 ⟨hrsp, fun w hw => ?_, hr, ?_⟩
  · obtain hw | hw := List.mem_append.1 hw
    · exact hevt w hw
    · exact hm w hw
  · simp only [List.length_append]
    exact Nat.le_add_right_of_le he

theorem memoryOk_setBytes {a : Nat} {bs : List Byte} (h : memoryOk s = true) (ha : a + bs.length ≤ memSize s) :
    memoryOk { s with mem := setBytes s.mem a bs } = true := by
  obtain ⟨hwf, hin⟩ := (memoryOk_iff s).1 h
  refine (memoryOk_iff _).2 ⟨setBytes_wf _ _ _ hwf, fun c hc => ?_⟩
  obtain ⟨-, hlt⟩ | hc := setBytes_addresses _ _ _ c hc
  · exact lt_of_lt_of_le hlt ha
  · exact hin c hc

/-- A store of at most `n` bytes into `n` bytes of `MEM`. -/
theorem memoryOk_setBytes_take {a n : Nat} {bs : List Byte} (h : memoryOk s = true) (ha : a + n ≤ memSize s) :
    memoryOk { s with mem := setBytes s.mem a (bs.take n) } = true := by
  refine memoryOk_setBytes h (le_trans ?_ ha)
  rw [List.length_take]
  omega

namespace Inv

theorem respond {code : Code} (h : Inv s) (hc : code ∈ emittedCodes) (op tag : BitVec 8) :
    Inv (Machine.respond op tag code s) :=
  { h with logs := logsOk_respond h.logs hc op tag }

theorem answerOk (h : Inv s) (op tag : BitVec 8) : Inv (Machine.respond op tag .ok s) :=
  h.respond (by decide) op tag

theorem emitFinal (h : Inv s) (pos : Nat) : Inv (emitEvent finalKind pos s) :=
  { h with logs := logsOk_events h.logs (by simp [legalEvent_final]) }

theorem stored {a n : Nat} {bs : List Byte} (h : Inv s) (ha : a + n ≤ memSize s) :
    Inv { s with mem := setBytes s.mem a (bs.take n) } :=
  { h with memory := memoryOk_setBytes_take h.memory ha }

/-- Nothing in the invariant reads the environment or the counter of the free schedule. -/
theorem env_tick (h : Inv s) (env : Env) (tick : Nat) : Inv { s with env := env, tick := tick } :=
  ⟨h.build, h.memory, h.registers, h.selection, h.keyState, h.laneCount, h.transform, h.engineHeld, h.stream, h.logs⟩

theorem rejectedAs {op tag : BitVec 8} {codes : List Code} (h : Inv s) (hcodes : codes ⊆ emittedCodes)
    (hr : rejectedAs op tag codes s t) : Inv t := by
  obtain ⟨code, hc, -, rfl⟩ := hr
  exact h.respond (hcodes hc) op tag

/-! ### The engine where it is free -/

theorem engine_free (h : Inv s) (hst : s.bm.state ≠ .transforming) :
    s.bm.xf = none ∧ ¬ (s.sp.state = .running ∧ s.sp.cls = .cipher) := by
  obtain ⟨hiff, -⟩ := (engineHeldOk_iff s).1 h.engineHeld
  have hnot := mt hiff.2 hst
  rw [not_or, not_not] at hnot
  exact hnot

theorem lanes_idle_of_no_transform (h : Inv s) (hxf : s.bm.xf = none) : ∀ l ∈ s.lanes, laneIdle l = true :=
  (transformOk_none s hxf).1 h.transform

end Inv

/-- The stream unit does not look at the engine, but in a run of class 3. -/
theorem streamOk_engine_change {bm : Bme} {regs : Regs} (h : streamOk s = true)
    (hfree : ¬ (s.sp.state = .running ∧ s.sp.cls = .cipher)) :
    streamOk { s with bm := bm, regs := regs } = true := by
  obtain ⟨hempty, hattached, harmed, hrunning⟩ := (streamOk_iff s).1 h
  refine (streamOk_iff _).2 ⟨hempty, hattached, harmed, fun hrun => ?_⟩
  obtain ⟨htarget, hrt, hpos⟩ := hrunning hrun
  have hcls : s.sp.cls ≠ .cipher := fun hc => hfree ⟨hrun, hc⟩
  have hnbs : targetBlockSize { s with bm := bm, regs := regs } = targetBlockSize s := by
    unfold targetBlockSize
    cases hc : s.sp.cls with
    | cipher => exact absurd hc hcls
    | _ => rfl
  refine ⟨htarget, ?_, ?_⟩
  · obtain hcode | ⟨hc, -⟩ := (runTargetOk_iff s).1 hrt
    · exact (runTargetOk_iff _).2 (.inl hcode)
    · exact absurd hc hcls
  · rw [runPositionsOk_iff, hnbs]
    exact (runPositionsOk_iff s).1 hpos

/-- A command of the engine that replaces its state, none in flight: the parts about the
engine are left to show. -/
theorem Inv.engine_replaced {bm : Bme} {regs : Regs} (h : Inv s) (hfree : s.bm.state ≠ .transforming)
    (hxf : bm.xf = none) (hst : bm.state ≠ .transforming)
    (hregs : registersOk { s with bm := bm, regs := regs } = true)
    (hsel : selectionOk { s with bm := bm, regs := regs } = true)
    (hkey : keyStateOk { s with bm := bm, regs := regs } = true) :
    Inv { s with bm := bm, regs := regs } := by
  obtain ⟨hnone, hrun⟩ := h.engine_free hfree
  exact
    { h with
      registers := hregs
      selection := hsel
      keyState := hkey
      transform := (transformOk_none _ hxf).2 (h.lanes_idle_of_no_transform hnone)
      engineHeld := (engineHeldOk_iff _).2
        ⟨iff_of_false hst (not_or.2 ⟨not_not.2 hxf, hrun⟩), fun hx => hx.1 hxf⟩
      stream := streamOk_engine_change h.stream hrun }

/-- The registers that show the engine, the others being as they were. -/
theorem registersOk_engine {bm : Bme} {state mode block min max pbs par : Word} (h : registersOk s = true)
    (hstate : state = BitVec.ofNat 64 (bmStateCode bm.state)) (hmode : mode = bmModeWord bm.mode bm.kind bm.enc)
    (hblock : block = BitVec.ofNat 64 bm.blockSize)
    (hmin : min = BitVec.ofNat 64 (parMin bm.blockSize s.cfg.threads))
    (hmax : max = BitVec.ofNat 64 (parMax (parMin bm.blockSize s.cfg.threads)))
    (hpbs : pbs = BitVec.ofNat 64 bm.pbs) (hpar : par = BitVec.ofNat 64 (bit bm.par)) :
    registersOk
      { s with
        bm := bm
        regs :=
          { s.regs with
            bmState := state, bmMode := mode, bmBlockSize := block, bmParMin := min, bmParMax := max
            bmParBlock := pbs, bmIsParallel := par } } = true := by
  obtain ⟨-, -, -, -, -, -, -, gstream⟩ := (registersOk_iff s).1 h
  exact (registersOk_iff _).2 ⟨hstate, hmode, hblock, hmin, hmax, hpbs, hpar, gstream⟩

/-- The registers that show the stream unit, the others being as they were. -/
theorem registersOk_stream {sp : Spu} {state kind pos interval : Word} (h : registersOk s = true)
    (hstate : state = spStateWord sp.state sp.path) (hkind : kind = spKindWord sp.cls sp.kind)
    (hpos : pos = BitVec.ofNat 64 sp.cpos) (hinterval : interval = BitVec.ofNat 64 sp.interval) :
    registersOk
      { s with
        sp := sp
        regs := { s.regs with spState := state, spKind := kind, spPos := pos, spInterval := interval } } = true := by
  obtain ⟨g1, g2, g3, g4, g5, g6, g7, -⟩ := (registersOk_iff s).1 h
  exact (registersOk_iff _).2 ⟨g1, g2, g3, g4, g5, g6, g7, hstate, hkind, hpos, hinterval⟩

/-- A selected engine may be in any state. -/
theorem selectionOk_state_change {bm : Bme} {regs : Regs} {mem : Memory} (h : selectionOk s = true)
    (hm : s.bm.mode ≠ none) (hmode : bm.mode = s.bm.mode := by rfl) (hkind : bm.kind = s.bm.kind := by rfl)
    (hblock : bm.blockSize = s.bm.blockSize := by rfl) (hpbs : bm.pbs = s.bm.pbs := by rfl) :
    selectionOk { s with bm := bm, regs := regs, mem := mem } = true := by
  obtain ⟨hnone, -⟩ | hsel := (selectionOk_iff s).1 h
  · exact absurd hnone hm
  · exact (selectionOk_iff _).2 (.inr (by simpa only [hmode, hkind, hblock, hpbs] using hsel))

/-! ### The commands of the engine -/

theorem Inv.bmNew {tag sel : BitVec 8} {kind : BitVec 16} (h : Inv s) (hx : execBmNew tag sel kind s = .next t) :
    Inv t := by
  obtain hr | ⟨mode, c, hfree, -, hc, hctr, rfl⟩ := execBmNew_cases tag sel kind s t hx
  · exact h.rejectedAs (by decide) hr
  obtain ⟨⟨hT, hT'⟩, -⟩ := (Params.ok_iff _).1 h.build
  obtain ⟨hlow, hhigh, hmod⟩ := pbsDefault_legal c.blockSize_pos c.blockSize_le hT hT'
  apply Inv.answerOk
  refine h.engine_replaced hfree (h.engine_free hfree).1 (by simp) ?_ ?_ ?_
  · exact registersOk_engine h.registers rfl rfl rfl rfl rfl rfl rfl
  · exact (selectionOk_iff _).2 (.inr ⟨mode, c, rfl, hc, rfl, hctr, hlow, hhigh, hmod⟩)
  · exact (keyStateOk_iff _).2 ⟨fun _ => ⟨rfl, rfl, rfl⟩, fun hne => absurd rfl hne⟩

theorem Inv.bmInit {tag : BitVec 8} {f : Bool} (h : Inv s) (hx : execBmInit tag f s = .next t) : Inv t := by
  obtain hr | ⟨hfree, hmode, hlen, -, rfl⟩ := execBmInit_cases tag f s t hx
  · exact h.rejectedAs (by decide) hr
  obtain ⟨-, gmode, gblock, gmin, gmax, gpbs, gpar, -⟩ := (registersOk_iff s).1 h.registers
  apply Inv.answerOk
  refine h.engine_replaced hfree (h.engine_free hfree).1 (by simp) ?_ ?_ ?_
  · refine registersOk_engine h.registers rfl ?_ gblock gmin gmax gpbs gpar
    simp only [keyEngine_regs, gmode]
    exact withEncryptBit_bmModeWord _ _ _ _
  · exact selectionOk_state_change h.selection hmode
  · refine (keyStateOk_iff _).2 ⟨fun hinit => (nomatch hinit), fun _ => ⟨hmode, ?_, bytesAt_length _ _ _⟩⟩
    simpa using hlen

theorem Inv.bmXblk {tag : BitVec 8} (h : Inv s) (hx : execBmXblk tag s = .next t) : Inv t := by
  obtain hr | ⟨a, o, c, mode, hready, -, ho, -, he, rfl⟩ := execBmXblk_cases tag s t hx
  · exact h.rejectedAs (by decide) hr
  have hne : s.bm.state ≠ .init := by simp [hready]
  have eng := engineReady_of_engine h.selection h.keyState hne he
  obtain ⟨-, hkeyed⟩ := (keyStateOk_iff s).1 h.keyState
  obtain ⟨hmode, hkey, -⟩ := hkeyed hne
  have chain := (blockStep_length c mode s.bm.enc s.bm.key s.bm.chain (bytesAt s.mem a s.bm.blockSize) eng.key_ok
    eng.chain_length (by rw [bytesAt_length, eng.blockSize_eq]) eng.ctr_block).2
  have hstored := h.stored (bs := (blockStep c mode s.bm.enc s.bm.key s.bm.chain
    (bytesAt s.mem a s.bm.blockSize)).1) (bufRange_inside _ _ _ _ _ _ ho)
  have hfree : s.bm.state ≠ .transforming := by simp [hready]
  apply Inv.answerOk
  refine hstored.engine_replaced hfree (h.engine_free hfree).1 hfree h.registers h.selection ?_
  exact (keyStateOk_iff _).2 ⟨fun hinit => absurd hinit hne,
    fun _ => ⟨hmode, hkey, chain.trans eng.blockSize_eq.symm⟩⟩

/-- The parallel path is taken only where the direction has one, and by whole parallel blocks (R131). -/
theorem newTransform_npar (tag : BitVec 8) (a o n : Nat) (s : State) :
    (newTransform tag a o n s).npar * s.bm.pbs ≤ n ∧
      ((newTransform tag a o n s).npar = 0 ∨ s.bm.mode = some .ctr ∨ s.bm.enc = false) := by
  simp only [newTransform]
  split
  · rename_i hpar
    refine ⟨Nat.div_mul_le_self _ _, .inr ?_⟩
    simp only [parallelOk, Bool.and_eq_true] at hpar
    obtain ⟨-, hmode⟩ := hpar
    split at hmode
    · exact .inl ‹_›
    all_goals simp_all
  · exact ⟨by simp, .inl rfl⟩

theorem transformOk_newTransform {tag : BitVec 8} {a o n : Nat} (ha : inputRange s n = some a)
    (ho : outputRange s n = some o) (hov : overlapOk a o n = true)
    (hwhole : needsWholeBlocks s.bm.mode = true → n % s.bm.blockSize = 0)
    (hlanes : ∀ l ∈ s.lanes, laneIdle l = true) :
    transformOk (setBmState .transforming { s with bm := { s.bm with xf := some (newTransform tag a o n s) } }) =
      true := by
  obtain ⟨hle, hpath⟩ := newTransform_npar tag a o n s
  have hsrc : a + n ≤ memSize s := bufRange_inside _ _ _ _ _ _ ha
  have hdst : o + n ≤ memSize s := bufRange_inside _ _ _ _ _ _ ho
  refine (transformOk_some _ _ rfl).2 ⟨rfl, hsrc, hdst, (overlapOk_iff _ _ _).1 hov, ?_,
    fun hw => ⟨hwhole hw, Nat.zero_mod _⟩, hpath, .inr (Nat.zero_mod _),
    (phaseOk_idle _ _ rfl).2 hlanes⟩
  exact (Nat.zero_add _).trans_le hle

theorem Inv.bmXfrm {tag : BitVec 8} (h : Inv s) (hx : execBmXfrm tag s = .next t) : Inv t := by
  obtain hr | ⟨a, o, hready, hwhole, ha, ho, hov, ⟨-, rfl⟩ | ⟨-, rfl⟩⟩ := execBmXfrm_cases tag s t hx
  · exact h.rejectedAs (by decide) hr
  · exact h.answerOk _ _
  have hfree : s.bm.state ≠ .transforming := by simp [hready]
  obtain ⟨hnone, hrun⟩ := h.engine_free hfree
  obtain ⟨-, gmode, gblock, gmin, gmax, gpbs, gpar, -⟩ := (registersOk_iff s).1 h.registers
  obtain ⟨-, hkeyed⟩ := (keyStateOk_iff s).1 h.keyState
  have hkey := hkeyed (by simp [hready])
  exact
    { h with
      registers := registersOk_engine h.registers rfl gmode gblock gmin gmax gpbs gpar
      selection := selectionOk_state_change h.selection hkey.1
      keyState := (keyStateOk_iff _).2 ⟨fun hinit => (nomatch hinit), fun _ => hkey⟩
      transform := transformOk_newTransform ha ho hov hwhole (h.lanes_idle_of_no_transform hnone)
      engineHeld := (engineHeldOk_iff _).2 ⟨iff_of_true rfl (.inl nofun), fun hx => hrun hx.2⟩
      stream := streamOk_engine_change h.stream hrun }

theorem Inv.bmSetpbs {tag : BitVec 8} (h : Inv s) (hx : execBmSetpbs tag s = .next t) : Inv t := by
  obtain hr | ⟨hfree, hmode, hlow, hhigh, hmod, rfl⟩ := execBmSetpbs_cases tag s t hx
  · exact h.rejectedAs (by decide) hr
  obtain ⟨gstate, gmode, gblock, gmin, gmax, -, gpar, -⟩ := (registersOk_iff s).1 h.registers
  obtain ⟨⟨hT, hT'⟩, -⟩ := (Params.ok_iff _).1 h.build
  obtain ⟨hnone, -⟩ | ⟨mode, c, hm, hc, hB, hctr, -⟩ := (selectionOk_iff s).1 h.selection
  · exact absurd hnone hmode
  obtain ⟨minNat, maxNat⟩ := parMin_parMax_toNat c.blockSize_pos c.blockSize_le hT hT'
  rw [gmin, hB, minNat] at hlow hmod
  rw [gmax, hB, maxNat] at hhigh
  apply Inv.answerOk
  refine h.engine_replaced hfree (h.engine_free hfree).1 hfree ?_ ?_ h.keyState
  · exact registersOk_engine h.registers gstate gmode gblock gmin gmax (by simp) gpar
  · exact (selectionOk_iff _).2 (.inr ⟨mode, c, hm, hc, hB, hctr, hlow, hhigh, hmod⟩)

theorem Inv.bmSetpar {tag : BitVec 8} {f : Bool} (h : Inv s) (hx : execBmSetpar tag f s = .next t) : Inv t := by
  obtain hr | ⟨hfree, rfl⟩ := execBmSetpar_cases tag f s t hx
  · exact h.rejectedAs (by decide) hr
  obtain ⟨gstate, gmode, gblock, gmin, gmax, gpbs, -⟩ := (registersOk_iff s).1 h.registers
  apply Inv.answerOk
  refine h.engine_replaced hfree (h.engine_free hfree).1 hfree ?_ h.selection h.keyState
  exact registersOk_engine h.registers gstate gmode gblock gmin gmax gpbs rfl

theorem Inv.bmRelease {tag : BitVec 8} (h : Inv s) (hx : execBmRelease tag s = .next t) : Inv t := by
  obtain hr | ⟨hfree, rfl⟩ := execBmRelease_cases tag s t hx
  · exact h.rejectedAs (by decide) hr
  obtain ⟨-, gmode, gblock, gmin, gmax, gpbs, gpar, -⟩ := (registersOk_iff s).1 h.registers
  apply Inv.answerOk
  refine h.engine_replaced hfree (h.engine_free hfree).1 (by simp) ?_ ?_ ?_
  · refine registersOk_engine h.registers rfl ?_ gblock gmin gmax gpbs gpar
    simp only [gmode]
    exact withEncryptBit_bmModeWord _ _ _ _
  · refine (selectionOk_iff _).2 ?_
    obtain ⟨hnone, -, hrest⟩ | hsel := (selectionOk_iff s).1 h.selection
    · exact .inl ⟨hnone, rfl, hrest⟩
    · exact .inr hsel
  · exact (keyStateOk_iff _).2 ⟨fun _ => ⟨rfl, rfl, rfl⟩, fun hne => absurd rfl hne⟩

end Sys2Proof.Machine
end

section
/-! SUPPORT. The invariant under the steps of a transform: `Spawn`, `LaneStep`, `Join`, `SerialStep` and `Complete`
(40_block_mode_commands.md R133, R134; 41_parallel_decomposition.md R165, R167, R169). -/

namespace Sys2Proof.Machine

variable {s t : State} {xf : Transform}

namespace Inv

/-- What the invariant says of a transform in progress. -/
theorem transform_facts (h : Inv s) (hxf : s.bm.xf = some xf) :
    s.bm.state = .transforming ∧ xf.src + xf.len ≤ memSize s ∧ xf.dst + xf.len ≤ memSize s ∧
    (xf.src = xf.dst ∨ xf.src + xf.len ≤ xf.dst ∨ xf.dst + xf.len ≤ xf.src) ∧
    xf.pos + xf.npar * s.bm.pbs ≤ xf.len ∧
    (needsWholeBlocks s.bm.mode = true → xf.len % s.bm.blockSize = 0 ∧ xf.pos % s.bm.blockSize = 0) ∧
    (xf.npar = 0 ∨ s.bm.mode = some .ctr ∨ s.bm.enc = false) ∧
    (xf.npar = 0 ∨ xf.pos % s.bm.blockSize = 0) ∧ phaseOk s xf = true :=
  (transformOk_some s xf hxf).1 h.transform

/-- The engine of a transform in progress works, with the cipher and the mode it is set to. -/
theorem transform_engine (h : Inv s) (hxf : s.bm.xf = some xf) : ∃ c mode, EngineReady s c mode := by
  obtain ⟨hst, -⟩ := h.transform_facts hxf
  have hne : s.bm.state ≠ .init := by simp [hst]
  obtain ⟨mode, hmode⟩ := Option.ne_none_iff_exists'.1 (((keyStateOk_iff s).1 h.keyState).2 hne).1
  obtain ⟨c, he⟩ := engine_of_mode h.selection hmode
  exact ⟨c, mode, engineReady_of_engine h.selection h.keyState hne he⟩

/-- A step that moves a transform on: memory, the lanes, the chain value and the record. -/
theorem transform_moved {xf' : Transform} {chain : List Byte} {lanes : List Lane} {mem : Memory} (h : Inv s)
    (hxf : s.bm.xf = some xf) (hmem : memoryOk { s with mem := mem } = true)
    (hlanes : lanes.length = s.lanes.length) (hchain : chain.length = s.bm.blockSize)
    (htransform : transformOk
      { s with mem := mem, lanes := lanes, bm := { s.bm with chain := chain, xf := some xf' } } = true) :
    Inv { s with mem := mem, lanes := lanes, bm := { s.bm with chain := chain, xf := some xf' } } := by
  obtain ⟨hst, -⟩ := h.transform_facts hxf
  obtain ⟨-, hnot⟩ := (engineHeldOk_iff s).1 h.engineHeld
  obtain ⟨hmode, hkey, -⟩ := ((keyStateOk_iff s).1 h.keyState).2 (by simp [hst])
  exact
    { build := h.build
      memory := hmem
      registers := h.registers
      selection := h.selection
      keyState := (keyStateOk_iff _).2 ⟨fun hinit => by simp [hst] at hinit, fun _ => ⟨hmode, hkey, hchain⟩⟩
      laneCount := hlanes.trans h.laneCount
      transform := htransform
      engineHeld := (engineHeldOk_iff _).2
        ⟨iff_of_true hst (.inl nofun), fun hx => hnot ⟨by simp [hxf], hx.2⟩⟩
      stream := h.stream
      logs := h.logs }

end Inv

/-! ### `Spawn` and `Join` -/

theorem bytesBefore_length {a n : Nat} {bs : List Byte} (h : bytesBefore s a n = some bs) : bs.length = n := by
  unfold bytesBefore at h
  split at h
  · obtain ⟨-, rfl⟩ := (memRead_eq_some _ _ _ _).1 h
    exact bytesAt_length _ _ _
  · cases h

theorem unitNextChain_length {c : BlockCipher} {mode : CipherMode} {chain : List Byte} (eng : EngineReady s c mode)
    (h : unitNextChain s mode xf = some chain) : chain.length = s.bm.blockSize := by
  cases mode with
  | ctr =>
    cases h
    rw [addCounter_length, eng.blockSize_eq, eng.ctr_block rfl]
  | cbc | cfb => exact bytesBefore_length h

theorem laneStartReg_length {c : BlockCipher} {mode : CipherMode} {i : Nat} {reg : List Byte}
    (eng : EngineReady s c mode) (h : laneStartReg s mode xf i = some reg) : reg.length = s.bm.blockSize := by
  cases mode with
  | ctr =>
    cases h
    rw [addCounter_length, eng.blockSize_eq, eng.ctr_block rfl]
  | cbc | cfb =>
    simp only [laneStartReg] at h
    split at h
    · cases h
      exact eng.chain_length.trans eng.blockSize_eq.symm
    · exact bytesBefore_length h

/-- A spawned lane is what the invariant asks of a busy one, with its whole chunk to do. -/
theorem laneBusyOk_spawnLane {c : BlockCipher} {mode : CipherMode} {i : Nat} {l : Lane} (eng : EngineReady s c mode)
    (h : spawnLane s mode xf i = some l) : laneBusyOk s xf i l = true := by
  unfold spawnLane at h
  split at h
  · rename_i reg hreg
    cases h
    exact (laneBusyOk_iff _ _ _ _).2 ⟨rfl, rfl, laneStartReg_length eng hreg, le_refl _, rfl, rfl⟩
  · cases h

theorem Inv.spawn (h : Inv s) (hxf : s.bm.xf = some xf) (hn : 0 < xf.npar) (hx : spawn xf s = .next t) : Inv t := by
  obtain ⟨mode, lanes, nc, hmode, hl, hnc, rfl⟩ := spawn_cases xf s t hx
  obtain ⟨hst, hsrc, hdst, hov, hpos, hwhole, hpath, hblock, -⟩ := h.transform_facts hxf
  obtain ⟨c, mode', eng⟩ := h.transform_engine hxf
  cases hmode.symm.trans eng.mode_eq
  obtain ⟨hcount, hlane⟩ := spawnLanes_eq_some s mode xf _ lanes hl
  rw [List.length_range] at hcount
  have hchain := unitNextChain_length eng hnc
  have hbusy : ∀ i l, lanes[i]? = some l → laneBusyOk s xf i l = true := fun i l hi => by
    obtain ⟨j, hj, hs⟩ := hlane i l hi
    obtain ⟨hlt, rfl⟩ := List.getElem?_eq_some_iff.1 hj
    rw [List.getElem_range] at hs
    exact laneBusyOk_spawnLane eng hs
  refine h.transform_moved hxf h.memory (hcount.trans h.laneCount.symm)
    (eng.chain_length.trans eng.blockSize_eq.symm) ?_
  refine (transformOk_some _ _ rfl).2 ?_
  refine ⟨hst, hsrc, hdst, hov, hpos, hwhole, hpath, hblock, ?_⟩
  exact (phaseOk_par _ _ nc rfl).2 ⟨hn, hchain, hbusy⟩

/-- `CTL` joins only when every lane has finished (R169). -/
theorem lanes_finished_of_ctlEnabled {nc : List Byte} (h : ctlEnabled s = true) (hxf : s.bm.xf = some xf)
    (hphase : xf.phase = .par nc) : ∀ l ∈ s.lanes, l.n = 0 := by
  unfold ctlEnabled at h
  rw [hxf] at h
  cases hst : s.bm.state <;> simp_all

theorem Inv.join {nc : List Byte} (h : Inv s) (hxf : s.bm.xf = some xf) (hphase : xf.phase = .par nc)
    (hdone : ∀ l ∈ s.lanes, l.n = 0) (hx : join xf nc s = .next t) : Inv t := by
  cases hx
  obtain ⟨hst, hsrc, hdst, hov, hpos, hwhole, hpath, hblock, hph⟩ := h.transform_facts hxf
  obtain ⟨hn, hnc, -⟩ := (phaseOk_par s xf nc hphase).1 hph
  obtain ⟨c, mode, eng⟩ := h.transform_engine hxf
  have unit : xf.npar * s.bm.pbs = s.bm.pbs + (xf.npar - 1) * s.bm.pbs := by
    rw [Nat.sub_one_mul]
    have := Nat.le_mul_of_pos_left s.bm.pbs hn
    omega
  have moved : xf.pos % s.bm.blockSize = 0 → (xf.pos + s.bm.pbs) % s.bm.blockSize = 0 := fun hp => by
    rw [Nat.add_mod, hp, eng.blockSize_eq, eng.pbs_whole]; rfl
  refine h.transform_moved hxf h.memory (List.length_map _) hnc ?_
  refine (transformOk_some _ _ rfl).2 ?_
  refine ⟨hst, hsrc, hdst, hov, ?_, fun hw => ⟨(hwhole hw).1, moved (hwhole hw).2⟩, ?_, ?_,
    (phaseOk_idle _ _ rfl).2 fun l hl => ?_⟩
  · show xf.pos + s.bm.pbs + (xf.npar - 1) * s.bm.pbs ≤ xf.len
    omega
  · exact hpath.imp_left fun h0 => by omega
  · exact hblock.imp (fun h0 => by omega) moved
  · obtain ⟨l', hl', rfl⟩ := List.mem_map.1 hl
    exact (laneIdle_iff _).2 ⟨rfl, rfl, rfl, hdone l' hl'⟩

/-! ### `LaneStep` -/

theorem lane_of_laneEnabled {i : Nat} (h : laneEnabled s i = true) :
    ∃ l, s.lanes[i]? = some l ∧ l.busy = true ∧ 0 < l.n := by
  unfold laneEnabled at h
  split at h
  · rename_i l hl
    rw [Bool.and_eq_true, decide_eq_true_eq] at h
    exact ⟨l, hl, h⟩
  · cases h

/-- A busy lane belongs to a transform with its lanes spawned. -/
theorem Inv.par_of_busy {i : Nat} {l : Lane} (h : Inv s) (hl : s.lanes[i]? = some l) (hb : l.busy = true) :
    ∃ xf nc, s.bm.xf = some xf ∧ xf.phase = .par nc := by
  have not_idle : ¬ ∀ l ∈ s.lanes, laneIdle l = true := fun hidle => by
    obtain ⟨hfree, -⟩ := (laneIdle_iff l).1 (hidle l (List.mem_of_getElem? hl))
    rw [hb] at hfree
    cases hfree
  cases hxf : s.bm.xf with
  | none => exact absurd (h.lanes_idle_of_no_transform hxf) not_idle
  | some xf =>
    obtain ⟨-, -, -, -, -, -, -, -, hph⟩ := h.transform_facts hxf
    cases hp : xf.phase with
    | idle => exact absurd ((phaseOk_idle s xf hp).1 hph) not_idle
    | par nc => exact ⟨xf, nc, rfl, hp⟩

/-- One block less to do, both addresses one block on: the lane still ends where its chunk ends. -/
theorem lane_end_moved {a n B e : Nat} (hn : 0 < n) (h : a + n * B = e) : a + B + (n - 1) * B = e := by
  rw [Nat.sub_one_mul]
  have := Nat.le_mul_of_pos_left B hn
  omega

theorem Inv.laneStep {i : Nat} {l : Lane} (h : Inv s) (hl : s.lanes[i]? = some l) (hb : l.busy = true) (hn : 0 < l.n)
    (hx : laneStep i l s = .next t) : Inv t := by
  obtain ⟨c, mode, he, -, hdst, rfl⟩ := laneStep_cases i l s t hx
  obtain ⟨xf, nc, hxf, hphase⟩ := h.par_of_busy hl hb
  obtain ⟨hst, hsrc', hdst', hov, hpos, hwhole, hpath, hblock, hph⟩ := h.transform_facts hxf
  obtain ⟨hnpar, hnc, hlanes⟩ := (phaseOk_par s xf nc hphase).1 hph
  have eng := engineReady_of_engine h.selection h.keyState (by simp [hst]) he
  obtain ⟨-, hkey, -, hle, hsrcEnd, hdstEnd⟩ := (laneBusyOk_iff s xf i l).1 (hlanes i l hl)
  have hreg := laneBlock_reg_length c mode l.key l.reg (bytesAt s.mem l.src s.bm.blockSize)
    (by rw [bytesAt_length, eng.blockSize_eq]) eng.ctr_block
  refine
    { h with
      memory := memoryOk_setBytes_take h.memory hdst
      laneCount := (List.length_set ..).trans h.laneCount
      transform := ?_ }
  refine (transformOk_some _ xf (by exact hxf)).2 ?_
  refine ⟨hst, hsrc', hdst', hov, hpos, hwhole, hpath, hblock, (phaseOk_par _ xf nc hphase).2 ⟨hnpar, hnc, ?_⟩⟩
  intro j m hj
  rw [List.getElem?_set] at hj
  split at hj
  · rename_i hij
    subst hij
    split at hj
    · cases hj
      exact (laneBusyOk_iff _ _ _ _).2 ⟨hb, hkey, hreg.trans eng.blockSize_eq.symm, (Nat.sub_le _ _).trans hle,
        lane_end_moved hn hsrcEnd, lane_end_moved hn hdstEnd⟩
    · cases hj
  · exact hlanes j m hj

/-! ### `SerialStep` and `Complete` -/

/-- A mode that takes whole blocks never meets a tail: what is left at a block boundary is at least one block. -/
theorem min_blockSize_of_whole {B pos len : Nat} (hlen : len % B = 0) (hpos : pos % B = 0) (hlt : pos < len) :
    min B (len - pos) = B := by
  have hd : B ∣ len - pos := Nat.dvd_sub (Nat.dvd_of_mod_eq_zero hlen) (Nat.dvd_of_mod_eq_zero hpos)
  exact Nat.min_eq_left (Nat.le_of_dvd (by omega) hd)

theorem Inv.serialStep (h : Inv s) (hxf : s.bm.xf = some xf) (hphase : xf.phase = .idle) (hn : xf.npar = 0)
    (hlt : xf.pos < xf.len) (hx : serialStep xf s = .next t) : Inv t := by
  obtain ⟨c, mode, he, -, hdst, rfl⟩ := serialStep_cases xf s t hx
  obtain ⟨hst, hsrc', hdst', hov, hpos, hwhole, -, -, hph⟩ := h.transform_facts hxf
  have eng := engineReady_of_engine h.selection h.keyState (by simp [hst]) he
  have hidle := (phaseOk_idle s xf hphase).1 hph
  refine h.transform_moved hxf (memoryOk_setBytes_take h.memory hdst) rfl ?_ ?_
  · split
    · rename_i hm
      rw [hm, (blockStep_length c mode s.bm.enc s.bm.key s.bm.chain _ eng.key_ok eng.chain_length
        (by rw [bytesAt_length, eng.blockSize_eq]) eng.ctr_block).2, eng.blockSize_eq]
    · rename_i hm
      rw [tailStep_chain_length, eng.blockSize_eq]
      cases hmode : mode with
      | ctr => exact (eng.ctr_block hmode).symm
      | cbc | cfb =>
        obtain ⟨hlen, hp⟩ := hwhole (by rw [eng.mode_eq, hmode]; rfl)
        exact absurd (min_blockSize_of_whole hlen hp hlt) hm
  · refine (transformOk_some _ _ rfl).2 ?_
    refine ⟨hst, hsrc', hdst', hov, ?_, fun hw => ?_, .inl hn, .inl hn,
      (phaseOk_idle _ _ (by exact hphase)).2 hidle⟩
    · show xf.pos + min s.bm.blockSize (xf.len - xf.pos) + xf.npar * s.bm.pbs ≤ xf.len
      rw [hn]
      omega
    · obtain ⟨hlen, hp⟩ := hwhole hw
      refine ⟨hlen, ?_⟩
      show (xf.pos + min s.bm.blockSize (xf.len - xf.pos)) % s.bm.blockSize = 0
      rw [min_blockSize_of_whole hlen hp hlt, Nat.add_mod_right, hp]

theorem Inv.complete (h : Inv s) (hxf : s.bm.xf = some xf) (hphase : xf.phase = .idle)
    (hx : complete xf s = .next t) : Inv t := by
  cases hx
  obtain ⟨hst, -, -, -, -, -, -, -, hph⟩ := h.transform_facts hxf
  obtain ⟨-, hnot⟩ := (engineHeldOk_iff s).1 h.engineHeld
  have hrun : ¬ (s.sp.state = .running ∧ s.sp.cls = .cipher) := fun hr => hnot ⟨by simp [hxf], hr⟩
  have hkey := ((keyStateOk_iff s).1 h.keyState).2 (by simp [hst])
  obtain ⟨-, gmode, gblock, gmin, gmax, gpbs, gpar, -⟩ := (registersOk_iff s).1 h.registers
  suffices hended : Inv (transformEnded s) from hended.answerOk 0x04 xf.tag
  exact
    { h with
      registers := registersOk_engine h.registers rfl gmode gblock gmin gmax gpbs gpar
      selection := selectionOk_state_change h.selection hkey.1
      keyState := (keyStateOk_iff _).2 ⟨fun hinit => (nomatch hinit), fun _ => hkey⟩
      transform := (transformOk_none _ rfl).2 ((phaseOk_idle s xf hphase).1 hph)
      engineHeld := (engineHeldOk_iff _).2 ⟨iff_of_false nofun (not_or.2 ⟨fun hx => hx rfl, hrun⟩), fun hx => hx.1 rfl⟩
      stream := streamOk_engine_change h.stream hrun }

theorem Inv.ctlStep (h : Inv s) (hen : ctlEnabled s = true) (hx : ctlStep s = .next t) : Inv t := by
  obtain ⟨-, rfl⟩ | ⟨xf, nc, hxf, hp, hj⟩ | ⟨xf, hxf, hp, ⟨hn, hs⟩ | ⟨hn, hlt, hs⟩ | ⟨-, -, hs⟩⟩ := ctlStep_cases s t hx
  · exact h
  · exact h.join hxf hp (lanes_finished_of_ctlEnabled hen hxf hp) hj
  · exact h.spawn hxf hn hs
  · exact h.serialStep hxf hp hn hlt hs
  · exact h.complete hxf hp hs

end Sys2Proof.Machine
end

section
/-! SUPPORT. The invariant under the steps of a stream run: feeding, the end of a run, and the agents `SEQ`, `RDR` and
`CSM` (42_stream_processor.md R195, R202, R203, R205, R206, R210, R212). -/

namespace Sys2Proof.Machine

variable {s t u : State}

/-- The invariant of a running stream unit but for the positions of the run, which do not hold within the step that
ends a run or accepts an empty one. -/
structure RunHeld (s : State) : Prop where
  build : s.cfg.ok = true
  memory : memoryOk s = true
  registers : registersOk s = true
  selection : selectionOk s = true
  keyState : keyStateOk s = true
  laneCount : s.lanes.length = s.cfg.threads
  transform : transformOk s = true
  engineHeld : engineHeldOk s = true
  logs : logsOk s = true
  running : s.sp.state = .running
  target : targetOk s = true
  runTarget : runTargetOk s = true

/-- The bytes of this run come in whole blocks of the engine (R200). -/
def runTakesWholeBlocks (s : State) : Prop := s.sp.cls = .cipher ∧ needsWholeBlocks s.bm.mode = true

theorem Inv.runHeld (h : Inv s) (hrun : s.sp.state = .running) : RunHeld s ∧ runPositionsOk s = true := by
  obtain ⟨-, -, -, hstream⟩ := (streamOk_iff s).1 h.stream
  obtain ⟨htarget, hrt, hpos⟩ := hstream hrun
  exact ⟨{ h with running := hrun, target := htarget, runTarget := hrt }, hpos⟩

namespace RunHeld

theorem inv (h : RunHeld s) (hpos : runPositionsOk s = true) : Inv s :=
  { h with
    stream := (streamOk_iff s).2
      ⟨fun hst => by simp [h.running] at hst, fun hst => by simp [h.running] at hst,
        fun hst => by simp [h.running] at hst, fun _ => ⟨h.target, h.runTarget, hpos⟩⟩ }

theorem whole_blocks (h : RunHeld s) (hw : runTakesWholeBlocks s) :
    s.cfg.bufSize % s.bm.blockSize = 0 ∧ s.sp.run.total % s.bm.blockSize = 0 ∧ s.sp.rpos % s.bm.blockSize = 0 ∧
      ∀ q ∈ s.sp.queue, q.length % s.bm.blockSize = 0 := by
  obtain ⟨hcls, hmode⟩ := hw
  obtain ⟨hcode | hcode, -⟩ | ⟨-, -, hbuf, hwhole⟩ := (runTargetOk_iff s).1 h.runTarget
  · rw [hcls] at hcode; cases hcode
  · rw [hcls] at hcode; cases hcode
  · exact ⟨hbuf, hwhole hmode⟩

theorem rpos_whole (h : RunHeld s) (hw : runTakesWholeBlocks s) : s.sp.rpos % s.bm.blockSize = 0 := by
  obtain ⟨-, -, hrpos, -⟩ := h.whole_blocks hw
  exact hrpos

theorem queue_whole (h : RunHeld s) (hw : runTakesWholeBlocks s) :
    ∀ q ∈ s.sp.queue, q.length % s.bm.blockSize = 0 := by
  obtain ⟨-, -, -, hqueue⟩ := h.whole_blocks hw
  exact hqueue

/-- In a run of class 3 the engine is held by the run. -/
theorem engine_held (h : RunHeld s) (hcls : s.sp.cls = .cipher) : s.bm.state = .transforming ∧ s.bm.xf = none := by
  obtain ⟨hiff, hnot⟩ := (engineHeldOk_iff s).1 h.engineHeld
  exact ⟨hiff.2 (.inr ⟨h.running, hcls⟩), by_contra fun hxf => hnot ⟨hxf, h.running, hcls⟩⟩

/-- A request asks for whole blocks where the run takes no others. -/
theorem requestSize_whole (h : RunHeld s) (hw : runTakesWholeBlocks s) : requestSize s % s.bm.blockSize = 0 := by
  obtain ⟨hbuf, htotal, hrpos, -⟩ := h.whole_blocks hw
  have left : (s.sp.run.total - s.sp.rpos) % s.bm.blockSize = 0 :=
    Nat.mod_eq_zero_of_dvd (Nat.dvd_sub (Nat.dvd_of_mod_eq_zero htotal) (Nat.dvd_of_mod_eq_zero hrpos))
  unfold requestSize
  rcases Nat.le_total s.cfg.bufSize (s.sp.run.total - s.sp.rpos) with hle | hle
  · rw [Nat.min_eq_left hle, hbuf]
  · rw [Nat.min_eq_right hle, left]

/-! ### Moves within a run -/

/-- The reader, the queue, the flags and the environment move; whole blocks stay whole. -/
theorem moved {rpos : Nat} {queue : List (List Byte)} {readerDone : Bool} {fault : Option Code} {env : Env}
    (h : RunHeld s)
    (hwhole : runTakesWholeBlocks s →
      rpos % s.bm.blockSize = 0 ∧ ∀ q ∈ queue, q.length % s.bm.blockSize = 0) :
    RunHeld
      { s with
        sp := { s.sp with rpos := rpos, queue := queue, readerDone := readerDone, fault := fault }
        env := env } := by
  refine
    { build := h.build, memory := h.memory, registers := h.registers, selection := h.selection
      keyState := h.keyState, laneCount := h.laneCount, transform := h.transform, engineHeld := h.engineHeld
      logs := h.logs, running := h.running, target := h.target, runTarget := (runTargetOk_iff _).2 ?_ }
  obtain hcode | ⟨hcls, hout, hbuf, hw⟩ := (runTargetOk_iff s).1 h.runTarget
  · exact .inl hcode
  · exact .inr ⟨hcls, hout, hbuf, fun hm => ⟨(hw hm).1, hwhole ⟨hcls, hm⟩⟩⟩

theorem sourceMoved (h : RunHeld s) : RunHeld (sourceMoved s) :=
  h.moved fun hw => ⟨h.rpos_whole hw, h.queue_whole hw⟩

/-- The primitive of a digest or MAC takes bytes. -/
theorem primFed {prim : List Byte} (h : RunHeld s) (hcls : s.sp.cls = .digest ∨ s.sp.cls = .mac) :
    RunHeld { s with sp := { s.sp with prim := some prim } } := by
  have hnot : s.sp.cls ≠ .cipher := by rcases hcls with hc | hc <;> simp [hc]
  refine
    { build := h.build, memory := h.memory, registers := h.registers, selection := h.selection
      keyState := h.keyState, laneCount := h.laneCount, transform := h.transform, engineHeld := h.engineHeld
      logs := h.logs, running := h.running, target := ?_, runTarget := ?_ }
  · obtain htarget | htarget | ⟨hc, -⟩ := (targetOk_iff s).1 h.target
    · exact (targetOk_iff _).2 (.inl htarget)
    · exact (targetOk_iff _).2 (.inr (.inl htarget))
    · exact absurd hc hnot
  · obtain ⟨hc, p, st, dst, hp, -, hout, hin⟩ | ⟨hc, -⟩ := (runTargetOk_iff s).1 h.runTarget
    · exact (runTargetOk_iff _).2 (.inl ⟨hc, p, prim, dst, hp, rfl, hout, hin⟩)
    · exact absurd hc hnot

/-- The engine of a run of class 3 moves its chain value on. -/
theorem chainMoved {chain : List Byte} {env : Env} (h : RunHeld s) (hst : s.bm.state = .transforming)
    (hchain : chain.length = s.bm.blockSize) : RunHeld { s with bm := { s.bm with chain := chain }, env := env } := by
  obtain ⟨hmode, hkey, -⟩ := ((keyStateOk_iff s).1 h.keyState).2 (by simp [hst])
  exact
    { build := h.build, memory := h.memory, registers := h.registers, selection := h.selection
      keyState := (keyStateOk_iff _).2 ⟨fun hinit => by simp [hst] at hinit, fun _ => ⟨hmode, hkey, hchain⟩⟩
      laneCount := h.laneCount, transform := h.transform, engineHeld := h.engineHeld, logs := h.logs
      running := h.running, target := h.target, runTarget := h.runTarget }

theorem accountFed (h : RunHeld s) (n : Nat) : RunHeld (accountFed n s) := by
  obtain ⟨-, -, -, -, -, -, -, gstate, gkind, -, gint⟩ := (registersOk_iff s).1 h.registers
  have hlogs := logsOk_events h.logs
    (more := (progressPositions s.sp.interval s.sp.cpos (s.sp.cpos + n) s.sp.run.total).map (eventWord progressKind))
    (List.forall_mem_map.2 fun p _ => legalEvent_progress p)
  exact
    { h with
      registers := registersOk_stream h.registers gstate gkind rfl gint
      logs := hlogs }

/-! ### The end of a run -/

/-- A run ends and its target, a digest or a MAC, is armed in its initial state. -/
theorem armed_code {prim : Option (List Byte)} {fault : Option Code} (h : RunHeld s) (hcls : s.sp.cls ≠ .cipher)
    (hprim : prim = initialPrim s) :
    Inv (setSpState .armed { s with sp := { s.sp with prim := prim, fault := fault } }) := by
  obtain ⟨-, -, -, -, -, -, -, -, gkind, gpos, gint⟩ := (registersOk_iff s).1 h.registers
  obtain ⟨hiff, -⟩ := (engineHeldOk_iff s).1 h.engineHeld
  refine
    { h with
      registers := registersOk_stream h.registers rfl gkind gpos gint
      engineHeld := (engineHeldOk_iff _).2
        ⟨hiff.trans (or_congr_right (iff_of_false (fun hx => hcls hx.2) (fun hx => hcls hx.2))), fun hx => hcls hx.2.2⟩
      stream := (streamOk_iff _).2 ⟨nofun, nofun, fun _ => ⟨?_, hprim⟩, nofun⟩ }
  obtain htarget | htarget | ⟨hc, -⟩ := (targetOk_iff s).1 h.target
  · exact (targetOk_iff _).2 (.inl htarget)
  · exact (targetOk_iff _).2 (.inr (.inl htarget))
  · exact absurd hc hcls

/-- A run of class 3 ends and gives the engine back, `ready`. -/
theorem armed_cipher {fault : Option Code} (h : RunHeld s) (hcls : s.sp.cls = .cipher) :
    Inv (setSpState .armed (setBmState .ready { s with sp := { s.sp with fault := fault } })) := by
  obtain ⟨hst, hxf⟩ := h.engine_held hcls
  obtain ⟨-, gmode, gblock, gmin, gmax, gpbs, gpar, -, gkind, gpos, gint⟩ := (registersOk_iff s).1 h.registers
  have hkey := ((keyStateOk_iff s).1 h.keyState).2 (by simp [hst])
  have hsel : selectionOk (setBmState .ready s) = true := selectionOk_state_change h.selection hkey.1
  have engineShown : registersOk (setBmState .ready s) = true :=
    registersOk_engine h.registers rfl gmode gblock gmin gmax gpbs gpar
  obtain ⟨hc, -⟩ | ⟨hc, -⟩ | ⟨-, -, -, hprim⟩ := (targetOk_iff s).1 h.target
  · rw [hcls] at hc; cases hc
  · rw [hcls] at hc; cases hc
  have hinit : s.sp.prim = initialPrim s := by rw [hprim, initialPrim, hcls]
  exact
    { h with
      registers := registersOk_stream engineShown rfl gkind gpos gint
      selection := hsel
      keyState := (keyStateOk_iff _).2 ⟨nofun, fun _ => hkey⟩
      transform := (transformOk_none _ (by exact hxf)).2 ((transformOk_none s hxf).1 h.transform)
      engineHeld := (engineHeldOk_iff _).2
        ⟨iff_of_false nofun (not_or.2 ⟨fun hx => hx hxf, nofun⟩), fun hx => hx.1 hxf⟩
      stream := (streamOk_iff _).2 ⟨nofun, nofun, fun _ => ⟨h.target, hinit⟩, nofun⟩ }

theorem restored {fault : Option Code} (h : RunHeld s) (hr : restoreTarget s = some u) :
    Inv (setSpState .armed { u with sp := { u.sp with fault := fault } }) := by
  obtain ⟨hc, d, hd, rfl⟩ | ⟨hc, m, hm, rfl⟩ | ⟨hc, rfl⟩ | ⟨hc, rfl⟩ := restoreTarget_cases s u hr
  · exact h.armed_code (by simp [hc]) (by simp [initialPrim, hc, hd])
  · exact h.armed_code (by simp [hc]) (by simp [initialPrim, hc, hm])
  · exact h.armed_cipher (fault := fault) hc
  · obtain ⟨hn, -⟩ | ⟨hn, -⟩ | ⟨hn, -⟩ := (targetOk_iff _).1 h.target <;> simp [hc] at hn

theorem abortRun {code : Code} (h : RunHeld s) (hc : code ∈ emittedCodes) (hx : abortRun code s = .next t) :
    Inv t := by
  obtain ⟨u, hu, rfl⟩ := abortRun_answers hx
  have emptied : RunHeld { s with sp := { s.sp with queue := [] } } :=
    h.moved fun hw => ⟨h.rpos_whole hw, nofun⟩
  exact (emptied.restored hu).respond hc _ _

theorem storeCode (h : RunHeld s) (hx : storeCode s = .ok t) : RunHeld t := by
  obtain ⟨-, p, st, dst, dsz, -, -, -, hin, rfl⟩ | ⟨-, rfl⟩ := storeCode_cases s t hx
  · exact { h with memory := memoryOk_setBytes_take h.memory hin }
  · exact h

theorem finish (h : RunHeld s) (hx : finish s = .next t) : Inv t := by
  obtain ⟨u, v, hu, hv, rfl⟩ := finish_answers hx
  exact (((h.storeCode hu).restored (fault := v.sp.fault) hv).emitFinal _).answerOk _ _

/-! ### Feeding -/

/-- What the engine does for a buffer leaves one block of chain. -/
theorem serialXform_chain {bs : List Byte} {c : BlockCipher} {mode : CipherMode} (h : RunHeld s)
    (hcls : s.sp.cls = .cipher) (he : engine s = some (c, mode))
    (hbs : runTakesWholeBlocks s → bs.length % s.bm.blockSize = 0) :
    (serialXform c mode s.bm.enc s.bm.key s.bm.chain bs).2.length = s.bm.blockSize := by
  have eng := engineReady_of_engine h.selection h.keyState (by simp [(h.engine_held hcls).1]) he
  rw [eng.blockSize_eq] at hbs ⊢
  exact serialXform_chain_length c mode _ _ _ bs eng.key_ok eng.ctr_block eng.chain_length
    fun hw => hbs ⟨hcls, by rw [eng.mode_eq, hw]⟩

/-- A buffer fed: the run is held as before, and of the stream unit only the primitive and `cpos` moved. -/
theorem feed_fed {bs : List Byte} (h : RunHeld s) (hbs : runTakesWholeBlocks s → bs.length % s.bm.blockSize = 0)
    (hx : feed bs s = .fed t) :
    RunHeld t ∧ (∃ prim, t.sp = { s.sp with prim := prim, cpos := s.sp.cpos + bs.length }) ∧ t.cfg = s.cfg ∧
      targetBlockSize t = targetBlockSize s := by
  obtain ⟨u, hu, rfl⟩ := Machine.feed_fed bs s t hx
  obtain ⟨hc, p, st, -, -, rfl⟩ | ⟨hc, c, mode, he, -, rfl⟩ | ⟨hc, rfl⟩ := feedTarget_fed bs s u hu
  · exact ⟨(h.primFed hc).accountFed _, ⟨_, rfl⟩, rfl, rfl⟩
  · exact ⟨(h.chainMoved (h.engine_held hc).1 (h.serialXform_chain hc he hbs)).accountFed _, ⟨_, rfl⟩, rfl, rfl⟩
  · exact ⟨h.accountFed _, ⟨_, rfl⟩, rfl, rfl⟩

theorem feed_ended {bs : List Byte} (h : RunHeld s) (hbs : runTakesWholeBlocks s → bs.length % s.bm.blockSize = 0)
    (hx : feed bs s = .ended (.next t)) : Inv t := by
  obtain ⟨hc, c, mode, he, -, ha⟩ := feedTarget_ended bs s t (Machine.feed_ended bs s _ hx)
  refine abortRun (h.chainMoved (h.engine_held hc).1 (h.serialXform_chain hc he hbs)) ?_ ha
  decide

end RunHeld
end Sys2Proof.Machine
end

section
/-! SUPPORT. The invariant under the agents of a run and the commands of the stream unit (42_stream_processor.md R192,
R194, R200, R203, R205, R206, R218, R220), and under every step of the machine. -/

namespace Sys2Proof.Machine

variable {s t u : State}

/-! ### The agents of a run -/

theorem enabled_seq_iff :
    enabled s .seq = true ↔ s.sp.state = .running ∧ s.sp.path = false ∧ s.sp.cpos < s.sp.run.total := by
  simp [enabled, and_assoc]

theorem enabled_rdr_iff :
    enabled s .rdr = true ↔
      s.sp.state = .running ∧ s.sp.path = true ∧ s.sp.readerDone = false ∧ s.sp.fault = none ∧
        s.sp.queue.length < s.cfg.queueCap := by
  simp [enabled, and_assoc]

theorem enabled_csm_iff :
    enabled s .csm = true ↔
      s.sp.state = .running ∧ s.sp.path = true ∧ (s.sp.fault ≠ none ∨ s.sp.queue ≠ []) := by
  simp [enabled, and_assoc, Option.isSome_iff_ne_none]

theorem requestSize_le (s : State) : requestSize s ≤ s.sp.run.total - s.sp.rpos := Nat.min_le_right _ _

@[simp] theorem queuedBytes_nil : queuedBytes [] = 0 := rfl

@[simp] theorem queuedBytes_cons (bs : List Byte) (queue : List (List Byte)) :
    queuedBytes (bs :: queue) = bs.length + queuedBytes queue := by simp [queuedBytes]

theorem queuedBytes_concat (queue : List (List Byte)) (bs : List Byte) :
    queuedBytes (queue ++ [bs]) = queuedBytes queue + bs.length := by simp [queuedBytes]

/-- A reader that is not done asks for at least one byte. -/
theorem requestSize_pos (hbuild : s.cfg.ok = true) (hlt : s.sp.rpos < s.sp.run.total) : 0 < requestSize s := by
  obtain ⟨-, ⟨hbuf, -⟩, -⟩ := (Params.ok_iff _).1 hbuild
  exact Nat.lt_min.2 ⟨hbuf, by omega⟩

theorem RunHeld.rpos_advanced_whole (h : RunHeld s) (hw : runTakesWholeBlocks s) :
    (s.sp.rpos + requestSize s) % s.bm.blockSize = 0 := by
  rw [Nat.add_mod, h.rpos_whole hw, h.requestSize_whole hw, Nat.zero_mod]

theorem Inv.seqStep (h : Inv s) (hen : enabled s .seq = true) (hx : seqStep s = .next t) : Inv t := by
  obtain ⟨hrun, hpath, -⟩ := enabled_seq_iff.1 hen
  obtain ⟨held, hpos⟩ := h.runHeld hrun
  obtain ⟨htotal, -, hrpos, hqueued, hint, -, hseq⟩ := (runPositionsOk_iff s).1 hpos
  obtain ⟨hqueue, hdone, hfault⟩ := hseq hpath
  rw [hqueue, queuedBytes_nil, Nat.add_zero] at hqueued
  obtain ⟨-, ha⟩ | ⟨-, -, ha⟩ | ⟨bs, -, -, -, ha⟩ | ⟨bs, -, -, hlen, hfeed⟩ := seqStep_cases s t hx
  · exact held.abortRun (by decide) ha
  · exact held.sourceMoved.abortRun (by decide) ha
  · exact held.sourceMoved.abortRun (by decide) ha
  have advanced : RunHeld (advanceReader (requestSize s) (sourceMoved s)) := held.moved fun hw =>
    ⟨held.rpos_advanced_whole hw, held.queue_whole hw⟩
  have hbs : runTakesWholeBlocks s → bs.length % s.bm.blockSize = 0 := fun hw => hlen ▸ held.requestSize_whole hw
  obtain he | ⟨u, hu, hend⟩ := hfeed
  · exact advanced.feed_ended hbs he
  obtain ⟨fed, ⟨prim, hsp⟩, -, hnbs⟩ := advanced.feed_fed hbs hu
  obtain ⟨-, hfin⟩ | ⟨hmore, rfl⟩ := hend
  · exact fed.finish hfin
  have hle := requestSize_le s
  rw [hsp] at hmore
  have hmore : s.sp.cpos + bs.length ≠ s.sp.run.total := hmore
  refine fed.inv ((runPositionsOk_iff _).2 ?_)
  rw [hnbs, hsp]
  refine ⟨htotal, ?_, ?_, ?_, hint, fun hp => absurd hp (by simp [hpath]), fun _ => ⟨hqueue, hdone, hfault⟩⟩
  · show s.sp.cpos + bs.length < s.sp.run.total
    omega
  · show s.sp.rpos + requestSize s ≤ s.sp.run.total
    omega
  · show s.sp.rpos + requestSize s = s.sp.cpos + bs.length + queuedBytes s.sp.queue
    rw [hqueue, queuedBytes_nil]
    omega

/-- The reader records a fault; it has not read all, so it is not done. -/
theorem Inv.readerFault {code : Code} {env : Env} (h : Inv s) (hen : enabled s .rdr = true)
    (hcode : code = .io ∨ code = .unexpectedEof ∨ code = .cancelled) :
    Inv { s with sp := { s.sp with fault := some code }, env := env } := by
  obtain ⟨hrun, hpath, hdone, -, -⟩ := enabled_rdr_iff.1 hen
  obtain ⟨held, hpos⟩ := h.runHeld hrun
  obtain ⟨htotal, hcpos, hrpos, hqueued, hint, hconc, -⟩ := (runPositionsOk_iff s).1 hpos
  obtain ⟨hcap, hfull, hread, -⟩ := hconc hpath
  have faulted : RunHeld { s with sp := { s.sp with fault := some code }, env := env } :=
    held.moved fun hw => ⟨held.rpos_whole hw, held.queue_whole hw⟩
  refine faulted.inv ((runPositionsOk_iff _).2 ?_)
  refine ⟨htotal, hcpos, hrpos, hqueued, hint, fun _ => ⟨hcap, hfull, hread, fun c hc => ?_⟩,
    fun hp => absurd hp (by simp [hpath])⟩
  cases hc
  exact ⟨hdone, hcode⟩

theorem Inv.pushBuffer {bs : List Byte} (h : Inv s) (hen : enabled s .rdr = true) (hlen : bs.length = requestSize s) :
    Inv (pushBuffer bs (advanceReader (requestSize s) (sourceMoved s))) := by
  obtain ⟨hrun, hpath, hdone, hfault, hroom⟩ := enabled_rdr_iff.1 hen
  obtain ⟨held, hpos⟩ := h.runHeld hrun
  obtain ⟨htotal, hcpos, hrpos, hqueued, hint, hconc, -⟩ := (runPositionsOk_iff s).1 hpos
  obtain ⟨-, hfull, hread, -⟩ := hconc hpath
  have hlt : s.sp.rpos < s.sp.run.total := lt_of_le_of_ne hrpos fun heq => by simp [hread.2 heq] at hdone
  have hsome := requestSize_pos h.build hlt
  have hle := requestSize_le s
  have pushed : RunHeld (Machine.pushBuffer bs (advanceReader (requestSize s) (sourceMoved s))) :=
    held.moved fun hw => by
      refine ⟨held.rpos_advanced_whole hw, fun q hq => ?_⟩
      obtain hq | hq := List.mem_append.1 hq
      · exact held.queue_whole hw q hq
      · rw [List.mem_singleton.1 hq, hlen, held.requestSize_whole hw]
  refine pushed.inv ((runPositionsOk_iff _).2 ?_)
  refine ⟨htotal, hcpos, ?_, ?_, hint, fun _ => ⟨?_, fun q hq => ?_, ?_, fun c hc => ?_⟩,
    fun hp => absurd hp (by simp [Machine.pushBuffer, hpath])⟩
  · show s.sp.rpos + requestSize s ≤ s.sp.run.total
    omega
  · show s.sp.rpos + requestSize s = s.sp.cpos + queuedBytes (s.sp.queue ++ [bs])
    rw [queuedBytes_concat]
    omega
  · show (s.sp.queue ++ [bs]).length ≤ s.cfg.queueCap
    simpa using hroom
  · obtain hq | hq := List.mem_append.1 hq
    · exact hfull q hq
    · rw [List.mem_singleton.1 hq]
      exact List.ne_nil_of_length_pos (hlen ▸ hsome)
  · simp [Machine.pushBuffer, hdone]
  · exact absurd (hfault.symm.trans hc) nofun

theorem Inv.rdrStep (h : Inv s) (hen : enabled s .rdr = true) (hx : rdrStep s = .next t) : Inv t := by
  obtain ⟨-, rfl⟩ | ⟨-, -, rfl⟩ | ⟨bs, -, -, -, rfl⟩ | ⟨bs, -, -, hlen, rfl⟩ := rdrStep_cases s t hx
  · exact h.readerFault hen (.inr (.inr rfl))
  · exact h.readerFault hen (.inl rfl)
  · exact h.readerFault hen (.inr (.inl rfl))
  · exact h.pushBuffer hen hlen

theorem Inv.csmStep (h : Inv s) (hen : enabled s .csm = true) (hx : csmStep s = .next t) : Inv t := by
  obtain ⟨hrun, hpath, -⟩ := enabled_csm_iff.1 hen
  obtain ⟨held, hpos⟩ := h.runHeld hrun
  obtain ⟨htotal, -, hrpos, hqueued, hint, hconc, -⟩ := (runPositionsOk_iff s).1 hpos
  obtain ⟨hcap, hfull, hread, hcodes⟩ := hconc hpath
  obtain ⟨code, hcode, ha⟩ | ⟨-, -, rfl⟩ | ⟨bs, rest, hfault, hqueue, hfeed⟩ := csmStep_cases s t hx
  · refine held.abortRun ?_ ha
    obtain ⟨-, rfl | rfl | rfl⟩ := hcodes code hcode <;> decide
  · exact h
  rw [hqueue] at hcap hfull
  rw [hqueue, queuedBytes_cons] at hqueued
  have popped : RunHeld { s with sp := { s.sp with queue := rest } } := held.moved fun hw =>
    ⟨held.rpos_whole hw, fun q hq => held.queue_whole hw q (hqueue ▸ List.mem_cons_of_mem bs hq)⟩
  have hbs : runTakesWholeBlocks s → bs.length % s.bm.blockSize = 0 := fun hw =>
    held.queue_whole hw bs (hqueue ▸ List.mem_cons_self)
  obtain he | ⟨u, hu, hend⟩ := hfeed
  · exact popped.feed_ended hbs he
  obtain ⟨fed, ⟨prim, hsp⟩, hcfg, hnbs⟩ := popped.feed_fed hbs hu
  obtain ⟨-, -, hfin⟩ | ⟨hmore, rfl⟩ := hend
  · exact fed.finish hfin
  rw [hsp] at hmore
  -- Had the last byte been fed, the reader would be done and the queue, which holds no empty buffer, empty.
  have hlt : s.sp.cpos + bs.length < s.sp.run.total := by
    by_contra hge
    refine hmore ⟨hread.2 (by omega), List.eq_nil_iff_forall_not_mem.2 fun q hq => ?_⟩
    have hq0 : q.length ≤ queuedBytes rest := List.le_sum_of_mem (List.mem_map_of_mem hq)
    have := List.length_pos_of_ne_nil (hfull q (List.mem_cons_of_mem bs hq))
    omega
  refine fed.inv ((runPositionsOk_iff _).2 ?_)
  rw [hnbs, hsp, hcfg]
  refine ⟨htotal, hlt, hrpos, by show s.sp.rpos = s.sp.cpos + bs.length + queuedBytes rest; omega, hint,
    fun _ => ⟨?_, fun q hq => hfull q (List.mem_cons_of_mem bs hq), hread, hcodes⟩,
    fun hp => absurd hp (by simp [hpath])⟩
  exact (Nat.le_succ _).trans hcap

theorem Inv.agentAct {a : Agent} (h : Inv s) (hen : enabled s a = true) (hx : agentAct a s = .next t) : Inv t := by
  cases a with
  | ctl => exact h.ctlStep hen hx
  | lane i =>
    obtain ⟨l, hl, hb, hn⟩ := lane_of_laneEnabled hen
    simp only [Machine.agentAct, hl] at hx
    exact h.laneStep hl hb hn hx
  | seq => exact h.seqStep hen hx
  | rdr => exact h.rdrStep hen hx
  | csm => exact h.csmStep hen hx

/-! ### The commands of the stream unit -/

theorem bmModeWord_none : bmModeWord none 0 false = 0 := by decide

theorem spStateWord_empty : spStateWord .empty false = 0 := by decide

theorem spKindWord_none : spKindWord .none 0 = 0 := by decide

/-- A command of the stream unit that replaces its target, no run in flight. -/
theorem Inv.target_replaced {sp : Spu} {regs : Regs} (h : Inv s) (hfree : s.sp.state ≠ .running)
    (hst : sp.state ≠ .running) (hregs : registersOk { s with sp := sp, regs := regs } = true)
    (hstream : streamOk { s with sp := sp, regs := regs } = true) : Inv { s with sp := sp, regs := regs } := by
  obtain ⟨hiff, -⟩ := (engineHeldOk_iff s).1 h.engineHeld
  exact
    { h with
      registers := hregs
      engineHeld := (engineHeldOk_iff _).2
        ⟨hiff.trans (or_congr_right (iff_of_false (fun hx => hfree hx.1) (fun hx => hst hx.1))),
          fun hx => hst hx.2.1⟩
      stream := hstream }

theorem Inv.spNew {tag sel : BitVec 8} {kind : BitVec 16} (h : Inv s) (hx : execSpNew tag sel kind s = .next t) :
    Inv t := by
  obtain ⟨-, -, -, -, -, -, -, -, -, gpos, gint⟩ := (registersOk_iff s).1 h.registers
  obtain hr | ⟨hfree, hsel⟩ := execSpNew_cases tag sel kind s t hx
  · exact h.rejectedAs (by decide) hr
  obtain ⟨-, d, hd, rfl⟩ | ⟨-, hm, rfl⟩ | ⟨-, hk, rfl⟩ := hsel
  · apply Inv.answerOk
    refine h.target_replaced hfree (by simp) (registersOk_stream h.registers rfl rfl gpos gint) ?_
    refine (streamOk_iff _).2 ⟨nofun, nofun, fun _ => ⟨(targetOk_iff _).2 (.inl ⟨rfl, ⟨d, hd⟩, rfl⟩), ?_⟩, nofun⟩
    simp [initialPrim, hd]
  · apply Inv.answerOk
    refine h.target_replaced hfree (by simp) (registersOk_stream h.registers rfl rfl gpos gint) ?_
    exact (streamOk_iff _).2 ⟨nofun, fun _ => ⟨rfl, hm, rfl, rfl⟩, nofun, nofun⟩
  · apply Inv.answerOk
    refine h.target_replaced hfree (by simp) (registersOk_stream h.registers rfl rfl gpos gint) ?_
    exact (streamOk_iff _).2
      ⟨nofun, nofun, fun _ => ⟨(targetOk_iff _).2 (.inr (.inr ⟨rfl, hk, rfl, rfl⟩)), rfl⟩, nofun⟩

theorem Inv.spKey {tag : BitVec 8} (h : Inv s) (hx : execSpKey tag s = .next t) : Inv t := by
  obtain ⟨-, -, -, -, -, -, -, -, gkind, gpos, gint⟩ := (registersOk_iff s).1 h.registers
  obtain hr | ⟨m, hst, hcls, hm, hlen, rfl⟩ := execSpKey_cases tag s t hx
  · exact h.rejectedAs (by decide) hr
  apply Inv.answerOk
  refine h.target_replaced (by rcases hst with hst | hst <;> simp [hst]) (by simp)
    (registersOk_stream h.registers rfl gkind gpos gint) ?_
  refine (streamOk_iff _).2
    ⟨nofun, nofun, fun _ => ⟨(targetOk_iff _).2 (.inr (.inl ⟨hcls, ?_⟩)), ?_⟩, nofun⟩
  · simpa using hlen
  · simp [initialPrim, hcls, hm]

theorem Inv.spRelease {tag : BitVec 8} (h : Inv s) (hx : execSpRelease tag s = .next t) : Inv t := by
  obtain ⟨-, -, -, -, -, -, -, -, -, gpos, gint⟩ := (registersOk_iff s).1 h.registers
  obtain hr | ⟨hfree, rfl⟩ := execSpRelease_cases tag s t hx
  · exact h.rejectedAs (by decide) hr
  apply Inv.answerOk
  refine h.target_replaced hfree (by simp) (registersOk_stream h.registers rfl spKindWord_none.symm gpos gint) ?_
  exact (streamOk_iff _).2 ⟨fun _ => ⟨rfl, rfl, rfl, rfl⟩, nofun, nofun, nofun⟩

/-- Nothing in the invariant reads the cancel flag. -/
theorem Inv.spCancel {tag : BitVec 8} (h : Inv s) (hx : execSpCancel tag s = .next t) : Inv t := by
  obtain ⟨-, rfl⟩ | ⟨-, rfl⟩ := execSpCancel_cases tag s t hx
  · apply Inv.answerOk
    exact ⟨h.build, h.memory, h.registers, h.selection, h.keyState, h.laneCount, h.transform, h.engineHeld, h.stream,
      h.logs⟩
  · exact h.answerOk _ _

/-! ### An accepted run -/

/-- The registers show a started run. -/
theorem registersOk_runStarted (h : registersOk s = true) (tag : BitVec 8) (out : Option (Nat × Nat)) (nbs : Nat) :
    registersOk (runStarted tag out nbs s) = true := by
  obtain ⟨-, -, -, -, -, -, -, -, gkind, -⟩ := (registersOk_iff s).1 h
  exact registersOk_stream (s := s) h rfl gkind rfl rfl

/-- A target that is a digest or a MAC of the registry has an initial state. -/
theorem initialPrim_of_streamPrim? {p : StreamPrim} (hp : streamPrim? s.sp.cls s.sp.kind = some p) :
    ∃ st, initialPrim s = some st := by
  cases hc : s.sp.cls with
  | digest =>
    simp only [hc, streamPrim?, Option.map_eq_some_iff] at hp
    obtain ⟨d, hd, -⟩ := hp
    exact ⟨d.d0, by simp [initialPrim, hc, hd]⟩
  | mac =>
    simp only [hc, streamPrim?, Option.map_eq_some_iff] at hp
    obtain ⟨m, hm, -⟩ := hp
    exact ⟨m.m0 s.sp.key, by simp [initialPrim, hc, hm]⟩
  | cipher | none => simp [hc, streamPrim?] at hp

/-- A digest or MAC run started: the unit holds its target and its output range. -/
theorem Inv.startRun_code {tag : BitVec 8} {p : StreamPrim} {o : Nat} (h : Inv s) (harmed : s.sp.state = .armed)
    (hcls : s.sp.cls = .digest ∨ s.sp.cls = .mac) (hp : streamPrim? s.sp.cls s.sp.kind = some p)
    (ho : outputRange s p.digestSize = some o) : RunHeld (startRun tag (some (o, p.digestSize)) p.blockSize s) := by
  have hnot : s.sp.cls ≠ .cipher := by rcases hcls with hc | hc <;> simp [hc]
  have hin : o + p.digestSize ≤ memSize s := bufRange_inside _ _ _ _ _ _ ho
  obtain ⟨-, -, hstream, -⟩ := (streamOk_iff s).1 h.stream
  obtain ⟨htarget, hprim⟩ := hstream harmed
  obtain ⟨st, hst⟩ := initialPrim_of_streamPrim? hp
  obtain ⟨hiff, -⟩ := (engineHeldOk_iff s).1 h.engineHeld
  rw [startRun_eq, if_neg hnot]
  exact
    { h with
      registers := registersOk_runStarted h.registers tag _ _
      engineHeld := (engineHeldOk_iff _).2
        ⟨hiff.trans (or_congr_right (iff_of_false (fun hx => hnot hx.2) (fun hx => hnot hx.2))), fun hx => hnot hx.2.2⟩
      running := rfl
      target := htarget
      runTarget := (runTargetOk_iff _).2 (.inl ⟨hcls, p, st, o, hp, hprim.trans hst, rfl, hin⟩) }

/-- A run of class 3 started: it holds the engine (42 R216). -/
theorem Inv.startRun_cipher {tag : BitVec 8} (h : Inv s) (harmed : s.sp.state = .armed) (hcls : s.sp.cls = .cipher)
    (hready : s.bm.state = .ready) (hbuf : s.cfg.bufSize % s.bm.blockSize = 0)
    (hwhole : needsWholeBlocks s.bm.mode = true → s.regs.spTotal.toNat % s.bm.blockSize = 0) :
    RunHeld (startRun tag none s.bm.blockSize s) := by
  obtain ⟨hxf, -⟩ := h.engine_free (by simp [hready])
  obtain ⟨-, -, hstream, -⟩ := (streamOk_iff s).1 h.stream
  obtain ⟨htarget, -⟩ := hstream harmed
  obtain ⟨-, gmode, gblock, gmin, gmax, gpbs, gpar, -⟩ := (registersOk_iff s).1 h.registers
  have hkey := ((keyStateOk_iff s).1 h.keyState).2 (by simp [hready])
  have hsel : selectionOk (setBmState .transforming s) = true := selectionOk_state_change h.selection hkey.1
  rw [startRun_eq, if_pos hcls]
  exact
    { h with
      registers := registersOk_engine (registersOk_runStarted h.registers tag _ _) rfl gmode gblock gmin gmax gpbs gpar
      selection := hsel
      keyState := (keyStateOk_iff _).2 ⟨nofun, fun _ => hkey⟩
      transform := (transformOk_none _ (by exact hxf)).2 (h.lanes_idle_of_no_transform hxf)
      engineHeld := (engineHeldOk_iff _).2 ⟨iff_of_true rfl (.inr ⟨rfl, hcls⟩), fun hx => hx.1 hxf⟩
      running := rfl
      target := htarget
      runTarget := (runTargetOk_iff _).2
        (.inr ⟨hcls, rfl, hbuf, fun hw => ⟨hwhole hw, Nat.zero_mod _, nofun⟩⟩) }

/-- A started run that has bytes to come stands at its beginning. -/
theorem runPositionsOk_startRun {tag : BitVec 8} {out : Option (Nat × Nat)} {nbs : Nat}
    (htotal : s.regs.spTotal.toNat < 2 ^ 56) (hne : s.regs.spTotal.toNat ≠ 0) (hnbs : targetBlockSize s = nbs) :
    runPositionsOk (startRun tag out nbs s) = true := by
  have hstart : runPositionsOk (runStarted tag out nbs s) = true := by
    refine (runPositionsOk_iff _).2 ⟨htotal, Nat.pos_of_ne_zero hne, Nat.zero_le _, rfl, ?_, fun _ => ?_, fun _ => ?_⟩
    · rw [← hnbs]; rfl
    · exact ⟨Nat.zero_le _, nofun, iff_of_false nofun (Ne.symm hne), nofun⟩
    · exact ⟨rfl, rfl, rfl⟩
  rw [startRun_eq]
  split <;> exact hstart

theorem RunHeld.acceptRun {tag : BitVec 8} {out : Option (Nat × Nat)} {nbs : Nat}
    (held : RunHeld (startRun tag out nbs s)) (htotal : s.regs.spTotal.toNat < 2 ^ 56)
    (hnbs : targetBlockSize s = nbs) (hx : acceptRun tag out nbs s = .next t) : Inv t := by
  obtain ⟨-, hfin⟩ | ⟨hne, rfl⟩ := acceptRun_cases tag out nbs s t hx
  · exact held.finish hfin
  · exact held.inv (runPositionsOk_startRun htotal hne hnbs)

theorem Inv.spRun {tag : BitVec 8} (h : Inv s) (hx : execSpRun tag s = .next t) : Inv t := by
  obtain hr | ⟨harmed, htotal, hrun⟩ := execSpRun_cases tag s t hx
  · exact h.rejectedAs (by decide) hr
  obtain ⟨hcls, p, o, hp, ho, ha⟩ | ⟨hcls, hready, hbuf, hwhole, ha⟩ := hrun
  · refine (h.startRun_code harmed hcls hp ho).acceptRun htotal ?_ ha
    rcases hcls with hc | hc <;> rw [hc] at hp <;> simp [targetBlockSize, hc, hp]
  · refine (h.startRun_cipher harmed hcls hready hbuf hwhole).acceptRun htotal ?_ ha
    simp [targetBlockSize, hcls]

/-! ### Every step of the machine -/

theorem Inv.exec {i : Instr} (h : Inv s) (hx : exec i s = .next t) : Inv t := by
  cases i with
  | nop tag => cases hx; exact h.answerOk _ _
  | bmNew tag sel kind => exact h.bmNew hx
  | bmInit tag f => exact h.bmInit hx
  | bmXblk tag => exact h.bmXblk hx
  | bmXfrm tag => exact h.bmXfrm hx
  | bmSetpbs tag => exact h.bmSetpbs hx
  | bmSetpar tag f => exact h.bmSetpar hx
  | bmRelease tag => exact h.bmRelease hx
  | spNew tag sel kind => exact h.spNew hx
  | spKey tag => exact h.spKey hx
  | spRun tag => exact h.spRun hx
  | spCancel tag => exact h.spCancel hx
  | spRelease tag => exact h.spRelease hx

theorem Inv.issue {w : Word} (h : Inv s) (hx : issue w s = .next t) : Inv t := by
  obtain ⟨i, -, hi⟩ | ⟨op, tag, -, rfl⟩ | ⟨op, tag, -, rfl⟩ := issue_cases w s t hx
  · exact h.exec hi
  · exact h.respond (by decide) _ _
  · exact h.respond (by decide) _ _

/-- What the host has seen and read enters the invariant only by the two counts. -/
theorem Inv.observed {port : HostPort} (h : Inv s) (hr : port.rspSeen ≤ s.rsp.length)
    (he : port.evtSeen ≤ s.evt.length) : Inv { s with port := port } := by
  obtain ⟨hrsp, hevt, -, -⟩ := (logsOk_iff s).1 h.logs
  exact { h with logs := (logsOk_iff _).2 ⟨hrsp, hevt, hr, he⟩ }

/-- The host writes no register that shows the state of a unit (10 R22). -/
theorem Inv.regWrite (h : Inv s) (i : BitVec 6) (v : Word) : Inv (regWrite s i v) := by
  unfold Machine.regWrite
  split
  · rename_i name hname
    have shown : registersOk { s with regs := hostSetReg s.regs name v } = true := by
      have g := (registersOk_iff s).1 h.registers
      refine (registersOk_iff _).2 ?_
      cases name <;> exact g
    exact { h with registers := shown }
  · exact h

theorem Inv.resetEvent (h : Inv s) : Inv (resetEvent s) := by
  have idle : ∀ l ∈ s.lanes.map resetLane, laneIdle l = true := fun l hl => by
    obtain ⟨l', -, rfl⟩ := List.mem_map.1 hl
    rfl
  have shown : registersOk (Machine.resetEvent s) = true := by
    refine (registersOk_iff _).2 ⟨rfl, bmModeWord_none.symm, rfl, ?_, ?_, rfl, ?_, spStateWord_empty.symm,
      spKindWord_none.symm, rfl, rfl⟩
    · simp [Bme.reset, Regs.reset, parMin]
    · simp [Bme.reset, Regs.reset, parMin, parMax]
    · cases hp : s.cfg.parDefault <;> simp [Bme.reset, Regs.reset, hp, bit]
  exact
    { build := h.build
      memory := h.memory
      registers := shown
      selection := (selectionOk_iff _).2 (.inl ⟨rfl, rfl, rfl, rfl, rfl⟩)
      keyState := (keyStateOk_iff _).2 ⟨fun _ => ⟨rfl, rfl, rfl⟩, fun hne => absurd rfl hne⟩
      laneCount := (List.length_map _).trans h.laneCount
      transform := (transformOk_none _ rfl).2 idle
      engineHeld := rfl
      stream := (streamOk_iff _).2 ⟨fun _ => ⟨rfl, rfl, rfl, rfl⟩, nofun, nofun, nofun⟩
      logs := rfl }

/-- A turn given to an agent, by an event or by the free schedule. -/
theorem Inv.agentStep {a : Agent} (h : Inv s) (hx : agentStep a s = .next t) : Inv t := by
  obtain ⟨hen, ha⟩ | ⟨-, rfl⟩ := agentStep_cases a s t hx
  · exact h.agentAct hen ha
  · exact h

theorem Inv.freeStep (h : Inv s) (hx : freeStep s = .next t) : Inv t := by
  obtain ⟨-, rfl⟩ | ⟨a, hen, ha⟩ := freeStep_cases s t hx
  · exact h
  · have same : enabled { s with tick := s.tick + 1 } a = enabled s a := by cases a <;> rfl
    exact (h.env_tick s.env (s.tick + 1)).agentAct (same.trans hen) ha

/-- An event that is ready to happen keeps the invariant. -/
theorem Inv.happen {e : Event} (h : Inv s) (hready : ready e s = true) (hx : happen e s = .next t) : Inv t := by
  obtain ⟨-, -, hr, he⟩ := (logsOk_iff s).1 h.logs
  cases e with
  | issue w => exact h.issue hx
  | regWrite i v => cases hx; exact h.regWrite i v
  | regRead i => cases hx; exact h.observed hr he
  | memWrite a bs =>
    obtain ⟨hin, rfl⟩ := hostMemWrite_cases a bs s t hx
    exact { h with memory := memoryOk_setBytes h.memory hin }
  | memRead a n =>
    obtain ⟨-, rfl⟩ := hostMemRead_cases a n s t hx
    exact h.observed hr he
  | awaitRsp => cases hx; exact h.observed (ready_awaitRsp_iff.1 hready) he
  | awaitEvt => cases hx; exact h.observed hr (ready_awaitEvt_iff.1 hready)
  | agent a => exact h.agentStep hx
  | setSource answers => cases hx; exact h.env_tick _ s.tick
  | setSink answers => cases hx; exact h.env_tick _ s.tick
  | reset => cases hx; exact h.resetEvent

end Sys2Proof.Machine

namespace Sys2Proof.Proofs

open Sys2Proof.Machine

/-- Settles O35: by what a step can do, the next event or the turn of an enabled agent, each of which keeps the
invariant. -/
theorem everyStepKeepsInvariant : Obligations.EveryStepKeepsInvariant := by
  intro s t h hx
  obtain ⟨e, rest, -, hready, hh⟩ | ⟨-, hf⟩ := step_cases s t hx
  · have ready' : ready e (withEvents rest s) = true := by cases e <;> exact hready
    exact (h.env_tick { s.env with events := rest } s.tick).happen ready' hh
  · exact h.freeStep hf

end Sys2Proof.Proofs
end

section
/-! SUPPORT. The memory frame of the hardware (20_memory.md R60, R63): which addresses a transform, a run and a command
at issue may write, and that no step of the hardware changes a byte elsewhere. -/

namespace Sys2Proof.Machine

variable {s t u : State} {x : Nat}

/-! ### The addresses the hardware may write -/

/-- `x` lies in the output range of the transform in progress. -/
def transformOutput (s : State) (x : Nat) : Prop :=
  ∃ xf, s.bm.xf = some xf ∧ xf.dst ≤ x ∧ x < xf.dst + xf.len

/-- `x` lies in the output range recorded for a run, whether or not it is in progress. -/
def recordedOutput (s : State) (x : Nat) : Prop :=
  ∃ dst dsz, s.sp.run.out = some (dst, dsz) ∧ dst ≤ x ∧ x < dst + dsz

/-- `x` lies in the output range of the run in progress. -/
def runOutput (s : State) (x : Nat) : Prop :=
  ∃ dst dsz, s.sp.state = .running ∧ s.sp.run.out = some (dst, dsz) ∧ dst ≤ x ∧ x < dst + dsz

/-- `x` lies in the output range a command validates and may write while it is issued. -/
def commandOutput (s : State) (x : Nat) : Instr → Prop
  | .bmXblk _ => ∃ o, outputRange s s.bm.blockSize = some o ∧ o ≤ x ∧ x < o + s.bm.blockSize
  | .spRun _ =>
    ∃ p o, streamPrim? s.sp.cls s.sp.kind = some p ∧ outputRange s p.digestSize = some o ∧ o ≤ x ∧
      x < o + p.digestSize
  | _ => False

theorem runOutput_of_recorded (hrun : s.sp.state = .running) (h : recordedOutput s x) : runOutput s x := by
  obtain ⟨dst, dsz, hout, hx⟩ := h
  exact ⟨dst, dsz, hrun, hout, hx⟩

/-- Between the two states only bytes at addresses in `R` change. -/
def ChangesOnly (R : Nat → Prop) (s t : State) : Prop := ∀ x, byteAt t.mem x ≠ byteAt s.mem x → R x

namespace ChangesOnly

variable {R Q : Nat → Prop}

theorem of_mem_eq (h : t.mem = s.mem) : ChangesOnly R s t := fun x hx => absurd (by rw [h]) hx

theorem mono (h : ChangesOnly R s t) (hRQ : ∀ x, R x → Q x) : ChangesOnly Q s t := fun x hx => hRQ x (h x hx)

/-- Work before or after that leaves memory alone does not matter. -/
theorem congr {s' t' : State} (h : ChangesOnly R s t) (hs : s.mem = s'.mem) (ht : t'.mem = t.mem) :
    ChangesOnly R s' t' := fun x hx => h x (by rwa [ht, ← hs] at hx)

/-- A store of at most `n` bytes at `a`. -/
theorem of_store {a n : Nat} {bs : List Byte} (hwf : Memory.wf s.mem = true)
    (ht : t.mem = setBytes s.mem a (bs.take n)) (hR : ∀ x, a ≤ x → x < a + n → R x) : ChangesOnly R s t := by
  intro x hx
  obtain ⟨hlow, hhigh⟩ : a ≤ x ∧ x < a + (bs.take n).length := by
    by_contra hout
    exact hx (by rw [ht, byteAt_setBytes_of_not_mem _ _ _ _ hwf hout])
  have hle : (bs.take n).length ≤ n := List.length_take_le n bs
  exact hR x hlow (by omega)

end ChangesOnly

theorem Inv.memory_wf (h : Inv s) : Memory.wf s.mem = true := ((memoryOk_iff s).1 h.memory).1

/-! ### A run -/

theorem restoreTarget_mem (h : restoreTarget s = some t) : t.mem = s.mem := by
  obtain ⟨-, d, -, rfl⟩ | ⟨-, m, -, rfl⟩ | ⟨-, rfl⟩ | ⟨-, rfl⟩ := restoreTarget_cases s t h <;> rfl

theorem abortRun_mem {code : Code} (h : abortRun code s = .next t) : t.mem = s.mem := by
  obtain ⟨u, hu, rfl⟩ := abortRun_cases code s t h
  exact (restoreTarget_mem hu :)

/-- The end of a run stores its code where the run was told to, and writes nothing else (42 R212). -/
theorem finish_changesOnly (hwf : Memory.wf s.mem = true) (h : finish s = .next t) :
    ChangesOnly (recordedOutput s) s t := by
  obtain ⟨u, v, hu, hv, rfl⟩ := finish_cases s t h
  suffices hstore : ChangesOnly (recordedOutput s) s u from hstore.congr rfl (restoreTarget_mem hv :)
  obtain ⟨-, p, st, dst, dsz, -, -, hout, -, rfl⟩ | ⟨-, rfl⟩ := storeCode_cases s u hu
  · exact .of_store hwf rfl fun x hlow hhigh => ⟨dst, dsz, hout, hlow, hhigh⟩
  · exact .of_mem_eq rfl

/-- A buffer fed leaves memory and the record of the run. -/
theorem feed_fed_mem_run {bs : List Byte} (h : feed bs s = .fed t) : t.mem = s.mem ∧ t.sp.run = s.sp.run := by
  obtain ⟨u, hu, rfl⟩ := feed_fed bs s t h
  obtain ⟨-, p, st, -, -, rfl⟩ | ⟨-, c, mode, -, -, rfl⟩ | ⟨-, rfl⟩ := feedTarget_fed bs s u hu <;> exact ⟨rfl, rfl⟩

theorem feed_ended_mem {bs : List Byte} (h : feed bs s = .ended (.next t)) : t.mem = s.mem := by
  obtain ⟨-, c, mode, -, -, ha⟩ := feedTarget_ended bs s t (feed_ended bs s _ h)
  exact (abortRun_mem ha :)

/-- A run that feeds its last buffer and ends in the same step. -/
theorem feed_finish_changesOnly {bs : List Byte} (hwf : Memory.wf s.mem = true) (hu : feed bs s = .fed u)
    (h : finish u = .next t) : ChangesOnly (recordedOutput s) s t := by
  obtain ⟨hmem, hrun⟩ := feed_fed_mem_run hu
  refine ((finish_changesOnly (by rwa [hmem]) h).congr hmem rfl).mono fun x hx => ?_
  rwa [recordedOutput, hrun] at hx

theorem seqStep_changesOnly (hwf : Memory.wf s.mem = true) (h : seqStep s = .next t) :
    ChangesOnly (recordedOutput s) s t := by
  obtain ⟨-, ha⟩ | ⟨-, -, ha⟩ | ⟨bs, -, -, -, ha⟩ | ⟨bs, -, -, -, hfeed⟩ := seqStep_cases s t h
  · exact .of_mem_eq (abortRun_mem ha :)
  · exact .of_mem_eq (abortRun_mem ha :)
  · exact .of_mem_eq (abortRun_mem ha :)
  · obtain he | ⟨u, hu, ⟨-, hfin⟩ | ⟨-, rfl⟩⟩ := hfeed
    · exact .of_mem_eq (feed_ended_mem he :)
    · exact feed_finish_changesOnly (s := advanceReader (requestSize s) (sourceMoved s)) hwf hu hfin
    · exact .of_mem_eq (feed_fed_mem_run hu).1

theorem rdrStep_mem (h : rdrStep s = .next t) : t.mem = s.mem := by
  obtain ⟨-, rfl⟩ | ⟨-, -, rfl⟩ | ⟨bs, -, -, -, rfl⟩ | ⟨bs, -, -, -, rfl⟩ := rdrStep_cases s t h <;> rfl

theorem csmStep_changesOnly (hwf : Memory.wf s.mem = true) (h : csmStep s = .next t) :
    ChangesOnly (recordedOutput s) s t := by
  obtain ⟨code, -, ha⟩ | ⟨-, -, rfl⟩ | ⟨bs, rest, -, -, hfeed⟩ := csmStep_cases s t h
  · exact .of_mem_eq (abortRun_mem ha :)
  · exact .of_mem_eq rfl
  · obtain he | ⟨u, hu, ⟨-, -, hfin⟩ | ⟨-, rfl⟩⟩ := hfeed
    · exact .of_mem_eq (feed_ended_mem he :)
    · exact feed_finish_changesOnly (s := { s with sp := { s.sp with queue := rest } }) hwf hu hfin
    · exact .of_mem_eq (feed_fed_mem_run hu).1

/-! ### A transform -/

/-- The chunk of a lane ends within the parallel block (41 R160). -/
theorem chunk_end_le {k T i : Nat} (hi : i < T) : chunkStart k T i + chunkCount k T i ≤ k := by
  have hmono : ∀ j, j ≤ T → j * (k / T) ≤ k := fun j hj =>
    (Nat.mul_le_mul_right _ hj).trans (Nat.mul_div_le k T)
  unfold chunkStart chunkCount blocksPerChunk
  split
  · rename_i hlt
    have := hmono (i + 1) hi
    rwa [Nat.succ_mul] at this
  · obtain rfl : T - 1 = i := by omega
    exact (Nat.add_sub_cancel' (hmono (T - 1) (Nat.sub_le T 1))).le

/-- The chunk of a lane, in bytes, ends within what is left of the transform (41 R165). -/
theorem Inv.lane_chunk_end_le {xf : Transform} {i : Nat} (h : Inv s) (hxf : s.bm.xf = some xf) (hn : 0 < xf.npar)
    (hi : i < s.cfg.threads) :
    laneOffset s xf i + chunkCount (unitBlocks s) s.cfg.threads i * s.bm.blockSize ≤ xf.len := by
  obtain ⟨-, -, -, -, hpos, -⟩ := h.transform_facts hxf
  calc laneOffset s xf i + chunkCount (unitBlocks s) s.cfg.threads i * s.bm.blockSize
      = xf.pos + (chunkStart (unitBlocks s) s.cfg.threads i + chunkCount (unitBlocks s) s.cfg.threads i) *
          s.bm.blockSize := by rw [laneOffset, Nat.add_mul, Nat.add_assoc]
    _ ≤ xf.pos + unitBlocks s * s.bm.blockSize := Nat.add_le_add_left (Nat.mul_le_mul_right _ (chunk_end_le hi)) _
    _ ≤ xf.pos + s.bm.pbs := Nat.add_le_add_left (Nat.div_mul_le_self _ _) _
    _ ≤ xf.pos + xf.npar * s.bm.pbs := Nat.add_le_add_left (Nat.le_mul_of_pos_left _ hn) _
    _ ≤ xf.len := hpos

/-- The block a busy lane writes next lies in the output range of its transform. -/
theorem Inv.lane_block_inside {xf : Transform} {nc : List Byte} {i : Nat} {l : Lane} (h : Inv s)
    (hxf : s.bm.xf = some xf) (hphase : xf.phase = .par nc) (hl : s.lanes[i]? = some l) (hn : 0 < l.n) :
    xf.dst ≤ l.dst ∧ l.dst + s.bm.blockSize ≤ xf.dst + xf.len := by
  obtain ⟨-, -, -, -, -, -, -, -, hph⟩ := h.transform_facts hxf
  obtain ⟨hnpar, -, hlanes⟩ := (phaseOk_par s xf nc hphase).1 hph
  obtain ⟨-, -, -, hle, -, hend⟩ := (laneBusyOk_iff s xf i l).1 (hlanes i l hl)
  have hi : i < s.cfg.threads := h.laneCount ▸ (List.getElem?_eq_some_iff.1 hl).1
  have hchunk := h.lane_chunk_end_le hxf hnpar hi
  have hleft : l.n * s.bm.blockSize ≤ chunkCount (unitBlocks s) s.cfg.threads i * s.bm.blockSize :=
    Nat.mul_le_mul_right _ hle
  have hblock : s.bm.blockSize ≤ l.n * s.bm.blockSize := Nat.le_mul_of_pos_left _ hn
  omega

theorem Inv.laneStep_changesOnly {i : Nat} {l : Lane} (h : Inv s) (hl : s.lanes[i]? = some l) (hb : l.busy = true)
    (hn : 0 < l.n) (hx : Machine.laneStep i l s = .next t) : ChangesOnly (transformOutput s) s t := by
  obtain ⟨c, mode, -, -, -, rfl⟩ := laneStep_cases i l s t hx
  obtain ⟨xf, nc, hxf, hphase⟩ := h.par_of_busy hl hb
  obtain ⟨hlow, hhigh⟩ := h.lane_block_inside hxf hphase hl hn
  exact .of_store h.memory_wf rfl fun x hge hlt => ⟨xf, hxf, by omega, by omega⟩

theorem ctlStep_changesOnly (hwf : Memory.wf s.mem = true) (h : ctlStep s = .next t) :
    ChangesOnly (transformOutput s) s t := by
  obtain ⟨-, rfl⟩ | ⟨xf, nc, -, -, hj⟩ | ⟨xf, hxf, -, ⟨-, hs⟩ | ⟨-, hlt, hs⟩ | ⟨-, -, hs⟩⟩ := ctlStep_cases s t h
  · exact .of_mem_eq rfl
  · cases hj
    exact .of_mem_eq rfl
  · obtain ⟨mode, lanes, nc, -, -, -, rfl⟩ := spawn_cases xf s t hs
    exact .of_mem_eq rfl
  · obtain ⟨c, mode, -, -, -, rfl⟩ := serialStep_cases xf s t hs
    exact .of_store hwf rfl fun x hlow hhigh => ⟨xf, hxf, by omega, by omega⟩
  · cases hs
    exact .of_mem_eq rfl

/-! ### The agents -/

/-- The step of an enabled agent changes memory only in the output range of the transform or of the run in
progress. -/
theorem Inv.agentAct_changesOnly {a : Agent} (h : Inv s) (hen : enabled s a = true)
    (hx : Machine.agentAct a s = .next t) : ChangesOnly (fun x => transformOutput s x ∨ runOutput s x) s t := by
  have ofTransform (hc : ChangesOnly (transformOutput s) s t) :=
    hc.mono (Q := fun x => transformOutput s x ∨ runOutput s x) fun _ => .inl
  have ofRun (hrun : s.sp.state = .running) (hc : ChangesOnly (recordedOutput s) s t) :=
    hc.mono (Q := fun x => transformOutput s x ∨ runOutput s x) fun _ hr => .inr (runOutput_of_recorded hrun hr)
  cases a with
  | ctl => exact ofTransform (ctlStep_changesOnly h.memory_wf hx)
  | lane i =>
    obtain ⟨l, hl, hb, hn⟩ := lane_of_laneEnabled hen
    simp only [Machine.agentAct, hl] at hx
    exact ofTransform (h.laneStep_changesOnly hl hb hn hx)
  | seq =>
    obtain ⟨hrun, -⟩ := enabled_seq_iff.1 hen
    exact ofRun hrun (seqStep_changesOnly h.memory_wf hx)
  | rdr => exact .of_mem_eq (rdrStep_mem hx)
  | csm =>
    obtain ⟨hrun, -⟩ := enabled_csm_iff.1 hen
    exact ofRun hrun (csmStep_changesOnly h.memory_wf hx)

theorem Inv.agentStep_changesOnly {a : Agent} (h : Inv s) (hx : Machine.agentStep a s = .next t) :
    ChangesOnly (fun x => transformOutput s x ∨ runOutput s x) s t := by
  obtain ⟨hen, ha⟩ | ⟨-, rfl⟩ := agentStep_cases a s t hx
  · exact h.agentAct_changesOnly hen ha
  · exact .of_mem_eq rfl

theorem enabled_env_tick (s : State) (env : Env) (tick : Nat) (a : Agent) :
    enabled { s with env := env, tick := tick } a = enabled s a := by cases a <;> rfl

theorem Inv.freeStep_changesOnly (h : Inv s) (hx : Machine.freeStep s = .next t) :
    ChangesOnly (fun x => transformOutput s x ∨ runOutput s x) s t := by
  obtain ⟨-, rfl⟩ | ⟨a, hen, ha⟩ := freeStep_cases s t hx
  · exact .of_mem_eq rfl
  · exact (h.env_tick s.env (s.tick + 1)).agentAct_changesOnly ((enabled_env_tick _ _ _ a).trans hen) ha

/-! ### The commands -/

theorem startRun_mem_out (tag : BitVec 8) (out : Option (Nat × Nat)) (nbs : Nat) (s : State) :
    (startRun tag out nbs s).mem = s.mem ∧ (startRun tag out nbs s).sp.run.out = out := by
  rw [startRun_eq]
  split <;> exact ⟨rfl, rfl⟩

/-- Accepting a run writes memory only where the run is empty, and then in the range it was given (42 R200). -/
theorem acceptRun_changesOnly {tag : BitVec 8} {out : Option (Nat × Nat)} {nbs : Nat} (hwf : Memory.wf s.mem = true)
    (h : acceptRun tag out nbs s = .next t) :
    ChangesOnly (fun x => ∃ dst dsz, out = some (dst, dsz) ∧ dst ≤ x ∧ x < dst + dsz) s t := by
  obtain ⟨hmem, hout⟩ := startRun_mem_out tag out nbs s
  obtain ⟨-, hfin⟩ | ⟨-, rfl⟩ := acceptRun_cases tag out nbs s t h
  · refine ((finish_changesOnly (by rwa [hmem]) hfin).congr hmem rfl).mono fun x hx => ?_
    rwa [recordedOutput, hout] at hx
  · exact .of_mem_eq hmem

theorem rejectedAs_mem {op tag : BitVec 8} {codes : List Code} (h : rejectedAs op tag codes s t) : t.mem = s.mem := by
  obtain ⟨code, -, -, rfl⟩ := h
  rfl

theorem execBmXblk_changesOnly {tag : BitVec 8} (hwf : Memory.wf s.mem = true) (h : execBmXblk tag s = .next t) :
    ChangesOnly (commandOutput s · (.bmXblk tag)) s t := by
  obtain hr | ⟨a, o, c, mode, -, -, ho, -, -, rfl⟩ := execBmXblk_cases tag s t h
  · exact .of_mem_eq (rejectedAs_mem hr)
  · exact .of_store hwf rfl fun x hlow hhigh => ⟨o, ho, hlow, hhigh⟩

theorem execSpRun_changesOnly {tag : BitVec 8} (hwf : Memory.wf s.mem = true) (h : execSpRun tag s = .next t) :
    ChangesOnly (commandOutput s · (.spRun tag)) s t := by
  obtain hr | ⟨-, -, ⟨-, p, o, hp, ho, ha⟩ | ⟨-, -, -, -, ha⟩⟩ := execSpRun_cases tag s t h
  · exact .of_mem_eq (rejectedAs_mem hr)
  · refine (acceptRun_changesOnly hwf ha).mono fun x hx => ?_
    obtain ⟨dst, dsz, hout, hx⟩ := hx
    cases hout
    exact ⟨p, o, hp, ho, hx⟩
  · refine (acceptRun_changesOnly hwf ha).mono fun x hx => ?_
    obtain ⟨dst, dsz, hout, -⟩ := hx
    cases hout

/-- A command changes memory only in the output range it validates at issue; all but two change none. -/
theorem exec_changesOnly {i : Instr} (hwf : Memory.wf s.mem = true) (h : exec i s = .next t) :
    ChangesOnly (commandOutput s · i) s t := by
  cases i with
  | bmXblk tag => exact execBmXblk_changesOnly hwf h
  | spRun tag => exact execSpRun_changesOnly hwf h
  | nop tag =>
    cases h
    exact .of_mem_eq rfl
  | bmNew tag sel kind =>
    obtain hr | ⟨mode, c, -, -, -, -, rfl⟩ := execBmNew_cases tag sel kind s t h
    · exact .of_mem_eq (rejectedAs_mem hr)
    · exact .of_mem_eq rfl
  | bmInit tag f =>
    obtain hr | ⟨-, -, -, -, rfl⟩ := execBmInit_cases tag f s t h
    · exact .of_mem_eq (rejectedAs_mem hr)
    · exact .of_mem_eq rfl
  | bmXfrm tag =>
    obtain hr | ⟨a, o, -, -, -, -, -, ⟨-, rfl⟩ | ⟨-, rfl⟩⟩ := execBmXfrm_cases tag s t h
    · exact .of_mem_eq (rejectedAs_mem hr)
    all_goals exact .of_mem_eq rfl
  | bmSetpbs tag =>
    obtain hr | ⟨-, -, -, -, -, rfl⟩ := execBmSetpbs_cases tag s t h
    · exact .of_mem_eq (rejectedAs_mem hr)
    · exact .of_mem_eq rfl
  | bmSetpar tag f =>
    obtain hr | ⟨-, rfl⟩ := execBmSetpar_cases tag f s t h
    · exact .of_mem_eq (rejectedAs_mem hr)
    · exact .of_mem_eq rfl
  | bmRelease tag =>
    obtain hr | ⟨-, rfl⟩ := execBmRelease_cases tag s t h
    · exact .of_mem_eq (rejectedAs_mem hr)
    · exact .of_mem_eq rfl
  | spNew tag sel kind =>
    obtain hr | ⟨-, ⟨-, d, -, rfl⟩ | ⟨-, -, rfl⟩ | ⟨-, -, rfl⟩⟩ := execSpNew_cases tag sel kind s t h
    · exact .of_mem_eq (rejectedAs_mem hr)
    all_goals exact .of_mem_eq rfl
  | spKey tag =>
    obtain hr | ⟨m, -, -, -, -, rfl⟩ := execSpKey_cases tag s t h
    · exact .of_mem_eq (rejectedAs_mem hr)
    · exact .of_mem_eq rfl
  | spCancel tag =>
    obtain ⟨-, rfl⟩ | ⟨-, rfl⟩ := execSpCancel_cases tag s t h <;> exact .of_mem_eq rfl
  | spRelease tag =>
    obtain hr | ⟨-, rfl⟩ := execSpRelease_cases tag s t h
    · exact .of_mem_eq (rejectedAs_mem hr)
    · exact .of_mem_eq rfl

theorem issue_changesOnly {w : Word} (hwf : Memory.wf s.mem = true) (h : issue w s = .next t) :
    ChangesOnly (fun x => ∃ i, decode w = .ok i ∧ commandOutput s x i) s t := by
  obtain ⟨i, hi, he⟩ | ⟨op, tag, -, rfl⟩ | ⟨op, tag, -, rfl⟩ := issue_cases w s t h
  · exact (exec_changesOnly hwf he).mono fun _ hc => ⟨i, hi, hc⟩
  · exact .of_mem_eq rfl
  · exact .of_mem_eq rfl

/-! ### Every step of the machine -/

/-- `x` lies in the output range of the command the host is about to issue. -/
def issuedOutput (s : State) (x : Nat) : Prop :=
  ∃ w rest i, s.env.events = .issue w :: rest ∧ decode w = .ok i ∧ commandOutput s x i

/-- A step that is no store of the host changes memory only in one of the three output ranges. -/
theorem Inv.step_changesOnly (h : Inv s) (hx : step s = .next t)
    (hstore : ∀ a bs rest, s.env.events ≠ .memWrite a bs :: rest) :
    ChangesOnly (fun x => (transformOutput s x ∨ runOutput s x) ∨ issuedOutput s x) s t := by
  obtain ⟨e, rest, he, -, hh⟩ | ⟨-, hf⟩ := step_cases s t hx
  · have hI : Inv (withEvents rest s) := h.env_tick { s.env with events := rest } s.tick
    cases e with
    | issue w =>
      exact (issue_changesOnly hI.memory_wf hh).mono fun x hi => by
        obtain ⟨i, hd, hc⟩ := hi
        exact .inr ⟨w, rest, i, he, hd, hc⟩
    | agent a => exact (hI.agentStep_changesOnly hh).mono fun _ => .inl
    | memWrite a bs => exact absurd he (hstore a bs rest)
    | memRead a k =>
      obtain ⟨-, rfl⟩ := hostMemRead_cases a k _ t hh
      exact .of_mem_eq rfl
    | regWrite i v =>
      cases hh
      exact .of_mem_eq (by rw [regWrite_eq]; rfl)
    | regRead _ | awaitRsp | awaitEvt | setSource _ | setSink _ | reset =>
      cases hh
      exact .of_mem_eq rfl
  · exact (h.freeStep_changesOnly hf).mono fun _ => .inl

end Sys2Proof.Machine

namespace Sys2Proof.Proofs

open Sys2Proof.Machine

/-- Settles O40: the memory frame of every step, the issued command being one of the two that write. -/
theorem hardwareWritesOnlyOutputRanges : Obligations.HardwareWritesOnlyOutputRanges := by
  intro s t x h hx hstore hchanged
  obtain (hxf | hrun) | ⟨w, rest, i, he, hd, hc⟩ := h.step_changesOnly hx hstore x hchanged
  · exact .inl hxf
  · exact .inr (.inl hrun)
  · cases i with
    | bmXblk tag =>
      obtain ⟨o, ho, hin⟩ := hc
      exact .inr (.inr (.inl ⟨w, rest, tag, o, he, hd, ho, hin⟩))
    | spRun tag =>
      obtain ⟨p, o, hp, ho, hin⟩ := hc
      exact .inr (.inr (.inr ⟨w, rest, tag, p, o, he, hd, hp, ho, hin⟩))
    | _ => exact hc.elim

end Sys2Proof.Proofs
end

section
/-! SUPPORT. The two accesses of buffer memory (20_memory.md R62): what they answer in and outside `MEM`, byte by byte,
and the host's transactions that make them (R60). -/

namespace Sys2Proof.Machine

variable {s : State} {a n : Nat} {v : List Byte} {rest : List Event}

/-! ### Bytes read and bytes stored -/

theorem getElem?_bytesAt (m : Memory) (a : Nat) {n i : Nat} (hi : i < n) :
    (bytesAt m a n)[i]? = some (byteAt m (a + i)) := by
  induction n generalizing a i with
  | zero => omega
  | succ n ih =>
    cases i with
    | zero => rfl
    | succ i =>
      rw [bytesAt, List.getElem?_cons_succ, ih (a + 1) (by omega), Nat.add_right_comm, Nat.add_assoc]

/-- A store sets each byte of its range. -/
theorem byteAt_setBytes_inside {m : Memory} {i : Nat} (hwf : Memory.wf m = true) (hi : i < v.length) :
    v[i]? = some (byteAt (setBytes m a v) (a + i)) := by
  rw [byteAt_setBytes m a (a + i) v hwf, if_pos ⟨Nat.le_add_right a i, Nat.add_lt_add_left hi a⟩,
    Nat.add_sub_cancel_left, List.getD_eq_getElem _ _ hi, List.getElem?_eq_getElem hi]

/-- A store sets no byte outside its range. -/
theorem byteAt_setBytes_outside {m : Memory} {x : Nat} (hwf : Memory.wf m = true)
    (hx : x < a ∨ a + v.length ≤ x) : byteAt (setBytes m a v) x = byteAt m x :=
  byteAt_setBytes_of_not_mem m a x v hwf (by omega)

/-- What is stored is read back whole. -/
theorem bytesAt_setBytes {m : Memory} (hwf : Memory.wf m = true) : bytesAt (setBytes m a v) a v.length = v := by
  apply List.ext_getElem?
  intro i
  by_cases hi : i < v.length
  · rw [getElem?_bytesAt _ _ hi, byteAt_setBytes_inside hwf hi]
  · rw [List.getElem?_eq_none (by rw [bytesAt_length]; omega), List.getElem?_eq_none (by omega)]

/-! ### The two accesses in and outside `MEM` -/

theorem memRead_of_inside (h : a + n ≤ memSize s) : memRead s a n = some (bytesAt s.mem a n) :=
  (memRead_eq_some s a n _).2 ⟨h, rfl⟩

theorem memRead_of_outside (h : memSize s < a + n) : memRead s a n = none := if_neg (by omega)

theorem memWrite_of_inside (h : a + v.length ≤ memSize s) :
    memWrite s a v.length v = some { s with mem := setBytes s.mem a v } :=
  (memWrite_eq_some s _ a v.length v).2 ⟨h, by rw [List.take_length]⟩

theorem memWrite_of_outside (h : memSize s < a + n) : memWrite s a n v = none := if_neg (by omega)

/-! ### The host's accesses -/

theorem step_hostStore_inside (he : s.env.events = .memWrite a v :: rest) (h : a + v.length ≤ memSize s) :
    step s = .next { s with mem := setBytes s.mem a v, env := { s.env with events := rest } } := by
  rw [step_eq_happen_of_ready he rfl, happen, hostMemWrite, memWrite_of_inside (s := withEvents rest s) h]
  rfl

theorem step_hostStore_outside (he : s.env.events = .memWrite a v :: rest) (h : memSize s < a + v.length) :
    step s = .fault .noSuchAddress := by
  rw [step_eq_happen_of_ready he rfl, happen, hostMemWrite, memWrite_of_outside (s := withEvents rest s) h]

theorem step_hostRead_inside (he : s.env.events = .memRead a n :: rest) (h : a + n ≤ memSize s) :
    step s =
      .next
        { s with
          port := { s.port with memData := bytesAt s.mem a n }
          env := { s.env with events := rest } } := by
  rw [step_eq_happen_of_ready he rfl, happen, hostMemRead, memRead_of_inside (s := withEvents rest s) h]
  rfl

theorem step_hostRead_outside (he : s.env.events = .memRead a n :: rest) (h : memSize s < a + n) :
    step s = .fault .noSuchAddress := by
  rw [step_eq_happen_of_ready he rfl, happen, hostMemRead, memRead_of_outside (s := withEvents rest s) h]

end Sys2Proof.Machine

namespace Sys2Proof.Proofs

open Sys2Proof.Machine

/-- Settles O31: the accesses and the host's transactions in and outside `MEM`, and what a store does to each byte. -/
theorem memoryReadsWhatWasWritten : Obligations.MemoryReadsWhatWasWritten := by
  rintro s a _ v hwf rfl
  have readBytes : ∀ i, i < v.length → (bytesAt s.mem a v.length)[i]? = some (byteAt s.mem (a + i)) :=
    fun _ hi => getElem?_bytesAt s.mem a hi
  have inside : ∀ i, i < v.length → v[i]? = some (byteAt (setBytes s.mem a v) (a + i)) :=
    fun _ hi => byteAt_setBytes_inside hwf hi
  have outside : ∀ x, x < a ∨ a + v.length ≤ x → byteAt (setBytes s.mem a v) x = byteAt s.mem x :=
    fun _ hx => byteAt_setBytes_outside hwf hx
  have stored (hin : a + v.length ≤ memSize s) :
      ∃ t, memWrite s a v.length v = some t ∧ Memory.wf t.mem = true ∧ t = { s with mem := t.mem } ∧
        memRead t a v.length = some v ∧ (∀ i, i < v.length → v[i]? = some (byteAt t.mem (a + i))) ∧
        (∀ x, x < a ∨ a + v.length ≤ x → byteAt t.mem x = byteAt s.mem x) ∧ (v.length = 0 → t = s) := by
    refine ⟨_, memWrite_of_inside hin, setBytes_wf s.mem a v hwf, rfl, ?_, inside, outside, fun h0 => ?_⟩
    · rw [memRead_of_inside (s := { s with mem := setBytes s.mem a v }) hin, bytesAt_setBytes hwf]
    · rw [List.length_eq_zero_iff.1 h0]
      rfl
  refine ⟨fun hout => ⟨memRead_of_outside hout, memWrite_of_outside hout⟩, fun hin => ⟨?_, stored hin⟩,
    fun rest he => ⟨step_hostStore_outside he, fun hin => ?_⟩,
    fun rest he => ⟨step_hostRead_outside he, fun hin => ?_⟩⟩
  · exact ⟨_, memRead_of_inside hin, bytesAt_length _ _ _, readBytes⟩
  · exact ⟨_, step_hostStore_inside he hin, rfl, inside, outside⟩
  · exact ⟨_, bytesAt_length _ _ _, readBytes, step_hostRead_inside he hin⟩

end Sys2Proof.Proofs
end

section
/-! SUPPORT. The range checks (20_memory.md R63, R64): where each refuses and where it answers the address. -/

namespace Sys2Proof.Machine

variable {s : State} {base size off len : Word} {n : Nat}

theorem bufRange_eq_none (h : size.toNat < off.toNat + n ∨ memSize s < base.toNat + size.toNat) :
    bufRange s base size off n = none := by
  refine Option.eq_none_iff_forall_ne_some.2 fun a ha => ?_
  obtain ⟨hoff, hsize, -⟩ := (bufRange_eq_some s base size off n a).1 ha
  omega

theorem bufRange_of_inside (hoff : off.toNat + n ≤ size.toNat) (hsize : base.toNat + size.toNat ≤ memSize s) :
    bufRange s base size off n = some (base.toNat + off.toNat) :=
  (bufRange_eq_some s base size off n _).2 ⟨hoff, hsize, rfl⟩

theorem keyRange_eq_none (h : memSize s < base.toNat + len.toNat) : keyRange s base len = none := by
  refine Option.eq_none_iff_forall_ne_some.2 fun a ha => ?_
  obtain ⟨hlen, -⟩ := (keyRange_eq_some s base len a).1 ha
  omega

theorem keyRange_of_inside (h : base.toNat + len.toNat ≤ memSize s) : keyRange s base len = some base.toNat :=
  (keyRange_eq_some s base len _).2 ⟨h, rfl⟩

end Sys2Proof.Machine

namespace Sys2Proof.Proofs

open Sys2Proof.Machine

/-- Settles O30: each check where it refuses and where it answers, and the registers of the two ranges. -/
theorem rangeChecks : Obligations.RangeChecks := fun _ _ _ _ _ =>
  ⟨bufRange_eq_none, bufRange_of_inside, keyRange_eq_none, keyRange_of_inside, rfl, rfl⟩

end Sys2Proof.Proofs
end

section
/-! SUPPORT. Command words: a word is its six fields (30_encoding.md R93), a command is a word whose reserved fields
are zero (R101), and the masks of R95 and R101 are read field by field; and the fields of response and event words
(R98, R99). -/

namespace Sys2Proof

variable {r q : RawCommand} {w : Word} {i : Instr} {fmt : Format} {op : BitVec 8}

/-! ### A word and its fields -/

@[simp] theorem rawOfWord_wordOfRaw (r : RawCommand) : rawOfWord (wordOfRaw r) = r := by
  simp only [rawOfWord, Laws.Encoding.wordOfRaw_opcode, Laws.Encoding.wordOfRaw_tag, Laws.Encoding.wordOfRaw_sel,
    Laws.Encoding.wordOfRaw_reservedLow, Laws.Encoding.wordOfRaw_kind, Laws.Encoding.wordOfRaw_reservedHigh]

/-- The six fields leave out no bit of a word. -/
@[simp] theorem wordOfRaw_rawOfWord (w : Word) : wordOfRaw (rawOfWord w) = w := by
  apply BitVec.eq_of_getLsbD_eq
  intro i hi
  simp only [wordOfRaw, rawOfWord, BitVec.getLsbD_append, BitVec.getLsbD_extractLsb']
  grind

theorem wordOfRaw_inj : wordOfRaw r = wordOfRaw q ↔ r = q :=
  ⟨fun h => by rw [← rawOfWord_wordOfRaw r, h, rawOfWord_wordOfRaw], congrArg wordOfRaw⟩

/-! ### Reserved fields -/

theorem rawFields_of_reservedClear_n (hop : r.opcode = op) (h : reservedClear .n r = true) :
    rawFields op r.tag 0 0 = r := by
  obtain ⟨_, tag, sel, low, kind, high⟩ := r
  simp_all [reservedClear, rawFields]

theorem selOfFlag_of_clear : ∀ sel : BitVec 8, sel &&& 0xFE = 0 → selOfFlag (sel.getLsbD 0) = sel := by decide

theorem rawFields_of_reservedClear_f (hop : r.opcode = op) (h : reservedClear .f r = true) :
    rawFields op r.tag (selOfFlag (r.sel.getLsbD 0)) 0 = r := by
  subst hop
  obtain ⟨_, tag, sel, low, kind, high⟩ := r
  simp only [reservedClear, Bool.and_eq_true, beq_iff_eq] at h
  obtain ⟨⟨rfl, rfl⟩, hsel, rfl⟩ := h
  simp only [rawFields, selOfFlag_of_clear sel hsel]

theorem rawFields_of_reservedClear_k (hop : r.opcode = op) (h : reservedClear .k r = true) :
    rawFields op r.tag r.sel r.kind = r := by
  obtain ⟨_, tag, sel, low, kind, high⟩ := r
  simp_all [reservedClear, rawFields]

/-! ### Decoding -/

theorem wellFormed_of_formatOf (hf : formatOf r.opcode = some fmt) : r.wellFormed = reservedClear fmt r := by
  simp only [RawCommand.wellFormed, hf]

/-- The opcodes of R92, each with its format. -/
def assignedOpcodes : List (BitVec 8 × Format) :=
  [(0x00, .n), (0x01, .k), (0x02, .f), (0x03, .n), (0x04, .n), (0x05, .n), (0x06, .f), (0x07, .n), (0x10, .k),
    (0x11, .n), (0x12, .n), (0x13, .n), (0x14, .n)]

theorem mem_assignedOpcodes : ∀ op : BitVec 8, ∀ fmt ∈ formatOf op, (op, fmt) ∈ assignedOpcodes := by decide

/-- Every raw word that is well formed is the word of a command. -/
theorem exists_instr_of_wellFormed (h : r.wellFormed = true) : ∃ i, rawOfInstr i = r := by
  unfold RawCommand.wellFormed at h
  split at h
  · cases h
  rename_i fmt hf
  have hmem := mem_assignedOpcodes r.opcode fmt hf
  simp only [assignedOpcodes, List.mem_cons, Prod.mk.injEq, List.not_mem_nil, or_false] at hmem
  rcases hmem with ⟨hop, rfl⟩ | ⟨hop, rfl⟩ | ⟨hop, rfl⟩ | ⟨hop, rfl⟩ | ⟨hop, rfl⟩ | ⟨hop, rfl⟩ | ⟨hop, rfl⟩ |
    ⟨hop, rfl⟩ | ⟨hop, rfl⟩ | ⟨hop, rfl⟩ | ⟨hop, rfl⟩ | ⟨hop, rfl⟩ | ⟨hop, rfl⟩
  · exact ⟨.nop r.tag, rawFields_of_reservedClear_n hop h⟩
  · exact ⟨.bmNew r.tag r.sel r.kind, rawFields_of_reservedClear_k hop h⟩
  · exact ⟨.bmInit r.tag _, rawFields_of_reservedClear_f hop h⟩
  · exact ⟨.bmXblk r.tag, rawFields_of_reservedClear_n hop h⟩
  · exact ⟨.bmXfrm r.tag, rawFields_of_reservedClear_n hop h⟩
  · exact ⟨.bmSetpbs r.tag, rawFields_of_reservedClear_n hop h⟩
  · exact ⟨.bmSetpar r.tag _, rawFields_of_reservedClear_f hop h⟩
  · exact ⟨.bmRelease r.tag, rawFields_of_reservedClear_n hop h⟩
  · exact ⟨.spNew r.tag r.sel r.kind, rawFields_of_reservedClear_k hop h⟩
  · exact ⟨.spKey r.tag, rawFields_of_reservedClear_n hop h⟩
  · exact ⟨.spRun r.tag, rawFields_of_reservedClear_n hop h⟩
  · exact ⟨.spCancel r.tag, rawFields_of_reservedClear_n hop h⟩
  · exact ⟨.spRelease r.tag, rawFields_of_reservedClear_n hop h⟩

theorem rawOfInstr_wellFormed (i : Instr) : (rawOfInstr i).wellFormed = true := Laws.Encoding.wellFormed_true i

theorem getLsbD_selOfFlag (f : Bool) : (selOfFlag f).getLsbD 0 = f := by cases f <;> rfl

theorem instrOfRaw_rawOfInstr (i : Instr) : instrOfRaw (rawOfInstr i) = some i := by
  cases i with
  | bmInit tag f => exact congrArg (some <| Instr.bmInit tag ·) (getLsbD_selOfFlag f)
  | bmSetpar tag f => exact congrArg (some <| Instr.bmSetpar tag ·) (getLsbD_selOfFlag f)
  | _ => rfl

/-- Decoding recognises exactly the words whose fields are those of a command. -/
theorem decode_eq_ok_iff : decode w = .ok i ↔ rawOfWord w = rawOfInstr i := by
  constructor
  · intro h
    unfold decode at h
    simp only at h
    split at h
    · cases h
    rename_i fmt hf
    split at h
    · rename_i hclear
      obtain ⟨j, hj⟩ := exists_instr_of_wellFormed ((wellFormed_of_formatOf hf).trans hclear)
      rw [← hj, instrOfRaw_rawOfInstr] at h
      cases h
      exact hj.symm
    · cases h
  · intro h
    have hwf := rawOfInstr_wellFormed i
    unfold RawCommand.wellFormed at hwf
    split at hwf
    · cases hwf
    · rename_i fmt hf
      simp only [decode, h, hf, hwf, instrOfRaw_rawOfInstr, if_true]

theorem decode_encode (i : Instr) : decode (encode i) = .ok i :=
  decode_eq_ok_iff.2 (rawOfWord_wordOfRaw _)

theorem encode_of_decode (h : decode w = .ok i) : encode i = w := by
  rw [encode, ← decode_eq_ok_iff.1 h, wordOfRaw_rawOfWord]

theorem decode_unassigned (hf : formatOf (rawOfWord w).opcode = none) :
    decode w = .error (.unassignedOpcode (rawOfWord w).opcode (rawOfWord w).tag) := by
  simp only [decode, hf]

theorem decode_reserved (hf : formatOf (rawOfWord w).opcode = some fmt) (hr : reservedClear fmt (rawOfWord w) = false) :
    decode w = .error (.reservedBits (rawOfWord w).opcode (rawOfWord w).tag) := by
  simp [decode, hf, hr]

theorem decode_clear (hf : formatOf (rawOfWord w).opcode = some fmt) (hr : reservedClear fmt (rawOfWord w) = true) :
    ∃ i, decode w = .ok i := by
  obtain ⟨i, hi⟩ := exists_instr_of_wellFormed ((wellFormed_of_formatOf hf).trans hr)
  exact ⟨i, decode_eq_ok_iff.2 hi.symm⟩

/-! ### Masks -/

/-- The bits a format requires to be zero, as fields (R93). -/
def mustBeZeroFields : Format → RawCommand
  | .n => ⟨0, 0, 0xFF, 0xFF, 0xFFFF, 0xFFFF⟩
  | .f => ⟨0, 0, 0xFE, 0xFF, 0xFFFF, 0xFFFF⟩
  | .k => ⟨0, 0, 0, 0xFF, 0, 0xFFFF⟩

/-- The mask of a row of R95: the opcode and the bits its format requires to be zero. -/
def rowMaskFields (fmt : Format) : RawCommand := { mustBeZeroFields fmt with opcode := 0xFF }

/-- A mask works on each field by itself. -/
theorem rawOfWord_and (w m : Word) :
    rawOfWord (w &&& m) =
      { opcode := (rawOfWord w).opcode &&& (rawOfWord m).opcode
        tag := (rawOfWord w).tag &&& (rawOfWord m).tag
        sel := (rawOfWord w).sel &&& (rawOfWord m).sel
        reservedLow := (rawOfWord w).reservedLow &&& (rawOfWord m).reservedLow
        kind := (rawOfWord w).kind &&& (rawOfWord m).kind
        reservedHigh := (rawOfWord w).reservedHigh &&& (rawOfWord m).reservedHigh } := by
  simp only [rawOfWord, BitVec.extractLsb'_and]

theorem and_eq_wordOfRaw_iff (w m : Word) (q : RawCommand) : w &&& m = wordOfRaw q ↔ rawOfWord (w &&& m) = q := by
  rw [← wordOfRaw_inj, wordOfRaw_rawOfWord]

theorem and_ones8 (x : BitVec 8) : x &&& 255#8 = x := BitVec.and_allOnes

theorem and_ones16 (x : BitVec 16) : x &&& 65535#16 = x := BitVec.and_allOnes

theorem and_mustBeZero_iff (w : Word) (fmt : Format) :
    w &&& wordOfRaw (mustBeZeroFields fmt) = 0 ↔ reservedClear fmt (rawOfWord w) = true := by
  have zero : (0 : Word) = wordOfRaw ⟨0, 0, 0, 0, 0, 0⟩ := by decide
  rw [zero, and_eq_wordOfRaw_iff, rawOfWord_and, rawOfWord_wordOfRaw]
  cases fmt <;> simp [mustBeZeroFields, reservedClear, and_ones8, and_ones16] <;> tauto

/-- A word matches a row when it has the row's opcode and its format's reserved bits are zero. -/
theorem and_rowMask_iff (w : Word) (fmt : Format) (op : BitVec 8) :
    w &&& wordOfRaw (rowMaskFields fmt) = wordOfRaw (rawFields op 0 0 0) ↔
      (rawOfWord w).opcode = op ∧ reservedClear fmt (rawOfWord w) = true := by
  rw [and_eq_wordOfRaw_iff, rawOfWord_and, rawOfWord_wordOfRaw]
  cases fmt <;> simp [rowMaskFields, mustBeZeroFields, rawFields, reservedClear, and_ones8, and_ones16] <;> tauto

/-! ### The decoder summary -/

/-- The opcode of a row of R95. -/
def OpcodeRow.opcode (row : OpcodeRow) : BitVec 8 := row.value.extractLsb' 0 8

/-- Each row is made from its opcode and the format of it. -/
theorem row_of_format :
    ∀ row ∈ opcodeTable, ∃ fmt ∈ [Format.n, .f, .k], formatOf row.opcode = some fmt ∧
      row.mask = wordOfRaw (rowMaskFields fmt) ∧ row.value = wordOfRaw (rawFields row.opcode 0 0 0) := by
  decide

/-- The commands of a row's mnemonic are those of its opcode: each of the thirteen rows against each constructor. -/
theorem mnemonicOf_eq_iff :
    ∀ row ∈ opcodeTable, ∀ i : Instr, mnemonicOf i = row.mnemonic ↔ (rawOfInstr i).opcode = row.opcode := by
  simp only [opcodeTable, List.forall_mem_cons]
  refine ⟨?_, ?_, ?_, ?_, ?_, ?_, ?_, ?_, ?_, ?_, ?_, ?_, ?_, nofun⟩ <;> intro i <;>
    cases i <;> simp [mnemonicOf, rawOfInstr, rawFields, OpcodeRow.opcode]

/-- Every command has its row. -/
theorem exists_row (i : Instr) : ∃ row ∈ opcodeTable, mnemonicOf i = row.mnemonic := by
  cases i <;> simp [opcodeTable, mnemonicOf]

/-- A word matches a row when it decodes to a command of the row's mnemonic. -/
theorem row_hits_iff {row : OpcodeRow} (hrow : row ∈ opcodeTable) (w : Word) :
    w &&& row.mask = row.value ↔ ∃ i, decode w = .ok i ∧ mnemonicOf i = row.mnemonic := by
  obtain ⟨fmt, -, hf, hmask, hvalue⟩ := row_of_format row hrow
  rw [hmask, hvalue, and_rowMask_iff]
  constructor
  · rintro ⟨hop, hclear⟩
    obtain ⟨i, hi⟩ := decode_clear (hop ▸ hf) hclear
    exact ⟨i, hi, (mnemonicOf_eq_iff row hrow i).2 (decode_eq_ok_iff.1 hi ▸ hop)⟩
  · rintro ⟨i, hi, hm⟩
    have hraw := decode_eq_ok_iff.1 hi
    have hop : (rawOfWord w).opcode = row.opcode := hraw ▸ (mnemonicOf_eq_iff row hrow i).1 hm
    refine ⟨hop, ?_⟩
    rw [← wellFormed_of_formatOf (hop ▸ hf), hraw, rawOfInstr_wellFormed]

end Sys2Proof

namespace Sys2Proof.Machine

variable {s : State} {w : Word} {i : Instr} {fmt : Format} {rest : List Event}

/-! ### Issuing a word -/

theorem issue_of_decode (h : decode w = .ok i) : issue w s = exec i s := by
  simp only [issue, h]

theorem issue_unassigned (hf : formatOf (rawOfWord w).opcode = none) :
    issue w s = .next (respond (rawOfWord w).opcode (rawOfWord w).tag .unsupported s) := by
  simp only [issue, decode_unassigned hf, raise]

theorem issue_reserved (hf : formatOf (rawOfWord w).opcode = some fmt) (hr : reservedClear fmt (rawOfWord w) = false) :
    issue w s = .next (respond (rawOfWord w).opcode (rawOfWord w).tag .invalidParameter s) := by
  simp only [issue, decode_reserved hf hr, raise]

theorem step_of_issue (h : s.env.events = .issue w :: rest) (hd : decode w = .ok i) :
    step s = exec i (withEvents rest s) := by
  rw [step_eq_happen_of_ready h rfl, happen, issue_of_decode hd]

theorem commandWord_toNat (w : Word) : commandWord 64 w.toNat = w := by
  rw [commandWord, Nat.mod_eq_of_lt w.isLt, BitVec.ofNat_toNat, BitVec.setWidth_eq]

/-- The word put at the head of the events is the one the step takes off. -/
theorem step_withFetchWord_encode (s : State) (i : Instr) : step (s.withFetchWord 64 (encode i).toNat) = exec i s := by
  rw [State.withFetchWord, commandWord_toNat]
  exact step_of_issue rfl (decode_encode i)

/-! ### The fields of log words -/

theorem responseWord_opcode (op tag : BitVec 8) (code : Code) : (responseWord op tag code).extractLsb' 0 8 = op := by
  rw [responseWord, Laws.Encoding.extract_append_low _ _ _ _ (by decide), Laws.Encoding.extract_whole]

theorem responseWord_tag (op tag : BitVec 8) (code : Code) : (responseWord op tag code).extractLsb' 8 8 = tag := by
  rw [responseWord, Laws.Encoding.extract_append_high _ _ _ _ (by decide),
    Laws.Encoding.extract_append_low _ _ _ _ (by decide), Laws.Encoding.extract_whole]

theorem responseWord_code (op tag : BitVec 8) (code : Code) :
    (responseWord op tag code).extractLsb' 16 8 = BitVec.ofNat 8 (codeNumber code) := by
  rw [responseWord, Laws.Encoding.extract_append_high _ _ _ _ (by decide),
    Laws.Encoding.extract_append_high _ _ _ _ (by decide),
    Laws.Encoding.extract_append_low _ _ _ _ (by decide), Laws.Encoding.extract_whole]

theorem responseWord_high (op tag : BitVec 8) (code : Code) : (responseWord op tag code).extractLsb' 24 40 = 0 := by
  rw [responseWord, Laws.Encoding.extract_append_high _ _ _ _ (by decide),
    Laws.Encoding.extract_append_high _ _ _ _ (by decide),
    Laws.Encoding.extract_append_high _ _ _ _ (by decide), Laws.Encoding.extract_whole]
  rfl

theorem eventWord_pos (kind : BitVec 8) {pos : Nat} (h : pos < 2 ^ 56) :
    ((eventWord kind pos).extractLsb' 0 56).toNat = pos := by
  rw [eventWord, Laws.Encoding.extract_append_low _ _ _ _ (by decide), Laws.Encoding.extract_whole,
    BitVec.toNat_ofNat, Nat.mod_eq_of_lt h]

end Sys2Proof.Machine

namespace Sys2Proof.Proofs

open Sys2Proof.Machine

/-- Settles O1: a word is its fields, and the fields of a command are recognised. -/
theorem encodeThenDecode : Obligations.EncodeThenDecode := fun i _ => decode_encode i

/-- Settles O2: a word that decodes has the fields of its command, and no others. -/
theorem decodeThenEncode : Obligations.DecodeThenEncode := fun _ _ => encode_of_decode

/-- Settles O3: row by row, and every command has its row. -/
theorem decoderMatchesOpcodeTable : Obligations.DecoderMatchesOpcodeTable := by
  intro w
  refine ⟨fun row hrow => row_hits_iff hrow w, fun hnone => ?_⟩
  cases hd : decode w with
  | error e => exact ⟨e, rfl⟩
  | ok i =>
    obtain ⟨row, hrow, hm⟩ := exists_row i
    exact absurd ((row_hits_iff hrow w).2 ⟨i, hd, hm⟩) (hnone row hrow)

/-- Settles O5: the three outcomes of the decoder, by the format of the opcode and the reserved bits it names. -/
theorem illegalWordsAnswered : Obligations.IllegalWordsAnswered := by
  intro w s
  have clear_iff : ∀ fmt : Format,
      w &&& (match fmt with
        | .n => 0xFFFFFFFFFFFF0000
        | .f => 0xFFFFFFFFFFFE0000
        | .k => 0xFFFF0000FF000000) = 0 ↔ reservedClear fmt (rawOfWord w) = true := fun fmt => by
    rw [← and_mustBeZero_iff]
    cases fmt <;> rfl
  refine ⟨issue_unassigned, fun fmt hf hne => ?_, fun fmt hf hz => ?_⟩
  · exact issue_reserved hf (Bool.eq_false_iff.2 fun hc => hne ((clear_iff fmt).2 hc))
  · obtain ⟨i, hi⟩ := decode_clear hf ((clear_iff fmt).1 hz)
    exact ⟨i, hi, issue_of_decode hi⟩

/-- Settles O6: the fields of the two words, and the number of each code. -/
theorem logWordLayout : Obligations.LogWordLayout := by
  refine ⟨fun op tag code s => ⟨responseWord_opcode op tag code, responseWord_tag op tag code, ?_,
    responseWord_high op tag code, rfl⟩,
    fun kind pos s hpos => ⟨eventWord_pos kind hpos, eventWord_kind kind pos, rfl⟩⟩
  rw [responseWord_code]
  cases code <;> rfl

/-- Settles O7: an issued word is taken off the events and its command runs. -/
theorem stepRunsDecodedCommand : Obligations.StepRunsDecodedCommand :=
  ⟨fun _ _ _ _ => step_of_issue, step_withFetchWord_encode⟩

end Sys2Proof.Proofs
end

section
/-! SUPPORT. Under the invariant every issued word has a next state (30_encoding.md R91; 60_exceptions.md R254): no
command reaches one of the guards of log entry 12. -/

namespace Sys2Proof.Machine

variable {s : State} {tag sel : BitVec 8} {kind : BitVec 16}

/-- The step ends in no fault and no refusal. -/
def Continues (r : Result) : Prop := ∃ t, r = .next t

theorem continues_next (t : State) : Continues (.next t) := ⟨t, rfl⟩

theorem continues_raise (op tag : BitVec 8) (code : Code) (s : State) : Continues (raise op tag code s) := ⟨_, rfl⟩

/-- A check of a command's rule (R120): what is left to show stands after it. -/
theorem continues_check {p : Prop} [Decidable p] {op tag : BitVec 8} {code : Code} {r : Result}
    (h : ¬ p → Continues r) : Continues (if p then raise op tag code s else r) := by
  split
  · exact continues_raise _ _ _ _
  · exact h ‹_›

theorem exists_memWrite {a n : Nat} (v : List Byte) (h : a + n ≤ memSize s) : ∃ t, memWrite s a n v = some t :=
  ⟨_, (memWrite_eq_some s _ a n v).2 ⟨h, rfl⟩⟩

/-! ### The commands of the engine -/

theorem execBmNew_continues : Continues (execBmNew tag sel kind s) := by
  refine continues_check fun _ => ?_
  split
  · exact continues_raise _ _ _ _
  split
  · exact continues_raise _ _ _ _
  · exact continues_check fun _ => continues_next _

/-- The key and the IV lie in `MEM` once their ranges are accepted. -/
theorem execBmInit_continues {f : Bool} : Continues (execBmInit tag f s) := by
  refine continues_check fun _ => continues_check fun _ => continues_check fun _ => continues_check fun hiv => ?_
  split
  · rename_i ka ia hka hia
    obtain ⟨hkey, rfl⟩ := (keyRange_eq_some _ _ _ _).1 hka
    obtain ⟨hchain, rfl⟩ := (keyRange_eq_some _ _ _ _).1 hia
    rw [not_not.1 hiv] at hchain
    rw [memRead_of_inside hkey, memRead_of_inside hchain]
    exact continues_next _
  · exact continues_raise _ _ _ _

theorem Inv.engine_of_ready (h : Inv s) (hst : s.bm.state = .ready) : ∃ c mode, engine s = some (c, mode) := by
  obtain ⟨-, hkeyed⟩ := (keyStateOk_iff s).1 h.keyState
  obtain ⟨hmode, -⟩ := hkeyed (by simp [hst])
  obtain ⟨mode, hmode⟩ := Option.ne_none_iff_exists'.1 hmode
  obtain ⟨c, he⟩ := engine_of_mode h.selection hmode
  exact ⟨c, mode, he⟩

theorem Inv.execBmXblk_continues (h : Inv s) : Continues (execBmXblk tag s) := by
  refine continues_check fun hst => ?_
  obtain ⟨c, mode, he⟩ := h.engine_of_ready (not_not.1 hst)
  split
  · rename_i a o ha ho
    refine continues_check fun _ => ?_
    obtain ⟨t, ht⟩ := exists_memWrite
      (blockStep c mode s.bm.enc s.bm.key s.bm.chain (bytesAt s.mem a s.bm.blockSize)).1
      (bufRange_inside _ _ _ _ _ _ ho)
    rw [he, memRead_of_inside (bufRange_inside _ _ _ _ _ _ ha)]
    simp only [ht]
    exact continues_next _
  · exact continues_raise _ _ _ _

theorem execBmXfrm_continues : Continues (execBmXfrm tag s) := by
  refine continues_check fun _ => continues_check fun _ => ?_
  split
  · refine continues_check fun _ => ?_
    split
    · exact continues_next _
    · exact continues_next _
  · exact continues_raise _ _ _ _

theorem execBmSetpbs_continues : Continues (execBmSetpbs tag s) :=
  continues_check fun _ => continues_check fun _ => continues_check fun _ => continues_next _

theorem execBmSetpar_continues {f : Bool} : Continues (execBmSetpar tag f s) :=
  continues_check fun _ => continues_next _

theorem execBmRelease_continues : Continues (execBmRelease tag s) := continues_check fun _ => continues_next _

/-! ### The commands of the stream unit -/

theorem execSpNew_continues : Continues (execSpNew tag sel kind s) := by
  refine continues_check fun _ => ?_
  split
  · split
    · exact continues_raise _ _ _ _
    · exact continues_next _
  · split
    · exact continues_raise _ _ _ _
    · exact continues_next _
  · exact continues_check fun _ => continues_next _
  · exact continues_raise _ _ _ _

/-- A key length is accepted only for a MAC of the registry. -/
theorem mac_of_macKeyLenOk {n : Nat} (h : macKeyLenOk kind n = true) : ∃ m, mac? kind = some m := by
  unfold macKeyLenOk at h
  split at h
  · exact ⟨_, ‹_›⟩
  · cases h

theorem execSpKey_continues : Continues (execSpKey tag s) := by
  refine continues_check fun _ => continues_check fun _ => continues_check fun _ => continues_check fun hlen => ?_
  obtain ⟨m, hm⟩ := mac_of_macKeyLenOk (Bool.not_eq_false _ ▸ hlen)
  split
  · exact continues_raise _ _ _ _
  · rename_i ka hka
    obtain ⟨hkey, rfl⟩ := (keyRange_eq_some _ _ _ _).1 hka
    rw [memRead_of_inside hkey, hm]
    exact continues_next _

theorem exists_restoreTarget (h : targetOk s = true) : ∃ t, restoreTarget s = some t := by
  refine Option.isSome_iff_exists.1 ?_
  obtain ⟨hc, ⟨d, hd⟩, -⟩ | ⟨hc, hlen⟩ | ⟨hc, -⟩ := (targetOk_iff s).1 h
  · simp [restoreTarget, hc, hd]
  · obtain ⟨m, hm⟩ := mac_of_macKeyLenOk hlen
    simp [restoreTarget, hc, hm]
  · simp [restoreTarget, hc]

theorem exists_streamPrim (h : targetOk s = true) (hc : s.sp.cls = .digest ∨ s.sp.cls = .mac) :
    ∃ p, streamPrim? s.sp.cls s.sp.kind = some p := by
  obtain ⟨hcls, ⟨d, hd⟩, -⟩ | ⟨hcls, hlen⟩ | ⟨hcls, -⟩ := (targetOk_iff s).1 h
  · exact ⟨_, hcls ▸ streamPrim?_digest _ d hd⟩
  · obtain ⟨m, hm⟩ := mac_of_macKeyLenOk hlen
    exact ⟨_, hcls ▸ streamPrim?_mac _ m hm⟩
  · rcases hc with hc | hc <;> rw [hcls] at hc <;> cases hc

namespace RunHeld

theorem exists_storeCode (h : RunHeld s) : ∃ t, Machine.storeCode s = .ok t := by
  obtain ⟨hc, p, st, dst, hp, hst, hout, hin⟩ | ⟨hc, -⟩ := (runTargetOk_iff s).1 h.runTarget
  · obtain ⟨t, ht⟩ := exists_memWrite (p.fin st) hin
    refine ⟨t, ?_⟩
    rcases hc with hc | hc <;> rw [hc] at hp <;> simp only [Machine.storeCode, hc, hp, hst, hout, ht]
  · exact ⟨s, by simp only [Machine.storeCode, hc]⟩

theorem finish_continues (h : RunHeld s) : Continues (Machine.finish s) := by
  obtain ⟨u, hu⟩ := h.exists_storeCode
  obtain ⟨v, hv⟩ := exists_restoreTarget (h.storeCode hu).target
  simp only [Machine.finish, hu, hv]
  exact continues_next _

theorem acceptRun_continues {out : Option (Nat × Nat)} {nbs : Nat} (h : RunHeld (startRun tag out nbs s)) :
    Continues (Machine.acceptRun tag out nbs s) := by
  unfold Machine.acceptRun
  split
  · exact h.finish_continues
  · exact continues_next _

end RunHeld

theorem Inv.execSpRun_continues (h : Inv s) : Continues (execSpRun tag s) := by
  refine continues_check fun hrun => continues_check fun hfree => continues_check fun hready =>
    continues_check fun hbuf => continues_check fun _ => continues_check fun hwhole => ?_
  have harmed : s.sp.state = .armed := by cases hs : s.sp.state <;> simp_all
  obtain ⟨-, -, hstream, -⟩ := (streamOk_iff s).1 h.stream
  obtain ⟨htarget, -⟩ := hstream harmed
  have code : s.sp.cls = .digest ∨ s.sp.cls = .mac → ∃ p, streamPrim? s.sp.cls s.sp.kind = some p ∧
      ∀ o, outputRange s p.digestSize = some o →
        Continues (acceptRun tag (some (o, p.digestSize)) p.blockSize s) := fun hc => by
    obtain ⟨p, hp⟩ := exists_streamPrim htarget hc
    exact ⟨p, hp, fun o ho => (h.startRun_code harmed hc hp ho).acceptRun_continues⟩
  cases hc : s.sp.cls with
  | digest | mac =>
    obtain ⟨p, hp, haccept⟩ := code (by simp [hc])
    rw [hc] at hp
    simp only [hp]
    split
    · exact continues_raise _ _ _ _
    · exact haccept _ ‹_›
  | cipher =>
    simp only [hc, true_and, not_and, not_not] at hready hbuf hwhole
    exact (h.startRun_cipher harmed hc hready hbuf hwhole).acceptRun_continues
  | none => simp [targetOk, hc] at htarget

theorem execSpCancel_continues : Continues (execSpCancel tag s) := by
  unfold execSpCancel
  split
  · exact continues_next _
  · exact continues_next _

theorem execSpRelease_continues : Continues (execSpRelease tag s) := continues_check fun _ => continues_next _

/-! ### Every command, every word -/

theorem Inv.exec_continues (h : Inv s) (i : Instr) : Continues (Machine.exec i s) := by
  cases i with
  | nop tag => exact continues_next _
  | bmNew tag sel kind => exact execBmNew_continues
  | bmInit tag f => exact execBmInit_continues
  | bmXblk tag => exact h.execBmXblk_continues
  | bmXfrm tag => exact execBmXfrm_continues
  | bmSetpbs tag => exact execBmSetpbs_continues
  | bmSetpar tag f => exact execBmSetpar_continues
  | bmRelease tag => exact execBmRelease_continues
  | spNew tag sel kind => exact execSpNew_continues
  | spKey tag => exact execSpKey_continues
  | spRun tag => exact h.execSpRun_continues
  | spCancel tag => exact execSpCancel_continues
  | spRelease tag => exact execSpRelease_continues

end Sys2Proof.Machine
end

section
/-! SUPPORT. Responses and commands in flight (30_encoding.md R91): what each operation and each command does to the
two together, and the obligations about them. -/

namespace Sys2Proof.Machine

variable {s t u : State} {tag : BitVec 8}

/-! ### Commands in flight -/

theorem inFlight_congr (hxf : t.bm.xf.isSome = s.bm.xf.isSome) (hrun : t.sp.state = .running ↔ s.sp.state = .running) :
    inFlight t = inFlight s := by
  simp only [inFlight, hxf, BEq.beq, hrun]

/-- The commands issued and not lost to a `Reset`, each counted where it is: answered, or still in flight. -/
def commandsTaken (s : State) : Nat := s.rsp.length + inFlight s

/-- No response, no command accepted and none ended; the run in progress, if any, is the same. -/
structure CommandsKept (s t : State) : Prop where
  rsp : t.rsp = s.rsp
  transform : t.bm.xf.isSome = s.bm.xf.isSome
  unit : t.sp.state = s.sp.state
  run : t.sp.run = s.sp.run

/-- The run has ended with one response of the given code (42 R210, R212). -/
structure RunEnded (code : Code) (s t : State) : Prop where
  rsp : t.rsp = s.rsp ++ [responseWord 0x12 s.sp.run.tag code]
  transform : t.bm.xf.isSome = s.bm.xf.isSome
  unit : t.sp.state = .armed

namespace CommandsKept

theorem trans (h : CommandsKept s t) (k : CommandsKept t u) : CommandsKept s u :=
  ⟨k.rsp.trans h.rsp, k.transform.trans h.transform, k.unit.trans h.unit, k.run.trans h.run⟩

theorem commandsTaken_eq (h : CommandsKept s t) : commandsTaken t = commandsTaken s := by
  rw [commandsTaken, commandsTaken, h.rsp, inFlight_congr h.transform (by rw [h.unit])]

theorem runEnded {code : Code} (h : CommandsKept s t) (k : RunEnded code t u) : RunEnded code s u :=
  ⟨by rw [k.rsp, h.rsp, h.run], k.transform.trans h.transform, k.unit⟩

theorem restoreTarget (h : restoreTarget s = some t) : CommandsKept s t := by
  obtain ⟨-, d, -, rfl⟩ | ⟨-, m, -, rfl⟩ | ⟨-, rfl⟩ | ⟨-, rfl⟩ := restoreTarget_cases s t h <;>
    exact ⟨rfl, rfl, rfl, rfl⟩

theorem storeCode (h : storeCode s = .ok t) : CommandsKept s t := by
  obtain ⟨-, p, st, dst, dsz, -, -, -, -, rfl⟩ | ⟨-, rfl⟩ := storeCode_cases s t h <;> exact ⟨rfl, rfl, rfl, rfl⟩

theorem feed_fed {bs : List Byte} (h : feed bs s = .fed t) : CommandsKept s t := by
  obtain ⟨u, hu, rfl⟩ := Machine.feed_fed bs s t h
  obtain ⟨-, p, st, -, -, rfl⟩ | ⟨-, c, mode, -, -, rfl⟩ | ⟨-, rfl⟩ := feedTarget_fed bs s u hu <;>
    exact ⟨rfl, rfl, rfl, rfl⟩

end CommandsKept

namespace RunEnded

/-- The run that ends was in flight, and its response takes its place. -/
theorem commandsTaken_eq {code : Code} (h : RunEnded code s t) (hrun : s.sp.state = .running) :
    commandsTaken t = commandsTaken s := by
  have before : inFlight s = bit s.bm.xf.isSome + 1 := by simp [inFlight, hrun, bit]
  have after : inFlight t = bit s.bm.xf.isSome := by simp [inFlight, h.transform, h.unit, bit]
  rw [commandsTaken, commandsTaken, before, after, h.rsp, List.length_append, List.length_singleton]
  omega

theorem abortRun {code : Code} (h : abortRun code s = .next t) : RunEnded code s t := by
  obtain ⟨u, hu, rfl⟩ := abortRun_answers h
  obtain ⟨hrsp, hxf, -, hrun⟩ := CommandsKept.restoreTarget hu
  exact ⟨by rw [respond_rsp, hrun]; exact congrArg (· ++ _) hrsp, hxf, rfl⟩

theorem finish (h : finish s = .next t) : RunEnded .ok s t := by
  obtain ⟨u, v, hu, hv, rfl⟩ := finish_answers h
  have kept := (CommandsKept.storeCode hu).trans (.restoreTarget hv)
  exact ⟨by rw [respond_rsp, kept.run]; exact congrArg (· ++ _) kept.rsp, kept.transform, rfl⟩

theorem feed_ended {bs : List Byte} (h : feed bs s = .ended (.next t)) : RunEnded .io s t := by
  obtain ⟨-, c, mode, -, -, ha⟩ := feedTarget_ended bs s t (Machine.feed_ended bs s _ h)
  obtain ⟨hrsp, hxf, hst⟩ := abortRun ha
  exact ⟨hrsp, hxf, hst⟩

end RunEnded

/-! ### The agents -/

theorem seqStep_commandsTaken (hrun : s.sp.state = .running) (h : seqStep s = .next t) :
    commandsTaken t = commandsTaken s := by
  have moved : CommandsKept s (sourceMoved s) := ⟨rfl, rfl, rfl, rfl⟩
  have advanced : CommandsKept s (advanceReader (requestSize s) (sourceMoved s)) := ⟨rfl, rfl, rfl, rfl⟩
  obtain ⟨-, ha⟩ | ⟨-, -, ha⟩ | ⟨bs, -, -, -, ha⟩ | ⟨bs, -, -, -, hfeed⟩ := seqStep_cases s t h
  · exact (RunEnded.abortRun ha).commandsTaken_eq hrun
  · exact (moved.runEnded (.abortRun ha)).commandsTaken_eq hrun
  · exact (moved.runEnded (.abortRun ha)).commandsTaken_eq hrun
  · obtain he | ⟨u, hu, ⟨-, hfin⟩ | ⟨-, rfl⟩⟩ := hfeed
    · exact (advanced.runEnded (.feed_ended he)).commandsTaken_eq hrun
    · exact ((advanced.trans (.feed_fed hu)).runEnded (.finish hfin)).commandsTaken_eq hrun
    · exact (advanced.trans (.feed_fed hu)).commandsTaken_eq

theorem rdrStep_commandsTaken (h : rdrStep s = .next t) : commandsTaken t = commandsTaken s := by
  obtain ⟨-, rfl⟩ | ⟨-, -, rfl⟩ | ⟨bs, -, -, -, rfl⟩ | ⟨bs, -, -, -, rfl⟩ := rdrStep_cases s t h <;> rfl

theorem csmStep_commandsTaken (hrun : s.sp.state = .running) (h : csmStep s = .next t) :
    commandsTaken t = commandsTaken s := by
  obtain ⟨code, -, ha⟩ | ⟨-, -, rfl⟩ | ⟨bs, rest, -, -, hfeed⟩ := csmStep_cases s t h
  · exact (RunEnded.abortRun ha).commandsTaken_eq hrun
  · rfl
  · have popped : CommandsKept s { s with sp := { s.sp with queue := rest } } := ⟨rfl, rfl, rfl, rfl⟩
    obtain he | ⟨u, hu, ⟨-, -, hfin⟩ | ⟨-, rfl⟩⟩ := hfeed
    · exact (popped.runEnded (.feed_ended he)).commandsTaken_eq hrun
    · exact ((popped.trans (.feed_fed hu)).runEnded (.finish hfin)).commandsTaken_eq hrun
    · exact (popped.trans (.feed_fed hu)).commandsTaken_eq

/-- Only `Complete` ends a transform, with its response. -/
theorem ctlStep_commandsTaken (h : ctlStep s = .next t) : commandsTaken t = commandsTaken s := by
  obtain ⟨-, rfl⟩ | ⟨xf, nc, hxf, -, hj⟩ | ⟨xf, hxf, -, ⟨-, hs⟩ | ⟨-, -, hs⟩ | ⟨-, -, hs⟩⟩ := ctlStep_cases s t h
  · rfl
  · cases hj
    exact CommandsKept.commandsTaken_eq ⟨rfl, by simp [hxf], rfl, rfl⟩
  · obtain ⟨mode, lanes, nc, -, -, -, rfl⟩ := spawn_cases xf s t hs
    exact CommandsKept.commandsTaken_eq ⟨rfl, by simp [hxf], rfl, rfl⟩
  · obtain ⟨c, mode, -, -, -, rfl⟩ := serialStep_cases xf s t hs
    exact CommandsKept.commandsTaken_eq ⟨rfl, by simp [hxf], rfl, rfl⟩
  · rw [complete_eq, Host.Outcome.next.injEq] at hs
    subst hs
    have before : inFlight s = 1 + bit (s.sp.state == .running) := by simp [inFlight, hxf, bit]
    have after : inFlight (respond 0x04 xf.tag .ok (transformEnded s)) = bit (s.sp.state == .running) := by
      simp [inFlight, transformEnded, bit]
    rw [commandsTaken, commandsTaken, before, after, respond_rsp, List.length_append, List.length_singleton]
    exact Nat.add_assoc _ _ _

theorem agentAct_commandsTaken {a : Agent} (hen : enabled s a = true) (h : agentAct a s = .next t) :
    commandsTaken t = commandsTaken s := by
  cases a with
  | ctl => exact ctlStep_commandsTaken h
  | lane i =>
    simp only [agentAct] at h
    split at h
    · obtain ⟨c, mode, -, -, -, rfl⟩ := laneStep_cases i _ s t h
      rfl
    · cases h
      rfl
  | seq => exact seqStep_commandsTaken (enabled_seq_iff.1 hen).1 h
  | rdr => exact rdrStep_commandsTaken h
  | csm => exact csmStep_commandsTaken (enabled_csm_iff.1 hen).1 h

theorem agentStep_commandsTaken {a : Agent} (h : agentStep a s = .next t) : commandsTaken t = commandsTaken s := by
  obtain ⟨hen, ha⟩ | ⟨-, rfl⟩ := agentStep_cases a s t h
  · exact agentAct_commandsTaken hen ha
  · rfl

theorem freeStep_commandsTaken (h : freeStep s = .next t) : commandsTaken t = commandsTaken s := by
  obtain ⟨-, rfl⟩ | ⟨a, hen, ha⟩ := freeStep_cases s t h
  · rfl
  · have same : enabled { s with tick := s.tick + 1 } a = enabled s a := by cases a <;> rfl
    exact agentAct_commandsTaken (s := { s with tick := s.tick + 1 }) (same.trans hen) ha

/-! ### The commands -/

/-- The answer to a rejected command: a code that is not `Ok`, and nothing else. -/
def Rejected (op tag : BitVec 8) (s t : State) : Prop := ∃ code, code ≠ .ok ∧ t = respond op tag code s

/-- The answer to an executed command: `Ok`, with as many commands in flight as before. -/
def Executed (op tag : BitVec 8) (s t : State) : Prop :=
  t.rsp = s.rsp ++ [responseWord op tag .ok] ∧ inFlight t = inFlight s

/-- An accepted command: no response yet, and one command more in flight. -/
def Accepted (s t : State) : Prop := t.rsp = s.rsp ∧ inFlight t = inFlight s + 1

/-- The three outcomes of a command at issue (R91); only a `BM_XFRM` and an `SP_RUN` are accepted. -/
def IssueOutcome (i : Instr) (s t : State) : Prop :=
  Rejected (rawOfInstr i).opcode (rawOfInstr i).tag s t ∨ Executed (rawOfInstr i).opcode (rawOfInstr i).tag s t ∨
    ((i = .bmXfrm (rawOfInstr i).tag ∨ i = .spRun (rawOfInstr i).tag) ∧ Accepted s t)

theorem rejected_of_rejectedAs {op : BitVec 8} {codes : List Code} (h : rejectedAs op tag codes s t) :
    Rejected op tag s t := by
  obtain ⟨code, -, hne, rfl⟩ := h
  exact ⟨code, hne, rfl⟩

/-- A command that leaves alone the transform record and whether the stream unit runs. -/
theorem executed_respond {op : BitVec 8} (hrsp : u.rsp = s.rsp) (hxf : u.bm.xf = s.bm.xf)
    (hrun : u.sp.state = .running ↔ s.sp.state = .running) : Executed op tag s (respond op tag .ok u) :=
  ⟨by rw [respond_rsp, hrsp], inFlight_congr (congrArg _ hxf) hrun⟩

theorem startRun_rsp (tag : BitVec 8) (out : Option (Nat × Nat)) (nbs : Nat) (s : State) :
    (startRun tag out nbs s).rsp = s.rsp := by
  rw [startRun_eq]; split <;> rfl

theorem startRun_xf (tag : BitVec 8) (out : Option (Nat × Nat)) (nbs : Nat) (s : State) :
    (startRun tag out nbs s).bm.xf = s.bm.xf := by
  rw [startRun_eq]; split <;> rfl

theorem startRun_state (tag : BitVec 8) (out : Option (Nat × Nat)) (nbs : Nat) (s : State) :
    (startRun tag out nbs s).sp.state = .running := by
  rw [startRun_eq]; split <;> rfl

theorem startRun_tag (tag : BitVec 8) (out : Option (Nat × Nat)) (nbs : Nat) (s : State) :
    (startRun tag out nbs s).sp.run.tag = tag := by
  rw [startRun_eq]; split <;> rfl

/-- A run of no bytes ends at once; any other is in flight. -/
theorem acceptRun_outcome {out : Option (Nat × Nat)} {nbs : Nat} (harmed : s.sp.state = .armed)
    (h : acceptRun tag out nbs s = .next t) : Executed 0x12 tag s t ∨ Accepted s t := by
  obtain ⟨-, hfin⟩ | ⟨-, rfl⟩ := acceptRun_cases tag out nbs s t h
  · obtain ⟨hrsp, hxf, hst⟩ := RunEnded.finish hfin
    rw [startRun_rsp, startRun_tag] at hrsp
    rw [startRun_xf] at hxf
    exact .inl ⟨hrsp, inFlight_congr hxf (by simp [hst, harmed])⟩
  · refine .inr ⟨startRun_rsp _ _ _ _, ?_⟩
    simp [inFlight, startRun_xf, startRun_state, harmed, bit]

theorem exec_outcome (h : Inv s) {i : Instr} (hx : exec i s = .next t) : IssueOutcome i s t := by
  cases i with
  | nop tag => cases hx; exact .inr (.inl (executed_respond rfl rfl .rfl))
  | bmNew tag sel kind =>
    obtain hr | ⟨mode, c, -, -, -, -, rfl⟩ := execBmNew_cases tag sel kind s t hx
    · exact .inl (rejected_of_rejectedAs hr)
    · exact .inr (.inl (executed_respond rfl rfl .rfl))
  | bmInit tag f =>
    obtain hr | ⟨-, -, -, -, rfl⟩ := execBmInit_cases tag f s t hx
    · exact .inl (rejected_of_rejectedAs hr)
    · exact .inr (.inl (executed_respond rfl rfl .rfl))
  | bmXblk tag =>
    obtain hr | ⟨a, o, c, mode, -, -, -, -, -, rfl⟩ := execBmXblk_cases tag s t hx
    · exact .inl (rejected_of_rejectedAs hr)
    · exact .inr (.inl (executed_respond rfl rfl .rfl))
  | bmXfrm tag =>
    obtain hr | ⟨a, o, hready, -, -, -, -, ⟨-, rfl⟩ | ⟨-, rfl⟩⟩ := execBmXfrm_cases tag s t hx
    · exact .inl (rejected_of_rejectedAs hr)
    · exact .inr (.inl (executed_respond rfl rfl .rfl))
    · obtain ⟨hxf, -⟩ := h.engine_free (by simp [hready])
      refine .inr (.inr ⟨.inl rfl, rfl, ?_⟩)
      simp [inFlight, hxf, bit, Nat.add_comm]
  | bmSetpbs tag =>
    obtain hr | ⟨-, -, -, -, -, rfl⟩ := execBmSetpbs_cases tag s t hx
    · exact .inl (rejected_of_rejectedAs hr)
    · exact .inr (.inl (executed_respond rfl rfl .rfl))
  | bmSetpar tag f =>
    obtain hr | ⟨-, rfl⟩ := execBmSetpar_cases tag f s t hx
    · exact .inl (rejected_of_rejectedAs hr)
    · exact .inr (.inl (executed_respond rfl rfl .rfl))
  | bmRelease tag =>
    obtain hr | ⟨-, rfl⟩ := execBmRelease_cases tag s t hx
    · exact .inl (rejected_of_rejectedAs hr)
    · exact .inr (.inl (executed_respond rfl rfl .rfl))
  | spNew tag sel kind =>
    obtain hr | ⟨hfree, ⟨-, d, -, rfl⟩ | ⟨-, -, rfl⟩ | ⟨-, -, rfl⟩⟩ := execSpNew_cases tag sel kind s t hx
    · exact .inl (rejected_of_rejectedAs hr)
    all_goals exact .inr (.inl (executed_respond rfl rfl (iff_of_false nofun hfree)))
  | spKey tag =>
    obtain hr | ⟨m, hst, -, -, -, rfl⟩ := execSpKey_cases tag s t hx
    · exact .inl (rejected_of_rejectedAs hr)
    · have hfree : s.sp.state ≠ .running := by rcases hst with hst | hst <;> simp [hst]
      exact .inr (.inl (executed_respond rfl rfl (iff_of_false nofun hfree)))
  | spRun tag =>
    obtain hr | ⟨harmed, -, ⟨-, p, o, -, -, ha⟩ | ⟨-, -, -, -, ha⟩⟩ := execSpRun_cases tag s t hx
    · exact .inl (rejected_of_rejectedAs hr)
    all_goals exact .inr ((acceptRun_outcome harmed ha).imp_right fun hacc => ⟨.inr rfl, hacc⟩)
  | spCancel tag =>
    obtain ⟨-, rfl⟩ | ⟨-, rfl⟩ := execSpCancel_cases tag s t hx <;>
      exact .inr (.inl (executed_respond rfl rfl .rfl))
  | spRelease tag =>
    obtain hr | ⟨hfree, rfl⟩ := execSpRelease_cases tag s t hx
    · exact .inl (rejected_of_rejectedAs hr)
    · exact .inr (.inl (executed_respond rfl rfl (iff_of_false nofun hfree)))

/-- The outcomes of an issued word, told by its own opcode and tag. -/
theorem Inv.issue_outcome (h : Inv s) (w : Word) :
    ∃ t, Machine.issue w s = .next t ∧
      (Rejected (rawOfWord w).opcode (rawOfWord w).tag s t ∨ Executed (rawOfWord w).opcode (rawOfWord w).tag s t ∨
        ((decode w = .ok (.bmXfrm (rawOfWord w).tag) ∨ decode w = .ok (.spRun (rawOfWord w).tag)) ∧ Accepted s t)) := by
  cases hf : formatOf (rawOfWord w).opcode with
  | none => exact ⟨_, issue_unassigned hf, .inl ⟨.unsupported, nofun, rfl⟩⟩
  | some fmt =>
    cases hclear : reservedClear fmt (rawOfWord w) with
    | false => exact ⟨_, issue_reserved hf hclear, .inl ⟨.invalidParameter, nofun, rfl⟩⟩
    | true =>
      obtain ⟨i, hi⟩ := decode_clear hf hclear
      obtain ⟨t, ht⟩ := h.exec_continues i
      refine ⟨t, (issue_of_decode hi).trans ht, ?_⟩
      have out := exec_outcome h ht
      rw [IssueOutcome, ← decode_eq_ok_iff.1 hi] at out
      rw [hi, Except.ok.injEq, Except.ok.injEq]
      exact out

/-- An issued word is one command more, answered or in flight. -/
theorem issue_commandsTaken {w : Word} (h : Inv s) (hx : issue w s = .next t) :
    commandsTaken t = commandsTaken s + 1 := by
  obtain ⟨t', ht', hout⟩ := h.issue_outcome w
  cases hx.symm.trans ht'
  obtain ⟨code, -, rfl⟩ | ⟨hrsp, hfl⟩ | ⟨-, hrsp, hfl⟩ := hout
  · have same : inFlight (respond (rawOfWord w).opcode (rawOfWord w).tag code s) = inFlight s := rfl
    simp only [commandsTaken, same, respond_rsp, List.length_append, List.length_singleton]
    omega
  · simp only [commandsTaken, hrsp, hfl, List.length_append, List.length_singleton]
    omega
  · simp only [commandsTaken, hrsp, hfl]
    omega

/-! ### Every step of the machine -/

theorem happen_commandsTaken {e : Event} (hissue : ∀ w, e ≠ .issue w) (hreset : e ≠ .reset)
    (hx : happen e s = .next t) : commandsTaken t = commandsTaken s := by
  cases e with
  | issue w => exact absurd rfl (hissue w)
  | regWrite i v =>
    cases hx
    rw [regWrite_eq]
    rfl
  | memWrite a bs =>
    obtain ⟨-, rfl⟩ := hostMemWrite_cases a bs s t hx
    rfl
  | memRead a n =>
    obtain ⟨-, rfl⟩ := hostMemRead_cases a n s t hx
    rfl
  | agent a => exact agentStep_commandsTaken hx
  | regRead | awaitRsp | awaitEvt | setSource | setSink => cases hx; rfl
  | reset => exact absurd rfl hreset

end Sys2Proof.Machine

namespace Sys2Proof.Proofs

open Sys2Proof.Machine

/-- Settles O26: no command stops under the invariant, and each has one of the outcomes of R91. -/
theorem everyCommandIsAnswered : Obligations.EveryCommandIsAnswered := fun w _ h => h.issue_outcome w

/-- Settles O37: an issued word is one command more, and no other event but `Reset`, nor an agent, changes how many
commands are answered or in flight. -/
theorem oneResponsePerCommand : Obligations.OneResponsePerCommand := by
  intro s t h hx
  refine ⟨fun w rest he => ?_, fun hissue hreset => ?_⟩
  · rw [step_eq_happen_of_ready he rfl] at hx
    exact issue_commandsTaken (s := withEvents rest s) (h.env_tick _ _) hx
  · obtain ⟨e, rest, he, -, hh⟩ | ⟨-, hf⟩ := step_cases s t hx
    · exact happen_commandsTaken (s := withEvents rest s) (fun w hw => hissue w rest (hw ▸ he))
        (fun hr => hreset rest (hr ▸ he)) hh
    · exact freeStep_commandsTaken hf

end Sys2Proof.Proofs
end

section
/-! SUPPORT. The mode functions (40_block_mode_commands.md R126, R129, R130, R136) and the CTR counter (R126, 41 R163):
how a stream is cut into blocks, what each block does to the chain, and the obligations about them. -/

-- One declaration after another, so that the joined text needs no more worker threads than the check has memory for.
set_option Elab.async false

namespace Sys2Proof.Machine

variable {c : BlockCipher} {mode : CipherMode} {enc : Bool} {key chain : List Byte}

/-! ### The counter -/

theorem addCounter_add (chain : List Byte) (a b : Nat) :
    addCounter (addCounter chain a) b = addCounter chain (a + b) := by
  rw [addCounter, be_addCounter, Nat.mod_add_mod, Nat.add_assoc, ← addCounter]

/-- Moves that agree modulo `2^128` are the same; none moves a 16-byte counter to itself. -/
theorem addCounter_multiple (h : chain.length = 16) (k : Nat) : addCounter chain (2 ^ 128 * k) = chain := by
  have value := be_lt chain
  rw [h, show (256 : Nat) ^ 16 = 2 ^ 128 by norm_num] at value
  rw [addCounter, Nat.add_mul_mod_self_left, Nat.mod_eq_of_lt value]
  exact h ▸ toBe_be chain

/-! ### Cutting a stream into blocks -/

theorem serialBlocks_add (n m : Nat) (chain data : List Byte) :
    serialBlocks c mode enc key (n + m) chain data =
      ((serialBlocks c mode enc key n chain data).1 ++
          (serialBlocks c mode enc key m (serialBlocks c mode enc key n chain data).2
            (data.drop (n * c.blockSize))).1,
        (serialBlocks c mode enc key m (serialBlocks c mode enc key n chain data).2
          (data.drop (n * c.blockSize))).2) := by
  induction n generalizing chain data with
  | zero => simp [serialBlocks]
  | succ n ih =>
    rw [Nat.add_right_comm, Nat.succ_mul, Nat.add_comm _ c.blockSize, ← List.drop_drop]
    simp only [serialBlocks, ih, List.append_assoc]

/-- The first blocks of a stream do not depend on what follows them. -/
theorem serialBlocks_append (n : Nat) (chain a b : List Byte) (h : n * c.blockSize ≤ a.length) :
    serialBlocks c mode enc key n chain (a ++ b) = serialBlocks c mode enc key n chain a := by
  induction n generalizing chain a with
  | zero => rfl
  | succ n ih =>
    rw [Nat.succ_mul] at h
    simp only [serialBlocks]
    rw [List.take_append_of_le_length (by omega), List.drop_append_of_le_length (by omega),
      ih _ _ (by rw [List.length_drop]; omega)]

theorem serialXform_nil : serialXform c mode enc key chain [] = ([], chain) := by
  simp [serialXform, serialBlocks]

/-- A stream of whole blocks has no tail. -/
theorem serialXform_whole {data : List Byte} {n : Nat} (h : data.length = n * c.blockSize) :
    serialXform c mode enc key chain data = serialBlocks c mode enc key n chain data := by
  have hn : data.length / c.blockSize = n := by rw [h, Nat.mul_div_cancel _ c.blockSize_pos]
  simp only [serialXform, hn]
  rw [if_pos (by rw [List.length_drop, h, Nat.sub_self])]

theorem serialXform_block {x : List Byte} (h : x.length = c.blockSize) :
    serialXform c mode enc key chain x = blockStep c mode enc key chain x := by
  rw [serialXform_whole (n := 1) (by omega)]
  simp [serialBlocks, ← h]

theorem serialXform_tail {x : List Byte} (hne : x ≠ []) (h : x.length < c.blockSize) :
    serialXform c mode enc key chain x = tailStep c key chain x := by
  simp [serialXform, Nat.div_eq_of_lt h, serialBlocks, hne]

/-- A stream cut at a multiple of the block size, the chain threaded through. -/
theorem serialXform_append {a : List Byte} (b : List Byte) (h : a.length % c.blockSize = 0) :
    serialXform c mode enc key chain (a ++ b) =
      ((serialXform c mode enc key chain a).1 ++
          (serialXform c mode enc key (serialXform c mode enc key chain a).2 b).1,
        (serialXform c mode enc key (serialXform c mode enc key chain a).2 b).2) := by
  obtain ⟨n, hn⟩ : ∃ n, a.length = n * c.blockSize := ⟨_, (Nat.div_mul_cancel (Nat.dvd_of_mod_eq_zero h)).symm⟩
  have count : (a ++ b).length / c.blockSize = n + b.length / c.blockSize := by
    rw [List.length_append, hn, Nat.add_comm, Nat.add_mul_div_right _ _ c.blockSize_pos, Nat.add_comm]
  have rest (k : Nat) : (a ++ b).drop (n * c.blockSize + k) = b.drop k := by
    rw [← hn, List.drop_append, List.drop_of_length_le (Nat.le_add_right _ _), List.nil_append,
      Nat.add_sub_cancel_left]
  have first := serialBlocks_append (mode := mode) (enc := enc) (key := key) n chain a b (le_of_eq hn.symm)
  have second := rest 0
  rw [Nat.add_zero, List.drop_zero] at second
  rw [serialXform_whole hn, serialXform, count, serialBlocks_add, first, second, Nat.add_mul, rest]
  simp only [serialXform]
  split <;> simp

/-- Data in blocks: nothing, a tail shorter than a block, or a block and the rest. -/
theorem block_induction {B : Nat} {P : List Byte → Prop} (hB : 1 ≤ B) (nil : P [])
    (tail : ∀ x, x ≠ [] → x.length < B → P x) (block : ∀ x rest, x.length = B → P rest → P (x ++ rest)) :
    ∀ data, P data := by
  intro data
  induction hlen : data.length using Nat.strong_induction_on generalizing data with
  | _ n ih =>
    subst hlen
    by_cases hlt : data.length < B
    · by_cases hne : data = []
      · exact hne ▸ nil
      · exact tail data hne hlt
    · have hrest : (data.drop B).length < data.length := by rw [List.length_drop]; omega
      have := block (data.take B) (data.drop B) (by rw [List.length_take]; omega) (ih _ hrest _ rfl)
      rwa [List.take_append_drop] at this

theorem mod_length_append {B : Nat} {x rest : List Byte} (hx : x.length = B) :
    (x ++ rest).length % B = rest.length % B := by
  rw [List.length_append, hx, Nat.add_mod_left]

/-! ### A cipher with a key it accepts and a chain of one block -/

/-- What the mode functions ask of their arguments: an accepted key, one block of chain, and 16-byte blocks in CTR. -/
structure Keyed (c : BlockCipher) (mode : CipherMode) (key chain : List Byte) : Prop where
  key_ok : c.keyLenOk key.length = true
  chain_length : chain.length = c.blockSize
  ctr_block : mode = .ctr → c.blockSize = 16

namespace Keyed

theorem E_length (h : Keyed c mode key chain) : (c.E key chain).length = c.blockSize :=
  c.E_length key chain h.key_ok h.chain_length

theorem block_length (h : Keyed c mode key chain) {x : List Byte} (hx : x.length = c.blockSize) :
    (blockStep c mode enc key chain x).1.length = c.blockSize :=
  (blockStep_length c mode enc key chain x h.key_ok h.chain_length hx h.ctr_block).1

/-- One block leaves a chain the next block can start from. -/
theorem next (h : Keyed c mode key chain) {x : List Byte} (enc : Bool) (hx : x.length = c.blockSize) :
    Keyed c mode key (blockStep c mode enc key chain x).2 :=
  { h with chain_length := (blockStep_length c mode enc key chain x h.key_ok h.chain_length hx h.ctr_block).2 }

/-- The transform of a stream is as long as the stream. -/
theorem output_length (h : Keyed c mode key chain) (data : List Byte) :
    (serialXform c mode enc key chain data).1.length = data.length := by
  induction data using block_induction c.blockSize_pos generalizing chain with
  | nil => rw [serialXform_nil]
  | tail x hne hlt =>
    rw [serialXform_tail hne hlt, tailStep, xorBytes_length, List.length_take, h.E_length]
    omega
  | block x rest hx ih =>
    rw [serialXform_append rest (by rw [hx, Nat.mod_self]), serialXform_block hx, List.length_append,
      List.length_append, h.block_length hx, ih (h.next enc hx), hx]

/-- Decrypting an encrypted block gives the block back and moves the chain alike (R126, 00 R9(a)). -/
theorem blockStep_inverse (h : Keyed c mode key chain) {x : List Byte} (hx : x.length = c.blockSize) :
    blockStep c mode false key chain (blockStep c mode true key chain x).1 =
      (x, (blockStep c mode true key chain x).2) := by
  have stream : xorBytes (xorBytes x (c.E key chain)) (c.E key chain) = x :=
    xorBytes_cancel _ _ (by rw [hx, h.E_length])
  cases mode with
  | ctr => simp only [blockStep, stream]
  | cbc =>
    have hlen : (xorBytes x chain).length = c.blockSize := by rw [xorBytes_length, hx, h.chain_length, Nat.min_self]
    simp only [blockStep, c.D_E key _ h.key_ok hlen]
    rw [xorBytes_cancel _ _ (by rw [hx, h.chain_length])]
  | cfb =>
    simp only [blockStep]
    rw [xorBytes_comm (c.E key chain) x, xorBytes_comm (c.E key chain), stream]

/-- The same for a CTR tail (R130). -/
theorem tailStep_inverse (h : Keyed c mode key chain) {x : List Byte} (hx : x.length < c.blockSize) :
    (tailStep c key chain x).1.length = x.length ∧
      tailStep c key chain (tailStep c key chain x).1 = (x, (tailStep c key chain x).2) := by
  have hlen : (tailStep c key chain x).1.length = x.length := by
    rw [tailStep, xorBytes_length, List.length_take, h.E_length]
    omega
  have back : xorBytes (tailStep c key chain x).1 ((c.E key chain).take x.length) = x :=
    xorBytes_cancel _ _ (by rw [List.length_take, h.E_length]; omega)
  refine ⟨hlen, ?_⟩
  rw [tailStep, hlen, back]
  rfl

/-- A stream of an admitted length: any in CTR, whole blocks in CBC and CFB. -/
theorem serialXform_inverse (h : Keyed c mode key chain) (data : List Byte)
    (hw : mode ≠ .ctr → data.length % c.blockSize = 0) :
    serialXform c mode false key chain (serialXform c mode true key chain data).1 =
      (data, (serialXform c mode true key chain data).2) := by
  induction data using block_induction c.blockSize_pos generalizing chain with
  | nil => simp only [serialXform_nil]
  | tail x hne hlt =>
    obtain ⟨hlen, back⟩ := h.tailStep_inverse hlt
    rw [serialXform_tail hne hlt, serialXform_tail _ (by omega), back]
    exact fun h0 => hne (List.length_eq_zero_iff.1 (by rw [← hlen, h0, List.length_nil]))
  | block x rest hx ih =>
    have whole : x.length % c.blockSize = 0 := by rw [hx, Nat.mod_self]
    have hy := h.block_length (enc := true) hx
    rw [mod_length_append hx] at hw
    have hrest := ih (h.next true hx) hw
    rw [serialXform_append rest whole, serialXform_block hx]
    simp only
    rw [serialXform_append _ (by rw [hy, Nat.mod_self]), serialXform_block hy, h.blockStep_inverse hx]
    simp only [hrest]

end Keyed

/-! ### The chain a stream leaves -/

/-- In CTR the chain moves by the number of blocks, a partial one counted. -/
theorem serialXform_ctr_chain (hB : c.blockSize = 16) (hc : chain.length = 16) (data : List Byte) :
    (serialXform c .ctr enc key chain data).2 = addCounter chain ((data.length + 15) / 16) := by
  induction data using block_induction c.blockSize_pos generalizing chain with
  | nil =>
    rw [serialXform_nil]
    exact (addCounter_multiple hc 0).symm
  | tail x hne hlt =>
    have pos := List.length_pos_iff.2 hne
    rw [serialXform_tail hne hlt, tailStep, show (x.length + 15) / 16 = 1 by omega]
  | block x rest hx ih =>
    rw [serialXform_append rest (by rw [hx, Nat.mod_self]), serialXform_block hx]
    simp only [blockStep]
    rw [ih (addCounter_length _ _), addCounter_add, List.length_append, hx, hB,
      show (16 + rest.length + 15) / 16 = 1 + (rest.length + 15) / 16 by omega]

/-- The ciphertext of a stream: what encryption puts out, what decryption takes in. -/
def ciphertext (c : BlockCipher) (mode : CipherMode) (enc : Bool) (key chain data : List Byte) : List Byte :=
  if enc then (serialXform c mode enc key chain data).1 else data

/-- CBC and CFB feed the ciphertext block back. -/
theorem blockStep_feedback (hm : mode ≠ .ctr) {x : List Byte} (hx : x.length = c.blockSize) :
    (blockStep c mode enc key chain x).2 = ciphertext c mode enc key chain x := by
  rw [ciphertext, serialXform_block hx]
  cases mode with
  | ctr => exact absurd rfl hm
  | cbc | cfb => cases enc <;> rfl

theorem ciphertext_block_append {x : List Byte} (rest : List Byte) (hx : x.length = c.blockSize) :
    ciphertext c mode enc key chain (x ++ rest) =
      ciphertext c mode enc key chain x ++
        ciphertext c mode enc key (blockStep c mode enc key chain x).2 rest := by
  unfold ciphertext
  split
  · rw [serialXform_append rest (by rw [hx, Nat.mod_self]), serialXform_block hx]
  · rfl

theorem Keyed.ciphertext_length (h : Keyed c mode key chain) (data : List Byte) :
    (ciphertext c mode enc key chain data).length = data.length := by
  unfold ciphertext
  split
  · exact h.output_length data
  · rfl

/-- In CBC and CFB whole blocks leave the last ciphertext block as the chain. -/
theorem Keyed.serialXform_feedback_chain (h : Keyed c mode key chain) (hm : mode ≠ .ctr) {data : List Byte}
    (hw : data.length % c.blockSize = 0) (hne : data ≠ []) :
    (serialXform c mode enc key chain data).2 =
      (ciphertext c mode enc key chain data).drop (data.length - c.blockSize) := by
  induction data using block_induction c.blockSize_pos generalizing chain with
  | nil => exact absurd rfl hne
  | tail x _ hlt =>
    rw [Nat.mod_eq_of_lt hlt] at hw
    exact absurd (List.length_eq_zero_iff.1 hw) hne
  | block x rest hx ih =>
    rw [mod_length_append hx] at hw
    have hy := (h.ciphertext_length (enc := enc) x).trans hx
    rw [ciphertext_block_append rest hx, serialXform_append rest (by rw [hx, Nat.mod_self]), serialXform_block hx]
    by_cases hrest : rest = []
    · subst hrest
      rw [serialXform_nil, blockStep_feedback hm hx, List.append_nil, hx, Nat.sub_self, List.drop_zero]
      simp [ciphertext, serialXform_nil]
    · have long : c.blockSize ≤ rest.length :=
        Nat.le_of_dvd (List.length_pos_iff.2 hrest) (Nat.dvd_of_mod_eq_zero hw)
      rw [ih (h.next enc hx) hw hrest, List.length_append, hx,
        show c.blockSize + rest.length - c.blockSize = c.blockSize + (rest.length - c.blockSize) by omega,
        ← hy, List.drop_length_add_append, hy]

end Sys2Proof.Machine

namespace Sys2Proof.Proofs

open Sys2Proof.Machine

/-- Settles O43: by blocks, each decrypted back by the law of R9(a) with the chain moved alike. -/
theorem roundTrip : Obligations.RoundTrip := by
  intro c mode key chain data hk hc hctr hw
  have keyed : Keyed c mode key chain := ⟨hk, hc, hctr⟩
  refine ⟨keyed.serialXform_inverse data hw, ?_, fun hm hne => ?_⟩
  · rintro rfl
    exact serialXform_ctr_chain (hctr rfl) (hc.trans (hctr rfl)) data
  · have last := keyed.serialXform_feedback_chain (enc := true) hm (hw hm) hne
    rwa [← keyed.output_length (enc := true) data] at last

/-- Settles O44: the three shortest streams, and the cut at a block boundary. -/
theorem serialTransformSplits : Obligations.SerialTransformSplits := by
  intro c mode enc key chain
  refine ⟨serialXform_nil, fun x hx => ?_, fun x hne hlt => serialXform_tail hne hlt,
    fun a b ha => serialXform_append b ha⟩
  rw [serialXform_block hx]
  cases mode <;> cases enc <;> rfl

/-- Settles O45: the counter as a number below `2^128`, and the two directions of the big-endian writing. -/
theorem counterArithmetic : Obligations.CounterArithmetic := by
  intro chain a b h
  refine ⟨addCounter_length _ _, be_addCounter chain a, addCounter_add chain a b, addCounter_multiple h 0,
    addCounter_multiple h 1, by decide, be_cons, fun n v hv => ⟨toBe_length n v, ?_⟩⟩
  rw [be_toBe, Nat.mod_eq_of_lt hv]

end Sys2Proof.Proofs
end

section
/-! SUPPORT. The commands of the engine at issue (40_block_mode_commands.md R121, R122, R124, R128, R131, R140, R142,
R144) and when each agent is enabled: the obligations that state them branch by branch. -/

-- One declaration after another, so that the joined text needs no more worker threads than the check has memory for.
set_option Elab.async false

namespace Sys2Proof.Machine

variable {s : State} {tag sel : BitVec 8} {kind : BitVec 16} {mode : CipherMode}

/-! ### Selectors, words and sizes -/

theorem modeOfSel_eq_some_iff :
    modeOfSel sel = some mode ↔ (sel = 1 ∧ mode = .ctr) ∨ (sel = 2 ∧ mode = .cbc) ∨ (sel = 3 ∧ mode = .cfb) := by
  unfold modeOfSel
  split
  · rename_i h; subst h; simp [eq_comm]
  split
  · rename_i h; subst h; simp [eq_comm]
  split
  · rename_i h; subst h; simp [eq_comm]
  · rename_i h1 h2 h3
    exact iff_of_false nofun fun h => h.elim (h1 ·.1) fun h => h.elim (h2 ·.1) (h3 ·.1)

theorem modeOfSel_eq_none (h1 : sel ≠ 1) (h2 : sel ≠ 2) (h3 : sel ≠ 3) : modeOfSel sel = none :=
  (if_neg h1).trans ((if_neg h2).trans (if_neg h3))

/-- A selector is the code of the mode it names (R96). -/
theorem modeCode_of_sel (h : modeOfSel sel = some mode) : modeCode (some mode) = sel.toNat := by
  obtain ⟨rfl, rfl⟩ | ⟨rfl, rfl⟩ | ⟨rfl, rfl⟩ := modeOfSel_eq_some_iff.1 h <;> rfl

theorem bmModeWord_of_sel (h : modeOfSel sel = some mode) (kind : BitVec 16) :
    bmModeWord (some mode) kind false = BitVec.ofNat 64 (sel.toNat + kind.toNat * 65536) := by
  simp [bmModeWord, modeCode_of_sel h, bit]

/-- The word of a flag register. -/
theorem ofNat_bit (f : Bool) : BitVec.ofNat 64 (bit f) = if f then 1 else 0 := by cases f <;> rfl

theorem ofNat_bit_parDefault (p : Params) :
    BitVec.ofNat 64 (bit p.parDefault) = if 2 ≤ p.threads then 1 else 0 := by
  rw [ofNat_bit, Params.parDefault]
  by_cases h : 2 ≤ p.threads <;> simp [h]

theorem withEncryptBit_eq (w : Word) (f : Bool) :
    withEncryptBit w f = if f then w &&& 0xFFFFFFFEFFFFFFFF ||| 0x100000000 else w &&& 0xFFFFFFFEFFFFFFFF := by
  cases f
  · exact BitVec.or_zero
  · rfl

/-- `PAR_MAX` is the least multiple of `PAR_MIN` that is at least 100 MiB. -/
theorem parMax_least {p m : Nat} (hp : 1 ≤ p) (hm : m % p = 0) (hle : 104857600 ≤ m) : parMax p ≤ m := by
  obtain ⟨k, rfl⟩ := Nat.dvd_of_mod_eq_zero hm
  have count : (104857600 + p - 1) / p ≤ k := by
    rw [← Nat.lt_succ_iff, Nat.div_lt_iff_lt_mul hp, Nat.succ_mul, Nat.mul_comm k]
    omega
  exact Nat.mul_le_mul_left p count

/-! ### Ranges -/

theorem overlapOk_eq_false {a o n : Nat} (h : ¬ (a = o ∨ a + n ≤ o ∨ o + n ≤ a)) : overlapOk a o n = false := by
  rw [← Bool.not_eq_true, overlapOk_iff]
  exact h

theorem overlapOk_ne_false {a o n : Nat} (h : a = o ∨ a + n ≤ o ∨ o + n ≤ a) : ¬ overlapOk a o n = false := by
  rw [Bool.not_eq_false, overlapOk_iff]
  exact h

/-- A command that needs both ranges is refused where one of them is. -/
theorem ranges_refused {n : Nat} {r : Result} {f : Nat → Nat → Result}
    (h : inputRange s n = none ∨ outputRange s n = none) :
    (match inputRange s n, outputRange s n with
      | some a, some o => f a o
      | _, _ => r) = r := by
  obtain h | h := h
  · rw [h]
  · rw [h]; cases inputRange s n <;> rfl

/-- A store of a string of the length asked for. -/
theorem memWrite_block {a n : Nat} {v : List Byte} (hv : v.length = n) (h : a + n ≤ memSize s) :
    memWrite s a n v = some { s with mem := setBytes s.mem a v } := by
  subst hv
  exact memWrite_of_inside h

/-- Which path a transform takes: the flag, and a mode and direction that have a parallel one (R131). -/
theorem parallelOk_iff {bm : Bme} (hm : bm.mode = some mode) :
    parallelOk bm = true ↔ bm.par = true ∧ (mode = .ctr ∨ bm.enc = false) := by
  cases mode <;> simp [parallelOk, hm]

/-- A `BM_XBLK` on two legal ranges: one block read, transformed and stored whole (R128). -/
theorem execBmXblk_completes {c : BlockCipher} {a o : Nat} (h : Inv s) (hst : s.bm.state = .ready)
    (he : engine s = some (c, mode)) (ha : inputRange s s.bm.blockSize = some a)
    (ho : outputRange s s.bm.blockSize = some o)
    (hov : a = o ∨ a + s.bm.blockSize ≤ o ∨ o + s.bm.blockSize ≤ a) :
    let r := blockStep c mode s.bm.enc s.bm.key s.bm.chain (bytesAt s.mem a s.bm.blockSize)
    r.1.length = s.bm.blockSize ∧
      execBmXblk tag s =
        .next (respond 0x03 tag .ok { s with mem := setBytes s.mem o r.1, bm := { s.bm with chain := r.2 } }) := by
  intro r
  have eng := engineReady_of_engine h.selection h.keyState (by simp [hst]) he
  have hlen : r.1.length = s.bm.blockSize :=
    (blockStep_length c mode s.bm.enc s.bm.key s.bm.chain _ eng.key_ok eng.chain_length
      (by rw [bytesAt_length, eng.blockSize_eq]) eng.ctr_block).1.trans eng.blockSize_eq.symm
  refine ⟨hlen, (if_neg (not_not.2 hst)).trans ?_⟩
  simp only [ha, ho]
  rw [if_neg (overlapOk_ne_false hov), he, memRead_of_inside (bufRange_inside _ _ _ _ _ _ ha)]
  simp only [memWrite_block hlen (bufRange_inside _ _ _ _ _ _ ho), r]

end Sys2Proof.Machine

namespace Sys2Proof.Proofs

open Sys2Proof.Machine

/-- Settles O9: the flags each agent's condition reads. -/
theorem agentsEnabledWhen : Obligations.AgentsEnabledWhen := by
  intro s
  refine ⟨?_, fun t => ?_, enabled_seq_iff, enabled_rdr_iff, enabled_csm_iff⟩
  · simp only [enabled, ctlEnabled]
    cases hst : s.bm.state with
    | init | ready => simp
    | transforming =>
      cases hxf : s.bm.xf with
      | none => simp
      | some xf =>
        cases hp : xf.phase with
        | idle => simp [hp]; omega
        | par nextChain => simp [hp]
  · refine ⟨lane_of_laneEnabled, ?_⟩
    rintro ⟨l, hl, hb, hn⟩
    simp [enabled, laneEnabled, hl, hb, hn]

/-- Settles O33: the default is `PAR_MIN` times `floor(65536 / B)`, and `PAR_MAX` rounds 100 MiB up. -/
theorem defaultSizesAreLegal : Obligations.DefaultSizesAreLegal := by
  intro B T hB hB' hT hT'
  obtain ⟨pos, -⟩ := parMin_pos_le hB hB' hT hT'
  obtain ⟨least, -, whole⟩ := pbsDefault_legal hB hB' hT hT'
  obtain ⟨large, -⟩ := parMax_bounds pos
  have most : pbsDefault B T ≤ T * 65536 := by
    rw [pbsDefault, Nat.mul_assoc]
    exact Nat.mul_le_mul_left T (Nat.mul_div_le 65536 B)
  exact ⟨rfl, least, most, by omega, by omega, whole, large, Nat.mul_mod_right _ _, fun m => parMax_least pos⟩

/-- Settles O11: the checks of R121 in order, then selection and sizing. -/
theorem bmNewSelectsAndSizes : Obligations.BmNewSelectsAndSizes := by
  intro tag sel kind s
  refine ⟨fun hst => if_pos hst, fun hst hrefused => ?_, fun c mode hst hc hsel => ?_⟩
  · refine (if_neg hst).trans ?_
    cases hm : modeOfSel sel with
    | none => rfl
    | some mode =>
      obtain ⟨h1, h2, h3⟩ | hnone | ⟨c, hc, hone, hB⟩ := hrefused
      · rw [modeOfSel_eq_none h1 h2 h3] at hm
        cases hm
      · simp only [hnone, raise_eq]
      · subst hone
        cases hm
        simp [hc, hB]
  · have hm : modeOfSel sel = some mode :=
      modeOfSel_eq_some_iff.2 (hsel.imp (fun h => ⟨h.1, h.2.1⟩) id)
    have hctr : ¬ (mode = .ctr ∧ c.blockSize ≠ 16) := fun h => by
      obtain ⟨-, -, hB⟩ | ⟨-, hmode⟩ | ⟨-, hmode⟩ := hsel
      · exact h.2 hB
      · cases hmode.symm.trans h.1
      · cases hmode.symm.trans h.1
    refine (if_neg hst).trans ?_
    simp only [hm, hc]
    refine (if_neg hctr).trans ?_
    simp only [respond, setBmState, sizeEngine, selectEngine, wipeEngine_eq, bmModeWord_of_sel hm,
      ofNat_bit_parDefault, parMin, parMax, pbsDefault]
    rfl

/-- Settles O12: the checks of R124 in order, then both ranges read and the engine keyed. -/
theorem bmInitKeysEngine : Obligations.BmInitKeysEngine := by
  intro tag f s
  refine ⟨fun hst => if_pos hst, fun hst hm => (if_neg hst).trans (if_pos hm), fun hst hm hrefused => ?_,
    fun hst hm hlen hiv hkey hchain => ?_⟩
  · refine (if_neg hst).trans ((if_neg hm).trans ?_)
    split
    · rfl
    split
    · rfl
    rename_i hlen hiv
    obtain hlen' | hiv' | hkey | hchain := hrefused
    · exact absurd hlen' hlen
    · exact absurd hiv' hiv
    · rw [keyRange_eq_none hkey]
      rfl
    · rw [keyRange_eq_none hchain]
      cases keyRange s s.regs.keyBase s.regs.keyLen <;> rfl
  · refine (if_neg hst).trans ((if_neg hm).trans ?_)
    rw [if_neg (by simp [hlen]), if_neg (not_not.2 hiv), keyRange_of_inside hkey, keyRange_of_inside hchain]
    rw [hiv] at hchain
    simp only [memRead_of_inside (s := s) hkey, memRead_of_inside (s := s) hchain, respond, setBmState, keyEngine,
      wipeEngine_eq, withEncryptBit_eq]
    rfl

/-- Settles O13: the checks of R128 in order, then one block read whole, transformed and stored. -/
theorem bmXblkTransformsOneBlock : Obligations.BmXblkTransformsOneBlock := by
  intro tag s
  refine ⟨fun hst => if_pos hst, fun hst hnone => ?_, fun a o hst ha ho hov => ?_, fun a o h hst ha ho hov => ?_⟩
  · exact (if_neg (not_not.2 hst)).trans (ranges_refused hnone)
  · refine (if_neg (not_not.2 hst)).trans ?_
    simp only [ha, ho]
    exact if_pos (overlapOk_eq_false hov)
  · obtain ⟨c, mode, he⟩ := h.engine_of_ready hst
    obtain ⟨hlen, run⟩ := execBmXblk_completes (tag := tag) h hst he ha ho hov
    refine ⟨c, mode, _, he, run, ?_⟩
    intro x chain xor r
    have equations : r = blockStep c mode s.bm.enc s.bm.key chain x := by
      simp only [r]
      cases mode <;> cases s.bm.enc <;> rfl
    rw [equations]
    refine ⟨?_, fun z hz => byteAt_setBytes_outside h.memory_wf (hlen.symm ▸ hz), rfl⟩
    have stored := bytesAt_setBytes (a := o) (v := (blockStep c mode s.bm.enc s.bm.key chain x).1) h.memory_wf
    rwa [hlen] at stored

/-- Settles O14: the checks of R131 in order, nothing to do for no bytes, and the record of an accepted transform. -/
theorem bmXfrmAtIssue : Obligations.BmXfrmAtIssue := by
  intro tag s n whole
  have admitted (hw : whole) : ¬ (needsWholeBlocks s.bm.mode = true ∧ n % s.bm.blockSize ≠ 0) := fun h =>
    h.2 (hw ((needsWholeBlocks_iff _).1 h.1))
  refine ⟨fun hst => if_pos hst, fun hst hw => ?_, fun hst hw hnone => ?_, fun a o hst hw ha ho hov => ?_,
    fun a o hst hw ha ho hn => ?_, fun a o mode hst hm hw ha ho hov hn => ?_⟩
  · obtain ⟨hmode, hlen⟩ := Classical.not_imp.1 hw
    exact (if_neg (not_not.2 hst)).trans (if_pos ⟨(needsWholeBlocks_iff _).2 hmode, hlen⟩)
  all_goals refine (if_neg (not_not.2 hst)).trans ((if_neg (admitted hw)).trans ?_)
  · exact ranges_refused hnone
  all_goals
    rw [ha, ho]
    simp only
  · exact if_pos (overlapOk_eq_false hov)
  · rw [if_neg (overlapOk_ne_false (by omega))]
    exact if_pos hn
  · rw [if_neg (overlapOk_ne_false hov), if_neg (by omega)]
    simp only [setBmState, newTransform, parallelOk_iff hm]
    rfl

/-- Settles O15: the checks of R140 in order, then the block size and its register. -/
theorem bmSetpbsSetsBlock : Obligations.BmSetpbsSetsBlock := by
  intro tag s v pmin pmax
  refine ⟨fun hst => if_pos hst, fun hst hm => (if_neg hst).trans (if_pos hm), fun hst hm hv => ?_,
    fun hst hm hlow hhigh hmul => ?_⟩
  · exact (if_neg hst).trans ((if_neg hm).trans (if_pos hv))
  · have legal : ¬ (v < pmin ∨ pmax < v ∨ v % pmin ≠ 0) :=
      not_or.2 ⟨not_lt.2 hlow, not_or.2 ⟨not_lt.2 hhigh, not_not.2 hmul⟩⟩
    exact (if_neg hst).trans ((if_neg hm).trans (if_neg legal))

/-- Settles O16: one check, then the flag and its register. -/
theorem bmSetparSetsFlag : Obligations.BmSetparSetsFlag := by
  intro tag f s
  refine ⟨fun hst => if_pos hst, fun hst => (if_neg hst).trans ?_⟩
  rw [ofNat_bit]
  rfl

/-- Settles O17: one check, then the key state emptied and the direction cleared. -/
theorem bmReleaseEmptiesKeyState : Obligations.BmReleaseEmptiesKeyState := by
  intro tag s
  refine ⟨fun hst => if_pos hst, fun hst => (if_neg hst).trans ?_⟩
  rw [withEncryptBit_eq]
  rfl

end Sys2Proof.Proofs
end

section
/-! SUPPORT. What an accepted transform is to leave behind (40_block_mode_commands.md R129, R135): the serial meaning of
its input, position by position, and a memory that holds it as far as the transform has come. -/

-- One declaration after another, so that the joined text needs no more worker threads than the check has memory for.
set_option Elab.async false

namespace Sys2Proof.Machine

/-! ### The job of a transform -/

/-- A transform as it was accepted: its ranges and tag, the engine as it stood, and the input bytes. -/
structure Job where
  tag : BitVec 8
  src : Nat
  dst : Nat
  engine : Bme
  cipher : BlockCipher
  mode : CipherMode
  data : List Byte

namespace Job

/-- `SerialXform` over a part of the input, from a chain value of the job. -/
def serial (J : Job) (chain data : List Byte) : List Byte × List Byte :=
  serialXform J.cipher J.mode J.engine.enc J.engine.key chain data

/-- The output and the final chain that R135 asks for. -/
def result (J : Job) : List Byte × List Byte := J.serial J.engine.chain J.data

/-- The chain value at a position of the input. -/
def chainAt (J : Job) (q : Nat) : List Byte := (J.serial J.engine.chain (J.data.take q)).2

/-- The engine of the job is selected and keyed, and the input is of a length its mode admits. -/
structure Legal (J : Job) : Prop where
  mode_eq : J.engine.mode = some J.mode
  kind_eq : blockCipher? J.engine.kind = some J.cipher
  blockSize_eq : J.engine.blockSize = J.cipher.blockSize
  keyed : Keyed J.cipher J.mode J.engine.key J.engine.chain
  whole : J.mode ≠ .ctr → J.data.length % J.cipher.blockSize = 0

variable {J : Job} {q k : Nat}

theorem chainAt_zero : J.chainAt 0 = J.engine.chain := by
  rw [chainAt, List.take_zero, serial, serialXform_nil]

theorem chainAt_length : J.chainAt J.data.length = J.result.2 := by
  rw [chainAt, List.take_length, result]

namespace Legal

theorem result_length (h : J.Legal) : J.result.1.length = J.data.length := h.keyed.output_length J.data

/-- The chain value at a block boundary is one block. -/
theorem keyedAt (h : J.Legal) (hq : q % J.cipher.blockSize = 0) (hle : q ≤ J.data.length) :
    Keyed J.cipher J.mode J.engine.key (J.chainAt q) :=
  { h.keyed with
    chain_length := serialXform_chain_length _ _ _ _ _ _ h.keyed.key_ok h.keyed.ctr_block h.keyed.chain_length
      (fun _ => by rwa [List.length_take, Nat.min_eq_left hle]) }

/-- From a block boundary on, the output and the chain are those of the rest of the input. -/
theorem from_boundary (h : J.Legal) (hq : q % J.cipher.blockSize = 0) (hle : q ≤ J.data.length) (k : Nat) :
    J.result.1.drop q = (J.serial (J.chainAt q) (J.data.drop q)).1 ∧
      J.chainAt (q + k) = (J.serial (J.chainAt q) ((J.data.drop q).take k)).2 := by
  have len : (J.data.take q).length = q := by rw [List.length_take, Nat.min_eq_left hle]
  have cut (b : List Byte) : J.serial J.engine.chain (J.data.take q ++ b) =
      ((J.serial J.engine.chain (J.data.take q)).1 ++ (J.serial (J.chainAt q) b).1, (J.serial (J.chainAt q) b).2) :=
    serialXform_append b (by rwa [len])
  have first : (J.serial J.engine.chain (J.data.take q)).1.length = q := (h.keyed.output_length _).trans len
  constructor
  · have all := cut (J.data.drop q)
    rw [List.take_append_drop] at all
    rw [result, all]
    exact List.drop_left' first
  · rw [chainAt, List.take_add, cut]

/-- One `SerialStep` at a block boundary: a whole block, or the tail of a CTR stream (R133). -/
theorem serial_step (h : J.Legal) (hq : q % J.cipher.blockSize = 0) (hlt : q < J.data.length) (hk :
    k = min J.cipher.blockSize (J.data.length - q)) :
    (if k = J.cipher.blockSize then
        blockStep J.cipher J.mode J.engine.enc J.engine.key (J.chainAt q) ((J.data.drop q).take k)
      else tailStep J.cipher J.engine.key (J.chainAt q) ((J.data.drop q).take k)) =
      ((J.result.1.drop q).take k, J.chainAt (q + k)) := by
  obtain ⟨out, chain⟩ := h.from_boundary hq hlt.le k
  have len : ((J.data.drop q).take k).length = k := by
    rw [List.length_take, List.length_drop]
    omega
  rw [out, chain]
  split
  · rename_i hB
    subst hB
    have hx : ((J.data.drop q).take J.cipher.blockSize).length = J.cipher.blockSize := len
    have cut := serialXform_append (c := J.cipher) (mode := J.mode) (enc := J.engine.enc) (key := J.engine.key)
      (chain := J.chainAt q) ((J.data.drop q).drop J.cipher.blockSize) (by rw [hx, Nat.mod_self])
    rw [List.take_append_drop, serialXform_block hx] at cut
    have y := (h.keyedAt hq hlt.le).block_length (enc := J.engine.enc) hx
    rw [serial, serial, cut, serialXform_block hx]
    simp only
    rw [List.take_left' y]
  · rename_i hB
    have all : (J.data.drop q).take k = J.data.drop q :=
      List.take_of_length_le (by rw [List.length_drop]; omega)
    have hne : J.data.drop q ≠ [] := fun h0 => by
      have := congrArg List.length h0
      rw [List.length_drop, List.length_nil] at this
      omega
    have short : (J.data.drop q).length < J.cipher.blockSize := by
      rw [List.length_drop]
      omega
    have outLen := (h.keyedAt hq hlt.le).output_length (enc := J.engine.enc) (J.data.drop q)
    rw [all, serial, List.take_of_length_le (by rw [outLen, List.length_drop]; omega), serialXform_tail hne short]

/-- One whole block at a boundary. -/
theorem block_step (h : J.Legal) (hq : q % J.cipher.blockSize = 0) (hle : q + J.cipher.blockSize ≤ J.data.length) :
    blockStep J.cipher J.mode J.engine.enc J.engine.key (J.chainAt q) ((J.data.drop q).take J.cipher.blockSize) =
      ((J.result.1.drop q).take J.cipher.blockSize, J.chainAt (q + J.cipher.blockSize)) := by
  have hB := J.cipher.blockSize_pos
  have := h.serial_step (k := J.cipher.blockSize) hq (by omega) (by omega)
  rwa [if_pos rfl] at this

/-- In CTR the chain value some blocks on is the counter moved by as many (41 R163). -/
theorem chainAt_ctr (h : J.Legal) (hm : J.mode = .ctr) (hq : q % J.cipher.blockSize = 0)
    (hle : q + k * J.cipher.blockSize ≤ J.data.length) :
    J.chainAt (q + k * J.cipher.blockSize) = addCounter (J.chainAt q) k := by
  have hB := h.keyed.ctr_block hm
  have hqle : q ≤ J.data.length := by omega
  obtain ⟨-, chain⟩ := h.from_boundary hq hqle (k * J.cipher.blockSize)
  rw [chain, serial, hm, serialXform_ctr_chain hB ((h.keyedAt hq hqle).chain_length.trans hB), List.length_take,
    List.length_drop, Nat.min_eq_left (by omega), hB]
  congr 1
  omega

/-- In CBC and CFB decrypt the chain value is the input block just before the position (41 R164). -/
theorem chainAt_decrypt (h : J.Legal) (hm : J.mode ≠ .ctr) (henc : J.engine.enc = false)
    (hq : q % J.cipher.blockSize = 0) (hpos : 0 < q) (hle : q ≤ J.data.length) :
    J.chainAt q = (J.data.drop (q - J.cipher.blockSize)).take J.cipher.blockSize := by
  have len : (J.data.take q).length = q := by rw [List.length_take, Nat.min_eq_left hle]
  have block : J.cipher.blockSize ≤ q := Nat.le_of_dvd hpos (Nat.dvd_of_mod_eq_zero hq)
  have last := h.keyed.serialXform_feedback_chain (enc := J.engine.enc) hm (data := J.data.take q) (by rwa [len])
    (by rw [← List.length_pos_iff]; omega)
  rw [chainAt, serial, last, ciphertext, if_neg (by simp [henc]), len, List.drop_take]
  congr 1
  omega

end Legal

/-! ### Memory in the course of a transform -/

/-- The input bytes that are still to be transformed are in place, and so is the output of all the others. -/
def Holds (J : Job) (pending : Nat → Prop) (m : Memory) : Prop :=
  ∀ j, j < J.data.length →
    (pending j → J.data[j]? = some (byteAt m (J.src + j))) ∧
      (¬ pending j → J.result.1[j]? = some (byteAt m (J.dst + j)))

namespace Holds

variable {pending pending' : Nat → Prop} {m m' : Memory}

theorem congr (h : J.Holds pending m) (hp : ∀ j, j < J.data.length → (pending' j ↔ pending j)) :
    J.Holds pending' m := fun j hj => by
  rw [hp j hj]
  exact h j hj

/-- Only the bytes of the two ranges matter. -/
theorem of_same_ranges (h : J.Holds pending m)
    (hsrc : ∀ j, j < J.data.length → byteAt m' (J.src + j) = byteAt m (J.src + j))
    (hdst : ∀ j, j < J.data.length → byteAt m' (J.dst + j) = byteAt m (J.dst + j)) : J.Holds pending m' :=
  fun j hj => by
    rw [hsrc j hj, hdst j hj]
    exact h j hj

/-- Input that is still to be transformed reads as it was at acceptance. -/
theorem read (h : J.Holds pending m) (hle : q + k ≤ J.data.length) (hp : ∀ j, q ≤ j → j < q + k → pending j) :
    bytesAt m (J.src + q) k = (J.data.drop q).take k := by
  apply List.ext_getElem?
  intro i
  by_cases hi : i < k
  · rw [getElem?_bytesAt _ _ hi, List.getElem?_take_of_lt hi, List.getElem?_drop, Nat.add_assoc]
    exact ((h (q + i) (by omega)).1 (hp _ (by omega) (by omega))).symm
  · rw [List.getElem?_eq_none (by rw [bytesAt_length]; omega),
      List.getElem?_eq_none (by rw [List.length_take]; omega)]

/-- Nothing to be transformed any more: the output is in place. -/
theorem finished (h : J.Holds pending m) (hJ : J.Legal) (hp : ∀ j, j < J.data.length → ¬ pending j) :
    bytesAt m J.dst J.data.length = J.result.1 := by
  apply List.ext_getElem?
  intro i
  by_cases hi : i < J.data.length
  · rw [getElem?_bytesAt _ _ hi, (h i hi).2 (hp i hi)]
  · rw [List.getElem?_eq_none (by rw [bytesAt_length]; omega),
      List.getElem?_eq_none (by rw [hJ.result_length]; omega)]

/-- The output of some pending bytes stored: they are pending no longer, and no other input is overwritten, since the
ranges are the same or disjoint (20_memory.md R65). -/
theorem store (h : J.Holds pending m) (hJ : J.Legal) (hwf : Memory.wf m = true)
    (hov : J.src = J.dst ∨ J.src + J.data.length ≤ J.dst ∨ J.dst + J.data.length ≤ J.src)
    (hle : q + k ≤ J.data.length)
    (hp : ∀ j, j < J.data.length → (pending' j ↔ pending j ∧ ¬ (q ≤ j ∧ j < q + k))) :
    J.Holds pending' (setBytes m (J.dst + q) ((J.result.1.drop q).take k)) := by
  have len : ((J.result.1.drop q).take k).length = k := by
    rw [List.length_take, List.length_drop, hJ.result_length]
    omega
  have outside (x : Nat) (hx : x < J.dst + q ∨ J.dst + q + k ≤ x) :
      byteAt (setBytes m (J.dst + q) ((J.result.1.drop q).take k)) x = byteAt m x :=
    byteAt_setBytes_outside hwf (by rwa [len])
  intro j hj
  rw [hp j hj]
  refine ⟨fun ⟨hpj, hout⟩ => ?_, fun hdone => ?_⟩
  · rw [outside _ (by omega)]
    exact (h j hj).1 hpj
  · by_cases hin : q ≤ j ∧ j < q + k
    · have stored := byteAt_setBytes_inside (a := J.dst + q) (i := j - q) (v := (J.result.1.drop q).take k) hwf
        (by rw [len]; omega)
      rw [List.getElem?_take_of_lt (by omega), List.getElem?_drop, show q + (j - q) = j by omega,
        show J.dst + q + (j - q) = J.dst + j by omega] at stored
      exact stored
    · rw [outside _ (by omega)]
      exact (h j hj).2 fun hpj => hdone ⟨hpj, hin⟩

end Holds

end Job

/-! ### The chunks of a parallel block (41 R160 to R162) -/

/-- A chunk ends before the next one starts. -/
theorem chunk_end_le_start {k T i j : Nat} (hij : i < j) (hj : j < T) :
    chunkStart k T i + chunkCount k T i ≤ chunkStart k T j := by
  rw [chunkCount, if_pos (by omega), chunkStart, chunkStart, ← Nat.succ_mul]
  exact Nat.mul_le_mul_right _ hij

/-- Every byte of a parallel block is in some lane's chunk. -/
theorem exists_chunk {k T B x : Nat} (hT : 0 < T) (hk : T ≤ k) (hx : x < k * B) :
    ∃ i, i < T ∧ chunkStart k T i * B ≤ x ∧ x < chunkStart k T i * B + chunkCount k T i * B := by
  have bpc : 0 < k / T := Nat.div_pos hk hT
  have hB : 0 < B := Nat.pos_of_ne_zero fun h0 => by simp [h0] at hx
  have inBlocks : ∃ i, i < T ∧ chunkStart k T i ≤ x / B ∧ x / B < chunkStart k T i + chunkCount k T i := by
    by_cases hlast : x / B / (k / T) + 1 < T
    · refine ⟨x / B / (k / T), by omega, Nat.div_mul_le_self _ _, ?_⟩
      rw [chunkCount, if_pos hlast, chunkStart, blocksPerChunk, ← Nat.succ_mul]
      exact Nat.lt_mul_of_div_lt (Nat.lt_succ_self _) bpc
    · refine ⟨T - 1, by omega, ?_, ?_⟩
      · exact (Nat.le_div_iff_mul_le bpc).1 (by omega)
      · have hlt : x / B < k := Nat.div_lt_of_lt_mul (by rwa [Nat.mul_comm])
        rw [chunkCount, if_neg (by omega), chunkStart]
        omega
  obtain ⟨i, hi, hlow, hhigh⟩ := inBlocks
  refine ⟨i, hi, (Nat.le_div_iff_mul_le hB).1 hlow, ?_⟩
  rw [← Nat.add_mul]
  exact (Nat.div_lt_iff_lt_mul hB).1 hhigh

/-- Under the invariant a parallel block is a whole number of blocks, at least one for each lane (40 R122, R140). -/
theorem Inv.unit_blocks {s : State} {c : BlockCipher} {mode : CipherMode} (h : Inv s) (eng : EngineReady s c mode) :
    unitBlocks s * s.bm.blockSize = s.bm.pbs ∧ s.cfg.threads ≤ unitBlocks s ∧ 0 < s.cfg.threads := by
  obtain ⟨⟨hT, -⟩, -⟩ := (Params.ok_iff _).1 h.build
  obtain ⟨hnone, -⟩ | ⟨mode', c', hm, hc, hB, -, hlow, -⟩ := (selectionOk_iff s).1 h.selection
  · rw [eng.mode_eq] at hnone
    cases hnone
  · have whole : s.bm.pbs % s.bm.blockSize = 0 := by rw [eng.blockSize_eq]; exact eng.pbs_whole
    refine ⟨Nat.div_mul_cancel (Nat.dvd_of_mod_eq_zero whole), ?_, hT⟩
    rw [unitBlocks, Nat.le_div_iff_mul_le (by rw [hB]; exact c'.blockSize_pos), Nat.mul_comm, hB]
    exact hlow

end Sys2Proof.Machine
end

section
/-! SUPPORT. A transform on its way (40_block_mode_commands.md R133 to R135; 41_parallel_decomposition.md R165 to R171):
the relation between its job and the machine's state, kept by every step of `CTL` and of the lanes in whatever order
they come, and what it gives when the transform completes. -/

-- One declaration after another, so that the joined text needs no more worker threads than the check has memory for.
set_option Elab.async false

namespace Sys2Proof.Machine

variable {J : Job} {s t : State} {xf : Transform}

/-! ### The relation -/

/-- The positions of the input that a transform has still to read: those from `pos` on, or those behind the parallel
block and those left to its lanes. -/
def pendingAt (s : State) (xf : Transform) (j : Nat) : Prop :=
  match xf.phase with
  | .idle => xf.pos ≤ j
  | .par _ =>
    xf.pos + s.bm.pbs ≤ j ∨
      ∃ (i : Nat) (l : Lane), s.lanes[i]? = some l ∧ l.src ≤ xf.src + j ∧ xf.src + j < l.src + l.n * s.bm.blockSize

/-- A lane stands at a block boundary of the job, with the chain value of that position. -/
def Job.LaneAt (J : Job) (l : Lane) : Prop :=
  ∃ q, q % J.cipher.blockSize = 0 ∧ l.src = J.src + q ∧ l.dst = J.dst + q ∧ l.reg = J.chainAt q

/-- The chain values a transform holds are those of the job: its own between parallel blocks; within one the value the
join will install, and each lane's. -/
def Job.Chains (J : Job) (s : State) (xf : Transform) : Prop :=
  match xf.phase with
  | .idle => s.bm.chain = J.chainAt xf.pos
  | .par nextChain =>
    nextChain = J.chainAt (xf.pos + s.bm.pbs) ∧ ∀ (i : Nat) (l : Lane), s.lanes[i]? = some l → J.LaneAt l

/-- A step that leaves the registers, the logs, the stream unit and the environment as they were. -/
structure WithinTransform (s t : State) : Prop where
  regs : t.regs = s.regs
  rsp : t.rsp = s.rsp
  evt : t.evt = s.evt
  sp : t.sp = s.sp
  env : t.env = s.env

/-- The transform `xf` in progress in `s` is the job `J`, carried out as far as its record and its lanes say. -/
structure Job.Running (J : Job) (s : State) (xf : Transform) : Prop where
  record : s.bm.xf = some xf
  tag_eq : xf.tag = J.tag
  src_eq : xf.src = J.src
  dst_eq : xf.dst = J.dst
  len_eq : xf.len = J.data.length
  engine_eq : { s.bm with state := .ready, chain := J.engine.chain, xf := none } = J.engine
  boundary : xf.pos < xf.len → xf.pos % J.cipher.blockSize = 0
  memory : J.Holds (pendingAt s xf) s.mem
  chains : J.Chains s xf

/-- The job is done: the engine is as it was at acceptance but for the chain, and the output is in place. -/
structure Job.Done (J : Job) (s : State) : Prop where
  engine_eq : s.bm = { J.engine with chain := J.result.2 }
  output : bytesAt s.mem J.dst J.data.length = J.result.1

/-- What the invariant says of the lanes within a parallel block. -/
theorem Inv.par_facts {nc : List Byte} (h : Inv s) (hxf : s.bm.xf = some xf) (hp : xf.phase = .par nc) :
    0 < xf.npar ∧ ∀ (i : Nat) (l : Lane), s.lanes[i]? = some l → laneBusyOk s xf i l = true := by
  obtain ⟨-, -, -, -, -, -, -, -, hph⟩ := h.transform_facts hxf
  obtain ⟨hn, -, hlanes⟩ := (phaseOk_par s xf nc hp).1 hph
  exact ⟨hn, hlanes⟩

theorem pendingAt_idle (hp : xf.phase = .idle) (j : Nat) : pendingAt s xf j ↔ xf.pos ≤ j := by
  rw [pendingAt, hp]

theorem pendingAt_par {nc : List Byte} (hp : xf.phase = .par nc) (j : Nat) :
    pendingAt s xf j ↔
      xf.pos + s.bm.pbs ≤ j ∨
        ∃ (i : Nat) (l : Lane), s.lanes[i]? = some l ∧ l.src ≤ xf.src + j ∧
          xf.src + j < l.src + l.n * s.bm.blockSize := by
  rw [pendingAt, hp]

theorem Job.chains_idle (hp : xf.phase = .idle) : J.Chains s xf ↔ s.bm.chain = J.chainAt xf.pos := by
  rw [Job.Chains, hp]

theorem Job.chains_par {nc : List Byte} (hp : xf.phase = .par nc) :
    J.Chains s xf ↔ nc = J.chainAt (xf.pos + s.bm.pbs) ∧ ∀ (i : Nat) (l : Lane), s.lanes[i]? = some l → J.LaneAt l := by
  rw [Job.Chains, hp]

/-- On a parallel path the block of a lane is the block of the serial transform (40 R126, 41 R167). -/
theorem laneBlock_eq_blockStep {c : BlockCipher} {mode : CipherMode} {enc : Bool} {key reg x : List Byte}
    (h : mode = .ctr ∨ enc = false) : laneBlock c mode key reg x = blockStep c mode enc key reg x := by
  obtain rfl | rfl := h
  · rfl
  · cases mode <;> rfl

namespace Job.Running

/-- The engine works with the job's cipher, mode, key and direction. -/
theorem engine (h : J.Running s xf) (hJ : J.Legal) :
    Machine.engine s = some (J.cipher, J.mode) ∧ s.bm.blockSize = J.cipher.blockSize ∧ s.bm.key = J.engine.key ∧
      s.bm.enc = J.engine.enc := by
  have hmode : s.bm.mode = J.engine.mode := (congrArg Bme.mode h.engine_eq :)
  have hkind : s.bm.kind = J.engine.kind := (congrArg Bme.kind h.engine_eq :)
  have hB : s.bm.blockSize = J.engine.blockSize := (congrArg Bme.blockSize h.engine_eq :)
  refine ⟨(engine_eq_some _ _ _).2 ⟨hmode.trans hJ.mode_eq, ?_⟩, hB.trans hJ.blockSize_eq,
    (congrArg Bme.key h.engine_eq :), (congrArg Bme.enc h.engine_eq :)⟩
  rw [hkind]
  exact hJ.kind_eq

/-- What the invariant adds: where the ranges lie, and which path the transform may be on. -/
theorem facts (h : J.Running s xf) (hI : Inv s) (hJ : J.Legal) :
    EngineReady s J.cipher J.mode ∧
    (J.src = J.dst ∨ J.src + J.data.length ≤ J.dst ∨ J.dst + J.data.length ≤ J.src) ∧
    xf.pos + xf.npar * s.bm.pbs ≤ xf.len ∧
    (0 < xf.npar → (J.mode = .ctr ∨ J.engine.enc = false) ∧ xf.pos % J.cipher.blockSize = 0) := by
  obtain ⟨hst, -, -, hov, hpos, -, hpath, hblock, -⟩ := hI.transform_facts h.record
  obtain ⟨he, hB, -, henc⟩ := h.engine hJ
  have eng := engineReady_of_engine hI.selection hI.keyState (by simp [hst]) he
  rw [h.src_eq, h.dst_eq, h.len_eq] at hov
  refine ⟨eng, hov, hpos, fun hn => ⟨?_, ?_⟩⟩
  · have := hpath.resolve_left (by omega)
    rwa [eng.mode_eq, Option.some.injEq, henc] at this
  · have := hblock.resolve_left (by omega)
    rwa [hB] at this

/-! ### `CTL` between parallel blocks -/

/-- `SerialStep` (R133): the next block, or the tail, transformed and stored. -/
theorem serialStep (h : J.Running s xf) (hI : Inv s) (hJ : J.Legal) (hp : xf.phase = .idle) (hlt : xf.pos < xf.len)
    (hx : serialStep xf s = .next t) : ∃ xf', J.Running t xf' ∧ WithinTransform s t := by
  obtain ⟨c, mode, he, -, -, ht⟩ := serialStep_cases xf s t hx
  obtain ⟨he', hB, hkey, henc⟩ := h.engine hJ
  cases he.symm.trans he'
  obtain ⟨-, hov, -⟩ := h.facts hI hJ
  have hlt' : xf.pos < J.data.length := by rwa [← h.len_eq]
  have hchain := (chains_idle hp).1 h.chains
  generalize hm : min s.bm.blockSize (xf.len - xf.pos) = m at ht
  rw [hB, h.len_eq] at hm
  have step := hJ.serial_step (h.boundary hlt) hlt' hm.symm
  have moved : t =
      { s with
        mem := setBytes s.mem (J.dst + xf.pos) ((J.result.1.drop xf.pos).take m)
        bm := { s.bm with chain := J.chainAt (xf.pos + m), xf := some { xf with pos := xf.pos + m } } } := by
    rw [ht, h.src_eq, h.dst_eq, h.memory.read (by omega) (fun j hj _ => (pendingAt_idle hp j).2 hj), hB, hkey, henc,
      hchain, step, List.take_take, Nat.min_self]
  subst moved
  refine ⟨{ xf with pos := xf.pos + m }, ?_, rfl, rfl, rfl, rfl, rfl⟩
  refine ⟨rfl, h.tag_eq, h.src_eq, h.dst_eq, h.len_eq, h.engine_eq, fun hlt2 => ?_, ?_,
    (chains_idle (by exact hp)).2 rfl⟩
  · have hlt2 : xf.pos + m < xf.len := hlt2
    rw [h.len_eq] at hlt2
    show (xf.pos + m) % J.cipher.blockSize = 0
    rw [show m = J.cipher.blockSize by omega, Nat.add_mod_right]
    exact h.boundary hlt
  · refine h.memory.store hJ hI.memory_wf hov (by omega) fun j _ => ?_
    rw [pendingAt_idle hp, pendingAt_idle (by exact hp)]
    show xf.pos + m ≤ j ↔ _
    omega

/-- `Complete` (R134): everything is transformed. -/
theorem complete (h : J.Running s xf) (hI : Inv s) (hJ : J.Legal) (hp : xf.phase = .idle) (hle : xf.len ≤ xf.pos) :
    J.Done (transformEnded s) := by
  obtain ⟨-, -, hpos, -⟩ := h.facts hI hJ
  have hend : xf.pos = J.data.length := by
    rw [← h.len_eq]
    omega
  refine ⟨?_, h.memory.finished hJ fun j hj => ?_⟩
  · have hchain := (chains_idle hp).1 h.chains
    rw [hend, chainAt_length] at hchain
    rw [← h.engine_eq, ← hchain]
    rfl
  · rw [pendingAt_idle hp]
    omega

/-! ### Parallel blocks -/

/-- The input block before a position is the chain value there, in the two modes that feed ciphertext back, as long as
that block is pending (41 R164, R166). -/
theorem bytesBefore_eq_chainAt (h : J.Running s xf) (hI : Inv s) (hJ : J.Legal) (hp : xf.phase = .idle)
    (hn : 0 < xf.npar) (hm : J.mode ≠ .ctr) {q : Nat} {bs : List Byte} (hq : q % J.cipher.blockSize = 0)
    (hlow : xf.pos + J.cipher.blockSize ≤ q) (hle : q ≤ J.data.length)
    (hbs : bytesBefore s (J.src + q) s.bm.blockSize = some bs) : bs = J.chainAt q := by
  obtain ⟨-, hB, -⟩ := h.engine hJ
  obtain ⟨-, -, -, hpath⟩ := h.facts hI hJ
  have hpos := J.cipher.blockSize_pos
  rw [hB, bytesBefore, if_pos (by omega)] at hbs
  obtain ⟨-, rfl⟩ := (memRead_eq_some _ _ _ _).1 hbs
  rw [hJ.chainAt_decrypt hm ((hpath hn).1.resolve_left hm) hq (by omega) hle,
    show J.src + q - J.cipher.blockSize = J.src + (q - J.cipher.blockSize) by omega]
  exact h.memory.read (by omega) fun j hj _ => (pendingAt_idle hp j).2 (by omega)

/-- A spawned lane stands at the start of its chunk. -/
theorem laneAt_spawnLane (h : J.Running s xf) (hI : Inv s) (hJ : J.Legal) (hp : xf.phase = .idle) (hn : 0 < xf.npar)
    {i : Nat} {l : Lane} (hi : i < s.cfg.threads) (hl : spawnLane s J.mode xf i = some l) :
    l.src = xf.src + laneOffset s xf i ∧ l.n = chunkCount (unitBlocks s) s.cfg.threads i ∧ J.LaneAt l := by
  obtain ⟨-, hB, -⟩ := h.engine hJ
  obtain ⟨eng, -, -, hpath⟩ := h.facts hI hJ
  obtain ⟨-, hblock⟩ := hpath hn
  obtain ⟨-, hT, hT0⟩ := hI.unit_blocks eng
  have hchain := (chains_idle hp).1 h.chains
  have hle : laneOffset s xf i ≤ J.data.length := by
    have := hI.lane_chunk_end_le h.record hn hi
    rw [h.len_eq] at this
    omega
  have hq : laneOffset s xf i % J.cipher.blockSize = 0 := by
    rw [laneOffset, hB, Nat.add_mul_mod_self_right, hblock]
  unfold spawnLane at hl
  split at hl
  · rename_i reg hreg
    cases hl
    refine ⟨rfl, rfl, laneOffset s xf i, hq, by rw [h.src_eq], by rw [h.dst_eq], ?_⟩
    cases hmode : J.mode with
    | ctr =>
      simp only [hmode, laneStartReg, Option.some.injEq] at hreg
      rw [laneOffset, hB] at hle ⊢
      rw [← hreg, hchain]
      exact (hJ.chainAt_ctr hmode hblock hle).symm
    | cbc | cfb =>
      have hm : J.mode ≠ .ctr := by simp [hmode]
      simp only [hmode, laneStartReg] at hreg
      split at hreg
      · rename_i h0
        subst h0
        simp only [Option.some.injEq] at hreg
        rw [← hreg, hchain, laneOffset, chunkStart, Nat.zero_mul, Nat.zero_mul, Nat.add_zero]
      · rename_i hpos
        rw [h.src_eq] at hreg
        refine h.bytesBefore_eq_chainAt hI hJ hp hn hm hq ?_ hle hreg
        rw [laneOffset, hB]
        refine Nat.add_le_add_left (Nat.le_mul_of_pos_left _ ?_) _
        exact Nat.mul_pos (Nat.pos_of_ne_zero hpos) (Nat.div_pos hT hT0)
  · cases hl

/-- The value the join will install is the chain value after the parallel block. -/
theorem unitNextChain_eq (h : J.Running s xf) (hI : Inv s) (hJ : J.Legal) (hp : xf.phase = .idle) (hn : 0 < xf.npar)
    {nc : List Byte} (hnc : unitNextChain s J.mode xf = some nc) : nc = J.chainAt (xf.pos + s.bm.pbs) := by
  obtain ⟨-, hB, -⟩ := h.engine hJ
  obtain ⟨eng, -, hpos, hpath⟩ := h.facts hI hJ
  obtain ⟨-, hblock⟩ := hpath hn
  obtain ⟨hunit, hT, hT0⟩ := hI.unit_blocks eng
  have hle : xf.pos + s.bm.pbs ≤ J.data.length := by
    rw [← h.len_eq]
    exact (Nat.add_le_add_left (Nat.le_mul_of_pos_left _ hn) _).trans hpos
  cases hmode : J.mode with
  | ctr =>
    simp only [hmode, unitNextChain, Option.some.injEq] at hnc
    rw [← hunit, hB] at hle ⊢
    rw [← hnc, (chains_idle hp).1 h.chains]
    exact (hJ.chainAt_ctr hmode hblock hle).symm
  | cbc | cfb =>
    simp only [hmode, unitNextChain, h.src_eq, Nat.add_assoc] at hnc
    refine h.bytesBefore_eq_chainAt hI hJ hp hn (by simp [hmode]) ?_ ?_ hle hnc
    · rw [Nat.add_mod, hblock, eng.pbs_whole]
      rfl
    · rw [← hunit, hB]
      exact Nat.add_le_add_left (Nat.le_mul_of_pos_left _ (by omega)) _

/-- `Spawn` (41 R165): the lanes take over the pending bytes of the parallel block, chunk by chunk. -/
theorem spawn (h : J.Running s xf) (hI : Inv s) (hJ : J.Legal) (hp : xf.phase = .idle) (hn : 0 < xf.npar)
    (hx : spawn xf s = .next t) : ∃ xf', J.Running t xf' ∧ WithinTransform s t := by
  obtain ⟨mode, lanes, nc, hmode, hl, hnc, rfl⟩ := spawn_cases xf s t hx
  obtain ⟨eng, -, hpos, hpath⟩ := h.facts hI hJ
  cases hmode.symm.trans eng.mode_eq
  obtain ⟨hunit, hT, hT0⟩ := hI.unit_blocks eng
  obtain ⟨hcount, hlane⟩ := spawnLanes_eq_some s J.mode xf _ lanes hl
  rw [List.length_range] at hcount
  have spawned (i : Nat) (l : Lane) (hi : lanes[i]? = some l) : i < s.cfg.threads ∧
      l.src = xf.src + laneOffset s xf i ∧ l.n = chunkCount (unitBlocks s) s.cfg.threads i ∧ J.LaneAt l := by
    obtain ⟨j, hj, hs⟩ := hlane i l hi
    obtain ⟨hlt, rfl⟩ := List.getElem?_eq_some_iff.1 hj
    rw [List.length_range] at hlt
    rw [List.getElem_range] at hs
    exact ⟨hlt, h.laneAt_spawnLane hI hJ hp hn hlt hs⟩
  refine ⟨{ xf with phase := .par nc }, ?_, rfl, rfl, rfl, rfl, rfl⟩
  refine ⟨rfl, h.tag_eq, h.src_eq, h.dst_eq, h.len_eq, h.engine_eq, h.boundary, h.memory.congr fun j _ => ?_,
    (chains_par rfl).2 ⟨h.unitNextChain_eq hI hJ hp hn hnc, fun i l hi => (spawned i l hi).2.2.2⟩⟩
  rw [pendingAt_idle hp, pendingAt_par rfl]
  show (xf.pos + s.bm.pbs ≤ j ∨ ∃ (i : Nat) (l : Lane), lanes[i]? = some l ∧ l.src ≤ xf.src + j ∧
    xf.src + j < l.src + l.n * s.bm.blockSize) ↔ _
  constructor
  · rintro (hge | ⟨i, l, hi, hlow, -⟩)
    · omega
    · obtain ⟨-, hsrc, -⟩ := spawned i l hi
      rw [laneOffset] at hsrc
      omega
  · intro hge
    by_cases hin : xf.pos + s.bm.pbs ≤ j
    · exact .inl hin
    · obtain ⟨i, hi, hlow, hhigh⟩ := exists_chunk (B := s.bm.blockSize) (x := j - xf.pos) hT0 hT (by omega)
      have hi' : i < lanes.length := by omega
      obtain ⟨-, hsrc, hcnt, -⟩ := spawned i lanes[i] (List.getElem?_eq_getElem hi')
      rw [laneOffset] at hsrc
      refine .inr ⟨i, lanes[i], List.getElem?_eq_getElem hi', ?_, ?_⟩
      · omega
      · rw [hcnt]
        omega

/-- `Join` (41 R169): with every lane finished only the bytes behind the parallel block are pending. -/
theorem join (h : J.Running s xf) (hI : Inv s) (hJ : J.Legal) {nc : List Byte} (hp : xf.phase = .par nc)
    (hdone : ∀ l ∈ s.lanes, l.n = 0) (hx : join xf nc s = .next t) :
    ∃ xf', J.Running t xf' ∧ WithinTransform s t := by
  cases hx
  obtain ⟨eng, -, -, hpath⟩ := h.facts hI hJ
  obtain ⟨hn, -⟩ := hI.par_facts h.record hp
  obtain ⟨hnext, -⟩ := (chains_par hp).1 h.chains
  refine ⟨{ xf with pos := xf.pos + s.bm.pbs, npar := xf.npar - 1, phase := .idle }, ?_, rfl, rfl, rfl, rfl, rfl⟩
  refine ⟨rfl, h.tag_eq, h.src_eq, h.dst_eq, h.len_eq, ?_, fun _ => ?_, h.memory.congr fun j _ => ?_,
    (chains_idle rfl).2 hnext⟩
  · rw [← h.engine_eq]
  · show (xf.pos + s.bm.pbs) % J.cipher.blockSize = 0
    rw [Nat.add_mod, (hpath hn).2, eng.pbs_whole]
    rfl
  · rw [pendingAt_idle rfl, pendingAt_par hp]
    refine (or_iff_left ?_).symm
    rintro ⟨i, l, hi, hlow, hhigh⟩
    rw [hdone l (List.mem_of_getElem? hi), Nat.zero_mul] at hhigh
    omega

/-- The blocks left to two lanes lie apart. -/
theorem lanes_apart (h : J.Running s xf) (hI : Inv s) {nc : List Byte} (hp : xf.phase = .par nc) {i j : Nat}
    {l m : Lane} (hij : i < j) (hl : s.lanes[i]? = some l) (hm : s.lanes[j]? = some m) :
    l.src + l.n * s.bm.blockSize ≤ m.src := by
  obtain ⟨-, hlanes⟩ := hI.par_facts h.record hp
  obtain ⟨-, -, -, -, hlend, -⟩ := (laneBusyOk_iff s xf i l).1 (hlanes i l hl)
  obtain ⟨-, -, -, hmle, hmend, -⟩ := (laneBusyOk_iff s xf j m).1 (hlanes j m hm)
  have hj : j < s.cfg.threads := hI.laneCount ▸ (List.getElem?_eq_some_iff.1 hm).1
  have chunks := Nat.mul_le_mul_right s.bm.blockSize (chunk_end_le_start (k := unitBlocks s) hij hj)
  have left := Nat.mul_le_mul_right s.bm.blockSize hmle
  rw [Nat.add_mul] at chunks
  rw [laneOffset] at hlend hmend
  omega

/-- The blocks left to a lane end within the parallel block. -/
theorem lane_end_le (h : J.Running s xf) (hI : Inv s) (hJ : J.Legal) {nc : List Byte} (hp : xf.phase = .par nc)
    {i : Nat} {l : Lane} (hl : s.lanes[i]? = some l) : l.src + l.n * s.bm.blockSize ≤ xf.src + (xf.pos + s.bm.pbs) := by
  obtain ⟨-, hlanes⟩ := hI.par_facts h.record hp
  obtain ⟨-, -, -, -, hend, -⟩ := (laneBusyOk_iff s xf i l).1 (hlanes i l hl)
  obtain ⟨hunit, -⟩ := hI.unit_blocks (h.facts hI hJ).1
  have hi : i < s.cfg.threads := hI.laneCount ▸ (List.getElem?_eq_some_iff.1 hl).1
  have chunk := Nat.mul_le_mul_right s.bm.blockSize (chunk_end_le (k := unitBlocks s) hi)
  rw [Nat.add_mul, hunit] at chunk
  rw [laneOffset] at hend
  omega

/-- One block done by a lane: the bytes of that block, and no others, are pending no longer. -/
theorem pendingAt_laneStep (h : J.Running s xf) (hI : Inv s) (hJ : J.Legal) {nc : List Byte} (hp : xf.phase = .par nc)
    {i : Nat} {l l' : Lane} (hl : s.lanes[i]? = some l) (hn : 0 < l.n) (hsrc : l'.src = l.src + s.bm.blockSize)
    (hleft : l'.n = l.n - 1) (mem : Memory) (j : Nat) :
    pendingAt { s with mem := mem, lanes := s.lanes.set i l' } xf j ↔
      pendingAt s xf j ∧ ¬ (l.src ≤ xf.src + j ∧ xf.src + j < l.src + s.bm.blockSize) := by
  have block : s.bm.blockSize ≤ l.n * s.bm.blockSize := Nat.le_mul_of_pos_left _ hn
  have sameEnd := lane_end_moved (a := l.src) (B := s.bm.blockSize) hn rfl
  rw [← hsrc, ← hleft] at sameEnd
  have inUnit := h.lane_end_le hI hJ hp hl
  have hi : i < s.lanes.length := (List.getElem?_eq_some_iff.1 hl).1
  rw [pendingAt_par hp, pendingAt_par hp]
  simp only [List.getElem?_set]
  constructor
  · rintro (hge | ⟨k, m, hk, hlow, hhigh⟩)
    · exact ⟨.inl hge, by omega⟩
    · split at hk
      · cases hk
        exact ⟨.inr ⟨i, l, hl, by omega, by omega⟩, by omega⟩
      · rename_i hne
        refine ⟨.inr ⟨k, m, hk, hlow, hhigh⟩, ?_⟩
        obtain hlt | hgt := Nat.lt_or_gt_of_ne hne
        · have := h.lanes_apart hI hp hlt hl hk
          omega
        · have := h.lanes_apart hI hp hgt hk hl
          omega
  · rintro ⟨hge | ⟨k, m, hk, hlow, hhigh⟩, hout⟩
    · exact .inl hge
    · by_cases hki : i = k
      · subst hki
        cases hl.symm.trans hk
        exact .inr ⟨i, l', by rw [if_pos rfl, if_pos hi], by omega, by omega⟩
      · exact .inr ⟨k, m, by rw [if_neg hki, hk], hlow, hhigh⟩

/-- `LaneStep` (41 R167, R168): one block of one lane, which no other lane has left to do. -/
theorem laneStep (h : J.Running s xf) (hI : Inv s) (hJ : J.Legal) {i : Nat} {l : Lane} (hl : s.lanes[i]? = some l)
    (hb : l.busy = true) (hn : 0 < l.n) (hx : laneStep i l s = .next t) :
    ∃ xf', J.Running t xf' ∧ WithinTransform s t := by
  obtain ⟨c, mode, he, -, -, -, -, rfl⟩ := laneStep_cases i l s t hx
  obtain ⟨xf', nc, hxf, hp⟩ := hI.par_of_busy hl hb
  cases h.record.symm.trans hxf
  obtain ⟨he', hB, hkey, henc⟩ := h.engine hJ
  cases he.symm.trans he'
  obtain ⟨-, hov, -, hpath⟩ := h.facts hI hJ
  obtain ⟨hnpar, hlanes⟩ := hI.par_facts h.record hp
  obtain ⟨-, hlkey, -⟩ := (laneBusyOk_iff s xf i l).1 (hlanes i l hl)
  obtain ⟨hnext, hchains⟩ := (chains_par hp).1 h.chains
  obtain ⟨q, hq, hsrc, hdst, hreg⟩ := hchains i l hl
  have block : J.cipher.blockSize ≤ l.n * s.bm.blockSize := by
    rw [hB]
    exact Nat.le_mul_of_pos_left _ hn
  have hle : q + J.cipher.blockSize ≤ J.data.length := by
    obtain ⟨-, hhigh⟩ := hI.lane_block_inside h.record hp hl hn
    rw [hdst, hB, h.dst_eq, h.len_eq] at hhigh
    omega
  have mine (j : Nat) (hlow : q ≤ j) (hhigh : j < q + J.cipher.blockSize) : pendingAt s xf j := by
    refine (pendingAt_par hp j).2 (.inr ⟨i, l, hl, ?_, ?_⟩) <;> rw [h.src_eq] <;> omega
  have step := hJ.block_step hq hle
  rw [← laneBlock_eq_blockStep (hpath hnpar).1] at step
  rw [hB, hsrc, h.memory.read hle mine, hlkey, hkey, hreg, step, hdst]
  refine ⟨xf, ?_, rfl, rfl, rfl, rfl, rfl⟩
  refine ⟨h.record, h.tag_eq, h.src_eq, h.dst_eq, h.len_eq, h.engine_eq, h.boundary, ?_,
    (chains_par hp).2 ⟨hnext, fun k m hk => ?_⟩⟩
  · rw [List.take_take, Nat.min_self]
    refine h.memory.store hJ hI.memory_wf hov hle fun j _ => ?_
    rw [h.pendingAt_laneStep hI hJ hp hl hn (by rw [hB, hsrc]) rfl, h.src_eq, hsrc, hB]
    refine and_congr_right fun _ => not_congr ?_
    omega
  · simp only [List.getElem?_set] at hk
    split at hk
    · split at hk
      · cases hk
        exact ⟨q + J.cipher.blockSize, by rw [Nat.add_mod_right, hq], Nat.add_assoc .., Nat.add_assoc .., rfl⟩
      · cases hk
    · exact hchains k m hk

end Job.Running

end Sys2Proof.Machine
end

section
/-! SUPPORT. A transform from its acceptance to its end with no host action in between (40_block_mode_commands.md R131,
R135; 41_parallel_decomposition.md R171), and the obligation about its result. -/

-- One declaration after another, so that the joined text needs no more worker threads than the check has memory for.
set_option Elab.async false

namespace Sys2Proof.Machine

variable {J : Job} {s t u : State} {xf : Transform} {tag : BitVec 8} {a o : Nat}

/-! ### Acceptance -/

/-- The job of a `BM_XFRM` accepted in `s`. -/
def Job.accepted (s : State) (tag : BitVec 8) (a o : Nat) (c : BlockCipher) (mode : CipherMode) : Job where
  tag := tag
  src := a
  dst := o
  engine := s.bm
  cipher := c
  mode := mode
  data := bytesAt s.mem a s.regs.len.toNat

/-- What an accepted `BM_XFRM` leaves: the record of its transform, and the engine taken (R131). -/
theorem execBmXfrm_accepted (hst : s.bm.state = .ready) (ha : inputRange s s.regs.len.toNat = some a)
    (ho : outputRange s s.regs.len.toNat = some o) (hx : exec (.bmXfrm tag) s = .next t)
    (ht : t.bm.state = .transforming) :
    (needsWholeBlocks s.bm.mode = true → s.regs.len.toNat % s.bm.blockSize = 0) ∧
      t = setBmState .transforming
        { s with bm := { s.bm with xf := some (newTransform tag a o s.regs.len.toNat s) } } := by
  obtain ⟨code, -, -, rfl⟩ | ⟨a', o', -, hwhole, ha', ho', -, ⟨-, rfl⟩ | ⟨-, rfl⟩⟩ := execBmXfrm_cases tag s t hx
  · cases hst.symm.trans ht
  · cases hst.symm.trans ht
  · cases ha.symm.trans ha'
    cases ho.symm.trans ho'
    exact ⟨hwhole, rfl⟩

/-- An accepted `BM_XFRM` runs its job from the start: all of the input is pending. -/
theorem Job.running_of_accepted (hI : Inv s) (hst : s.bm.state = .ready)
    (ha : inputRange s s.regs.len.toNat = some a) (ho : outputRange s s.regs.len.toNat = some o)
    (hx : exec (.bmXfrm tag) s = .next t) (ht : t.bm.state = .transforming) :
    ∃ c mode, Machine.engine s = some (c, mode) ∧ (Job.accepted s tag a o c mode).Legal ∧
      (Job.accepted s tag a o c mode).Running t (newTransform tag a o s.regs.len.toNat s) := by
  obtain ⟨hwhole, rfl⟩ := execBmXfrm_accepted hst ha ho hx ht
  obtain ⟨c, mode, he⟩ := hI.engine_of_ready hst
  have eng := engineReady_of_engine hI.selection hI.keyState (by simp [hst]) he
  obtain ⟨hmode, hkind⟩ := (engine_eq_some s c mode).1 he
  obtain ⟨hxf, -⟩ := hI.engine_free (by simp [hst])
  have len : (bytesAt s.mem a s.regs.len.toNat).length = s.regs.len.toNat := bytesAt_length _ _ _
  refine ⟨c, mode, he, ⟨hmode, hkind, eng.blockSize_eq, ⟨eng.key_ok, eng.chain_length, eng.ctr_block⟩, fun hm => ?_⟩,
    ⟨rfl, rfl, rfl, rfl, len.symm, ?_, fun _ => Nat.zero_mod _, fun j hj => ⟨fun _ => ?_, fun hdone => ?_⟩,
      (chains_idle rfl).2 ?_⟩⟩
  · show (bytesAt s.mem a s.regs.len.toNat).length % c.blockSize = 0
    rw [len, ← eng.blockSize_eq]
    refine hwhole ((needsWholeBlocks_iff _).2 ?_)
    rw [hmode]
    cases mode with
    | ctr => exact absurd rfl hm
    | cbc => exact .inl rfl
    | cfb => exact .inr rfl
  · show { s.bm with state := .ready, xf := none } = s.bm
    rw [← hst, ← hxf]
  · exact getElem?_bytesAt _ _ (len ▸ hj :)
  · exact absurd ((pendingAt_idle rfl j).2 (Nat.zero_le j)) hdone
  · exact (chainAt_zero (J := Job.accepted s tag a o c mode)).symm

/-! ### The agents of the engine -/

/-- The relation reads the engine, the lanes and the bytes of the two ranges, and nothing else. -/
theorem Job.Running.of_same (h : J.Running s xf) (hbm : t.bm = s.bm) (hlanes : t.lanes = s.lanes)
    (hsrc : ∀ j, j < J.data.length → byteAt t.mem (J.src + j) = byteAt s.mem (J.src + j))
    (hdst : ∀ j, j < J.data.length → byteAt t.mem (J.dst + j) = byteAt s.mem (J.dst + j)) : J.Running t xf where
  record := by rw [hbm]; exact h.record
  tag_eq := h.tag_eq
  src_eq := h.src_eq
  dst_eq := h.dst_eq
  len_eq := h.len_eq
  engine_eq := by rw [hbm]; exact h.engine_eq
  boundary := h.boundary
  memory := by
    refine (h.memory.of_same_ranges hsrc hdst).congr fun j _ => ?_
    rw [pendingAt, pendingAt, hbm, hlanes]
  chains := by
    have := h.chains
    rwa [Job.Chains, ← hbm, ← hlanes] at this

/-- A step of `CTL` or of a lane carries the job on, or ends it with its response. -/
theorem Job.Running.agentAct {b : Agent} (h : J.Running s xf) (hI : Inv s) (hJ : J.Legal) (hb : bmeAgent b = true)
    (hen : enabled s b = true) (hx : agentAct b s = .next t) :
    (∃ xf', J.Running t xf' ∧ WithinTransform s t) ∨
      (J.Done (transformEnded s) ∧ t = respond 0x04 J.tag .ok (transformEnded s)) := by
  cases b with
  | ctl =>
    obtain ⟨hnone, -⟩ | ⟨xf', nc, hxf, hp, hj⟩ | ⟨xf', hxf, hp, hs⟩ := ctlStep_cases s t hx
    · cases h.record.symm.trans hnone
    · cases h.record.symm.trans hxf
      exact .inl (h.join hI hJ hp (lanes_finished_of_ctlEnabled hen hxf hp) hj)
    · cases h.record.symm.trans hxf
      obtain ⟨hn, hs⟩ | ⟨-, hlt, hs⟩ | ⟨-, hle, hs⟩ := hs
      · exact .inl (h.spawn hI hJ hp hn hs)
      · exact .inl (h.serialStep hI hJ hp hlt hs)
      · rw [complete_eq, Host.Outcome.next.injEq, h.tag_eq] at hs
        exact .inr ⟨h.complete hI hJ hp hle, hs.symm⟩
  | lane i =>
    obtain ⟨l, hl, hbusy, hn⟩ := lane_of_laneEnabled hen
    simp only [Machine.agentAct, hl] at hx
    exact .inl (h.laneStep hI hJ hl hbusy hn hx)
  | seq | rdr | csm => cases hb

/-! ### Turns with no host action in between -/

/-- What a transform leaves that ran alone: its job done, one response, and everything else as it was, but for the
state of the engine that `BM_STATE` shows. -/
structure Job.Outcome (J : Job) (s t : State) : Prop where
  done : J.Done t
  outside : ∀ x, x < J.dst ∨ J.dst + J.data.length ≤ x → byteAt t.mem x = byteAt s.mem x
  regs : t.regs = { s.regs with bmState := 1 }
  rsp : t.rsp = s.rsp ++ [responseWord 0x04 J.tag .ok]
  evt : t.evt = s.evt
  sp : t.sp = s.sp

/-- Steps within the transform, and turns that pass, before the end. -/
theorem Job.Outcome.after_steps (h : J.Outcome u t)
    (hout : ∀ x, x < J.dst ∨ J.dst + J.data.length ≤ x → byteAt u.mem x = byteAt s.mem x)
    (hregs : u.regs = s.regs) (hrsp : u.rsp = s.rsp) (hevt : u.evt = s.evt) (hsp : u.sp = s.sp) : J.Outcome s t :=
  ⟨h.done, fun x hx => (h.outside x hx).trans (hout x hx), hregs ▸ h.regs, hrsp ▸ h.rsp, h.evt.trans hevt,
    h.sp.trans hsp⟩

/-- With no transform and no run no agent is enabled. -/
theorem Inv.none_enabled (h : Inv s) (hst : s.bm.state ≠ .transforming) (hsp : s.sp.state ≠ .running) (b : Agent) :
    enabled s b = false := by
  rw [← Bool.not_eq_true]
  obtain ⟨hxf, -⟩ := h.engine_free hst
  intro hen
  cases b with
  | ctl => simp [enabled, ctlEnabled, hxf] at hen
  | lane i =>
    obtain ⟨l, hl, hb, -⟩ := lane_of_laneEnabled hen
    obtain ⟨xf, nc, hsome, -⟩ := h.par_of_busy hl hb
    cases hxf.symm.trans hsome
  | seq => exact hsp (enabled_seq_iff.1 hen).1
  | rdr => exact hsp (enabled_rdr_iff.1 hen).1
  | csm => exact hsp (enabled_csm_iff.1 hen).1

/-- Turns given to an idle machine all pass. -/
theorem runSteps_of_idle (turns : List Agent) (h : Inv s) (hst : s.bm.state ≠ .transforming)
    (hsp : s.sp.state ≠ .running) (hev : s.env.events = turns.map .agent)
    (hrun : runSteps turns.length s = .next t) : ∃ env, t = { s with env := env } := by
  induction turns generalizing s with
  | nil =>
    cases hrun
    exact ⟨_, rfl⟩
  | cons b turns ih =>
    obtain ⟨u, hu, hrun⟩ := (runSteps_succ _ _ _).1 hrun
    have hI : Inv (withEvents (turns.map .agent) s) := h.env_tick _ s.tick
    rw [step_eq_agentStep_of_turn hev, agentStep_of_not_enabled (hI.none_enabled hst hsp b)] at hu
    cases hu
    obtain ⟨env, rfl⟩ := ih hI hst hsp rfl hrun
    exact ⟨env, rfl⟩

/-- Completing leaves the outcome at once. -/
theorem Job.Done.outcome (h : J.Done (transformEnded s)) : J.Outcome s (respond 0x04 J.tag .ok (transformEnded s)) :=
  ⟨⟨h.engine_eq, h.output⟩, fun _ _ => rfl, rfl, rfl, rfl, rfl⟩

/-- Only the output range changes in the course of a transform that runs alone. -/
theorem Job.Running.outside {b : Agent} (h : J.Running s xf) (hI : Inv s) (hsp : s.sp.state ≠ .running)
    (hen : enabled s b = true) (hx : Machine.agentAct b s = .next t) {x : Nat}
    (hout : x < J.dst ∨ J.dst + J.data.length ≤ x) : byteAt t.mem x = byteAt s.mem x := by
  by_contra hne
  obtain ⟨xf', hxf, hlow, hhigh⟩ | ⟨dst, dsz, hrun, -⟩ := hI.agentAct_changesOnly hen hx x hne
  · cases h.record.symm.trans hxf
    rw [h.dst_eq] at hlow hhigh
    rw [h.len_eq] at hhigh
    omega
  · exact hsp hrun

/-- A transform alone with its agents: whatever turns they take, when the engine is ready the job is done. -/
theorem Job.Running.outcome_of_turns (turns : List Agent) (h : J.Running s xf) (hI : Inv s) (hJ : J.Legal)
    (hsp : s.sp.state ≠ .running) (hev : s.env.events = turns.map .agent)
    (hrun : runSteps turns.length s = .next t) (hready : t.bm.state = .ready) : J.Outcome s t := by
  induction turns generalizing s xf with
  | nil =>
    cases hrun
    obtain ⟨hst, -⟩ := hI.transform_facts h.record
    cases hready.symm.trans hst
  | cons b turns ih =>
    obtain ⟨u, hu, hrun⟩ := (runSteps_succ _ _ _).1 hrun
    have hI' : Inv (withEvents (turns.map .agent) s) := hI.env_tick _ s.tick
    have h' : J.Running (withEvents (turns.map .agent) s) xf := h.of_same rfl rfl (fun _ _ => rfl) (fun _ _ => rfl)
    rw [step_eq_agentStep_of_turn hev] at hu
    obtain ⟨hen, hact⟩ | ⟨-, rfl⟩ := agentStep_cases _ _ _ hu
    · have hIu := hI'.agentAct hen hact
      have hb : bmeAgent b = true := by
        cases b with
        | ctl | lane => rfl
        | seq => exact absurd (enabled_seq_iff.1 hen).1 hsp
        | rdr => exact absurd (enabled_rdr_iff.1 hen).1 hsp
        | csm => exact absurd (enabled_csm_iff.1 hen).1 hsp
      obtain ⟨xf', hgo, hw⟩ | ⟨hdone, rfl⟩ := h'.agentAct hI' hJ hb hen hact
      · refine (ih hgo hIu ?_ (by rw [hw.env]; rfl) hrun).after_steps (fun x hx => ?_) hw.regs hw.rsp hw.evt hw.sp
        · rw [hw.sp]
          exact hsp
        · exact h'.outside hI' hsp hen hact hx
      · have hst : (transformEnded s).bm.state ≠ .transforming := nofun
        obtain ⟨env, rfl⟩ := runSteps_of_idle turns hIu hst hsp rfl hrun
        have out := hdone.outcome
        exact ⟨⟨out.done.engine_eq, out.done.output⟩, out.outside, out.regs, out.rsp, out.evt, out.sp⟩
    · exact (ih h' hI' hsp rfl hrun).after_steps (fun _ _ => rfl) rfl rfl rfl rfl

end Sys2Proof.Machine

namespace Sys2Proof.Proofs

open Sys2Proof.Machine

/-- Settles O56: the accepted job runs from the start, and every order of turns that ends it ends it done. -/
theorem transformResult : Obligations.TransformResult := by
  intro s t0 t tag turns a o hI hsp hx ht0 hst ha ho hrun hready
  obtain ⟨c, mode, he, hJ, hgo⟩ := Job.running_of_accepted hI hst ha ho hx ht0
  obtain ⟨-, heq⟩ := execBmXfrm_accepted hst ha ho hx ht0
  have hsp0 : t0.sp.state ≠ .running := by rwa [heq]
  have out := Job.Running.outcome_of_turns turns (s := withEvents (turns.map .agent) t0)
    (hgo.of_same rfl rfl (fun _ _ => rfl) (fun _ _ => rfl)) ((hI.bmXfrm hx).env_tick _ _) hJ hsp0 rfl hrun hready
  subst heq
  obtain ⟨gstate, -⟩ := (registersOk_iff s).1 hI.registers
  refine ⟨c, mode, he, ?_, fun x hx => ?_, out.done.engine_eq, ?_, out.rsp, out.evt, out.sp⟩
  · have := out.done.output
    rwa [Job.accepted, bytesAt_length] at this
  · refine out.outside x ?_
    rwa [Job.accepted, bytesAt_length]
  · rw [out.regs]
    show { s.regs with bmState := 1 } = s.regs
    rw [hst] at gstate
    rw [show (1 : Word) = s.regs.bmState from gstate.symm]

end Sys2Proof.Proofs
end

section
/-! SUPPORT. What runs beside a transform (70_reset_and_hazards.md R300, R304): commands of either unit, a stream run
and the host's accesses leave the engine and its lanes alone, answer no `BM_XFRM` with `Ok`, and write nothing in the
transform's ranges as long as the host spares them; and the obligation about a transform's result whatever the host
does. -/

-- One declaration after another, so that the joined text needs no more worker threads than the check has memory for.
set_option Elab.async false

namespace Sys2Proof.Machine

variable {s t u : State} {tag : BitVec 8}

/-! ### Steps that leave the engine alone -/

/-- No word of the list answers a `BM_XFRM` with `Ok`. -/
def NoTransformAnswer (words : List Word) : Prop := ∀ tag, responseWord 0x04 tag .ok ∉ words

theorem noTransformAnswer_nil : NoTransformAnswer [] := fun _ => List.not_mem_nil

theorem NoTransformAnswer.append {ws vs : List Word} (h : NoTransformAnswer ws) (k : NoTransformAnswer vs) :
    NoTransformAnswer (ws ++ vs) := fun tag hw => (List.mem_append.1 hw).elim (h tag) (k tag)

/-- The answer of another command, or another code. -/
theorem noTransformAnswer_singleton {op tag : BitVec 8} {code : Code} (h : op ≠ 0x04 ∨ code ≠ .ok) :
    NoTransformAnswer [responseWord op tag code] := by
  intro tag' hw
  have heq := List.mem_singleton.1 hw
  obtain hop | hcode := h
  · have := congrArg (BitVec.extractLsb' 0 8) heq
    rw [responseWord_opcode, responseWord_opcode] at this
    exact hop this.symm
  · have := congrArg (BitVec.extractLsb' 16 8) heq
    rw [responseWord_code, responseWord_code] at this
    cases code with
    | ok => exact hcode rfl
    | _ => exact absurd this (by decide)

/-- What a step of the stream unit, or of the host, leaves of the engine, and what it may answer. -/
structure SparesEngine (s t : State) : Prop where
  bm : t.bm = s.bm
  lanes : t.lanes = s.lanes
  rsp : ∃ more, t.rsp = s.rsp ++ more ∧ NoTransformAnswer more

namespace SparesEngine

theorem of_quiet (hbm : t.bm = s.bm) (hlanes : t.lanes = s.lanes) (hrsp : t.rsp = s.rsp) : SparesEngine s t :=
  ⟨hbm, hlanes, [], by rw [hrsp, List.append_nil], noTransformAnswer_nil⟩

theorem trans (h : SparesEngine s t) (k : SparesEngine t u) : SparesEngine s u := by
  obtain ⟨ws, hws, hn⟩ := h.rsp
  obtain ⟨vs, hvs, kn⟩ := k.rsp
  exact ⟨k.bm.trans h.bm, k.lanes.trans h.lanes, ws ++ vs, by rw [hvs, hws, List.append_assoc], hn.append kn⟩

/-- Work that spares the engine, then an answer that is none to a `BM_XFRM`. -/
theorem answer {op : BitVec 8} {code : Code} (hop : op ≠ 0x04 ∨ code ≠ .ok) (tag : BitVec 8) (h : SparesEngine s t) :
    SparesEngine s (respond op tag code t) :=
  h.trans ⟨rfl, rfl, _, rfl, noTransformAnswer_singleton hop⟩

theorem rejectedAs {op : BitVec 8} {codes : List Code} (h : rejectedAs op tag codes s t) : SparesEngine s t := by
  obtain ⟨code, -, hne, rfl⟩ := h
  exact answer (.inr hne) tag (of_quiet rfl rfl rfl)

/-! ### The stream unit, but for runs of class 3 -/

theorem restoreTarget (hc : s.sp.cls ≠ .cipher) (h : restoreTarget s = some t) : SparesEngine s t := by
  obtain ⟨-, d, -, rfl⟩ | ⟨-, m, -, rfl⟩ | ⟨hcls, -⟩ | ⟨-, rfl⟩ := restoreTarget_cases s t h
  · exact of_quiet rfl rfl rfl
  · exact of_quiet rfl rfl rfl
  · exact absurd hcls hc
  · exact of_quiet rfl rfl rfl

theorem abortRun {code : Code} (hc : s.sp.cls ≠ .cipher) (h : abortRun code s = .next t) : SparesEngine s t := by
  obtain ⟨u, hu, rfl⟩ := abortRun_answers h
  have emptied : SparesEngine s { s with sp := { s.sp with queue := [] } } := of_quiet rfl rfl rfl
  have restored := emptied.trans (restoreTarget (s := { s with sp := { s.sp with queue := [] } }) hc hu)
  exact answer (.inl (by decide)) _ (restored.trans (of_quiet rfl rfl rfl))

theorem finish (hc : s.sp.cls ≠ .cipher) (h : finish s = .next t) : SparesEngine s t := by
  obtain ⟨u, v, hu, hv, rfl⟩ := finish_answers h
  have stored : SparesEngine s u ∧ u.sp = s.sp := by
    obtain ⟨-, p, st, dst, dsz, -, -, -, -, rfl⟩ | ⟨-, rfl⟩ := storeCode_cases s u hu <;>
      exact ⟨of_quiet rfl rfl rfl, rfl⟩
  obtain ⟨stored, hsp⟩ := stored
  have restored := stored.trans (restoreTarget (by rwa [hsp]) hv)
  exact answer (.inl (by decide)) _ (restored.trans (of_quiet rfl rfl rfl))

theorem feed_fed {bs : List Byte} (hc : s.sp.cls ≠ .cipher) (h : feed bs s = .fed t) :
    SparesEngine s t ∧ t.sp.cls ≠ .cipher := by
  obtain ⟨u, hu, rfl⟩ := Machine.feed_fed bs s t h
  obtain ⟨-, p, st, -, -, rfl⟩ | ⟨hcls, -⟩ | ⟨-, rfl⟩ := feedTarget_fed bs s u hu
  · exact ⟨of_quiet rfl rfl rfl, hc⟩
  · exact absurd hcls hc
  · exact ⟨of_quiet rfl rfl rfl, hc⟩

/-- Only a sink that refuses the bytes of a class 3 run ends one while it feeds. -/
theorem not_feed_ended {bs : List Byte} (hc : s.sp.cls ≠ .cipher) : feed bs s ≠ .ended (.next t) := fun h =>
  hc (feedTarget_ended bs s t (feed_ended bs s _ h)).1

theorem seqStep (hc : s.sp.cls ≠ .cipher) (h : seqStep s = .next t) : SparesEngine s t := by
  have moved : SparesEngine s (sourceMoved s) := of_quiet rfl rfl rfl
  have advanced : SparesEngine s (advanceReader (requestSize s) (sourceMoved s)) := of_quiet rfl rfl rfl
  obtain ⟨-, ha⟩ | ⟨-, -, ha⟩ | ⟨bs, -, -, -, ha⟩ | ⟨bs, -, -, -, he | ⟨u, hu, hend⟩⟩ := seqStep_cases s t h
  · exact abortRun hc ha
  · exact moved.trans (abortRun (s := sourceMoved s) hc ha)
  · exact moved.trans (abortRun (s := sourceMoved s) hc ha)
  · exact absurd he (not_feed_ended (s := advanceReader (requestSize s) (sourceMoved s)) hc)
  · obtain ⟨fed, hcu⟩ := feed_fed (s := advanceReader (requestSize s) (sourceMoved s)) hc hu
    obtain ⟨-, hfin⟩ | ⟨-, rfl⟩ := hend
    · exact (advanced.trans fed).trans (finish hcu hfin)
    · exact advanced.trans fed

theorem rdrStep (h : rdrStep s = .next t) : SparesEngine s t := by
  obtain ⟨-, rfl⟩ | ⟨-, -, rfl⟩ | ⟨bs, -, -, -, rfl⟩ | ⟨bs, -, -, -, rfl⟩ := rdrStep_cases s t h <;>
    exact of_quiet rfl rfl rfl

theorem csmStep (hc : s.sp.cls ≠ .cipher) (h : csmStep s = .next t) : SparesEngine s t := by
  obtain ⟨code, -, ha⟩ | ⟨-, -, rfl⟩ | ⟨bs, rest, -, -, he | ⟨u, hu, hend⟩⟩ := csmStep_cases s t h
  · exact abortRun hc ha
  · exact of_quiet rfl rfl rfl
  · exact absurd he (not_feed_ended (s := { s with sp := { s.sp with queue := rest } }) hc)
  · have popped : SparesEngine s { s with sp := { s.sp with queue := rest } } := of_quiet rfl rfl rfl
    obtain ⟨fed, hcu⟩ := feed_fed (s := { s with sp := { s.sp with queue := rest } }) hc hu
    obtain ⟨-, -, hfin⟩ | ⟨-, rfl⟩ := hend
    · exact (popped.trans fed).trans (finish hcu hfin)
    · exact popped.trans fed

theorem acceptRun {out : Option (Nat × Nat)} {nbs : Nat} (hc : s.sp.cls ≠ .cipher)
    (h : acceptRun tag out nbs s = .next t) : SparesEngine s t := by
  have started : SparesEngine s (startRun tag out nbs s) := by
    rw [startRun_eq, if_neg hc]
    exact of_quiet rfl rfl rfl
  obtain ⟨-, hfin⟩ | ⟨-, rfl⟩ := acceptRun_cases tag out nbs s t h
  · refine started.trans (finish ?_ hfin)
    rw [startRun_eq, if_neg hc]
    exact hc
  · exact started

/-! ### Commands while the engine is transforming -/

/-- A command of the engine is rejected, and one of the stream unit does not touch the engine (60_exceptions.md
R258). -/
theorem exec {i : Instr} (hst : s.bm.state = .transforming) (h : exec i s = .next t) : SparesEngine s t := by
  have hready : s.bm.state ≠ .ready := by simp [hst]
  cases i with
  | nop tag =>
    cases h
    exact answer (.inl (by decide)) tag (of_quiet rfl rfl rfl)
  | bmNew tag sel kind =>
    obtain hr | ⟨mode, c, hfree, -⟩ := execBmNew_cases tag sel kind s t h
    · exact rejectedAs hr
    · exact absurd hst hfree
  | bmInit tag f =>
    obtain hr | ⟨hfree, -⟩ := execBmInit_cases tag f s t h
    · exact rejectedAs hr
    · exact absurd hst hfree
  | bmXblk tag =>
    obtain hr | ⟨a, o, c, mode, hr, -⟩ := execBmXblk_cases tag s t h
    · exact rejectedAs hr
    · exact absurd hr hready
  | bmXfrm tag =>
    obtain hr | ⟨a, o, hr, -⟩ := execBmXfrm_cases tag s t h
    · exact rejectedAs hr
    · exact absurd hr hready
  | bmSetpbs tag =>
    obtain hr | ⟨hfree, -⟩ := execBmSetpbs_cases tag s t h
    · exact rejectedAs hr
    · exact absurd hst hfree
  | bmSetpar tag f =>
    obtain hr | ⟨hfree, -⟩ := execBmSetpar_cases tag f s t h
    · exact rejectedAs hr
    · exact absurd hst hfree
  | bmRelease tag =>
    obtain hr | ⟨hfree, -⟩ := execBmRelease_cases tag s t h
    · exact rejectedAs hr
    · exact absurd hst hfree
  | spNew tag sel kind =>
    obtain hr | ⟨-, ⟨-, d, -, rfl⟩ | ⟨-, -, rfl⟩ | ⟨-, -, rfl⟩⟩ := execSpNew_cases tag sel kind s t h
    · exact rejectedAs hr
    all_goals exact answer (.inl (by decide)) tag (of_quiet rfl rfl rfl)
  | spKey tag =>
    obtain hr | ⟨m, -, -, -, -, rfl⟩ := execSpKey_cases tag s t h
    · exact rejectedAs hr
    · exact answer (.inl (by decide)) tag (of_quiet rfl rfl rfl)
  | spRun tag =>
    obtain hr | ⟨-, -, ⟨hcls, p, o, -, -, ha⟩ | ⟨-, hr, -⟩⟩ := execSpRun_cases tag s t h
    · exact rejectedAs hr
    · refine acceptRun ?_ ha
      obtain hcls | hcls := hcls <;> simp [hcls]
    · exact absurd hr hready
  | spCancel tag =>
    obtain ⟨-, rfl⟩ | ⟨-, rfl⟩ := execSpCancel_cases tag s t h <;>
      exact answer (.inl (by decide)) tag (of_quiet rfl rfl rfl)
  | spRelease tag =>
    obtain hr | ⟨-, rfl⟩ := execSpRelease_cases tag s t h
    · exact rejectedAs hr
    · exact answer (.inl (by decide)) tag (of_quiet rfl rfl rfl)

theorem issue {w : Word} (hst : s.bm.state = .transforming) (h : issue w s = .next t) : SparesEngine s t := by
  obtain ⟨i, -, hi⟩ | ⟨op, tag, -, rfl⟩ | ⟨op, tag, -, rfl⟩ := issue_cases w s t h
  · exact exec hst hi
  · exact answer (code := .unsupported) (.inr nofun) tag (of_quiet rfl rfl rfl)
  · exact answer (code := .invalidParameter) (.inr nofun) tag (of_quiet rfl rfl rfl)

end SparesEngine

/-! ### Ranges the host spares (R300) -/

/-- The run in progress stores its code elsewhere. -/
theorem not_runOutput_of_runSpares {a n x : Nat} (h : runSpares a n s = true) (hx : a ≤ x ∧ x < a + n) :
    ¬ runOutput s x := by
  rintro ⟨dst, dsz, hrun, hout, hlow, hhigh⟩
  rw [runSpares, hrun, hout] at h
  exact (apart_iff _ _ _ _).1 h x hx.1 hx.2 hlow hhigh

/-- The command about to be issued writes elsewhere: an `SP_RUN` with a code to store, since a `BM_XBLK` is rejected. -/
theorem issue_spares_byte {a n x : Nat} {w : Word} {rest : List Event} (he : s.env.events = .issue w :: rest)
    (hs : eventSpares a n s = true) (hwf : Memory.wf s.mem = true) (hst : s.bm.state = .transforming)
    (hx : a ≤ x ∧ x < a + n) (h : issue w (withEvents rest s) = .next t) : byteAt t.mem x = byteAt s.mem x := by
  by_contra hne
  obtain ⟨i, hd, hc⟩ := issue_changesOnly (s := withEvents rest s) hwf h x hne
  rw [issue_of_decode hd] at h
  cases i with
  | bmXblk tag =>
    obtain hr | ⟨a, o, c, mode, hr, -⟩ := execBmXblk_cases tag _ t h
    · exact hne (congrArg (byteAt · x) (rejectedAs_mem hr :))
    · cases hst.symm.trans hr
  | spRun tag =>
    obtain ⟨p, o, hp, ho, hlow, hhigh⟩ := hc
    have hp : streamPrim? s.sp.cls s.sp.kind = some p := hp
    have ho : outputRange s p.digestSize = some o := ho
    simp only [eventSpares, he, hd, hp, ho, Bool.or_eq_true, bne_iff_ne] at hs
    obtain hr | ⟨harmed, -⟩ := execSpRun_cases tag _ t h
    · exact hne (congrArg (byteAt · x) (rejectedAs_mem hr :))
    · exact (apart_iff _ _ _ _).1 (hs.resolve_left (not_not.2 harmed)) x hx.1 hx.2 hlow hhigh
  | _ => exact hc

/-- A store of the host goes elsewhere. -/
theorem store_spares_byte {a n x b : Nat} {bs : List Byte} {rest : List Event}
    (he : s.env.events = .memWrite b bs :: rest) (hs : eventSpares a n s = true) (hwf : Memory.wf s.mem = true)
    (hx : a ≤ x ∧ x < a + n) : byteAt (setBytes s.mem b bs) x = byteAt s.mem x := by
  simp only [eventSpares, he] at hs
  exact byteAt_setBytes_of_not_mem _ _ _ _ hwf fun hb => (apart_iff _ _ _ _).1 hs x hx.1 hx.2 hb.1 hb.2

/-! ### A transform with everything else beside it -/

/-- The bytes of a range. -/
def SameBytes (a n : Nat) (s t : State) : Prop := ∀ x, a ≤ x ∧ x < a + n → byteAt t.mem x = byteAt s.mem x

/-- An agent of the stream unit beside a transform: the run is of another class, and its code goes elsewhere. -/
theorem Inv.spuAgent_spares {b : Agent} (hI : Inv s) (hxf : s.bm.xf ≠ none) (hb : bmeAgent b = false)
    (hen : enabled s b = true) (hx : Machine.agentAct b s = .next t) :
    SparesEngine s t ∧ ∀ a n, runSpares a n s = true → SameBytes a n s t := by
  obtain ⟨-, hnot⟩ := (engineHeldOk_iff s).1 hI.engineHeld
  have hc (hrun : s.sp.state = .running) : s.sp.cls ≠ .cipher := fun hcls => hnot ⟨hxf, hrun, hcls⟩
  have same (hrun : s.sp.state = .running) (hm : ChangesOnly (recordedOutput s) s t) (a n : Nat)
      (hs : runSpares a n s = true) : SameBytes a n s t := fun x hin => by
    by_contra hne
    exact not_runOutput_of_runSpares hs hin (runOutput_of_recorded hrun (hm x hne))
  cases b with
  | ctl | lane => cases hb
  | seq =>
    obtain ⟨hrun, -⟩ := enabled_seq_iff.1 hen
    exact ⟨.seqStep (hc hrun) hx, same hrun (seqStep_changesOnly hI.memory_wf hx)⟩
  | rdr => exact ⟨.rdrStep hx, fun _ _ _ _ _ => congrArg (byteAt · _) (rdrStep_mem hx)⟩
  | csm =>
    obtain ⟨hrun, -⟩ := enabled_csm_iff.1 hen
    exact ⟨.csmStep (hc hrun) hx, same hrun (csmStep_changesOnly hI.memory_wf hx)⟩

namespace Job

variable {J : Job} {xf : Transform}

/-- What a step may do to a job in progress: carry it on, answering no `BM_XFRM` with `Ok`, or end it with its
response. -/
def Goes (J : Job) (s t : State) : Prop :=
  (∃ xf more, J.Running t xf ∧ t.rsp = s.rsp ++ more ∧ NoTransformAnswer more) ∨
    (J.Done t ∧ t.bm.state = .ready ∧ t.rsp = s.rsp ++ [responseWord 0x04 J.tag .ok])

/-- A step that spares the engine and the two ranges carries the job on. -/
theorem Running.beside (h : J.Running s xf) (hs : SparesEngine s t) (hsrc : SameBytes J.src J.data.length s t)
    (hdst : SameBytes J.dst J.data.length s t) : J.Goes s t := by
  obtain ⟨more, hmore, hno⟩ := hs.rsp
  exact .inl ⟨xf, more, h.of_same hs.bm hs.lanes (fun j hj => hsrc _ (by omega)) (fun j hj => hdst _ (by omega)),
    hmore, hno⟩

theorem Running.agent {b : Agent} (h : J.Running s xf) (hI : Inv s) (hJ : J.Legal)
    (hsrc : runSpares J.src J.data.length s = true) (hdst : runSpares J.dst J.data.length s = true)
    (hen : enabled s b = true) (hx : Machine.agentAct b s = .next t) : J.Goes s t := by
  cases hb : bmeAgent b with
  | true =>
    obtain ⟨xf', hgo, hw⟩ | ⟨hdone, rfl⟩ := h.agentAct hI hJ hb hen hx
    · exact .inl ⟨xf', [], hgo, by rw [hw.rsp, List.append_nil], noTransformAnswer_nil⟩
    · exact .inr ⟨hdone.outcome.done, rfl, rfl⟩
  | false =>
    obtain ⟨hs, same⟩ := hI.spuAgent_spares (by simp [h.record]) hb hen hx
    exact h.beside hs (same _ _ hsrc) (same _ _ hdst)

/-- Any step, as long as the host spares the ranges of the job. -/
theorem Running.step (h : J.Running s xf) (hI : Inv s) (hJ : J.Legal)
    (hspare : leavesRangesAlone J.src J.dst J.data.length s = true) (hx : step s = .next t) : J.Goes s t := by
  obtain ⟨hesrc, hedst, hrsrc, hrdst⟩ := (leavesRangesAlone_iff _ _ _ _).1 hspare
  obtain ⟨hst, -⟩ := hI.transform_facts h.record
  obtain ⟨e, rest, he, -, hh⟩ | ⟨-, hf⟩ := step_cases s t hx
  · have hI' : Inv (withEvents rest s) := hI.env_tick _ s.tick
    have h' : J.Running (withEvents rest s) xf := h.of_same rfl rfl (fun _ _ => rfl) (fun _ _ => rfl)
    cases e with
    | issue w =>
      have spares : SparesEngine (withEvents rest s) t := .issue hst hh
      exact h'.beside spares (fun x hin => issue_spares_byte (s := s) he hesrc hI.memory_wf hst hin hh)
        (fun x hin => issue_spares_byte (s := s) he hedst hI.memory_wf hst hin hh)
    | memWrite b bs =>
      obtain ⟨-, rfl⟩ := hostMemWrite_cases b bs _ t hh
      exact h.beside (.of_quiet rfl rfl rfl) (fun x hin => store_spares_byte (s := s) he hesrc hI.memory_wf hin)
        (fun x hin => store_spares_byte (s := s) he hedst hI.memory_wf hin)
    | regWrite i v =>
      cases hh
      rw [regWrite_eq]
      exact h.beside (.of_quiet rfl rfl rfl) (fun _ _ => rfl) (fun _ _ => rfl)
    | memRead b k =>
      obtain ⟨-, rfl⟩ := hostMemRead_cases b k _ t hh
      exact h.beside (.of_quiet rfl rfl rfl) (fun _ _ => rfl) (fun _ _ => rfl)
    | agent b =>
      obtain ⟨hen, hact⟩ | ⟨-, rfl⟩ := agentStep_cases b _ t hh
      · exact h'.agent hI' hJ hrsrc hrdst hen hact
      · exact h.beside (.of_quiet rfl rfl rfl) (fun _ _ => rfl) (fun _ _ => rfl)
    | regRead | awaitRsp | awaitEvt | setSource | setSink =>
      cases hh
      exact h.beside (.of_quiet rfl rfl rfl) (fun _ _ => rfl) (fun _ _ => rfl)
    | reset =>
      simp only [eventSpares, he] at hesrc
      cases hesrc
  · obtain ⟨-, rfl⟩ | ⟨b, hen, hact⟩ := freeStep_cases s t hf
    · exact h.beside (.of_quiet rfl rfl rfl) (fun _ _ => rfl) (fun _ _ => rfl)
    · have h' : J.Running { s with tick := s.tick + 1 } xf := h.of_same rfl rfl (fun _ _ => rfl) (fun _ _ => rfl)
      exact h'.agent (hI.env_tick s.env (s.tick + 1)) hJ hrsrc hrdst ((enabled_env_tick _ _ _ b).trans hen) hact

/-- A run of steps up to the one that ends the transform. -/
theorem Running.ends {n : Nat} (h : J.Running s xf) (hI : Inv s) (hJ : J.Legal)
    (hheld : heldDuring (fun u => leavesRangesAlone J.src J.dst J.data.length u && u.bm.state == .transforming) n s =
      true)
    (hrun : runSteps n s = .next t) (hready : t.bm.state = .ready) :
    J.Done t ∧ Inv t ∧ t.cfg = s.cfg ∧
      ∃ more, t.rsp = s.rsp ++ more ++ [responseWord 0x04 J.tag .ok] ∧ NoTransformAnswer more := by
  induction n generalizing s xf with
  | zero =>
    cases hrun
    obtain ⟨hst, -⟩ := hI.transform_facts h.record
    cases hready.symm.trans hst
  | succ n ih =>
    obtain ⟨hnow, u, hu, hheld⟩ := (heldDuring_succ _ _ _).1 hheld
    obtain ⟨u', hu', hrun⟩ := (runSteps_succ _ _ _).1 hrun
    cases hu.symm.trans hu'
    obtain ⟨hspare, -⟩ := (Bool.and_eq_true _ _).mp hnow
    have hIu := Proofs.everyStepKeepsInvariant s u hI hu
    obtain ⟨hcfg, -⟩ := Proofs.operandRegistersBelongToHost s u hu
    obtain ⟨xf', more, hgo, hrsp, hno⟩ | ⟨hdone, hend, hrsp⟩ := h.step hI hJ hspare hu
    · obtain ⟨hd, hIt, hc, more', hrsp', hno'⟩ := ih hgo hIu hheld hrun
      exact ⟨hd, hIt, hc.trans hcfg, more ++ more', by rw [hrsp', hrsp, List.append_assoc s.rsp], hno.append hno'⟩
    · cases n with
      | zero =>
        cases hrun
        exact ⟨hdone, hIu, hcfg, [], by rw [hrsp, List.append_nil], noTransformAnswer_nil⟩
      | succ n =>
        obtain ⟨hstill, -⟩ := (heldDuring_succ _ _ _).1 hheld
        simp [hend] at hstill

end Job

/-- The engine's registers show its fields and the build, none of which is the chain. -/
theorem engine_registers_eq (hs : Inv s) (ht : Inv t) (hcfg : t.cfg = s.cfg) {chain : List Byte}
    (hbm : t.bm = { s.bm with chain := chain }) :
    ∀ reg ∈ [Reg.bmState, .bmMode, .bmBlockSize, .bmParMin, .bmParMax, .bmParBlock, .bmIsParallel],
      getReg t reg = getReg s reg := by
  obtain ⟨s1, s2, s3, s4, s5, s6, s7, -⟩ := (registersOk_iff s).1 hs.registers
  obtain ⟨t1, t2, t3, t4, t5, t6, t7, -⟩ := (registersOk_iff t).1 ht.registers
  rw [hbm] at t1 t2 t3 t4 t5 t6 t7
  rw [hcfg] at t4 t5
  simp only [List.forall_mem_cons, List.not_mem_nil, false_imp_iff, implies_true, and_true]
  exact ⟨t1.trans s1.symm, t2.trans s2.symm, t3.trans s3.symm, t4.trans s4.symm, t5.trans s5.symm, t6.trans s6.symm,
    t7.trans s7.symm⟩

end Sys2Proof.Machine

namespace Sys2Proof.Proofs

open Sys2Proof.Machine

/-- Settles O59: every step carries the accepted job on or ends it, whoever takes it. -/
theorem transformResultUnderHost : Obligations.TransformResultUnderHost := by
  intro s t0 t tag steps a o hI hst ha ho hx ht0 hheld hrun hready
  obtain ⟨c, mode, he, hJ, hgo⟩ := Job.running_of_accepted hI hst ha ho hx ht0
  obtain ⟨-, heq⟩ := execBmXfrm_accepted hst ha ho hx ht0
  have len : (Job.accepted s tag a o c mode).data.length = s.regs.len.toNat := bytesAt_length _ _ _
  obtain ⟨hdone, hIt, hcfg, more, hrsp, hno⟩ := hgo.ends (hI.bmXfrm hx) hJ (by rw [len]; exact hheld) hrun hready
  have output := hdone.output
  rw [len] at output
  subst heq
  exact ⟨c, mode, more, he, output, hdone.engine_eq, engine_registers_eq hI hIt hcfg hdone.engine_eq, hrsp, hno tag⟩

end Sys2Proof.Proofs
end

section
/-! SUPPORT. The parallel path, step by step (41_parallel_decomposition.md): the geometry of the chunks (R160 to R162),
and what `Spawn`, `LaneStep` and `Join` answer under the invariant (R163 to R169). -/

namespace Sys2Proof.Machine

variable {s : State} {xf : Transform} {mode : CipherMode} {nc : List Byte} {i : Nat} {l : Lane}

/-! ### The chunks -/

theorem chunkStart_succ {k T t : Nat} (ht : t + 1 < T) :
    chunkStart k T (t + 1) = chunkStart k T t + chunkCount k T t := by
  rw [chunkCount, if_pos ht]
  exact Nat.succ_mul _ _

/-- The last chunk ends the parallel block: the last lane absorbs the remainder (R160). -/
theorem last_chunk_end {k T : Nat} (hT : 0 < T) : chunkStart k T (T - 1) + chunkCount k T (T - 1) = k := by
  have start_le : (T - 1) * (k / T) ≤ k := (Nat.mul_le_mul_right _ (Nat.sub_le T 1)).trans (Nat.mul_div_le k T)
  rw [chunkCount, if_neg (by omega)]
  exact Nat.add_sub_cancel' start_le

/-- Byte `x` of a parallel block lies in the chunk of lane `t`. -/
def InChunk (k T B t x : Nat) : Prop := chunkStart k T t * B ≤ x ∧ x < (chunkStart k T t + chunkCount k T t) * B

/-- Also with fewer blocks than lanes, where the last lane gets them all (R162). -/
theorem exists_inChunk {k T B x : Nat} (hT : 0 < T) (hx : x < k * B) : ∃ t, t < T ∧ InChunk k T B t x := by
  by_cases hk : T ≤ k
  · obtain ⟨t, ht, hlow, hhigh⟩ := exists_chunk hT hk hx
    exact ⟨t, ht, hlow, by rwa [Nat.add_mul]⟩
  · have start : chunkStart k T (T - 1) = 0 := by
      rw [chunkStart, blocksPerChunk, Nat.div_eq_of_lt (by omega), Nat.mul_zero]
    refine ⟨T - 1, by omega, ?_, ?_⟩
    · rw [start]
      omega
    · rwa [last_chunk_end hT]

theorem not_inChunk_of_lt {k T B t u x : Nat} (htu : t < u) (hu : u < T) (ht : InChunk k T B t x) :
    ¬ InChunk k T B u x := fun hin => by
  have := Nat.mul_le_mul_right B (chunk_end_le_start (k := k) htu hu)
  obtain ⟨-, hhigh⟩ := ht
  obtain ⟨hlow, -⟩ := hin
  omega

theorem inChunk_unique {k T B t u x : Nat} (ht : t < T) (hu : u < T) (hxt : InChunk k T B t x)
    (hxu : InChunk k T B u x) : u = t := by
  obtain hlt | heq | hgt := Nat.lt_trichotomy u t
  · exact absurd hxt (not_inChunk_of_lt hlt ht hxu)
  · exact heq
  · exact absurd hxu (not_inChunk_of_lt hgt hu hxt)

/-- The remainder clause of R160 never fires where the lanes divide the blocks (R162). -/
theorem chunkCount_of_mul {T m : Nat} (hT : 0 < T) (t : Nat) : chunkCount (T * m) T t = m := by
  unfold chunkCount blocksPerChunk
  rw [Nat.mul_div_cancel_left m hT]
  split
  · rfl
  · rw [← Nat.sub_mul, Nat.sub_sub_self hT, Nat.one_mul]

/-- A legal `parallel_block_size` gives every lane the same number of whole blocks, at least one (40 R140). -/
theorem Inv.unitBlocks_shared (h : Inv s) (hm : s.bm.mode ≠ none) :
    0 < s.cfg.threads ∧ ∃ m, 1 ≤ m ∧ unitBlocks s = s.cfg.threads * m := by
  obtain ⟨⟨hT, -⟩, -⟩ := (Params.ok_iff _).1 h.build
  obtain ⟨hnone, -⟩ | ⟨mode, c, -, -, hB, -, hlow, -, hmul⟩ := (selectionOk_iff s).1 h.selection
  · exact absurd hnone hm
  · obtain ⟨m, hpbs⟩ := Nat.dvd_of_mod_eq_zero hmul
    have hpos : 0 < parMin c.blockSize s.cfg.threads := Nat.mul_pos c.blockSize_pos hT
    refine ⟨hT, m, Nat.pos_of_ne_zero fun h0 => ?_, ?_⟩
    · rw [hpbs, h0, Nat.mul_zero] at hlow
      omega
    · rw [unitBlocks, hpbs, hB, parMin, Nat.mul_assoc, Nat.mul_div_cancel_left _ c.blockSize_pos]

/-! ### `Spawn` -/

theorem ctlStep_of_unit (hxf : s.bm.xf = some xf) (hp : xf.phase = .idle) (hn : 0 < xf.npar) :
    ctlStep s = spawn xf s := by
  simp only [ctlStep, hxf, hp, if_pos hn]

theorem bytesBefore_of_inside {a n : Nat} (hn : n ≤ a) (ha : a ≤ memSize s) :
    bytesBefore s a n = some (bytesAt s.mem (a - n) n) := by
  rw [bytesBefore, if_pos hn, memRead_of_inside (by omega)]

/-- The register lane `i` starts from (R163, R164). -/
def startReg (s : State) (mode : CipherMode) (xf : Transform) (i : Nat) : List Byte :=
  if mode = .ctr then addCounter s.bm.chain (i * blocksPerChunk (unitBlocks s) s.cfg.threads)
  else if i = 0 then s.bm.chain
  else bytesAt s.mem (xf.src + laneOffset s xf i - s.bm.blockSize) s.bm.blockSize

/-- The record lane `i` starts from (R165). -/
def startLane (s : State) (mode : CipherMode) (xf : Transform) (i : Nat) : Lane where
  busy := true
  key := s.bm.key
  reg := startReg s mode xf i
  src := xf.src + laneOffset s xf i
  dst := xf.dst + laneOffset s xf i
  n := chunkCount (unitBlocks s) s.cfg.threads i

/-- The chain value the join will install (R165). -/
def unitChain (s : State) (mode : CipherMode) (xf : Transform) : List Byte :=
  if mode = .ctr then addCounter s.bm.chain (unitBlocks s)
  else bytesAt s.mem (xf.src + xf.pos + s.bm.pbs - s.bm.blockSize) s.bm.blockSize

/-- Every chunk but the first starts at least one block into the transform, so the block before it is in the input
range (R164). -/
theorem Inv.laneStartReg_answers (h : Inv s) (hxf : s.bm.xf = some xf) (hn : 0 < xf.npar)
    (hi : i < s.cfg.threads) : laneStartReg s mode xf i = some (startReg s mode xf i) := by
  obtain ⟨-, hsrc, -⟩ := h.transform_facts hxf
  obtain ⟨c, m, eng⟩ := h.transform_engine hxf
  obtain ⟨-, hT, hT0⟩ := h.unit_blocks eng
  have hend := h.lane_chunk_end_le hxf hn hi
  have block_before (hi0 : i ≠ 0) : s.bm.blockSize ≤ laneOffset s xf i :=
    (Nat.le_mul_of_pos_left _ (Nat.mul_pos (Nat.pos_of_ne_zero hi0) (Nat.div_pos hT hT0))).trans
      (Nat.le_add_left _ _)
  cases mode with
  | ctr => rfl
  | cbc | cfb =>
    by_cases hi0 : i = 0
    · simp [laneStartReg, startReg, hi0]
    · have := block_before hi0
      simp only [laneStartReg, startReg, if_neg hi0, reduceCtorEq, if_false]
      exact bytesBefore_of_inside (by omega) (by omega)

theorem Inv.spawnLane_answers (h : Inv s) (hxf : s.bm.xf = some xf) (hn : 0 < xf.npar) (hi : i < s.cfg.threads) :
    spawnLane s mode xf i = some (startLane s mode xf i) := by
  rw [spawnLane, h.laneStartReg_answers hxf hn hi]
  rfl

theorem spawnLanes_answers {f : Nat → Lane} {ts : List Nat} (h : ∀ t ∈ ts, spawnLane s mode xf t = some (f t)) :
    spawnLanes s mode xf ts = some (ts.map f) := by
  induction ts with
  | nil => rfl
  | cons t ts ih =>
    rw [spawnLanes, h t List.mem_cons_self, ih fun u hu => h u (List.mem_cons_of_mem _ hu)]
    rfl

/-- The last block of the parallel block lies in the input range. -/
theorem Inv.unitNextChain_answers (h : Inv s) (hxf : s.bm.xf = some xf) (hn : 0 < xf.npar) :
    unitNextChain s mode xf = some (unitChain s mode xf) := by
  obtain ⟨-, hsrc, -, -, hpos, -⟩ := h.transform_facts hxf
  obtain ⟨c, m, eng⟩ := h.transform_engine hxf
  obtain ⟨hunit, hT, hT0⟩ := h.unit_blocks eng
  have one_unit : s.bm.pbs ≤ xf.npar * s.bm.pbs := Nat.le_mul_of_pos_left _ hn
  have one_block : s.bm.blockSize ≤ s.bm.pbs := hunit ▸ Nat.le_mul_of_pos_left _ (by omega)
  cases mode with
  | ctr => rfl
  | cbc | cfb => exact bytesBefore_of_inside (by omega) (by omega)

theorem Inv.spawn_answers (h : Inv s) (hxf : s.bm.xf = some xf) (hn : 0 < xf.npar) (hm : s.bm.mode = some mode) :
    Machine.spawn xf s =
      .next
        { s with
          lanes := (List.range s.cfg.threads).map (startLane s mode xf)
          bm := { s.bm with xf := some { xf with phase := .par (unitChain s mode xf) } } } := by
  have lanes : spawnLanes s mode xf (List.range s.cfg.threads) =
      some ((List.range s.cfg.threads).map (startLane s mode xf)) :=
    spawnLanes_answers fun t ht => h.spawnLane_answers hxf hn (List.mem_range.1 ht)
  simp only [Machine.spawn, hm, lanes, h.unitNextChain_answers hxf hn]

/-! ### `LaneStep` -/

/-- `blockStep` of a decryption gives the same block: CTR has no direction, and CBC and CFB have a parallel path only
when they decrypt (40 R126, R131). -/
theorem laneBlock_output_length {c : BlockCipher} {key reg x : List Byte} (hk : c.keyLenOk key.length = true)
    (hreg : reg.length = c.blockSize) (hx : x.length = c.blockSize) (hctr : mode = .ctr → c.blockSize = 16) :
    (laneBlock c mode key reg x).1.length = c.blockSize := by
  rw [laneBlock_eq_blockStep (enc := false) (.inr rfl)]
  exact (blockStep_length c mode false key reg x hk hreg hx hctr).1

/-- The block a busy lane reads next lies in the input range of its transform. -/
theorem Inv.lane_source_inside (h : Inv s) (hxf : s.bm.xf = some xf) (hp : xf.phase = .par nc)
    (hl : s.lanes[i]? = some l) (hn : 0 < l.n) :
    xf.src ≤ l.src ∧ l.src + s.bm.blockSize ≤ xf.src + xf.len := by
  obtain ⟨-, hlanes⟩ := h.par_facts hxf hp
  obtain ⟨-, -, -, -, hsrc, hdst⟩ := (laneBusyOk_iff s xf i l).1 (hlanes i l hl)
  obtain ⟨hlow, hhigh⟩ := h.lane_block_inside hxf hp hl hn
  omega

/-- A busy lane with blocks left reads a block, transforms it with its own key and register, and stores it whole. -/
theorem Inv.laneStep_answers {c : BlockCipher} (h : Inv s) (he : engine s = some (c, mode))
    (hl : s.lanes[i]? = some l) (hb : l.busy = true) (hn : 0 < l.n) :
    let r := laneBlock c mode l.key l.reg (bytesAt s.mem l.src s.bm.blockSize)
    r.1.length = s.bm.blockSize ∧
      Machine.laneStep i l s =
        .next
          { s with
            mem := setBytes s.mem l.dst r.1
            lanes :=
              s.lanes.set i
                { l with
                  reg := r.2
                  src := l.src + s.bm.blockSize
                  dst := l.dst + s.bm.blockSize
                  n := l.n - 1 } } := by
  intro r
  obtain ⟨xf, nc, hxf, hp⟩ := h.par_of_busy hl hb
  obtain ⟨hst, hsrcEnd, hdstEnd, -⟩ := h.transform_facts hxf
  obtain ⟨-, hlanes⟩ := h.par_facts hxf hp
  obtain ⟨-, hkey, hreg, -⟩ := (laneBusyOk_iff s xf i l).1 (hlanes i l hl)
  obtain ⟨-, hsrc⟩ := h.lane_source_inside hxf hp hl hn
  obtain ⟨-, hdst⟩ := h.lane_block_inside hxf hp hl hn
  have eng := engineReady_of_engine h.selection h.keyState (by simp [hst]) he
  have hlen : r.1.length = s.bm.blockSize :=
    (laneBlock_output_length (by rw [hkey]; exact eng.key_ok) (hreg.trans eng.blockSize_eq)
      (by rw [bytesAt_length, eng.blockSize_eq]) eng.ctr_block).trans eng.blockSize_eq.symm
  refine ⟨hlen, ?_⟩
  rw [Machine.laneStep, he]
  simp only [memRead_of_inside (hsrc.trans hsrcEnd), memWrite_block hlen (hdst.trans hdstEnd), r]

/-! ### `Join` -/

theorem ctlStep_of_par (hxf : s.bm.xf = some xf) (hp : xf.phase = .par nc) : ctlStep s = join xf nc s := by
  simp only [ctlStep, hxf, hp]

end Sys2Proof.Machine

namespace Sys2Proof.Proofs

open Sys2Proof.Machine

/-- Settles O49: in phase `Par` the step of `CTL` is `join`, whose `wipeLane` empties each lane. -/
theorem joinEndsParallelBlock : Obligations.JoinEndsParallelBlock := fun _ _ _ hxf hp => ctlStep_of_par hxf hp

/-- Settles O46: each byte is in some chunk, and in one only because a chunk ends before the next one starts. -/
theorem chunksPartitionBlock : Obligations.ChunksPartitionBlock := by
  refine ⟨fun k T B hT _ => ⟨fun t ht => chunkStart_succ ht, last_chunk_end hT, fun x hx => ?_⟩,
    fun s t h hm _ => ?_⟩
  · obtain ⟨t, ht, hin⟩ := exists_inChunk hT hx
    exact ⟨t, ht, hin, fun u hu hlow hhigh => inChunk_unique ht hu hin ⟨hlow, hhigh⟩⟩
  · obtain ⟨hT, m, hm1, hunit⟩ := h.unitBlocks_shared hm
    rw [hunit, chunkCount_of_mul hT, Nat.mul_div_cancel_left m hT]
    exact ⟨rfl, hm1⟩

/-- Settles O47: every block `Spawn` reads lies in the input range, so every lane gets its record. -/
theorem spawnCapturesLanes : Obligations.SpawnCapturesLanes := by
  intro s xf mode h hxf hp hn hm B k bpc base
  refine ⟨_, _, (ctlStep_of_unit hxf hp hn).trans (h.spawn_answers hxf hn hm), rfl, rfl, ?_, fun i hi => ?_⟩
  · rw [List.length_map, List.length_range]
  · rw [List.getElem?_map, List.getElem?_range hi, Option.map_some]
    rw [startLane, startReg, laneOffset, ← Nat.add_assoc, ← Nat.add_assoc]
    rfl

/-- Settles O48: the lane's two ranges lie in `MEM` and its output is one whole block. -/
theorem laneStepTransformsOneBlock : Obligations.LaneStepTransformsOneBlock := by
  intro s i l c mode h hen hl he B x y reg
  obtain ⟨l', hl', hb, hn⟩ := lane_of_laneEnabled hen
  cases hl.symm.trans hl'
  obtain ⟨hlen, hanswer⟩ := h.laneStep_answers he hl hb hn
  have hblock : laneBlock c mode l.key l.reg x = (y, reg) := by cases mode <;> rfl
  have hact : agentAct (.lane i) s = laneStep i l s := by rw [agentAct, hl]
  rw [hblock] at hlen hanswer
  refine ⟨_, hact.trans hanswer, ?_, fun a ha => ?_, rfl⟩
  · have stored := bytesAt_setBytes (a := l.dst) (v := y) h.memory_wf
    rwa [hlen] at stored
  · exact byteAt_setBytes_outside h.memory_wf (by rwa [hlen])

end Sys2Proof.Proofs
end

section
/-! SUPPORT. The positions of the progress events (42_stream_processor.md R202, R208): which they are, that the reports
of successive steps follow one another, and how many a whole stream has. -/

-- One declaration after another, so that the joined text needs no more worker threads than the check has memory for.
set_option Elab.async false

namespace Sys2Proof.Machine

variable {I total a b c p : Nat}

theorem progressPositions_of_pos (h : 0 < I) (a b total : Nat) :
    progressPositions I a b total =
      ((List.range (b / I - a / I)).map (fun j => (a / I + 1 + j) * I)).filter (fun p => decide (p < total)) :=
  if_neg (by omega)

theorem progressPositions_zero (a b total : Nat) : progressPositions 0 a b total = [] := rfl

/-- A step that feeds no byte reports nothing. -/
theorem progressPositions_self (I a total : Nat) : progressPositions I a a total = [] := by
  obtain rfl | h := Nat.eq_zero_or_pos I
  · rfl
  · rw [progressPositions_of_pos h, Nat.sub_self]
    rfl

/-- The reports of two steps on end are those of the two together. -/
theorem progressPositions_append (I total : Nat) (hab : a ≤ b) (hbc : b ≤ c) :
    progressPositions I a c total = progressPositions I a b total ++ progressPositions I b c total := by
  obtain rfl | h := Nat.eq_zero_or_pos I
  · rfl
  have hab := Nat.div_le_div_right (c := I) hab
  have hbc := Nat.div_le_div_right (c := I) hbc
  have split : c / I - a / I = (b / I - a / I) + (c / I - b / I) := by omega
  have shift : ∀ j, a / I + 1 + (b / I - a / I + j) = b / I + 1 + j := fun j => by omega
  simp only [progressPositions_of_pos h, split, List.range_add, List.map_append, List.map_map, List.filter_append,
    Function.comp_def, shift]

theorem mem_progressPositions_iff (h : 0 < I) :
    p ∈ progressPositions I a b total ↔ a < p ∧ p ≤ b ∧ p < total ∧ p % I = 0 := by
  simp only [progressPositions_of_pos h, List.mem_filter, List.mem_map, List.mem_range, decide_eq_true_eq]
  constructor
  · rintro ⟨⟨j, hj, rfl⟩, hlt⟩
    have past : a / I < a / I + 1 + j := by omega
    have reached : a / I + 1 + j ≤ b / I := by omega
    exact ⟨(Nat.div_lt_iff_lt_mul h).1 past, (Nat.le_div_iff_mul_le h).1 reached, hlt, Nat.mul_mod_left _ _⟩
  · rintro ⟨hap, hpb, hlt, hmod⟩
    obtain ⟨k, rfl⟩ : ∃ k, p = k * I := ⟨_, (Nat.div_mul_cancel (Nat.dvd_of_mod_eq_zero hmod)).symm⟩
    have past : a / I < k := (Nat.div_lt_iff_lt_mul h).2 hap
    have reached : k ≤ b / I := (Nat.le_div_iff_mul_le h).2 hpb
    exact ⟨⟨k - (a / I + 1), by omega, by rw [Nat.add_sub_cancel' past]⟩, hlt⟩

theorem filter_range_lt {k n : Nat} (h : k ≤ n) : (List.range n).filter (fun j => decide (j < k)) = List.range k := by
  obtain ⟨m, rfl⟩ := Nat.exists_eq_add_of_le h
  rw [List.range_add, List.filter_append, List.filter_eq_self.2 (by simp), List.filter_eq_nil_iff.2 (by simp),
    List.append_nil]

/-- A whole stream reports the multiples `m * I` below its end, one fewer than `ceil(total / I)`; none where there is no
interval. -/
theorem progressPositions_whole (I total : Nat) :
    progressPositions I 0 total total = (List.range ((total + I - 1) / I - 1)).map (fun m => (m + 1) * I) := by
  obtain rfl | h := Nat.eq_zero_or_pos I
  · rw [progressPositions_zero, Nat.div_zero]
    rfl
  have below : ∀ j, (j + 1) * I < total ↔ j < (total + I - 1) / I - 1 := fun j => by
    have hdiv := Nat.lt_div_iff_mul_lt (x := j + 1) (y := total + I - 1) h
    rw [show total + I - 1 - (I - 1) = total by omega] at hdiv
    rw [← hdiv]
    omega
  have count : (total + I - 1) / I - 1 ≤ total / I := by
    have : (total + I - 1) / I ≤ (total + I) / I := Nat.div_le_div_right (by omega)
    rw [Nat.add_div_right _ h] at this
    exact Nat.sub_le_of_le_add this
  simp only [progressPositions_of_pos h, Nat.zero_div, Nat.sub_zero, List.filter_map, Function.comp_def, Nat.zero_add,
    Nat.add_comm 1, below, filter_range_lt count]

end Sys2Proof.Machine

namespace Sys2Proof.Proofs

open Sys2Proof.Machine

/-- Settles O50: a report is a multiple of the interval that the step passes. -/
theorem progressPositions : Obligations.ProgressPositions := fun I total _ _ _ hI hab hbc =>
  ⟨progressPositions_append I total hab hbc, progressPositions_whole I total, fun _ => mem_progressPositions_iff hI⟩

end Sys2Proof.Proofs
end

section
/-! SUPPORT. The commands of the stream unit at issue (42_stream_processor.md R192, R194, R199 to R201, R218, R220) and
the five outcomes of the reader's step (R205): the obligations that state them branch by branch. -/

-- One declaration after another, so that the joined text needs no more worker threads than the check has memory for.
set_option Elab.async false

namespace Sys2Proof.Machine

variable {s : State} {tag sel : BitVec 8} {kind : BitVec 16} {bs : List Byte}

/-! ### Words of the status registers -/

theorem spStateWord_attached (path : Bool) : spStateWord .attached path = 1 ||| (if path then 4 else 0) := by
  cases path <;> decide

theorem spStateWord_armed_or (path : Bool) : spStateWord .armed path = 2 ||| (if path then 4 else 0) := by
  cases path <;> decide

theorem spStateWord_armed (path : Bool) : spStateWord .armed path = if path then 6 else 2 := by
  cases path <;> decide

theorem spStateWord_running (path : Bool) : spStateWord .running path = if path then 7 else 3 := by
  cases path <;> decide

theorem spStateWord_released (path : Bool) : spStateWord .empty path = if path then 4 else 0 := by
  cases path <;> decide

theorem spKindWord_digest (kind : BitVec 16) :
    spKindWord .digest kind = BitVec.ofNat 64 ((1 : BitVec 8).toNat + kind.toNat * 65536) := rfl

theorem spKindWord_mac (kind : BitVec 16) :
    spKindWord .mac kind = BitVec.ofNat 64 ((2 : BitVec 8).toNat + kind.toNat * 65536) := rfl

theorem spKindWord_cipher (kind : BitVec 16) :
    spKindWord .cipher kind = BitVec.ofNat 64 ((3 : BitVec 8).toNat + kind.toNat * 65536) := rfl

theorem classOfSel_eq_none (h1 : sel ≠ 1) (h2 : sel ≠ 2) (h3 : sel ≠ 3) : classOfSel sel = none :=
  (if_neg h1).trans ((if_neg h2).trans (if_neg h3))

/-! ### The checks of `SP_RUN` -/

/-- What a run of class 3 asks of the engine (42 R200). -/
def engineServes (s : State) : Prop := s.bm.state = .ready ∧ s.cfg.bufSize % s.bm.blockSize = 0

/-- The refusals of an armed target whose engine serves: a length out of range, a length with a part of a block. -/
theorem execSpRun_length_refused (harmed : s.sp.state = .armed) (hserves : s.sp.cls = .cipher → engineServes s)
    (hlen : 2 ^ 56 ≤ s.regs.spTotal.toNat ∨
      s.sp.cls = .cipher ∧ needsWholeBlocks s.bm.mode = true ∧ s.regs.spTotal.toNat % s.bm.blockSize ≠ 0) :
    execSpRun tag s = .next (respond 0x12 tag .invalidParameter s) := by
  have ready : ¬ (s.sp.cls = .cipher ∧ s.bm.state ≠ .ready) := fun h => h.2 (hserves h.1).1
  have fits : ¬ (s.sp.cls = .cipher ∧ s.cfg.bufSize % s.bm.blockSize ≠ 0) := fun h => h.2 (hserves h.1).2
  unfold execSpRun
  rw [if_neg (by simp [harmed]), if_neg (by simp [harmed]), if_neg ready, if_neg fits]
  split
  · rfl
  · rename_i hle
    exact if_pos (hlen.resolve_left hle)

/-- `SP_RUN` over a digest or a MAC: the output range decides (42 R200). -/
theorem execSpRun_code {p : StreamPrim} (harmed : s.sp.state = .armed) (hcls : s.sp.cls = .digest ∨ s.sp.cls = .mac)
    (hp : streamPrim? s.sp.cls s.sp.kind = some p) (hlen : s.regs.spTotal.toNat < 2 ^ 56) :
    (outputRange s p.digestSize = none → execSpRun tag s = .next (respond 0x12 tag .invalidParameter s)) ∧
    ∀ o, outputRange s p.digestSize = some o →
      execSpRun tag s = acceptRun tag (some (o, p.digestSize)) p.blockSize s := by
  have hnot (q : Prop) : ¬ (s.sp.cls = .cipher ∧ q) := fun h => by rcases hcls with hc | hc <;> cases hc.symm.trans h.1
  unfold execSpRun
  rw [if_neg (by simp [harmed]), if_neg (by simp [harmed]), if_neg (hnot _), if_neg (hnot _), if_neg (by omega),
    if_neg (hnot _)]
  constructor
  · intro ho
    rcases hcls with hc | hc <;> rw [hc] at hp <;> simp only [hc, hp, ho, raise_eq]
  · intro o ho
    rcases hcls with hc | hc <;> rw [hc] at hp <;> simp only [hc, hp, ho]

/-- `SP_RUN` over an engine that serves, its bytes whole blocks where the mode asks that (42 R200). -/
theorem execSpRun_cipher (harmed : s.sp.state = .armed) (hcls : s.sp.cls = .cipher) (hserves : engineServes s)
    (hlen : s.regs.spTotal.toNat < 2 ^ 56)
    (hwhole : needsWholeBlocks s.bm.mode = true → s.regs.spTotal.toNat % s.bm.blockSize = 0) :
    execSpRun tag s = acceptRun tag none s.bm.blockSize s := by
  have whole : ¬ (s.sp.cls = .cipher ∧ needsWholeBlocks s.bm.mode = true ∧
      s.regs.spTotal.toNat % s.bm.blockSize ≠ 0) := fun ⟨_, hw, hne⟩ => hne (hwhole hw)
  unfold execSpRun
  rw [if_neg (by simp [harmed]), if_neg (by simp [harmed]), if_neg fun h => h.2 hserves.1,
    if_neg fun h => h.2 hserves.2, if_neg (by omega), if_neg whole]
  simp only [hcls]

/-- An accepted run of at least one byte goes on to its agents. -/
theorem acceptRun_of_bytes {out : Option (Nat × Nat)} {nbs : Nat} (h : 0 < s.regs.spTotal.toNat) :
    acceptRun tag out nbs s = .next (startRun tag out nbs s) := if_neg (by omega)

theorem acceptRun_of_no_bytes {out : Option (Nat × Nat)} {nbs : Nat} (h : s.regs.spTotal.toNat = 0) :
    acceptRun tag out nbs s = finish (startRun tag out nbs s) := if_pos h

/-! ### The reader -/

theorem rdrStep_cancelled (hc : s.sp.cancel = true) :
    rdrStep s = .next { s with sp := { s.sp with fault := some .cancelled } } := if_pos hc

theorem rdrStep_failed (hc : s.sp.cancel = false) (ha : (sourceAnswer (requestSize s) s.env.source).1 = .fail) :
    rdrStep s = .next { sourceMoved s with sp := { s.sp with fault := some .io } } := by
  refine (if_neg (by simp [hc])).trans ?_
  simp only [srcRead, ha]
  rfl

theorem rdrStep_short (hc : s.sp.cancel = false) (ha : (sourceAnswer (requestSize s) s.env.source).1 = .data bs)
    (hlen : bs.length < requestSize s) :
    rdrStep s = .next { sourceMoved s with sp := { s.sp with fault := some .unexpectedEof } } := by
  refine (if_neg (by simp [hc])).trans ?_
  simp only [srcRead, ha]
  exact if_pos hlen

theorem rdrStep_full (hc : s.sp.cancel = false) (ha : (sourceAnswer (requestSize s) s.env.source).1 = .data bs)
    (hlen : requestSize s ≤ bs.length) :
    rdrStep s = .next (pushBuffer bs (advanceReader (requestSize s) (sourceMoved s))) := by
  refine (if_neg (by simp [hc])).trans ?_
  simp only [srcRead, ha]
  exact if_neg (not_lt.2 hlen)

end Sys2Proof.Machine

namespace Sys2Proof.Proofs

open Sys2Proof.Machine

/-- Settles O51: the reader looks at the cancel flag, at a failing source and at the length of the answer, in that
order. -/
theorem readerStep : Obligations.ReaderStep := fun _ _ =>
  ⟨rdrStep_cancelled, rdrStep_failed, fun _ => rdrStep_short, fun _ => rdrStep_full⟩

/-- Settles O18: the checks of R192 in order, then the target of the class. -/
theorem spNewSelectsTarget : Obligations.SpNewSelectsTarget := by
  intro tag sel kind s pathBit
  refine ⟨fun hst => if_pos hst, fun hst hrefused => (if_neg hst).trans ?_,
    fun hst hsel hkind => (if_neg hst).trans ?_, fun cls prim st hst htarget => (if_neg hst).trans ?_⟩
  · obtain ⟨h1, h2, h3⟩ | ⟨rfl, hd⟩ | ⟨rfl, hm⟩ := hrefused
    · rw [classOfSel_eq_none h1 h2 h3]
      rfl
    · simp only [classOfSel, hd]
      rfl
    · simp only [classOfSel, hm]
      rfl
  · subst hsel
    exact if_pos hkind
  · obtain ⟨rfl, rfl, rfl, d, hd, rfl⟩ | ⟨rfl, rfl, rfl, rfl, m, hm⟩ | ⟨rfl, rfl, rfl, rfl, rfl⟩ := htarget
    · simp only [classOfSel, hd]
      simp only [respond, setSpState, selectTarget, wipeStream_eq, spKindWord_digest, spStateWord_armed_or]
      rfl
    · simp only [classOfSel, hm]
      simp only [respond, setSpState, selectTarget, wipeStream_eq, spKindWord_mac, spStateWord_attached]
      rfl
    · simp only [classOfSel]
      simp only [respond, setSpState, selectTarget, wipeStream_eq, spKindWord_cipher, spStateWord_armed_or]
      rfl

/-- Settles O19: the checks of R194 in order, then the key read whole and the MAC keyed. -/
theorem spKeyKeysMac : Obligations.SpKeyKeysMac := by
  intro tag s
  have keyed {P : Prop} (h : s.sp.state = .attached ∨ s.sp.state = .armed) (k : ¬ s.sp.state = .running →
      ¬ s.sp.state = .empty → P) : P := by rcases h with h | h <;> exact k (by simp [h]) (by simp [h])
  refine ⟨fun hst => if_pos hst, fun hst => (if_neg (by simp [hst])).trans (if_pos hst), fun hst hcls => ?_,
    fun hst hcls hrefused => ?_, fun m hst hcls hm hlen hin => ?_⟩
  · exact keyed hst fun h1 h2 => (if_neg h1).trans ((if_neg h2).trans (if_pos hcls))
  · refine keyed hst fun h1 h2 => (if_neg h1).trans ((if_neg h2).trans ((if_neg (not_not.2 hcls)).trans ?_))
    obtain hlen | hout := hrefused
    · exact if_pos hlen
    · split
      · rfl
      · rw [keyRange_eq_none hout]
        rfl
  · have hok : ¬ macKeyLenOk s.sp.kind s.regs.keyLen.toNat = false := by simp [macKeyLenOk, hm, hlen]
    refine keyed hst fun h1 h2 => (if_neg h1).trans ((if_neg h2).trans ((if_neg (not_not.2 hcls)).trans
      ((if_neg hok).trans ?_)))
    rw [keyRange_of_inside hin]
    simp only [memRead_of_inside (s := s) hin, hm, respond, setSpState, wipeStream_eq, spStateWord_armed]

/-- Settles O20: the checks of R200 in order. -/
theorem spRunRefusals : Obligations.SpRunRefusals := by
  intro tag s total usable
  refine ⟨fun hst => if_pos hst, fun hst => ?_, fun hst hcls hready => ?_, fun hst hcls hready hbuf => ?_,
    fun hst husable hlen => execSpRun_length_refused hst husable (.inl hlen),
    fun hst hcls husable _ hmode hwhole => execSpRun_length_refused hst husable
      (.inr ⟨hcls, (needsWholeBlocks_iff _).2 hmode, hwhole⟩),
    fun p hst hcls hp hlen ho => (execSpRun_code hst hcls hp hlen).1 ho⟩
  · exact (if_neg (by rcases hst with hst | hst <;> simp [hst])).trans (if_pos hst)
  · exact (if_neg (by simp [hst])).trans ((if_neg (by simp [hst])).trans (if_pos ⟨hcls, hready⟩))
  · exact (if_neg (by simp [hst])).trans ((if_neg (by simp [hst])).trans
      ((if_neg fun h => h.2 hready).trans (if_pos ⟨hcls, hbuf⟩)))

/-- Settles O21: past the checks of R200 the run is started, and for class 3 the engine taken. -/
theorem spRunAccepted : Obligations.SpRunAccepted := by
  intro tag s total path running shown
  refine ⟨fun p o hst hcls hp hpos hlen ho => ?_, fun hst hcls hready hbuf hpos hlen hwhole => ?_⟩
  · have hnot : s.sp.cls ≠ .cipher := by rcases hcls with hc | hc <;> simp [hc]
    refine ((execSpRun_code hst hcls hp hlen).2 o ho).trans ((acceptRun_of_bytes hpos).trans ?_)
    rw [startRun_eq, if_neg hnot, runStarted, setSpState, spStateWord_running]
    rfl
  · refine (execSpRun_cipher hst hcls ⟨hready, hbuf⟩ hlen fun hw => hwhole ((needsWholeBlocks_iff _).1 hw)).trans
      ((acceptRun_of_bytes hpos).trans ?_)
    rw [startRun_eq, if_pos hcls, runStarted, setSpState, spStateWord_running]
    rfl

/-- Settles O23: the flag is set in a run, and the answer is the same without one. -/
theorem spCancelSetsFlag : Obligations.SpCancelSetsFlag := fun _ _ => ⟨fun hst => if_pos hst, fun hst => if_neg hst⟩

/-- Settles O24: one check, then the target and its key state gone. -/
theorem spReleaseEmptiesTarget : Obligations.SpReleaseEmptiesTarget := by
  intro tag s
  refine ⟨fun hst => if_pos hst, fun hst => (if_neg hst).trans ?_⟩
  rw [setSpState, spStateWord_released]
  rfl

end Sys2Proof.Proofs
end

section
/-! SUPPORT. How a run ends (42_stream_processor.md R195, R210, R212), as equations of the operations: the target
restored, a run aborted, a run finished; and the obligation about a run of no bytes. -/

-- One declaration after another, so that the joined text needs no more worker threads than the check has memory for.
set_option Elab.async false

namespace Sys2Proof.Machine

variable {s u : State} {tag : BitVec 8} {p : StreamPrim} {st : List Byte} {o : Nat}

/-! ### The target restored -/

/-- The target in its initial state again: the primitive of a digest or MAC, the engine of class 3 `ready`. -/
def targetRestored (s : State) : State :=
  { s with
    sp := { s.sp with prim := initialPrim s }
    bm := if s.sp.cls = .cipher then { s.bm with state := .ready } else s.bm
    regs := { s.regs with bmState := if s.sp.cls = .cipher then 1 else s.regs.bmState } }

theorem targetRestored_of_code (hcls : s.sp.cls ≠ .cipher) :
    targetRestored s = { s with sp := { s.sp with prim := initialPrim s } } := by
  simp only [targetRestored, if_neg hcls]

theorem targetRestored_of_cipher (hcls : s.sp.cls = .cipher) (hprim : s.sp.prim = none) :
    targetRestored s = setBmState .ready s := by
  have hinit : initialPrim s = s.sp.prim := by rw [hprim, initialPrim, hcls]
  simp only [targetRestored, if_pos hcls, hinit]
  rfl

theorem restoreTarget_eq (h : targetOk s = true) : restoreTarget s = some (targetRestored s) := by
  obtain ⟨hc, ⟨d, hd⟩, -⟩ | ⟨hc, hlen⟩ | ⟨hc, -, -, hprim⟩ := (targetOk_iff s).1 h
  · rw [targetRestored_of_code (by simp [hc])]
    simp only [restoreTarget, initialPrim, hc, hd, Option.map_some]
  · obtain ⟨m, hm⟩ := mac_of_macKeyLenOk hlen
    rw [targetRestored_of_code (by simp [hc])]
    simp only [restoreTarget, initialPrim, hc, hm, Option.map_some]
  · rw [targetRestored_of_cipher hc hprim]
    simp only [restoreTarget, hc]

theorem abortRun_eq {code : Code} (h : targetOk s = true) :
    abortRun code s =
      .next
        (setSpState .armed
          (respond 0x12 s.sp.run.tag code
            (targetRestored { s with sp := { s.sp with queue := [], fault := none } }))) := by
  have hr : restoreTarget { s with sp := { s.sp with queue := [] } } =
      some (targetRestored { s with sp := { s.sp with queue := [] } }) := restoreTarget_eq h
  simp only [abortRun, hr]
  rfl

/-! ### The code stored and the run finished -/

theorem storeCode_code (hcls : s.sp.cls = .digest ∨ s.sp.cls = .mac) (hp : streamPrim? s.sp.cls s.sp.kind = some p)
    (hst : s.sp.prim = some st) (hout : s.sp.run.out = some (o, p.digestSize)) (hin : o + p.digestSize ≤ memSize s) :
    storeCode s = .ok { s with mem := setBytes s.mem o (p.fin st) } := by
  have hw : memWrite s o p.digestSize (p.fin st) = some { s with mem := setBytes s.mem o (p.fin st) } :=
    (memWrite_eq_some _ _ _ _ _).2 ⟨hin, by rw [List.take_of_length_le (le_of_eq (p.fin_length st))]⟩
  rcases hcls with hc | hc <;> rw [hc] at hp <;> simp only [storeCode, hc, hp, hst, hout, hw]

theorem storeCode_cipher (hcls : s.sp.cls = .cipher) : storeCode s = .ok s := by
  simp only [storeCode, hcls]

/-- A run that has fed its last byte and stored its code (42 R212). -/
def runFinished (s : State) : State :=
  respond 0x12 s.sp.run.tag .ok (emitEvent finalKind s.sp.run.total (setSpState .armed (targetRestored s)))

theorem finish_of_stored (hs : storeCode s = .ok u) (h : targetOk u = true) : finish s = .next (runFinished u) := by
  simp only [finish, hs, restoreTarget_eq h]
  rfl

theorem finish_code (h : targetOk s = true) (hcls : s.sp.cls = .digest ∨ s.sp.cls = .mac)
    (hp : streamPrim? s.sp.cls s.sp.kind = some p) (hst : s.sp.prim = some st)
    (hout : s.sp.run.out = some (o, p.digestSize)) (hin : o + p.digestSize ≤ memSize s) :
    finish s = .next (runFinished { s with mem := setBytes s.mem o (p.fin st) }) :=
  finish_of_stored (storeCode_code hcls hp hst hout hin) h

theorem finish_cipher (h : targetOk s = true) (hcls : s.sp.cls = .cipher) : finish s = .next (runFinished s) :=
  finish_of_stored (storeCode_cipher hcls) h

/-! ### A run of no bytes -/

/-- A stream shorter than a buffer takes the sequential path (42 R201). -/
theorem runPath_short {ctl : Word} {total bufSize : Nat} (h : total < bufSize) : runPath ctl total bufSize = false := by
  simp [runPath, Nat.not_le.2 h]

theorem progressInterval_zero (nbs : Nat) : progressInterval 0 nbs = 0 := by
  simp [progressInterval]

/-- The unit of an armed target after a run of no bytes: the record of that run, on the sequential path. -/
def restedUnit (tag : BitVec 8) (out : Option (Nat × Nat)) (s : State) : Spu :=
  { s.sp with
    run := { tag := tag, total := 0, out := out }
    path := false
    interval := 0
    rpos := 0
    cpos := 0
    queue := []
    readerDone := false
    cancel := false
    fault := none }

/-- A started run of no bytes. -/
def emptyRunStarted (tag : BitVec 8) (out : Option (Nat × Nat)) (s : State) : State :=
  { s with
    sp := { restedUnit tag out s with state := .running }
    regs := { s.regs with spState := 3, spInterval := 0, spPos := 0 } }

theorem runStarted_of_no_bytes {out : Option (Nat × Nat)} {nbs : Nat} (h : Inv s) (hzero : s.regs.spTotal.toNat = 0) :
    runStarted tag out nbs s = emptyRunStarted tag out s := by
  obtain ⟨-, ⟨hbuf, -⟩, -⟩ := (Params.ok_iff _).1 h.build
  simp only [runStarted, hzero, runPath_short (Nat.lt_of_succ_le hbuf), progressInterval_zero]
  rfl

/-- The end of a run of no bytes: everything as before it but for the record of the run, `FINAL(0)` and the response. -/
def runOfNoBytes (tag : BitVec 8) (out : Option (Nat × Nat)) (mem : Memory) (s : State) : State :=
  { s with
    mem := mem
    sp := { restedUnit tag out s with state := .armed }
    regs := { s.regs with spState := 2, spInterval := 0, spPos := 0 }
    evt := s.evt ++ [eventWord 2 0]
    rsp := s.rsp ++ [responseWord 0x12 tag .ok] }

/-- A target in its initial state is left in it (42 R195). -/
theorem armed_prim (h : Inv s) (harmed : s.sp.state = .armed) : targetOk s = true ∧ s.sp.prim = initialPrim s := by
  obtain ⟨-, -, hstream, -⟩ := (streamOk_iff s).1 h.stream
  exact hstream harmed

theorem execSpRun_no_bytes_code (h : Inv s) (harmed : s.sp.state = .armed) (hzero : s.regs.spTotal.toNat = 0)
    (hcls : s.sp.cls = .digest ∨ s.sp.cls = .mac) (hp : streamPrim? s.sp.cls s.sp.kind = some p)
    (hst : s.sp.prim = some st) (ho : outputRange s p.digestSize = some o) :
    execSpRun tag s =
      .next (runOfNoBytes tag (some (o, p.digestSize)) (setBytes s.mem o (p.fin st)) s) := by
  have hnot : s.sp.cls ≠ .cipher := by rcases hcls with hc | hc <;> simp [hc]
  obtain ⟨htarget, hinit⟩ := armed_prim h harmed
  rw [(execSpRun_code harmed hcls hp (by omega)).2 o ho, acceptRun_of_no_bytes hzero, startRun_eq, if_neg hnot,
    runStarted_of_no_bytes h hzero]
  refine (finish_code (s := emptyRunStarted tag (some (o, p.digestSize)) s) htarget hcls hp hst rfl
    (bufRange_inside _ _ _ _ _ _ ho)).trans ?_
  rw [runFinished, targetRestored_of_code (by exact hnot)]
  simp only [emptyRunStarted, restedUnit, runOfNoBytes, hinit]
  rfl

/-- A state shown by its register is left alone where it is written again. -/
theorem setBmState_same (h : s.regs.bmState = BitVec.ofNat 64 (bmStateCode s.bm.state)) :
    setBmState s.bm.state s = s := by
  rw [setBmState, ← h]

theorem execSpRun_no_bytes_cipher (h : Inv s) (harmed : s.sp.state = .armed) (hzero : s.regs.spTotal.toNat = 0)
    (hcls : s.sp.cls = .cipher) (hserves : engineServes s) :
    execSpRun tag s = .next (runOfNoBytes tag none s.mem s) := by
  obtain ⟨htarget, hinit⟩ := armed_prim h harmed
  have hprim : s.sp.prim = none := by rw [hinit, initialPrim, hcls]
  obtain ⟨gstate, -⟩ := (registersOk_iff s).1 h.registers
  have hsame := setBmState_same gstate
  rw [hserves.1] at hsame
  rw [execSpRun_cipher harmed hcls hserves (by omega) (fun _ => by rw [hzero, Nat.zero_mod]),
    acceptRun_of_no_bytes hzero, startRun_eq, if_pos hcls, runStarted_of_no_bytes h hzero]
  refine (finish_cipher (s := setBmState .transforming (emptyRunStarted tag none s)) htarget hcls).trans ?_
  rw [runFinished, targetRestored_of_cipher (by exact hcls) (by exact hprim)]
  calc _ = Host.Outcome.next (runOfNoBytes tag none s.mem (setBmState .ready s)) := rfl
    _ = _ := by rw [hsame]

end Sys2Proof.Machine

namespace Sys2Proof.Proofs

open Sys2Proof.Machine

/-- Settles O22: the run is started and finished in one step, and its target is left as it was found. -/
theorem spRunOfNoBytes : Obligations.SpRunOfNoBytes := by
  intro tag s h harmed hzero rested shown
  refine ⟨fun p o prim hcls hp hst ho => ?_, fun hcls hready hbuf => ?_⟩
  · refine ⟨_, execSpRun_no_bytes_code h harmed hzero hcls hp hst ho, ?_, fun x hx => ?_, ?_⟩
    · have stored := bytesAt_setBytes (a := o) (v := p.fin prim) h.memory_wf
      rwa [p.fin_length] at stored
    · exact byteAt_setBytes_outside h.memory_wf (by rwa [p.fin_length])
    · simp only [runOfNoBytes, ← harmed]
      rfl
  · refine (execSpRun_no_bytes_cipher h harmed hzero hcls ⟨hready, hbuf⟩).trans ?_
    simp only [runOfNoBytes, ← harmed]
    rfl

end Sys2Proof.Proofs
end

section
/-! SUPPORT. Which cause ends a run with which error (42_stream_processor.md R202, R203, R206, R210; 60_exceptions.md
R264): the steps of `SEQ` and `CSM` as equations, what feeding a buffer comes to, the whole state an abort leaves, and the
obligation about them. -/

-- One declaration after another, so that the joined text needs no more worker threads than the check has memory for.
set_option Elab.async false

namespace Sys2Proof.Machine

variable {s t u : State} {bs : List Byte} {code : Code} {c : BlockCipher} {mode : CipherMode} {r : Result}

/-! ### The steps of the two feeding agents -/

/-- A run with a buffer in hand, taken from the source or off the queue and not yet fed: what is left of both, and the
reader's position. -/
def inHand (source : List SrcAnswer) (rpos : Nat) (queue : List (List Byte)) (s : State) : State :=
  { s with
    env := { s.env with source := source }
    sp := { s.sp with rpos := rpos, queue := queue } }

/-- `SEQ` with the buffer it has read. -/
def readAhead (s : State) : State :=
  inHand (sourceAnswer (requestSize s) s.env.source).2 (s.sp.rpos + requestSize s) s.sp.queue s

/-- `CSM` with the buffer it has taken off the queue. -/
def dequeued (queue : List (List Byte)) (s : State) : State := inHand s.env.source s.sp.rpos queue s

theorem seqStep_cancelled (hc : s.sp.cancel = true) : seqStep s = abortRun .cancelled s := if_pos hc

theorem seqStep_failed (hc : s.sp.cancel = false) (ha : (sourceAnswer (requestSize s) s.env.source).1 = .fail) :
    seqStep s = abortRun .io (sourceMoved s) := by
  refine (if_neg (by simp [hc])).trans ?_
  simp only [srcRead, ha]
  rfl

theorem seqStep_short (hc : s.sp.cancel = false) (ha : (sourceAnswer (requestSize s) s.env.source).1 = .data bs)
    (hlen : bs.length < requestSize s) : seqStep s = abortRun .unexpectedEof (sourceMoved s) := by
  refine (if_neg (by simp [hc])).trans ?_
  simp only [srcRead, ha]
  exact if_pos hlen

theorem seqStep_ended (hc : s.sp.cancel = false) (ha : (sourceAnswer (requestSize s) s.env.source).1 = .data bs)
    (hlen : requestSize s ≤ bs.length) (hf : feed bs (readAhead s) = .ended r) : seqStep s = r := by
  refine (if_neg (by simp [hc])).trans ?_
  simp only [srcRead, ha]
  refine (if_neg (not_lt.2 hlen)).trans ?_
  split
  · rename_i hr
    cases hr.symm.trans hf
    rfl
  · rename_i hu
    cases hu.symm.trans hf

theorem seqStep_fed (hc : s.sp.cancel = false) (ha : (sourceAnswer (requestSize s) s.env.source).1 = .data bs)
    (hlen : requestSize s ≤ bs.length) (hf : feed bs (readAhead s) = .fed u) :
    seqStep s = if u.sp.cpos = u.sp.run.total then finish u else .next u := by
  refine (if_neg (by simp [hc])).trans ?_
  simp only [srcRead, ha]
  refine (if_neg (not_lt.2 hlen)).trans ?_
  split
  · rename_i hr
    cases hr.symm.trans hf
  · rename_i hu
    cases hu.symm.trans hf
    rfl

theorem csmStep_faulted (hf : s.sp.fault = some code) : csmStep s = abortRun code s := by
  simp only [csmStep, hf]

theorem csmStep_ended {queue : List (List Byte)} (hfault : s.sp.fault = none) (hq : s.sp.queue = bs :: queue)
    (hf : feed bs (dequeued queue s) = .ended r) : csmStep s = r := by
  simp only [csmStep, hfault, hq]
  split
  · rename_i hr
    rw [← hfault] at hr
    cases hr.symm.trans hf
    rfl
  · rename_i hu
    rw [← hfault] at hu
    cases hu.symm.trans hf

theorem csmStep_fed {queue : List (List Byte)} (hfault : s.sp.fault = none) (hq : s.sp.queue = bs :: queue)
    (hf : feed bs (dequeued queue s) = .fed u) :
    csmStep s = if u.sp.readerDone = true ∧ u.sp.queue = [] then finish u else .next u := by
  simp only [csmStep, hfault, hq]
  split
  · rename_i hr
    rw [← hfault] at hr
    cases hr.symm.trans hf
  · rename_i hu
    rw [← hfault] at hu
    cases hu.symm.trans hf
    rfl

/-! ### A run with a buffer in hand -/

namespace RunHeld

theorem readAhead (h : RunHeld s) : RunHeld (readAhead s) :=
  h.moved fun hw => ⟨h.rpos_advanced_whole hw, h.queue_whole hw⟩

theorem dequeued {queue : List (List Byte)} (h : RunHeld s) (hq : s.sp.queue = bs :: queue) :
    RunHeld (dequeued queue s) :=
  h.moved fun hw => ⟨h.rpos_whole hw, fun q hmem => h.queue_whole hw q (hq ▸ List.mem_cons_of_mem bs hmem)⟩

/-- The buffer at the head of the queue is whole blocks where the run takes no others. -/
theorem head_whole {queue : List (List Byte)} (h : RunHeld s) (hq : s.sp.queue = bs :: queue)
    (hw : runTakesWholeBlocks s) : bs.length % s.bm.blockSize = 0 :=
  h.queue_whole hw bs (hq ▸ List.mem_cons_self)

/-- A run of class 3 has its cipher and mode. -/
theorem exists_engine (h : RunHeld s) (hcls : s.sp.cls = .cipher) : ∃ c mode, engine s = some (c, mode) := by
  obtain ⟨hst, -⟩ := h.engine_held hcls
  obtain ⟨hmode, -⟩ := ((keyStateOk_iff s).1 h.keyState).2 (by simp [hst])
  obtain ⟨mode, hm⟩ := Option.ne_none_iff_exists'.1 hmode
  obtain ⟨c, hc⟩ := engine_of_mode h.selection hm
  exact ⟨c, mode, hc⟩

end RunHeld

/-! ### Feeding -/

/-- The sink of a run of class 3 will refuse the next buffer. -/
def sinkRefuses (s : State) : Prop := s.sp.cls = .cipher ∧ s.env.sinkAnswers.head? = some false

theorem sinkAnswer_eq_false_iff (answers : List Bool) : sinkAnswer answers = false ↔ answers.head? = some false := by
  cases answers <;> simp [sinkAnswer]

/-- The engine has transformed a buffer that the sink refused. -/
def bufferRefused (chain : List Byte) (s : State) : State :=
  { s with
    bm := { s.bm with chain := chain }
    env := { s.env with sinkAnswers := s.env.sinkAnswers.tail } }

theorem feed_of_refusal (h : sinkRefuses s) (he : engine s = some (c, mode)) :
    feed bs s =
      .ended (abortRun .io (bufferRefused (serialXform c mode s.bm.enc s.bm.key s.bm.chain bs).2 s)) := by
  obtain ⟨hcls, hsink⟩ := h
  have hfalse := (sinkAnswer_eq_false_iff _).2 hsink
  have hended : feedTarget bs s =
      .ended (abortRun .io (bufferRefused (serialXform c mode s.bm.enc s.bm.key s.bm.chain bs).2 s)) := by
    simp only [feedTarget, hcls, he, snkWrite, hfalse, bufferRefused]
    rfl
  simp only [feed, hended]

theorem RunHeld.exists_fed (h : RunHeld s) (bs : List Byte) (hsink : ¬ sinkRefuses s) : ∃ u, feed bs s = .fed u := by
  suffices htarget : ∃ u, feedTarget bs s = .fed u by
    obtain ⟨u, hu⟩ := htarget
    exact ⟨Machine.accountFed bs.length u, by simp only [feed, hu]⟩
  obtain ⟨hc, p, st, -, hp, hst, -⟩ | ⟨hc, -⟩ := (runTargetOk_iff s).1 h.runTarget
  · refine ⟨{ s with sp := { s.sp with prim := some (p.upd st bs) } }, ?_⟩
    rcases hc with hc | hc <;> rw [hc] at hp <;> simp only [feedTarget, hc, hp, hst]
  · obtain ⟨c, mode, he⟩ := h.exists_engine hc
    have htrue : sinkAnswer s.env.sinkAnswers = true :=
      Bool.of_not_eq_false fun hf => hsink ⟨hc, (sinkAnswer_eq_false_iff _).1 hf⟩
    exact ⟨_, by simp only [feedTarget, hc, he, snkWrite, htrue]; rfl⟩

/-! ### What an abort leaves -/

/-- `s` with its run aborted: one response of the given code, the queue empty, the target in its initial state, the unit
armed; the reader's position and the engine's chain as given. -/
def AbortedAs (s : State) (code : Code) (rpos : Nat) (chain : List Byte) (t : State) : Prop :=
  t =
    { s with
      env := t.env
      sp := { s.sp with state := .armed, queue := [], fault := none, prim := initialPrim s, rpos := rpos }
      bm := if s.sp.cls = .cipher then { s.bm with state := .ready, chain := chain } else s.bm
      regs :=
        { s.regs with
          spState := if s.sp.path then 6 else 2
          bmState := if s.sp.cls = .cipher then 1 else s.regs.bmState }
      rsp := s.rsp ++ [responseWord 0x12 s.sp.run.tag code] } ∧
  t.env.sunk = s.env.sunk ∧ t.env.events = s.env.events

/-- An abort after the source, the queue, the sink and the engine have moved within the step. -/
theorem RunHeld.abortRun_abortedAs {env : Env} {rpos : Nat} {queue : List (List Byte)} {chain : List Byte}
    (h : RunHeld s) (hchain : s.sp.cls ≠ .cipher → chain = s.bm.chain) (hsunk : env.sunk = s.env.sunk)
    (hev : env.events = s.env.events) (code : Code) :
    ∃ t,
      Machine.abortRun code
          { s with
            env := env
            sp := { s.sp with rpos := rpos, queue := queue }
            bm := { s.bm with chain := chain } } = .next t ∧
        AbortedAs s code rpos chain t := by
  refine ⟨_, abortRun_eq (by exact h.target), ?_, hsunk, hev⟩
  by_cases hc : s.sp.cls = .cipher
  · simp only [targetRestored, setSpState, respond, spStateWord_armed, if_pos hc]
    rfl
  · rw [hchain hc]
    simp only [targetRestored, setSpState, respond, spStateWord_armed, if_neg hc]
    rfl

/-! ### A buffer that goes on to be fed -/

theorem responseWord_ne_ok (op tag : BitVec 8) (h : code ≠ .ok) :
    responseWord op tag code ≠ responseWord op tag .ok := by
  intro heq
  have := congrArg (BitVec.extractLsb' 16 8) heq
  rw [responseWord_code, responseWord_code] at this
  cases code with
  | ok => exact h rfl
  | _ => exact absurd this (by decide)

/-- A run that has fed a buffer goes on, or finishes with the response `Ok`. -/
theorem RunHeld.fed_answers {P : Prop} [Decidable P] (h : RunHeld u) :
    ∃ t, (if P then Machine.finish u else .next u) = .next t ∧
      ∀ code, code ≠ .ok → t.rsp ≠ u.rsp ++ [responseWord 0x12 u.sp.run.tag code] := by
  split
  · obtain ⟨t, ht⟩ := h.finish_continues
    refine ⟨t, ht, fun code hne heq => ?_⟩
    rw [(RunEnded.finish ht).rsp, List.append_cancel_left_eq, List.singleton_inj] at heq
    exact responseWord_ne_ok _ _ hne heq.symm
  · exact ⟨u, rfl, fun code _ heq => by simp at heq⟩

/-- What the answer `r` of a feeding agent comes to, given what it makes of feeding the buffer it has in hand. -/
theorem RunHeld.inHand_answers {source : List SrcAnswer} {rpos : Nat} {queue : List (List Byte)} {P : State → Prop}
    [DecidablePred P] (h : RunHeld s) (hm : RunHeld (inHand source rpos queue s))
    (hbs : runTakesWholeBlocks s → bs.length % s.bm.blockSize = 0)
    (hended : ∀ r', feed bs (inHand source rpos queue s) = .ended r' → r = r')
    (hfed : ∀ u, feed bs (inHand source rpos queue s) = .fed u → r = if P u then Machine.finish u else .next u) :
    ∃ t, r = .next t ∧
      (∀ c mode, sinkRefuses s → engine s = some (c, mode) →
        AbortedAs s .io rpos (serialXform c mode s.bm.enc s.bm.key s.bm.chain bs).2 t) ∧
      (¬ sinkRefuses s → ∀ code, code ≠ .ok → t.rsp ≠ s.rsp ++ [responseWord 0x12 s.sp.run.tag code]) := by
  by_cases hsink : sinkRefuses s
  · obtain ⟨c, mode, he⟩ := h.exists_engine hsink.1
    obtain ⟨t, ht, hab⟩ := h.abortRun_abortedAs (rpos := rpos) (queue := queue)
      (env := { s.env with source := source, sinkAnswers := s.env.sinkAnswers.tail })
      (chain := (serialXform c mode s.bm.enc s.bm.key s.bm.chain bs).2) (absurd hsink.1) rfl rfl .io
    have hrefused := feed_of_refusal (s := inHand source rpos queue s) (bs := bs) hsink he
    refine ⟨t, (hended _ hrefused).trans ht, fun c' mode' _ he' => ?_, absurd hsink⟩
    cases he.symm.trans he'
    exact hab
  · obtain ⟨u, hu⟩ := hm.exists_fed bs hsink
    obtain ⟨fed, -⟩ := hm.feed_fed hbs hu
    have kept := CommandsKept.feed_fed hu
    obtain ⟨t, ht, hne⟩ := fed.fed_answers (P := P u)
    rw [kept.rsp, kept.run] at hne
    exact ⟨t, (hfed u hu).trans ht, fun _ _ hs => absurd hs hsink, fun _ => hne⟩

/-- An abort before any buffer is fed: the source may have moved, the engine has not. -/
theorem RunHeld.abort_unfed {source : List SrcAnswer} (h : RunHeld s) (code : Code) :
    ∃ t, Machine.abortRun code (inHand source s.sp.rpos s.sp.queue s) = .next t ∧
      AbortedAs s code s.sp.rpos s.bm.chain t :=
  h.abortRun_abortedAs (env := { s.env with source := source }) (fun _ => rfl) rfl rfl code

end Sys2Proof.Machine

namespace Sys2Proof.Proofs

open Sys2Proof.Machine

/-- Settles O52: each cause is an equation of the agent's step, and each abort leaves the one state. -/
theorem abortedRun : Obligations.AbortedRun := by
  intro s a h ha hen n taken refused aborted
  obtain rfl | rfl := ha
  · obtain ⟨hrun, -⟩ := enabled_seq_iff.1 hen
    obtain ⟨held, -⟩ := h.runHeld hrun
    cases hc : s.sp.cancel with
    | true =>
      obtain ⟨t, ht, hab⟩ := held.abort_unfed (source := s.env.source) .cancelled
      have htaken : taken = .error .cancelled := by simp only [taken, hc, reduceIte]
      rw [htaken]
      exact ⟨t, (seqStep_cancelled hc).trans ht, .inr (.inr rfl), hab⟩
    | false =>
      cases hans : (sourceAnswer n s.env.source).1 with
      | fail =>
        obtain ⟨t, ht, hab⟩ := held.abort_unfed (source := (sourceAnswer n s.env.source).2) .io
        have htaken : taken = .error .io := by simp only [taken, hc, hans, reduceIte]; rfl
        rw [htaken]
        exact ⟨t, (seqStep_failed hc hans).trans ht, .inl rfl, hab⟩
      | data bs =>
        by_cases hlen : bs.length < n
        · obtain ⟨t, ht, hab⟩ := held.abort_unfed (source := (sourceAnswer n s.env.source).2) .unexpectedEof
          have htaken : taken = .error .unexpectedEof := by simp only [taken, hc, hans, hlen, reduceIte]; rfl
          rw [htaken]
          exact ⟨t, (seqStep_short hc hans hlen).trans ht, .inr (.inl rfl), hab⟩
        · have htaken : taken = .ok bs := by simp only [taken, hc, hans, hlen, reduceIte]; rfl
          have hfull := not_lt.1 hlen
          have hexact : bs.length = n := le_antisymm (sourceAnswer_length _ _ _ hans) hfull
          rw [htaken]
          exact held.inHand_answers held.readAhead (fun hw => hexact ▸ held.requestSize_whole hw)
            (fun r' => seqStep_ended hc hans hfull) (fun u => seqStep_fed hc hans hfull)
  · obtain ⟨hrun, hpath, hwork⟩ := enabled_csm_iff.1 hen
    obtain ⟨held, hpos⟩ := h.runHeld hrun
    obtain ⟨-, -, -, -, -, hconc, -⟩ := (runPositionsOk_iff s).1 hpos
    obtain ⟨-, -, -, hcodes⟩ := hconc hpath
    cases hf : s.sp.fault with
    | some code =>
      obtain ⟨t, ht, hab⟩ := held.abort_unfed (source := s.env.source) code
      have htaken : taken = .error code := by simp only [taken, hf, reduceCtorEq, reduceIte]
      rw [htaken]
      exact ⟨t, (csmStep_faulted hf).trans ht, (hcodes code hf).2, hab⟩
    | none =>
      obtain ⟨bs, queue, hq⟩ := List.exists_cons_of_ne_nil (hwork.resolve_left (not_not.2 hf))
      have htaken : taken = .ok bs := by simp only [taken, hf, hq, reduceCtorEq, reduceIte, List.headD_cons]
      rw [htaken]
      exact held.inHand_answers (held.dequeued hq) (held.head_whole hq) (fun r' => csmStep_ended hf hq)
        (fun u => csmStep_fed hf hq)

end Sys2Proof.Proofs
end

section
/-! SUPPORT. What a run has done of its stream (42_stream_processor.md R202 to R208): the bytes fed, the bytes
read, the target after the bytes fed and the progress events, kept by every step of `SEQ`, `RDR` and `CSM` whatever the path. -/

-- One declaration after another, so that the joined text needs no more worker threads than the check has memory for.
set_option Elab.async false

namespace Sys2Proof.Machine

variable {s s0 t u : State} {bs data : List Byte} {bufs : List (List Byte)} {n : Nat}

/-! ### The source -/

/-- What a source answers is the first of its bytes. -/
theorem sourceBytes_of_answer {answers : List SrcAnswer} (h : (sourceAnswer n answers).1 = .data bs) :
    sourceBytes answers = bs ++ sourceBytes (sourceAnswer n answers).2 := by
  cases answers with
  | nil => cases h; rfl
  | cons a rest =>
    cases a with
    | fail => cases h
    | data bytes =>
      by_cases hle : bytes.length ≤ n
      · simp only [sourceAnswer, if_pos hle] at h ⊢
        cases h
        rfl
      · simp only [sourceAnswer, if_neg hle] at h ⊢
        cases h
        simp only [sourceBytes, ← List.append_assoc, List.take_append_drop]

/-! ### Where buffers start -/

/-- Every buffer of a stream read as far as `pos` starts at a multiple of `size`, and so does what comes after them,
but at the end of the stream (42 R203, R205). -/
def BuffersStart (size total : Nat) : Nat → List (List Byte) → Prop
  | pos, [] => pos % size = 0 ∨ pos = total
  | pos, q :: rest => pos % size = 0 ∧ BuffersStart size total (pos + q.length) rest

theorem BuffersStart.at_end {size total pos : Nat} (h : BuffersStart size total pos bufs) :
    (pos + queuedBytes bufs) % size = 0 ∨ pos + queuedBytes bufs = total := by
  induction bufs generalizing pos with
  | nil => exact h
  | cons q rest ih =>
    rw [queuedBytes_cons, ← Nat.add_assoc]
    exact ih h.2

/-- One buffer more, read at a multiple of `size`. -/
theorem BuffersStart.concat {size total pos : Nat} (h : BuffersStart size total pos bufs)
    (hpos : (pos + queuedBytes bufs) % size = 0)
    (hend : (pos + queuedBytes bufs + bs.length) % size = 0 ∨ pos + queuedBytes bufs + bs.length = total) :
    BuffersStart size total pos (bufs ++ [bs]) := by
  induction bufs generalizing pos with
  | nil => exact ⟨hpos, hend⟩
  | cons q rest ih =>
    rw [queuedBytes_cons, ← Nat.add_assoc] at hpos hend
    exact ⟨h.1, ih h.2 hpos hend⟩

/-- A request reads a whole buffer, or the rest of the stream. -/
theorem requestSize_end (hle : s.sp.rpos ≤ s.sp.run.total) (hpos : s.sp.rpos % s.cfg.bufSize = 0) :
    (s.sp.rpos + requestSize s) % s.cfg.bufSize = 0 ∨ s.sp.rpos + requestSize s = s.sp.run.total := by
  rcases Nat.le_total s.cfg.bufSize (s.sp.run.total - s.sp.rpos) with h | h
  · left
    rw [requestSize, Nat.min_eq_left h, Nat.add_mod_right, hpos]
  · right
    rw [requestSize, Nat.min_eq_right h]
    omega

/-! ### The target of a run -/

/-- What a run feeds: a digest or MAC in a given state, or the engine's cipher in its mode (42 R191). -/
inductive RunTarget where
  | code (p : StreamPrim) (st : List Byte)
  | cipher (c : BlockCipher) (mode : CipherMode)

namespace RunTarget

/-- The target a run has when it starts. -/
def Of : RunTarget → State → Prop
  | .code p st, s =>
    (s.sp.cls = .digest ∨ s.sp.cls = .mac) ∧ streamPrim? s.sp.cls s.sp.kind = some p ∧ s.sp.prim = some st
  | .cipher c mode, s => s.sp.cls = .cipher ∧ engine s = some (c, mode) ∧ s.cfg.bufSize % c.blockSize = 0

/-- The bytes the sink is given for `data`, and the chain after them. -/
def xform (c : BlockCipher) (mode : CipherMode) (s : State) (data : List Byte) : List Byte × List Byte :=
  serialXform c mode s.bm.enc s.bm.key s.bm.chain data

/-- `s` is `s0` as far as its target goes, with `data` fed to it (42 R202). -/
def Fed : RunTarget → State → List Byte → State → Prop
  | .code p st, s0, data, s => s.sp.prim = some (p.upd st data) ∧ s.bm = s0.bm
  | .cipher c mode, s0, data, s =>
    s.bm = { s0.bm with chain := (xform c mode s0 data).2 } ∧ s.env.sunk = s0.env.sunk ++ (xform c mode s0 data).1

/-- `t` is `s0` as far as its target goes, with a run over `data` behind it (42 R212, R214, R215). -/
def Done : RunTarget → State → List Byte → State → Prop
  | .code p st, s0, data, t =>
    (∀ dst, s0.sp.run.out = some (dst, p.digestSize) → t.mem = setBytes s0.mem dst (p.fin (p.upd st data))) ∧
      t.sp.prim = initialPrim s0 ∧ t.bm = s0.bm
  | .cipher c mode, s0, data, t =>
    t.mem = s0.mem ∧ t.bm = { s0.bm with state := .ready, chain := (xform c mode s0 data).2 } ∧
      t.env.sunk = s0.env.sunk ++ (xform c mode s0 data).1

/-- The engine works on where the bytes before ended, which was at a block boundary. -/
theorem xform_append {c : BlockCipher} {mode : CipherMode} (h : data.length % c.blockSize = 0) :
    xform c mode s0 (data ++ bs) =
      ((xform c mode s0 data).1 ++ (serialXform c mode s0.bm.enc s0.bm.key (xform c mode s0 data).2 bs).1,
        (serialXform c mode s0.bm.enc s0.bm.key (xform c mode s0 data).2 bs).2) :=
  serialXform_append bs h

theorem fed_nil (T : RunTarget) (hT : T.Of s0) : T.Fed s0 [] s0 := by
  cases T with
  | code p st => exact ⟨by rw [p.upd_nil]; exact hT.2.2, rfl⟩
  | cipher c mode =>
    rw [Fed, xform, serialXform_nil]
    exact ⟨rfl, (List.append_nil _).symm⟩

/-- Feeding neither starts nor ends a transform. -/
theorem Fed.xf_eq {T : RunTarget} (h : T.Fed s0 data s) : s.bm.xf = s0.bm.xf := by
  cases T with
  | code p st => rw [h.2]
  | cipher c mode => rw [h.1]

end RunTarget

/-! ### A run under way -/

/-- What the unit holds from the start of a run to its end. -/
def Spu.fixed (sp : Spu) : Spu :=
  { sp with prim := none, rpos := 0, cpos := 0, queue := [], readerDone := false, fault := none }

/-- A run that was started in `s0`, with `data` fed to its target and `bufs` read but not fed. Once the reader has
recorded a fault the source is of no more account: the run will be aborted. -/
structure RunTarget.Running (T : RunTarget) (s0 : State) (data : List Byte) (bufs : List (List Byte)) (s : State) :
    Prop where
  cfg : s.cfg = s0.cfg
  lanes : s.lanes = s0.lanes
  mem : s.mem = s0.mem
  rsp : s.rsp = s0.rsp
  unit : s.sp.fixed = s0.sp.fixed
  cpos : s.sp.cpos = data.length
  evt : s.evt = s0.evt ++
    (progressPositions s0.sp.interval 0 data.length s0.sp.run.total).map (eventWord progressKind)
  fed : T.Fed s0 data s
  starts : BuffersStart s0.cfg.bufSize s0.sp.run.total data.length bufs
  source : s.sp.fault = none → sourceBytes s0.env.source = data ++ bufs.flatten ++ sourceBytes s.env.source

namespace RunTarget.Running

variable {T : RunTarget}

theorem state_eq (h : T.Running s0 data bufs s) : s.sp.state = s0.sp.state := (congrArg Spu.state h.unit :)
theorem cls_eq (h : T.Running s0 data bufs s) : s.sp.cls = s0.sp.cls := (congrArg Spu.cls h.unit :)
theorem kind_eq (h : T.Running s0 data bufs s) : s.sp.kind = s0.sp.kind := (congrArg Spu.kind h.unit :)
theorem key_eq (h : T.Running s0 data bufs s) : s.sp.key = s0.sp.key := (congrArg Spu.key h.unit :)
theorem run_eq (h : T.Running s0 data bufs s) : s.sp.run = s0.sp.run := (congrArg Spu.run h.unit :)
theorem interval_eq (h : T.Running s0 data bufs s) : s.sp.interval = s0.sp.interval := (congrArg Spu.interval h.unit :)

theorem initialPrim_eq (h : T.Running s0 data bufs s) : initialPrim s = initialPrim s0 := by
  rw [initialPrim, initialPrim, h.cls_eq, h.kind_eq, h.key_eq]

theorem commandsKept (h : T.Running s0 data bufs s) : CommandsKept s0 s :=
  ⟨h.rsp, by rw [h.fed.xf_eq], h.state_eq, h.run_eq⟩

/-- The environment's events are no part of a run. -/
theorem withEvents (h : T.Running s0 data bufs s) (events : List Event) :
    T.Running s0 data bufs (withEvents events s) := by
  refine ⟨h.cfg, h.lanes, h.mem, h.rsp, h.unit, h.cpos, h.evt, ?_, h.starts, h.source⟩
  cases T <;> exact h.fed

/-- A run that has just started. -/
theorem start (hT : T.Of s0) (hcpos : s0.sp.cpos = 0) : T.Running s0 [] [] s0 where
  cfg := rfl
  lanes := rfl
  mem := rfl
  rsp := rfl
  unit := rfl
  cpos := hcpos
  evt := by rw [List.length_nil, progressPositions_self, List.map_nil, List.append_nil]
  fed := T.fed_nil hT
  starts := .inl (Nat.zero_mod _)
  source := fun _ => rfl

/-- The reader's fault. -/
theorem faulted {code : Code} {source : List SrcAnswer} (h : T.Running s0 data bufs s) :
    T.Running s0 data bufs
      { s with sp := { s.sp with fault := some code }, env := { s.env with source := source } } := by
  refine ⟨h.cfg, h.lanes, h.mem, h.rsp, h.unit, h.cpos, h.evt, ?_, h.starts, nofun⟩
  cases T <;> exact h.fed

/-- A whole request read from the source. -/
theorem read (h : T.Running s0 data bufs s) (hrpos : s.sp.rpos = data.length + queuedBytes bufs)
    (hlt : s.sp.rpos < s.sp.run.total) (ha : (sourceAnswer (requestSize s) s.env.source).1 = .data bs)
    (hlen : bs.length = requestSize s) : T.Running s0 data (bufs ++ [bs]) (readAhead s) := by
  refine ⟨h.cfg, h.lanes, h.mem, h.rsp, h.unit, h.cpos, h.evt, ?_, ?_, fun hf => ?_⟩
  · cases T <;> exact h.fed
  · have htotal := congrArg Run.total h.run_eq
    have hstart : s.sp.rpos % s.cfg.bufSize = 0 := by
      have := h.starts.at_end
      rw [← hrpos, ← h.cfg, ← htotal] at this
      exact this.resolve_right (by omega)
    have hend := requestSize_end (le_of_lt hlt) hstart
    rw [← hlen, hrpos, h.cfg, htotal] at hend
    rw [hrpos, h.cfg] at hstart
    exact h.starts.concat hstart hend
  · rw [h.source hf, sourceBytes_of_answer ha, List.flatten_append, List.flatten_singleton, List.append_assoc,
      List.append_assoc, List.append_assoc]
    rfl

theorem pushed (h : T.Running s0 data bufs s) (bs : List Byte) : T.Running s0 data bufs (pushBuffer bs s) := by
  refine ⟨h.cfg, h.lanes, h.mem, h.rsp, h.unit, h.cpos, h.evt, ?_, h.starts, h.source⟩
  cases T <;> exact h.fed

/-- A buffer taken off the queue. -/
theorem dequeued {queue : List (List Byte)} (h : T.Running s0 data bufs s) :
    T.Running s0 data bufs (dequeued queue s) := by
  refine ⟨h.cfg, h.lanes, h.mem, h.rsp, h.unit, h.cpos, h.evt, ?_, h.starts, h.source⟩
  cases T <;> exact h.fed

/-- The target fed one buffer more; nothing else of the state moves (42 R202). -/
theorem feedTarget (hT : T.Of s0) (h : T.Running s0 data (bs :: bufs) s) (hx : feedTarget bs s = .fed t) :
    T.Fed s0 (data ++ bs) t ∧ t = { s with bm := t.bm, sp := { s.sp with prim := t.sp.prim }, env := t.env } ∧
      t.env.source = s.env.source := by
  have hcls := h.cls_eq
  cases T with
  | code p st =>
    obtain ⟨hc, hp, -⟩ := hT
    obtain ⟨hprim, hbm⟩ := h.fed
    obtain ⟨-, p', st', hp', hst', rfl⟩ | ⟨hc', -⟩ | ⟨hc', -⟩ := feedTarget_fed bs s t hx
    · rw [h.cls_eq, h.kind_eq] at hp'
      cases hp.symm.trans hp'
      cases hprim.symm.trans hst'
      exact ⟨⟨congrArg some (p.upd_append _ _ _), hbm⟩, rfl, rfl⟩
    all_goals rcases hc with hc | hc <;> cases hc.symm.trans (hcls.symm.trans hc')
  | cipher c mode =>
    obtain ⟨hc, he, hbuf⟩ := hT
    obtain ⟨hbm, hsunk⟩ := h.fed
    have hwhole : data.length % c.blockSize = 0 :=
      Nat.mod_eq_zero_of_dvd ((Nat.dvd_of_mod_eq_zero hbuf).trans (Nat.dvd_of_mod_eq_zero h.starts.1))
    obtain ⟨hc' | hc', -⟩ | ⟨-, c', mode', he', hsink, rfl⟩ | ⟨hc', -⟩ := feedTarget_fed bs s t hx
    rotate_left 2
    · have hsame : engine s = engine s0 := by simp only [engine, hbm]
      cases he.symm.trans (hsame.symm.trans he')
      refine ⟨?_, rfl, rfl⟩
      rw [Fed, xform_append hwhole]
      simp only [snkWrite, hsink, hbm, hsunk, reduceIte, List.append_assoc, and_self]
    all_goals cases hc.symm.trans (hcls.symm.trans hc')

/-- A buffer fed and accounted for (42 R202). -/
theorem feed (hT : T.Of s0) (h : T.Running s0 data (bs :: bufs) s) (hx : feed bs s = .fed t) :
    T.Running s0 (data ++ bs) bufs t := by
  obtain ⟨u, hu, rfl⟩ := Machine.feed_fed bs s t hx
  obtain ⟨hfed, hframe, hsource⟩ := h.feedTarget hT hu
  rw [hframe]
  refine ⟨h.cfg, h.lanes, h.mem, h.rsp, h.unit, ?_, ?_, ?_, ?_, fun hf => ?_⟩
  · show s.sp.cpos + bs.length = (data ++ bs).length
    rw [h.cpos, List.length_append]
  · rw [accountFed_evt]
    show s.evt ++ (progressPositions s.sp.interval s.sp.cpos (s.sp.cpos + bs.length) s.sp.run.total).map _ = _
    rw [h.evt, h.interval_eq, h.cpos, h.run_eq, List.append_assoc, ← List.map_append, List.length_append,
      ← progressPositions_append _ _ (Nat.zero_le _) (Nat.le_add_right _ _)]
  · cases T <;> exact hfed
  · rw [List.length_append]
    exact h.starts.2
  · show sourceBytes s0.env.source = data ++ bs ++ bufs.flatten ++ sourceBytes u.env.source
    rw [hsource, h.source hf, List.flatten_cons, ← List.append_assoc]

end RunTarget.Running

/-! ### The end of a run -/

/-- A run that was started in `s0` and has answered `Ok`, with all of its bytes behind it. -/
structure RunTarget.Ended (T : RunTarget) (s0 : State) (data : List Byte) (t : State) : Prop where
  done : T.Done s0 data t
  answered : RunEnded .ok s0 t
  total : data.length = s0.sp.run.total
  source : ∃ rest, sourceBytes s0.env.source = data ++ rest
  cpos : t.sp.cpos = data.length
  lanes : t.lanes = s0.lanes
  evt : t.evt = s0.evt ++
    (progressPositions s0.sp.interval 0 data.length s0.sp.run.total).map (eventWord progressKind) ++
      [eventWord finalKind s0.sp.run.total]

namespace RunTarget.Running

variable {T : RunTarget}

/-- Finishing leaves the code stored or the sink and the chain as they are, and the target restored (42 R212). -/
theorem done (hT : T.Of s0) (h : T.Running s0 data bufs s) (held : RunHeld s) (hx : finish s = .next t) :
    T.Done s0 data t ∧ ∃ mem, t = runFinished { s with mem := mem } := by
  have hprim := h.initialPrim_eq
  have hcls := h.cls_eq
  cases T with
  | code p st =>
    obtain ⟨hc, hp, -⟩ := hT
    obtain ⟨hst, hbm⟩ := h.fed
    rw [← hcls] at hc
    rw [← hcls, ← h.kind_eq] at hp
    have hnot : s.sp.cls ≠ .cipher := by rcases hc with hc | hc <;> simp [hc]
    obtain ⟨-, p', st', dst, hp', -, hout, hin⟩ | ⟨hc', -⟩ := (runTargetOk_iff s).1 held.runTarget
    · cases hp.symm.trans hp'
      cases (finish_code held.target hc hp hst hout hin).symm.trans hx
      refine ⟨⟨fun dst' hdst => ?_, hprim, ?_⟩, _, rfl⟩
      · rw [h.run_eq, hdst] at hout
        cases hout
        show setBytes s.mem _ _ = _
        rw [h.mem]
      · rw [runFinished, targetRestored_of_code (by exact hnot)]
        exact hbm
    · exact absurd hc' hnot
  | cipher c mode =>
    obtain ⟨hc, -⟩ := hT
    obtain ⟨hbm, hsunk⟩ := h.fed
    have hc' := hcls.trans hc
    cases (finish_cipher held.target hc').symm.trans hx
    refine ⟨⟨h.mem, ?_, hsunk⟩, _, rfl⟩
    show (if s.sp.cls = .cipher then _ else _) = _
    rw [if_pos hc', hbm]

/-- A run that has fed all of its bytes and finishes. -/
theorem ended (hT : T.Of s0) (h : T.Running s0 data [] s) (held : RunHeld s) (hfault : s.sp.fault = none)
    (hend : s.sp.cpos = s.sp.run.total) (hx : finish s = .next t) : T.Ended s0 data t := by
  obtain ⟨hdone, mem, heq⟩ := h.done hT held hx
  have hsource := h.source hfault
  rw [List.flatten_nil, List.append_nil] at hsource
  refine ⟨hdone, h.commandsKept.runEnded (RunEnded.finish hx), ?_, ⟨_, hsource⟩, ?_, ?_, ?_⟩
  · rw [← h.cpos, hend, h.run_eq]
  · rw [heq]
    exact h.cpos
  · rw [heq]
    exact h.lanes
  · rw [heq, ← h.evt, ← h.run_eq]
    rfl

end RunTarget.Running

/-! ### Every step of a run -/

/-- Where a run that was started in `s0` can be: under way, ended with `Ok`, or ended with an error. -/
inductive RunTarget.Reached (T : RunTarget) (s0 t : State) : Prop where
  | running (data : List Byte) (h : T.Running s0 data t.sp.queue t)
  | ended (data : List Byte) (h : T.Ended s0 data t)
  | failed (code : Code) (hne : code ≠ .ok) (h : RunEnded code s0 t)

namespace RunTarget.Running

variable {T : RunTarget}

/-- An abort of the run ends it with an error. -/
theorem aborted {code : Code} (h : T.Running s0 data bufs s) (hu : CommandsKept s u) (hne : code ≠ .ok)
    (hx : abortRun code u = .next t) : T.Reached s0 t :=
  .failed code hne ((h.commandsKept.trans hu).runEnded (RunEnded.abortRun hx))

theorem feed_ended (h : T.Running s0 data bufs s) (hu : CommandsKept s u) (hx : Machine.feed bs u = .ended (.next t)) :
    T.Reached s0 t :=
  .failed .io (by simp) ((h.commandsKept.trans hu).runEnded (RunEnded.feed_ended hx))

theorem seqStep (hT : T.Of s0) (h : T.Running s0 data s.sp.queue s) (hI : Inv s) (hen : enabled s .seq = true)
    (hx : seqStep s = .next t) : T.Reached s0 t := by
  obtain ⟨hrun, hpath, hlt⟩ := enabled_seq_iff.1 hen
  obtain ⟨held, hpos⟩ := hI.runHeld hrun
  obtain ⟨-, -, -, hqueued, -, -, hseq⟩ := (runPositionsOk_iff s).1 hpos
  obtain ⟨hqueue, -, hfault⟩ := hseq hpath
  rw [hqueue] at h hqueued
  obtain ⟨-, ha⟩ | ⟨-, -, ha⟩ | ⟨bs, -, -, -, ha⟩ | ⟨bs, -, hans, hlen, hfeed⟩ := seqStep_cases s t hx
  · exact h.aborted ⟨rfl, rfl, rfl, rfl⟩ (by simp) ha
  · exact h.aborted (u := sourceMoved s) ⟨rfl, rfl, rfl, rfl⟩ (by simp) ha
  · exact h.aborted (u := sourceMoved s) ⟨rfl, rfl, rfl, rfl⟩ (by simp) ha
  obtain he | ⟨u, hu, hend⟩ := hfeed
  · exact h.feed_ended (u := readAhead s) ⟨rfl, rfl, rfl, rfl⟩ he
  have hread : T.Running s0 data [bs] (readAhead s) :=
    h.read (by rw [hqueued, h.cpos]) (by rw [hqueued]; exact hlt) hans hlen
  have fed := hread.feed hT hu
  obtain ⟨hheld, ⟨prim, hsp⟩, -⟩ := held.readAhead.feed_fed (fun hw => hlen ▸ held.requestSize_whole hw) hu
  obtain ⟨hlast, hfin⟩ | ⟨-, rfl⟩ := hend
  · exact .ended _ (fed.ended hT hheld (by rw [hsp]; exact hfault) hlast hfin)
  · refine .running (data ++ bs) ?_
    rw [hsp]
    show T.Running s0 (data ++ bs) s.sp.queue t
    rwa [hqueue]

theorem rdrStep (h : T.Running s0 data s.sp.queue s) (hI : Inv s) (hen : enabled s .rdr = true)
    (hx : rdrStep s = .next t) : T.Reached s0 t := by
  obtain ⟨hrun, hpath, hdone, -, -⟩ := enabled_rdr_iff.1 hen
  obtain ⟨-, hpos⟩ := hI.runHeld hrun
  obtain ⟨-, -, hrpos, hqueued, -, hconc, -⟩ := (runPositionsOk_iff s).1 hpos
  obtain ⟨-, -, hread, -⟩ := hconc hpath
  have hlt : s.sp.rpos < s.sp.run.total := lt_of_le_of_ne hrpos fun heq => by simp [hread.2 heq] at hdone
  obtain ⟨-, rfl⟩ | ⟨-, -, rfl⟩ | ⟨bs, -, -, -, rfl⟩ | ⟨bs, -, hans, hlen, rfl⟩ := rdrStep_cases s t hx
  · exact .running data h.faulted
  · exact .running data h.faulted
  · exact .running data h.faulted
  · exact .running data ((h.read (by rw [hqueued, h.cpos]) hlt hans hlen).pushed bs)

theorem csmStep (hT : T.Of s0) (h : T.Running s0 data s.sp.queue s) (hI : Inv s) (hen : enabled s .csm = true)
    (hx : csmStep s = .next t) : T.Reached s0 t := by
  obtain ⟨hrun, hpath, -⟩ := enabled_csm_iff.1 hen
  obtain ⟨held, hpos⟩ := hI.runHeld hrun
  obtain ⟨-, -, -, hqueued, -, hconc, -⟩ := (runPositionsOk_iff s).1 hpos
  obtain ⟨-, -, hread, hcodes⟩ := hconc hpath
  obtain ⟨code, hcode, ha⟩ | ⟨-, -, rfl⟩ | ⟨bs, rest, hfault, hqueue, hfeed⟩ := csmStep_cases s t hx
  · refine h.aborted ⟨rfl, rfl, rfl, rfl⟩ ?_ ha
    obtain ⟨-, rfl | rfl | rfl⟩ := hcodes code hcode <;> simp
  · exact .running data h
  rw [hqueue] at h hqueued
  obtain he | ⟨u, hu, hend⟩ := hfeed
  · exact h.feed_ended (u := Machine.dequeued rest s) ⟨rfl, rfl, rfl, rfl⟩ he
  have fed := (h.dequeued (queue := rest)).feed hT hu
  obtain ⟨hheld, ⟨prim, hsp⟩, -⟩ := (held.dequeued hqueue).feed_fed (held.head_whole hqueue) hu
  obtain ⟨hdone, hempty, hfin⟩ | ⟨-, rfl⟩ := hend
  · rw [hsp] at hdone hempty
    have hrest : rest = [] := hempty
    have hall := hread.1 hdone
    have hlast : u.sp.cpos = u.sp.run.total := by
      rw [hsp]
      show s.sp.cpos + bs.length = s.sp.run.total
      rw [← hall, hqueued, hrest, queuedBytes_cons, queuedBytes_nil, Nat.add_zero]
    rw [hrest] at fed
    exact .ended _ (fed.ended hT hheld (by rw [hsp]; exact hfault) hlast hfin)
  · refine .running (data ++ bs) ?_
    rw [hsp]
    exact fed

end RunTarget.Running

end Sys2Proof.Machine
end

section
/-! SUPPORT. A run left alone with the agents (42_stream_processor.md R208, R214, R215): whatever turns they take, a
run that has answered `Ok` has done what the spec says of its stream; the obligations about the results of the stream unit. -/

-- One declaration after another, so that the joined text needs no more worker threads than the check has memory for.
set_option Elab.async false

namespace Sys2Proof.Machine

variable {s s0 t u : State} {bs data : List Byte} {T : RunTarget} {b : Agent} {tag : BitVec 8}

/-! ### No agent touches the events to come -/

theorem abortRun_env {code : Code} (h : abortRun code s = .next t) : t.env = s.env := by
  obtain ⟨u, hu, rfl⟩ := abortRun_answers h
  obtain ⟨-, d, -, rfl⟩ | ⟨-, m, -, rfl⟩ | ⟨-, rfl⟩ | ⟨-, rfl⟩ := restoreTarget_cases _ u hu <;> rfl

theorem finish_env (h : finish s = .next t) : t.env = s.env := by
  obtain ⟨u, v, hu, hv, rfl⟩ := finish_answers h
  have restored : v.env = u.env := by
    obtain ⟨-, d, -, rfl⟩ | ⟨-, m, -, rfl⟩ | ⟨-, rfl⟩ | ⟨-, rfl⟩ := restoreTarget_cases u v hv <;> rfl
  have stored : u.env = s.env := by
    obtain ⟨-, p, st, dst, dsz, -, -, -, -, rfl⟩ | ⟨-, rfl⟩ := storeCode_cases s u hu <;> rfl
  exact restored.trans stored

theorem feed_fed_events (h : feed bs s = .fed t) : t.env.events = s.env.events := by
  obtain ⟨u, hu, rfl⟩ := feed_fed bs s t h
  obtain ⟨-, p, st, -, -, rfl⟩ | ⟨-, c, mode, -, -, rfl⟩ | ⟨-, rfl⟩ := feedTarget_fed bs s u hu <;> rfl

theorem feed_ended_events (h : feed bs s = .ended (.next t)) : t.env.events = s.env.events := by
  obtain ⟨-, c, mode, -, -, ha⟩ := feedTarget_ended bs s t (feed_ended bs s _ h)
  rw [abortRun_env ha]
  rfl

theorem seqStep_events (h : seqStep s = .next t) : t.env.events = s.env.events := by
  obtain ⟨-, ha⟩ | ⟨-, -, ha⟩ | ⟨bs, -, -, -, ha⟩ | ⟨bs, -, -, -, he | ⟨u, hu, ⟨-, hfin⟩ | ⟨-, rfl⟩⟩⟩ :=
    seqStep_cases s t h
  · rw [abortRun_env ha]
  · rw [abortRun_env ha]; rfl
  · rw [abortRun_env ha]; rfl
  · exact feed_ended_events (s := readAhead s) he
  · rw [finish_env hfin]
    exact feed_fed_events (s := readAhead s) hu
  · exact feed_fed_events (s := readAhead s) hu

theorem rdrStep_events (h : rdrStep s = .next t) : t.env.events = s.env.events := by
  obtain ⟨-, rfl⟩ | ⟨-, -, rfl⟩ | ⟨bs, -, -, -, rfl⟩ | ⟨bs, -, -, -, rfl⟩ := rdrStep_cases s t h <;> rfl

theorem csmStep_events (h : csmStep s = .next t) : t.env.events = s.env.events := by
  obtain ⟨code, -, ha⟩ | ⟨-, -, rfl⟩ | ⟨bs, rest, -, -, he | ⟨u, hu, ⟨-, -, hfin⟩ | ⟨-, rfl⟩⟩⟩ := csmStep_cases s t h
  · rw [abortRun_env ha]
  · rfl
  · exact feed_ended_events (s := dequeued rest s) he
  · rw [finish_env hfin]
    exact feed_fed_events (s := dequeued rest s) hu
  · exact feed_fed_events (s := dequeued rest s) hu

/-! ### Who moves while a run is in flight -/

/-- Without a transform record the agents of the engine have no step (42 R216). -/
theorem Inv.stream_agent (h : Inv s) (hxf : s.bm.xf = none) (hen : enabled s b = true) :
    b = .seq ∨ b = .rdr ∨ b = .csm := by
  cases b with
  | ctl => simp [enabled, ctlEnabled, hxf] at hen
  | lane i =>
    obtain ⟨l, hl, hb, -⟩ := lane_of_laneEnabled hen
    obtain ⟨xf, nc, hsome, -⟩ := h.par_of_busy hl hb
    cases hxf.symm.trans hsome
  | seq | rdr | csm => simp

/-- With neither a transform nor a run nobody moves. -/
theorem Inv.nobody_moves (h : Inv s) (hxf : s.bm.xf = none) (hsp : s.sp.state ≠ .running) (b : Agent) :
    enabled s b = false := by
  obtain ⟨hiff, -⟩ := (engineHeldOk_iff s).1 h.engineHeld
  refine h.none_enabled (fun hst => ?_) hsp b
  obtain hne | ⟨hrun, -⟩ := hiff.1 hst
  · exact hne hxf
  · exact hsp hrun

namespace RunTarget.Reached

theorem withEvents (h : T.Reached s0 s) (events : List Event) : T.Reached s0 (withEvents events s) := by
  cases h with
  | running data h => exact .running data (h.withEvents events)
  | ended data h =>
    refine .ended data ⟨?_, ⟨h.answered.rsp, h.answered.transform, h.answered.unit⟩, h.total, h.source, h.cpos,
      h.lanes, h.evt⟩
    have := h.done
    cases T <;> exact this
  | failed code hne h => exact .failed code hne ⟨h.rsp, h.transform, h.unit⟩

/-- An ended run has nothing left to move; a run under way is moved on by `SEQ`, `RDR` and `CSM` alone. -/
theorem agentAct (hT : T.Of s0) (hxf : s0.bm.xf = none) (h : T.Reached s0 s) (hI : Inv s) (hen : enabled s b = true)
    (hx : agentAct b s = .next t) : T.Reached s0 t ∧ t.env.events = s.env.events := by
  have still {code : Code} (h : RunEnded code s0 s) : False := by
    have hnone : s.bm.xf = none := by simpa [hxf] using h.transform
    simp [hI.nobody_moves hnone (by simp [h.unit]) b] at hen
  cases h with
  | running data h =>
    obtain rfl | rfl | rfl := hI.stream_agent (h.fed.xf_eq.trans hxf) hen
    · exact ⟨h.seqStep hT hI hen hx, seqStep_events hx⟩
    · exact ⟨h.rdrStep hI hen hx, rdrStep_events hx⟩
    · exact ⟨h.csmStep hT hI hen hx, csmStep_events hx⟩
  | ended data h => exact (still h.answered).elim
  | failed code hne h => exact (still h).elim

/-- Whatever turns the agents take. -/
theorem of_turns (hT : T.Of s0) (hxf : s0.bm.xf = none) (turns : List Agent) (h : T.Reached s0 s) (hI : Inv s)
    (hev : s.env.events = turns.map .agent) (hrun : runSteps turns.length s = .next t) : T.Reached s0 t := by
  induction turns generalizing s with
  | nil =>
    cases hrun
    exact h
  | cons b turns ih =>
    obtain ⟨u, hu, hrun⟩ := (runSteps_succ _ _ _).1 hrun
    have hI' : Inv (Machine.withEvents (turns.map .agent) s) := hI.env_tick _ s.tick
    have h' := h.withEvents (turns.map .agent)
    rw [step_eq_agentStep_of_turn hev] at hu
    obtain ⟨hen, hact⟩ | ⟨-, rfl⟩ := agentStep_cases _ _ _ hu
    · obtain ⟨hreached, hevents⟩ := h'.agentAct hT hxf hI' hen hact
      exact ih hreached (hI'.agentAct hen hact) hevents hrun
    · exact ih h' hI' rfl hrun

/-- A run whose one response is `Ok` has ended with all of its bytes behind it. -/
theorem ended_of_answer (h : T.Reached s0 t) (hrsp : t.rsp = s0.rsp ++ [responseWord 0x12 s0.sp.run.tag .ok]) :
    ∃ data, T.Ended s0 data t := by
  cases h with
  | running data h => simp [h.rsp] at hrsp
  | ended data h => exact ⟨data, h⟩
  | failed code hne h =>
    rw [h.rsp, List.append_cancel_left_eq, List.singleton_inj] at hrsp
    exact absurd hrsp (responseWord_ne_ok _ _ hne)

end RunTarget.Reached

/-! ### The result of a run -/

theorem RunTarget.Ended.data_eq (h : T.Ended s0 data t) :
    (sourceBytes s0.env.source).take s0.sp.run.total = data := by
  obtain ⟨rest, hrest⟩ := h.source
  rw [hrest, ← h.total, List.take_left]

theorem RunTarget.Ended.evt_eq (h : T.Ended s0 data t) :
    t.evt = s0.evt ++
      (List.range ((s0.sp.run.total + s0.sp.interval - 1) / s0.sp.interval - 1)).map
        (fun m => eventWord 1 ((m + 1) * s0.sp.interval)) ++ [eventWord 2 s0.sp.run.total] := by
  rw [h.evt, h.total, progressPositions_whole, List.map_map]
  rfl

/-- A run that was accepted and left alone with the agents, and has answered `Ok`. -/
theorem RunTarget.exists_ended (hT : T.Of s0) (hI : Inv s0) (hxf : s0.bm.xf = none) (hcpos : s0.sp.cpos = 0)
    (hqueue : s0.sp.queue = []) (turns : List Agent) (hrun : runAgents turns s0 = .next t)
    (hrsp : t.rsp = s0.rsp ++ [responseWord 0x12 s0.sp.run.tag .ok]) : ∃ data, T.Ended s0 data t := by
  have hstart : T.Running s0 [] s0.sp.queue s0 := hqueue ▸ .start hT hcpos
  have hreached := (RunTarget.Reached.running [] hstart).withEvents (turns.map .agent)
  exact (hreached.of_turns hT hxf turns (hI.env_tick _ s0.tick) rfl hrun).ended_of_answer hrsp

/-- A run that `SP_RUN` has put under way was started on an armed target. -/
theorem execSpRun_started (hx : execSpRun tag s = .next t) (harmed : s.sp.state = .armed)
    (hrun : t.sp.state = .running) :
    ((s.sp.cls = .digest ∨ s.sp.cls = .mac) ∧ ∃ p o, streamPrim? s.sp.cls s.sp.kind = some p ∧
        outputRange s p.digestSize = some o ∧ t = runStarted tag (some (o, p.digestSize)) p.blockSize s) ∨
      (s.sp.cls = .cipher ∧ engineServes s ∧
        t = setBmState .transforming (runStarted tag none s.bm.blockSize s)) := by
  have started {out : Option (Nat × Nat)} {nbs : Nat} (ha : acceptRun tag out nbs s = .next t) :
      t = startRun tag out nbs s := by
    obtain ⟨-, hfin⟩ | ⟨-, rfl⟩ := acceptRun_cases tag out nbs s t ha
    · cases hrun.symm.trans (RunEnded.finish hfin).unit
    · rfl
  obtain ⟨code, -, -, rfl⟩ | ⟨-, -, ⟨hcls, p, o, hp, ho, ha⟩ | ⟨hcls, hready, hbuf, -, ha⟩⟩ :=
    execSpRun_cases tag s t hx
  · cases harmed.symm.trans hrun
  · refine .inl ⟨hcls, p, o, hp, ho, (started ha).trans ?_⟩
    rw [startRun_eq, if_neg (by rcases hcls with hc | hc <;> simp [hc])]
  · refine .inr ⟨hcls, ⟨hready, hbuf⟩, (started ha).trans ?_⟩
    rw [startRun_eq, if_pos hcls]

end Sys2Proof.Machine

namespace Sys2Proof.Proofs

open Sys2Proof.Machine

/-- Settles O57: the run of turns keeps the target at the bytes fed, and finishing stores the code of them all. -/
theorem streamCodeResult : Obligations.StreamCodeResult := by
  intro s t0 t tag turns p st o hI hfree hcls hp hst ho hx hrun0 harmed hrun hrsp total data I
  have hI0 : Inv t0 := hI.spRun hx
  obtain ⟨-, p', o', hp', ho', rfl⟩ | ⟨hc, -⟩ := execSpRun_started hx harmed hrun0
  · cases hp.symm.trans hp'
    cases ho.symm.trans ho'
    obtain ⟨hxf, -⟩ := hI.engine_free hfree
    have hT : (RunTarget.code p st).Of (runStarted tag (some (o, p.digestSize)) p.blockSize s) := ⟨hcls, hp, hst⟩
    obtain ⟨bytes, out⟩ := RunTarget.exists_ended hT hI0 hxf rfl rfl turns hrun hrsp
    have hdata : data = bytes := out.data_eq
    have htotal : bytes.length = total := out.total
    obtain ⟨hmem, hprim, hbm⟩ := out.done
    have hmem := hmem o rfl
    have hwf := hI.memory_wf
    rw [hdata]
    refine ⟨htotal, ?_, fun x hx => ?_, out.evt_eq, out.answered.unit, ?_, out.cpos.trans htotal, hbm, out.lanes⟩
    · have stored := bytesAt_setBytes (a := o) (v := p.fin (p.upd st bytes)) hwf
      rw [p.fin_length] at stored
      rw [hmem]
      exact stored
    · rw [hmem]
      exact byteAt_setBytes_outside hwf (by rwa [p.fin_length])
    · exact hprim.trans ((armed_prim hI harmed).2.symm.trans hst)
  · rcases hcls with hc' | hc' <;> cases hc.symm.trans hc'

/-- Settles O58: the run of turns keeps chain and sink at the bytes fed, and the last buffer makes
them the whole stream. -/
theorem streamCipherResult : Obligations.StreamCipherResult := by
  intro s t0 t tag turns hI hcls hx hrun0 harmed hrun hrsp total data I
  have hI0 : Inv t0 := hI.spRun hx
  obtain ⟨hc | hc, -⟩ | ⟨-, ⟨hready, hbuf⟩, rfl⟩ := execSpRun_started hx harmed hrun0
  rotate_left 2
  · obtain ⟨c, mode, he⟩ := hI.engine_of_ready hready
    obtain ⟨hxf, -⟩ := hI.engine_free (by simp [hready])
    have eng := engineReady_of_engine hI.selection hI.keyState (by simp [hready]) he
    have hT : (RunTarget.cipher c mode).Of (setBmState .transforming (runStarted tag none s.bm.blockSize s)) :=
      ⟨hcls, he, by rw [← eng.blockSize_eq]; exact hbuf⟩
    obtain ⟨bytes, out⟩ := RunTarget.exists_ended hT hI0 hxf rfl rfl turns hrun hrsp
    have hdata : data = bytes := out.data_eq
    have htotal : bytes.length = total := out.total
    obtain ⟨hmem, hbm, hsunk⟩ := out.done
    rw [hdata]
    refine ⟨c, mode, he, htotal, hsunk, ?_, hmem, out.evt_eq, out.answered.unit, out.cpos.trans htotal, out.lanes⟩
    have hreadied : { s.bm with state := .ready } = s.bm := by rw [← hready]
    exact hbm.trans (congrArg (fun bm : Bme => { bm with chain := (RunTarget.xform c mode s bytes).2 }) hreadied)
  all_goals cases hcls.symm.trans hc

end Sys2Proof.Proofs
end

section
/-! SUPPORT. The command of neither unit (43_common_commands.md R240) and the command words the spec writes out in its
examples. -/

namespace Sys2Proof

variable {w : Word} {i : Instr}

/-- The word written for a command (R93) is decoded to that command and to no other. -/
theorem decode_of_encode_eq (h : encode i = w) : decode w = .ok i :=
  h ▸ decode_encode i

end Sys2Proof

namespace Sys2Proof.Machine

/-- `NOP` asks nothing of the state: its answer is the `RspEmit` of R240 alone. -/
theorem exec_nop (tag : BitVec 8) (s : State) : exec (.nop tag) s = .next (respond 0x00 tag .ok s) := rfl

end Sys2Proof.Machine

namespace Sys2Proof.Proofs

open Sys2Proof.Machine

/-- Settles O4: each word of the spec is the one the encoder writes for its command. -/
theorem knownWordsDecode : Obligations.KnownWordsDecode := by
  refine ⟨?_, ?_, ?_, ?_, ?_, ?_, ?_, ?_, ?_, ?_, ?_, ?_, ?_⟩ <;> exact decode_of_encode_eq (by decide)

/-- Settles O10: `NOP` appends its response, and a response changes the log RSP only. -/
theorem nopAnswers : Obligations.NopAnswers := fun tag s => exec_nop tag s

end Sys2Proof.Proofs
end

section
/-! SUPPORT. What cannot fail (60_exceptions.md R254): under the invariant every agent that is enabled has its step, so no
step stops but an access of the host outside `MEM` (20_memory.md R62). -/

namespace Sys2Proof.Machine

variable {s : State} {xf : Transform} {a : Agent} {e : Event}

/-! ### The agents -/

theorem Inv.spawn_continues (h : Inv s) (hxf : s.bm.xf = some xf) (hn : 0 < xf.npar) :
    Continues (Machine.spawn xf s) := by
  obtain ⟨c, mode, eng⟩ := h.transform_engine hxf
  exact ⟨_, h.spawn_answers hxf hn eng.mode_eq⟩

/-- What is left of a transform lies in both of its ranges, and so in `MEM` (40 R131, R133). -/
theorem Inv.serialStep_continues (h : Inv s) (hxf : s.bm.xf = some xf) (hlt : xf.pos < xf.len) :
    Continues (Machine.serialStep xf s) := by
  obtain ⟨-, hsrc, hdst, -⟩ := h.transform_facts hxf
  obtain ⟨c, mode, eng⟩ := h.transform_engine hxf
  obtain ⟨c, he⟩ := engine_of_mode h.selection eng.mode_eq
  have hleft : min s.bm.blockSize (xf.len - xf.pos) ≤ xf.len - xf.pos := Nat.min_le_right _ _
  have hstore : xf.dst + xf.pos + min s.bm.blockSize (xf.len - xf.pos) ≤ memSize s := by omega
  simp only [Machine.serialStep, he]
  rw [memRead_of_inside (by omega)]
  dsimp only
  split
  · rename_i hnone
    obtain ⟨t, ht⟩ := exists_memWrite _ hstore
    cases ht.symm.trans hnone
  · exact continues_next _

theorem Inv.ctlStep_continues (h : Inv s) : Continues (Machine.ctlStep s) := by
  unfold Machine.ctlStep
  split
  · exact continues_next _
  rename_i xf hxf
  split
  · exact continues_next _
  split
  · exact h.spawn_continues hxf ‹_›
  split
  · exact h.serialStep_continues hxf ‹_›
  · exact continues_next _

theorem Inv.laneStep_continues {i : Nat} {l : Lane} (h : Inv s) (hl : s.lanes[i]? = some l) (hb : l.busy = true)
    (hn : 0 < l.n) : Continues (Machine.laneStep i l s) := by
  obtain ⟨xf, nc, hxf, -⟩ := h.par_of_busy hl hb
  obtain ⟨c, mode, eng⟩ := h.transform_engine hxf
  obtain ⟨c, he⟩ := engine_of_mode h.selection eng.mode_eq
  obtain ⟨-, hanswer⟩ := h.laneStep_answers he hl hb hn
  exact ⟨_, hanswer⟩

/-- An agent that feeds aborts the run or takes its buffer, each time with a next state. -/
theorem Inv.feedingAgent_continues (h : Inv s) (ha : a = .seq ∨ a = .csm) (hen : enabled s a = true) :
    Continues (Machine.agentAct a s) := by
  obtain ⟨t, ht, -⟩ := Proofs.abortedRun s a h ha hen
  exact ⟨t, ht⟩

theorem rdrStep_continues : Continues (rdrStep s) := by
  unfold rdrStep
  split
  · exact continues_next _
  split
  · exact continues_next _
  split
  · exact continues_next _
  · exact continues_next _

theorem Inv.agentAct_continues (h : Inv s) (hen : enabled s a = true) : Continues (Machine.agentAct a s) := by
  cases a with
  | ctl => exact h.ctlStep_continues
  | lane i =>
    obtain ⟨l, hl, hb, hn⟩ := lane_of_laneEnabled hen
    rw [Machine.agentAct, hl]
    exact h.laneStep_continues hl hb hn
  | seq => exact h.feedingAgent_continues (.inl rfl) hen
  | rdr => exact rdrStep_continues
  | csm => exact h.feedingAgent_continues (.inr rfl) hen

theorem Inv.agentStep_continues (h : Inv s) : Continues (Machine.agentStep a s) := by
  unfold Machine.agentStep
  split
  · exact h.agentAct_continues ‹_›
  · exact continues_next _

theorem enabled_tick (s : State) (a : Agent) (tick : Nat) : enabled { s with tick := tick } a = enabled s a := by
  cases a <;> rfl

theorem Inv.freeStep_continues (h : Inv s) : Continues (Machine.freeStep s) := by
  by_cases hnone : enabledAgents s = []
  · exact ⟨s, freeStep_of_none_enabled hnone⟩
  · obtain ⟨a, ha, hstep⟩ := freeStep_of_some_enabled hnone
    rw [hstep]
    exact (h.env_tick s.env (s.tick + 1)).agentAct_continues ((enabled_tick s a _).trans (List.mem_filter.1 ha).2)

/-! ### The events -/

theorem Inv.issue_continues (h : Inv s) (w : Word) : Continues (Machine.issue w s) := by
  obtain ⟨t, ht, -⟩ := h.issue_outcome w
  exact ⟨t, ht⟩

theorem Inv.happen_continues (h : Inv s) (hstore : ∀ a bs, e = .memWrite a bs → a + bs.length ≤ memSize s)
    (hload : ∀ a n, e = .memRead a n → a + n ≤ memSize s) : Continues (Machine.happen e s) := by
  cases e with
  | issue w => exact h.issue_continues w
  | memWrite a bs =>
    rw [Machine.happen, hostMemWrite, memWrite_of_inside (hstore a bs rfl)]
    exact continues_next _
  | memRead a n =>
    rw [Machine.happen, hostMemRead, memRead_of_inside (hload a n rfl)]
    exact continues_next _
  | agent a => exact h.agentStep_continues
  | regWrite | regRead | awaitRsp | awaitEvt | setSource | setSink | reset => exact continues_next _

end Sys2Proof.Machine

namespace Sys2Proof.Proofs

open Sys2Proof.Machine

/-- Settles O36: the next event happens or waits, and where it waits, or none is left, an enabled agent has its step. -/
theorem stepsNeverStop : Obligations.StepsNeverStop := by
  intro s h hstore hload
  cases he : s.env.events with
  | nil =>
    rw [step_eq_freeStep_of_no_events he]
    exact h.freeStep_continues
  | cons e rest =>
    cases hready : ready e s with
    | false =>
      rw [step_eq_freeStep_of_not_ready he hready]
      exact h.freeStep_continues
    | true =>
      rw [step_eq_happen_of_ready he hready]
      have taken : Inv (withEvents rest s) := h.env_tick { s.env with events := rest } s.tick
      exact taken.happen_continues (fun a bs heq => hstore a bs rest (heq ▸ he))
        (fun a n heq => hload a n rest (heq ▸ he))

end Sys2Proof.Proofs
end

section
/-! SUPPORT. The answers at issue (60_exceptions.md R251, R253, R256, R258): which code may answer which command, that a
code other than `Ok` comes alone, and what a busy unit answers. -/

namespace Sys2Proof.Machine

variable {s t : State} {op tag : BitVec 8} {codes more : List Code}

/-! ### The answer to an issued word -/

/-- The codes a word may be answered with at issue, by what it decodes to (R256, 30_encoding.md R101). -/
def possibleCodes : Except DecodeError Instr → List Code
  | .error (.unassignedOpcode _ _) => [.unsupported]
  | .error (.reservedBits _ _) => [.invalidParameter]
  | .ok (.nop _) => [.ok]
  | .ok (.bmNew _ _ _) => [.ok, .unsupported, .busy]
  | .ok (.bmInit _ _) => [.ok, .notInitialized, .invalidParameter, .busy]
  | .ok (.bmXblk _) => [.ok, .notInitialized, .invalidParameter]
  | .ok (.bmXfrm _) => [.ok, .notInitialized, .invalidParameter]
  | .ok (.bmSetpbs _) => [.ok, .notInitialized, .invalidParameter, .busy]
  | .ok (.bmSetpar _ _) => [.ok, .busy]
  | .ok (.bmRelease _) => [.ok, .busy]
  | .ok (.spNew _ _ _) => [.ok, .invalidParameter, .unsupported, .busy]
  | .ok (.spKey _) => [.ok, .notInitialized, .invalidParameter, .unsupported, .busy]
  | .ok (.spRun _) => [.ok, .notInitialized, .invalidParameter, .unsupported, .busy]
  | .ok (.spCancel _) => [.ok]
  | .ok (.spRelease _) => [.ok, .busy]

theorem ok_mem_possibleCodes (i : Instr) : .ok ∈ possibleCodes (.ok i) := by
  cases i <;> exact List.mem_cons_self

/-- What issuing a word does to RSP, `codes` being those it may answer: a rejection, which changes nothing else; the
answer `Ok`; or, where the command is accepted, no answer yet. -/
def AnswersWith (op tag : BitVec 8) (codes : List Code) (s t : State) : Prop :=
  rejectedAs op tag codes s t ∨ (.ok ∈ codes ∧ t.rsp = s.rsp ++ [responseWord op tag .ok]) ∨ t.rsp = s.rsp

theorem AnswersWith.of_rejectedAs (h : rejectedAs op tag codes s t) (hsub : codes ⊆ more) :
    AnswersWith op tag more s t := by
  obtain ⟨code, hc, hne, rfl⟩ := h
  exact .inl ⟨code, hsub hc, hne, rfl⟩

theorem AnswersWith.of_ok (hok : .ok ∈ codes) (h : t.rsp = s.rsp ++ [responseWord op tag .ok]) :
    AnswersWith op tag codes s t :=
  .inr (.inl ⟨hok, h⟩)

/-- The response an issued word appends has one of its codes, and comes alone where that code is not `Ok`. -/
theorem AnswersWith.of_response {r : Word} (h : AnswersWith op tag codes s t) (hr : t.rsp = s.rsp ++ [r]) :
    ∃ code ∈ codes, r = responseWord op tag code ∧ (code ≠ .ok → t = respond op tag code s) := by
  obtain ⟨code, hc, -, rfl⟩ | ⟨hok, hrsp⟩ | hquiet := h
  · exact ⟨code, hc, (List.singleton_inj.1 (List.append_cancel_left hr)).symm, fun _ => rfl⟩
  · rw [hrsp] at hr
    exact ⟨.ok, hok, (List.singleton_inj.1 (List.append_cancel_left hr)).symm, absurd rfl⟩
  · rw [hquiet] at hr
    simp at hr

theorem acceptRun_answersWith {out : Option (Nat × Nat)} {nbs : Nat} (harmed : s.sp.state = .armed)
    (hok : .ok ∈ codes) (h : acceptRun tag out nbs s = .next t) : AnswersWith 0x12 tag codes s t := by
  obtain ⟨hrsp, -⟩ | ⟨hrsp, -⟩ := acceptRun_outcome harmed h
  · exact .of_ok hok hrsp
  · exact .inr (.inr hrsp)

/-- Each command answers with its own opcode and tag and with a code of its row of R256. -/
theorem exec_answersWith {i : Instr} (h : exec i s = .next t) :
    AnswersWith (rawOfInstr i).opcode (rawOfInstr i).tag (possibleCodes (.ok i)) s t := by
  cases i with
  | nop tag =>
    cases h
    exact .of_ok (ok_mem_possibleCodes _) rfl
  | bmNew tag sel kind =>
    obtain hr | ⟨mode, c, -, -, -, -, rfl⟩ := execBmNew_cases tag sel kind s t h
    · exact .of_rejectedAs hr (by simp [possibleCodes])
    · exact .of_ok (ok_mem_possibleCodes _) rfl
  | bmInit tag f =>
    obtain hr | ⟨-, -, -, -, rfl⟩ := execBmInit_cases tag f s t h
    · exact .of_rejectedAs hr (by simp [possibleCodes])
    · exact .of_ok (ok_mem_possibleCodes _) rfl
  | bmXblk tag =>
    obtain hr | ⟨a, o, c, mode, -, -, -, -, -, rfl⟩ := execBmXblk_cases tag s t h
    · exact .of_rejectedAs hr (by simp [possibleCodes])
    · exact .of_ok (ok_mem_possibleCodes _) rfl
  | bmXfrm tag =>
    obtain hr | ⟨a, o, -, -, -, -, -, ⟨-, rfl⟩ | ⟨-, rfl⟩⟩ := execBmXfrm_cases tag s t h
    · exact .of_rejectedAs hr (by simp [possibleCodes])
    · exact .of_ok (ok_mem_possibleCodes _) rfl
    · exact .inr (.inr rfl)
  | bmSetpbs tag =>
    obtain hr | ⟨-, -, -, -, -, rfl⟩ := execBmSetpbs_cases tag s t h
    · exact .of_rejectedAs hr (by simp [possibleCodes])
    · exact .of_ok (ok_mem_possibleCodes _) rfl
  | bmSetpar tag f =>
    obtain hr | ⟨-, rfl⟩ := execBmSetpar_cases tag f s t h
    · exact .of_rejectedAs hr (by simp [possibleCodes])
    · exact .of_ok (ok_mem_possibleCodes _) rfl
  | bmRelease tag =>
    obtain hr | ⟨-, rfl⟩ := execBmRelease_cases tag s t h
    · exact .of_rejectedAs hr (by simp [possibleCodes])
    · exact .of_ok (ok_mem_possibleCodes _) rfl
  | spNew tag sel kind =>
    obtain hr | ⟨-, ⟨-, d, -, rfl⟩ | ⟨-, -, rfl⟩ | ⟨-, -, rfl⟩⟩ := execSpNew_cases tag sel kind s t h
    · exact .of_rejectedAs hr (by simp [possibleCodes])
    all_goals exact .of_ok (ok_mem_possibleCodes _) rfl
  | spKey tag =>
    obtain hr | ⟨m, -, -, -, -, rfl⟩ := execSpKey_cases tag s t h
    · exact .of_rejectedAs hr (by simp [possibleCodes])
    · exact .of_ok (ok_mem_possibleCodes _) rfl
  | spRun tag =>
    obtain hr | ⟨harmed, -, ⟨-, p, o, -, -, ha⟩ | ⟨-, -, -, -, ha⟩⟩ := execSpRun_cases tag s t h
    · exact .of_rejectedAs hr (by simp [possibleCodes])
    all_goals exact acceptRun_answersWith harmed (ok_mem_possibleCodes _) ha
  | spCancel tag =>
    obtain ⟨-, rfl⟩ | ⟨-, rfl⟩ := execSpCancel_cases tag s t h
    all_goals exact .of_ok (ok_mem_possibleCodes _) rfl
  | spRelease tag =>
    obtain hr | ⟨-, rfl⟩ := execSpRelease_cases tag s t h
    · exact .of_rejectedAs hr (by simp [possibleCodes])
    · exact .of_ok (ok_mem_possibleCodes _) rfl

/-- A word is answered with its own opcode and tag, also where it is no command (30_encoding.md R101). -/
theorem issue_answersWith {w : Word} (h : issue w s = .next t) :
    AnswersWith (w.extractLsb' 0 8) (w.extractLsb' 8 8) (possibleCodes (decode w)) s t := by
  cases hf : formatOf (rawOfWord w).opcode with
  | none =>
    rw [issue_unassigned hf, Host.Outcome.next.injEq] at h
    rw [decode_unassigned hf]
    exact .inl ⟨.unsupported, List.mem_singleton_self _, nofun, h.symm⟩
  | some fmt =>
    cases hclear : reservedClear fmt (rawOfWord w) with
    | false =>
      rw [issue_reserved hf hclear, Host.Outcome.next.injEq] at h
      rw [decode_reserved hf hclear]
      exact .inl ⟨.invalidParameter, List.mem_singleton_self _, nofun, h.symm⟩
    | true =>
      obtain ⟨i, hi⟩ := decode_clear hf hclear
      rw [issue_of_decode hi] at h
      have answered := exec_answersWith h
      rw [← decode_eq_ok_iff.1 hi] at answered
      rw [hi]
      exact answered

/-! ### Busy units -/

/-- A class 3 `SP_RUN` finds no target armed, or no engine ready (R258). -/
theorem execSpRun_engine_busy (hst : s.bm.state = .transforming) (hfree : s.sp.state ≠ .running)
    (hcls : s.sp.cls = .cipher) : execSpRun tag s = .next (respond 0x12 tag .notInitialized s) := by
  refine (if_neg hfree).trans ?_
  split
  · rfl
  · exact if_pos ⟨hcls, by simp [hst]⟩

end Sys2Proof.Machine

namespace Sys2Proof.Proofs

open Sys2Proof.Machine

/-- Settles O25: a response whose code is not 0 is that of a rejection, which appends it and does nothing else. -/
theorem rejectedCommandChangesNothing : Obligations.RejectedCommandChangesNothing := by
  intro w r s t h hr hcode
  obtain ⟨code, -, rfl, alone⟩ := (issue_answersWith h).of_response hr
  refine alone fun hok => hcode ?_
  rw [responseWord_code, hok]
  rfl

/-- Settles O27: command by command, the codes of its refusals and `Ok` are those of its row of R256. -/
theorem answerCodes : Obligations.AnswerCodes := by
  intro w r s t h hr possible
  have row : possible = possibleCodes (decode w) := rfl
  obtain ⟨code, hc, heq, -⟩ := (issue_answersWith h).of_response hr
  exact ⟨code, row ▸ hc, heq⟩

/-- Settles O28: the first check of each command that needs the busy unit. -/
theorem busyUnitAnswers : Obligations.BusyUnitAnswers := by
  intro tag sel kind f s
  refine ⟨fun hst => ?_, fun hst => ?_, exec_nop tag s⟩
  · have unready : s.bm.state ≠ .ready := by simp [hst]
    exact ⟨if_pos unready, if_pos unready, if_pos hst, if_pos hst, if_pos hst, if_pos hst, if_pos hst,
      execSpRun_engine_busy hst⟩
  · exact ⟨if_pos hst, if_pos hst, if_pos hst, if_pos hst, if_pos hst⟩

end Sys2Proof.Proofs
end

section
/-! SUPPORT. The two units are independent (60_exceptions.md R258): a command of one answers alike whatever the other
holds, but for a class 3 `SP_RUN`. -/

namespace Sys2Proof.Machine

variable {s t : State} {tag sel : BitVec 8} {kind : BitVec 16} {f : State → State}

/-! ### Answers carried along -/

/-- The answer with its next state, if it has one, changed by `f`. -/
def carry (f : State → State) : Result → Result
  | .next t => .next (f t)
  | .fault e => .fault e
  | .refused r => .refused r

/-- A check that reads the same on both sides, with the same answer. -/
theorem carry_check {p : Prop} [Decidable p] {a a' r r' : Result} (ha : a' = carry f a) (hr : r' = carry f r) :
    (if p then a' else r') = carry f (if p then a else r) := by
  split
  · exact ha
  · exact hr

/-! ### Commands that do not read the stream unit -/

/-- `s` with another stream unit and another event log. -/
def withStream (sp : Spu) (evt : List Word) (s : State) : State := { s with sp := sp, evt := evt }

variable {sp : Spu} {evt : List Word}

theorem memWrite_withStream (a n : Nat) (v : List Byte) :
    memWrite (withStream sp evt s) a n v = (memWrite s a n v).map (withStream sp evt) := by
  rw [memWrite, memWrite, apply_ite (Option.map (withStream sp evt))]
  rfl

theorem execBmNew_withStream :
    execBmNew tag sel kind (withStream sp evt s) = carry (withStream sp evt) (execBmNew tag sel kind s) := by
  refine carry_check rfl ?_
  cases modeOfSel sel with
  | none => rfl
  | some mode =>
    cases blockCipher? kind with
    | none => rfl
    | some c => exact carry_check rfl rfl

theorem execBmInit_withStream {enc : Bool} :
    execBmInit tag enc (withStream sp evt s) = carry (withStream sp evt) (execBmInit tag enc s) := by
  refine carry_check rfl (carry_check rfl (carry_check rfl (carry_check rfl ?_)))
  have hrange : keyRange (withStream sp evt s) = keyRange s := rfl
  have hread : memRead (withStream sp evt s) = memRead s := rfl
  rw [hrange, hread]
  dsimp only [withStream]
  split
  · split
    · rfl
    · rfl
  · rfl

theorem execBmXblk_withStream :
    execBmXblk tag (withStream sp evt s) = carry (withStream sp evt) (execBmXblk tag s) := by
  refine carry_check rfl ?_
  have hin : inputRange (withStream sp evt s) = inputRange s := rfl
  have hout : outputRange (withStream sp evt s) = outputRange s := rfl
  have hengine : engine (withStream sp evt s) = engine s := rfl
  have hread : memRead (withStream sp evt s) = memRead s := rfl
  rw [hin, hout, hengine, hread]
  simp only [memWrite_withStream]
  dsimp only [withStream]
  split
  · refine carry_check rfl ?_
    split
    · rfl
    split
    · rfl
    cases memWrite s _ _ _
    · rfl
    · rfl
  · rfl

theorem execBmXfrm_withStream :
    execBmXfrm tag (withStream sp evt s) = carry (withStream sp evt) (execBmXfrm tag s) := by
  refine carry_check rfl (carry_check rfl ?_)
  have hin : inputRange (withStream sp evt s) = inputRange s := rfl
  have hout : outputRange (withStream sp evt s) = outputRange s := rfl
  rw [hin, hout]
  dsimp only [withStream]
  split
  · exact carry_check rfl (carry_check rfl rfl)
  · rfl

theorem execBmSetpbs_withStream :
    execBmSetpbs tag (withStream sp evt s) = carry (withStream sp evt) (execBmSetpbs tag s) :=
  carry_check rfl (carry_check rfl (carry_check rfl rfl))

theorem execBmSetpar_withStream {par : Bool} :
    execBmSetpar tag par (withStream sp evt s) = carry (withStream sp evt) (execBmSetpar tag par s) :=
  carry_check rfl rfl

theorem execBmRelease_withStream :
    execBmRelease tag (withStream sp evt s) = carry (withStream sp evt) (execBmRelease tag s) :=
  carry_check rfl rfl

/-! ### Commands that do not read the engine -/

/-- `s` with another engine and other lanes. -/
def withEngine (bm : Bme) (lanes : List Lane) (s : State) : State := { s with bm := bm, lanes := lanes }

variable {bm : Bme} {lanes : List Lane}

theorem memWrite_withEngine (a n : Nat) (v : List Byte) :
    memWrite (withEngine bm lanes s) a n v = (memWrite s a n v).map (withEngine bm lanes) := by
  rw [memWrite, memWrite, apply_ite (Option.map (withEngine bm lanes))]
  rfl

theorem execSpNew_withEngine :
    execSpNew tag sel kind (withEngine bm lanes s) = carry (withEngine bm lanes) (execSpNew tag sel kind s) := by
  refine carry_check rfl ?_
  split
  · split
    · rfl
    · rfl
  · split
    · rfl
    · rfl
  · exact carry_check rfl rfl
  · rfl

theorem execSpKey_withEngine :
    execSpKey tag (withEngine bm lanes s) = carry (withEngine bm lanes) (execSpKey tag s) := by
  refine carry_check rfl (carry_check rfl (carry_check rfl (carry_check rfl ?_)))
  have hrange : keyRange (withEngine bm lanes s) = keyRange s := rfl
  have hread : memRead (withEngine bm lanes s) = memRead s := rfl
  rw [hrange, hread]
  dsimp only [withEngine]
  split
  · rfl
  · split
    · rfl
    · rfl
    · rfl

theorem restoreTarget_withEngine (hcls : s.sp.cls ≠ .cipher) :
    restoreTarget (withEngine bm lanes s) = (restoreTarget s).map (withEngine bm lanes) := by
  unfold restoreTarget
  dsimp only [withEngine]
  split
  · cases digest? s.sp.kind
    · rfl
    · rfl
  · cases mac? s.sp.kind
    · rfl
    · rfl
  · exact absurd ‹_› hcls
  · rfl

theorem storeCode_withEngine :
    storeCode (withEngine bm lanes s) = (storeCode s).map (withEngine bm lanes) := by
  unfold storeCode
  simp only [memWrite_withEngine]
  dsimp only [withEngine]
  cases s.sp.cls with
  | digest | mac =>
    dsimp only
    split
    · split
      · rfl
      · cases memWrite s _ _ _ with
        | none => rfl
        | some t => rfl
    · rfl
  | cipher | none => rfl

theorem finish_withEngine (hcls : s.sp.cls ≠ .cipher) :
    finish (withEngine bm lanes s) = carry (withEngine bm lanes) (finish s) := by
  unfold finish
  rw [storeCode_withEngine]
  cases hs : storeCode s with
  | error e => rfl
  | ok u =>
    have hu : u.sp = s.sp := by
      obtain ⟨-, p, st, dst, dsz, -, -, -, -, rfl⟩ | ⟨-, rfl⟩ := storeCode_cases s u hs
      · rfl
      · rfl
    have hr := restoreTarget_withEngine (s := u) (bm := bm) (lanes := lanes) (by rwa [hu])
    simp only [Except.map, hr]
    cases restoreTarget u with
    | none => rfl
    | some v => rfl

theorem startRun_withEngine {out : Option (Nat × Nat)} {nbs : Nat} (hcls : s.sp.cls ≠ .cipher) :
    startRun tag out nbs (withEngine bm lanes s) = withEngine bm lanes (startRun tag out nbs s) := by
  rw [startRun_eq, startRun_eq, if_neg hcls]
  exact if_neg hcls

theorem acceptRun_withEngine {out : Option (Nat × Nat)} {nbs : Nat} (hcls : s.sp.cls ≠ .cipher) :
    acceptRun tag out nbs (withEngine bm lanes s) = carry (withEngine bm lanes) (acceptRun tag out nbs s) := by
  have hstart : (startRun tag out nbs s).sp.cls ≠ .cipher := by
    rw [startRun_eq, if_neg hcls]
    exact hcls
  unfold acceptRun
  rw [startRun_withEngine hcls]
  exact carry_check (finish_withEngine hstart) rfl

/-- The checks on the engine are those of class 3 alone (42 R200). -/
theorem execSpRun_withEngine (hcls : s.sp.cls ≠ .cipher) :
    execSpRun tag (withEngine bm lanes s) = carry (withEngine bm lanes) (execSpRun tag s) := by
  have skip (q : Prop) : ¬ (s.sp.cls = .cipher ∧ q) := fun h => hcls h.1
  have hrange : outputRange (withEngine bm lanes s) = outputRange s := rfl
  have hsp : (withEngine bm lanes s).sp = s.sp := rfl
  unfold execSpRun
  simp only [hrange, hsp, if_neg (skip _)]
  refine carry_check rfl (carry_check rfl (carry_check rfl ?_))
  cases hc : s.sp.cls with
  | digest | mac =>
    dsimp only
    split
    · rfl
    split
    · rfl
    · exact acceptRun_withEngine hcls
  | cipher => exact absurd hc hcls
  | none => rfl

theorem execSpCancel_withEngine :
    execSpCancel tag (withEngine bm lanes s) = carry (withEngine bm lanes) (execSpCancel tag s) :=
  carry_check rfl rfl

theorem execSpRelease_withEngine :
    execSpRelease tag (withEngine bm lanes s) = carry (withEngine bm lanes) (execSpRelease tag s) :=
  carry_check rfl rfl

/-! ### What independence gives -/

/-- A command that answers alike whatever the stream unit and the event log are leaves both as they were. -/
theorem stream_spared {i : Instr} (h : exec i s = .next t)
    (alike : ∀ sp evt, exec i (withStream sp evt s) = carry (withStream sp evt) (exec i s)) (sp : Spu) :
    t.sp = s.sp ∧ t.evt = s.evt ∧ exec i { s with sp := sp } = .next { t with sp := sp } := by
  have moved (sp : Spu) (evt : List Word) : exec i (withStream sp evt s) = .next (withStream sp evt t) := by
    rw [alike, h]
    rfl
  have same : withStream s.sp s.evt t = t := Host.Outcome.next.inj ((moved s.sp s.evt).symm.trans h)
  have hevt : t.evt = s.evt := (congrArg State.evt same).symm
  refine ⟨(congrArg State.sp same).symm, hevt, (moved sp s.evt).trans ?_⟩
  rw [← hevt]
  rfl

/-- A command that answers alike whatever the engine and the lanes are leaves both as they were. -/
theorem engine_spared {i : Instr} (h : exec i s = .next t)
    (alike : ∀ bm lanes, exec i (withEngine bm lanes s) = carry (withEngine bm lanes) (exec i s)) (bm : Bme) :
    t.bm = s.bm ∧ t.lanes = s.lanes ∧ exec i { s with bm := bm } = .next { t with bm := bm } := by
  have moved (bm : Bme) (lanes : List Lane) : exec i (withEngine bm lanes s) = .next (withEngine bm lanes t) := by
    rw [alike, h]
    rfl
  have same : withEngine s.bm s.lanes t = t := Host.Outcome.next.inj ((moved s.bm s.lanes).symm.trans h)
  have hlanes : t.lanes = s.lanes := (congrArg State.lanes same).symm
  refine ⟨(congrArg State.bm same).symm, hlanes, (moved bm s.lanes).trans ?_⟩
  rw [← hlanes]
  rfl

end Sys2Proof.Machine

namespace Sys2Proof.Proofs

open Sys2Proof.Machine

/-- Settles O29: each command answers alike with the unit it does not belong to replaced; replaced by itself, that unit
is seen to be left as it was. -/
theorem unitsAreIndependent : Obligations.UnitsAreIndependent := by
  refine fun i s t h => ⟨fun sp hi => stream_spared h (fun sp evt => ?_) sp,
    fun bm hi => engine_spared h (fun bm lanes => ?_) bm⟩
  · cases i with
    | nop tag => rfl
    | bmNew tag sel kind => exact execBmNew_withStream
    | bmInit tag enc => exact execBmInit_withStream
    | bmXblk tag => exact execBmXblk_withStream
    | bmXfrm tag => exact execBmXfrm_withStream
    | bmSetpbs tag => exact execBmSetpbs_withStream
    | bmSetpar tag par => exact execBmSetpar_withStream
    | bmRelease tag => exact execBmRelease_withStream
    | spNew | spKey | spRun | spCancel | spRelease => exact hi.elim
  · cases i with
    | nop tag => rfl
    | spNew tag sel kind => exact execSpNew_withEngine
    | spKey tag => exact execSpKey_withEngine
    | spRun tag => exact execSpRun_withEngine hi
    | spCancel tag => exact execSpCancel_withEngine
    | spRelease tag => exact execSpRelease_withEngine
    | bmNew | bmInit | bmXblk | bmXfrm | bmSetpbs | bmSetpar | bmRelease => exact hi.elim

end Sys2Proof.Proofs
end

section
/-! SUPPORT. What a busy unit holds (70_reset_and_hazards.md R302; 10_state.md R26, R31): the steps of the agents of a
run and of the engine, each with what it leaves of the two units and how it can end their work. -/

namespace Sys2Proof.Machine

variable {s t u : State} {bs : List Byte} {a : Agent}

/-! ### The parts of the two units that stay -/

/-- The engine but for what a stream run of class 3 moves: its state and its chain value. -/
def Bme.fixed (bm : Bme) : Bme := { bm with state := .init, chain := [] }

/-- The engine's selection, direction, key and sizing. -/
def Bme.settings (bm : Bme) : Bme := { bm.fixed with xf := none }

/-- The stream unit's target and the record of its run; a command may still raise the cancel flag (42 R218). -/
def Spu.settings (sp : Spu) : Spu := { sp.fixed with state := .empty, cancel := false }

/-- One response more in the log. -/
def Responded (s t : State) : Prop := t.rsp.length = s.rsp.length + 1

/-- The engine keeps its settings, and its state unless it becomes `ready` with a response. -/
structure EngineHeld (s t : State) : Prop where
  settings : t.bm.settings = s.bm.settings
  state : t.bm.state = s.bm.state ∨ (t.bm.state = .ready ∧ Responded s t)

/-- The stream unit keeps its settings, and its state unless it becomes `armed` with a response. -/
structure StreamHeld (s t : State) : Prop where
  settings : t.sp.settings = s.sp.settings
  state : t.sp.state = s.sp.state ∨ (t.sp.state = .armed ∧ Responded s t)

theorem EngineHeld.of_bm_eq (h : t.bm = s.bm) : EngineHeld s t := ⟨by rw [h], .inl (by rw [h])⟩

theorem StreamHeld.of_sp_eq (h : t.sp = s.sp) : StreamHeld s t := ⟨by rw [h], .inl (by rw [h])⟩

/-! ### The agents of a run -/

/-- A step of a run that does not end it. -/
structure RunGoesOn (s t : State) : Prop where
  engine : t.bm.fixed = s.bm.fixed
  engineState : t.bm.state = s.bm.state
  lanes : t.lanes = s.lanes
  unit : t.sp.fixed = s.sp.fixed
  rsp : t.rsp = s.rsp

/-- A step that ends a run: the unit is armed, and the engine, where the run held it, is ready (42 R210, R212). -/
structure RunEnds (s t : State) : Prop where
  engine : t.bm.fixed = s.bm.fixed
  engineState : t.bm.state = s.bm.state ∨ t.bm.state = .ready
  lanes : t.lanes = s.lanes
  unit : t.sp.fixed = { s.sp.fixed with state := .armed }
  responded : Responded s t

namespace RunGoesOn

theorem trans (h : RunGoesOn s t) (k : RunGoesOn t u) : RunGoesOn s u :=
  ⟨k.engine.trans h.engine, k.engineState.trans h.engineState, k.lanes.trans h.lanes, k.unit.trans h.unit,
    k.rsp.trans h.rsp⟩

theorem ends (h : RunGoesOn s t) (k : RunEnds t u) : RunEnds s u := by
  refine ⟨k.engine.trans h.engine, ?_, k.lanes.trans h.lanes, by rw [k.unit, h.unit], ?_⟩
  · rw [← h.engineState]
    exact k.engineState
  · rw [Responded, ← h.rsp]
    exact k.responded

theorem state_eq (h : RunGoesOn s t) : t.sp.state = s.sp.state := (congrArg Spu.state h.unit :)
theorem run_eq (h : RunGoesOn s t) : t.sp.run = s.sp.run := (congrArg Spu.run h.unit :)
theorem path_eq (h : RunGoesOn s t) : t.sp.path = s.sp.path := (congrArg Spu.path h.unit :)

theorem engineHeld (h : RunGoesOn s t) : EngineHeld s t :=
  ⟨congrArg (fun bm : Bme => { bm with xf := none }) h.engine, .inl h.engineState⟩

theorem streamHeld (h : RunGoesOn s t) : StreamHeld s t :=
  ⟨congrArg (fun sp : Spu => { sp with state := .empty, cancel := false }) h.unit, .inl h.state_eq⟩

end RunGoesOn

namespace RunEnds

theorem state_eq (h : RunEnds s t) : t.sp.state = .armed := (congrArg Spu.state h.unit :)

theorem engineHeld (h : RunEnds s t) : EngineHeld s t :=
  ⟨congrArg (fun bm : Bme => { bm with xf := none }) h.engine, h.engineState.imp_right fun hst => ⟨hst, h.responded⟩⟩

theorem streamHeld (h : RunEnds s t) : StreamHeld s t :=
  ⟨congrArg (fun sp : Spu => { sp with state := .empty, cancel := false }) h.unit, .inr ⟨h.state_eq, h.responded⟩⟩

/-- The target restored, the unit armed, one response. -/
theorem of_restored {tag : BitVec 8} {code : Code} {fault : Option Code} (h : restoreTarget s = some u) :
    RunEnds s (respond 0x12 tag code (setSpState .armed { u with sp := { u.sp with fault := fault } })) := by
  obtain ⟨-, d, -, rfl⟩ | ⟨-, m, -, rfl⟩ | ⟨-, rfl⟩ | ⟨-, rfl⟩ := restoreTarget_cases s u h
  · exact ⟨rfl, .inl rfl, rfl, rfl, List.length_append⟩
  · exact ⟨rfl, .inl rfl, rfl, rfl, List.length_append⟩
  · exact ⟨rfl, .inr rfl, rfl, rfl, List.length_append⟩
  · exact ⟨rfl, .inl rfl, rfl, rfl, List.length_append⟩

theorem abortRun {code : Code} (h : abortRun code s = .next t) : RunEnds s t := by
  obtain ⟨u, hu, rfl⟩ := abortRun_answers h
  have emptied : RunGoesOn s { s with sp := { s.sp with queue := [] } } := ⟨rfl, rfl, rfl, rfl, rfl⟩
  exact emptied.ends (of_restored hu)

theorem finish (h : finish s = .next t) : RunEnds s t := by
  obtain ⟨u, v, hu, hv, rfl⟩ := finish_answers h
  have stored : RunGoesOn s u := by
    obtain ⟨-, p, st, dst, dsz, -, -, -, -, rfl⟩ | ⟨-, rfl⟩ := storeCode_cases s u hu
    · exact ⟨rfl, rfl, rfl, rfl, rfl⟩
    · exact ⟨rfl, rfl, rfl, rfl, rfl⟩
  obtain ⟨hengine, hstate, hlanes, hunit, hresponded⟩ :=
    stored.ends (of_restored (tag := v.sp.run.tag) (code := .ok) (fault := v.sp.fault) hv)
  exact ⟨hengine, hstate, hlanes, hunit, hresponded⟩

theorem feed_ended (h : feed bs s = .ended (.next t)) : RunEnds s t := by
  obtain ⟨-, c, mode, -, -, ha⟩ := feedTarget_ended bs s t (Machine.feed_ended bs s _ h)
  refine RunGoesOn.ends ?_ (abortRun ha)
  exact ⟨rfl, rfl, rfl, rfl, rfl⟩

end RunEnds

/-- A buffer fed: `cpos` is moved past it, and the reader stands where it stood. -/
theorem feed_fed_goesOn (h : feed bs s = .fed t) :
    RunGoesOn s t ∧ t.sp.cpos = s.sp.cpos + bs.length ∧ t.sp.rpos = s.sp.rpos ∧ t.sp.fault = s.sp.fault := by
  obtain ⟨u, hu, rfl⟩ := feed_fed bs s t h
  obtain ⟨-, p, st, -, -, rfl⟩ | ⟨-, c, mode, -, -, rfl⟩ | ⟨-, rfl⟩ := feedTarget_fed bs s u hu
  · exact ⟨⟨rfl, rfl, rfl, rfl, rfl⟩, rfl, rfl, rfl⟩
  · exact ⟨⟨rfl, rfl, rfl, rfl, rfl⟩, rfl, rfl, rfl⟩
  · exact ⟨⟨rfl, rfl, rfl, rfl, rfl⟩, rfl, rfl, rfl⟩

/-- `SEQ` ends the run or feeds the bytes it asked for. -/
theorem seqStep_moves (h : seqStep s = .next t) :
    RunEnds s t ∨ (RunGoesOn s t ∧ t.sp.cpos = s.sp.cpos + requestSize s) := by
  have moved : RunGoesOn s (sourceMoved s) := ⟨rfl, rfl, rfl, rfl, rfl⟩
  have advanced : RunGoesOn s (advanceReader (requestSize s) (sourceMoved s)) := ⟨rfl, rfl, rfl, rfl, rfl⟩
  obtain ⟨-, ha⟩ | ⟨-, -, ha⟩ | ⟨bs, -, -, -, ha⟩ | ⟨bs, -, -, hlen, hfeed⟩ := seqStep_cases s t h
  · exact .inl (.abortRun ha)
  · exact .inl (moved.ends (.abortRun ha))
  · exact .inl (moved.ends (.abortRun ha))
  · obtain he | ⟨u, hu, hend⟩ := hfeed
    · exact .inl (advanced.ends (.feed_ended he))
    obtain ⟨fed, hcpos, -⟩ := feed_fed_goesOn hu
    obtain ⟨-, hfin⟩ | ⟨-, rfl⟩ := hend
    · exact .inl ((advanced.trans fed).ends (.finish hfin))
    · exact .inr ⟨advanced.trans fed, hlen ▸ hcpos⟩

/-- `RDR` records a fault or reads the bytes it asked for; it feeds nothing. -/
theorem rdrStep_moves (h : rdrStep s = .next t) :
    RunGoesOn s t ∧ t.sp.cpos = s.sp.cpos ∧
      ((t.sp.rpos = s.sp.rpos ∧ t.sp.fault ≠ none) ∨
        (t.sp.rpos = s.sp.rpos + requestSize s ∧ t.sp.fault = s.sp.fault)) := by
  obtain ⟨-, rfl⟩ | ⟨-, -, rfl⟩ | ⟨bs, -, -, -, rfl⟩ | ⟨bs, -, -, -, rfl⟩ := rdrStep_cases s t h
  · exact ⟨⟨rfl, rfl, rfl, rfl, rfl⟩, rfl, .inl ⟨rfl, nofun⟩⟩
  · exact ⟨⟨rfl, rfl, rfl, rfl, rfl⟩, rfl, .inl ⟨rfl, nofun⟩⟩
  · exact ⟨⟨rfl, rfl, rfl, rfl, rfl⟩, rfl, .inl ⟨rfl, nofun⟩⟩
  · exact ⟨⟨rfl, rfl, rfl, rfl, rfl⟩, rfl, .inr ⟨rfl, rfl⟩⟩

/-- `CSM` ends the run or feeds a buffer of the queue; with no fault and no buffer it does nothing. -/
theorem csmStep_moves (h : csmStep s = .next t) :
    RunEnds s t ∨
      (∃ bs ∈ s.sp.queue, RunGoesOn s t ∧ t.sp.cpos = s.sp.cpos + bs.length ∧ t.sp.rpos = s.sp.rpos ∧
        t.sp.fault = s.sp.fault) ∨
      (s.sp.fault = none ∧ s.sp.queue = [] ∧ t = s) := by
  obtain ⟨code, -, ha⟩ | hidle | ⟨bs, rest, -, hqueue, hfeed⟩ := csmStep_cases s t h
  · exact .inl (.abortRun ha)
  · exact .inr (.inr hidle)
  · have popped : RunGoesOn s { s with sp := { s.sp with queue := rest } } := ⟨rfl, rfl, rfl, rfl, rfl⟩
    obtain he | ⟨u, hu, hend⟩ := hfeed
    · exact .inl (popped.ends (.feed_ended he))
    obtain ⟨fed, hpos⟩ := feed_fed_goesOn hu
    obtain ⟨-, -, hfin⟩ | ⟨-, rfl⟩ := hend
    · exact .inl ((popped.trans fed).ends (.finish hfin))
    · exact .inr (.inl ⟨bs, hqueue ▸ List.mem_cons_self, popped.trans fed, hpos⟩)

/-! ### The agents of a transform -/

/-- What a step of the engine's agents leaves: the stream unit, the environment, and the settings of the engine, which
becomes `ready` only with the response of `Complete` (40 R134). -/
structure EngineStep (s t : State) : Prop where
  unit : t.sp = s.sp
  env : t.env = s.env
  held : EngineHeld s t

theorem EngineStep.ctl (h : ctlStep s = .next t) : EngineStep s t := by
  obtain ⟨-, rfl⟩ | ⟨xf, nc, -, -, hj⟩ | ⟨xf, -, -, ⟨-, hs⟩ | ⟨-, -, hs⟩ | ⟨-, -, hs⟩⟩ := ctlStep_cases s t h
  · exact ⟨rfl, rfl, .of_bm_eq rfl⟩
  · cases hj
    exact ⟨rfl, rfl, rfl, .inl rfl⟩
  · obtain ⟨mode, lanes, nc, -, -, -, rfl⟩ := spawn_cases xf s t hs
    exact ⟨rfl, rfl, rfl, .inl rfl⟩
  · obtain ⟨c, mode, -, -, -, rfl⟩ := serialStep_cases xf s t hs
    exact ⟨rfl, rfl, rfl, .inl rfl⟩
  · cases hs
    exact ⟨rfl, rfl, rfl, .inr ⟨rfl, List.length_append⟩⟩

theorem EngineStep.lane {i : Nat} (h : agentAct (.lane i) s = .next t) : EngineStep s t := by
  simp only [agentAct] at h
  split at h
  · obtain ⟨c, mode, -, -, -, rfl⟩ := laneStep_cases i _ s t h
    exact ⟨rfl, rfl, .of_bm_eq rfl⟩
  · cases h
    exact ⟨rfl, rfl, .of_bm_eq rfl⟩

theorem agentAct_held (h : agentAct a s = .next t) : EngineHeld s t ∧ StreamHeld s t := by
  cases a with
  | ctl =>
    have step := EngineStep.ctl h
    exact ⟨step.held, .of_sp_eq step.unit⟩
  | lane i =>
    have step := EngineStep.lane h
    exact ⟨step.held, .of_sp_eq step.unit⟩
  | seq =>
    obtain ends | ⟨goes, -⟩ := seqStep_moves h
    · exact ⟨ends.engineHeld, ends.streamHeld⟩
    · exact ⟨goes.engineHeld, goes.streamHeld⟩
  | rdr =>
    obtain ⟨goes, -⟩ := rdrStep_moves h
    exact ⟨goes.engineHeld, goes.streamHeld⟩
  | csm =>
    obtain ends | ⟨bs, -, goes, -⟩ | ⟨-, -, rfl⟩ := csmStep_moves h
    · exact ⟨ends.engineHeld, ends.streamHeld⟩
    · exact ⟨goes.engineHeld, goes.streamHeld⟩
    · exact ⟨.of_bm_eq rfl, .of_sp_eq rfl⟩

/-! ### The events -/

/-- In a run the commands of the stream unit are answered `Busy`, but for `SP_CANCEL`, and those of the engine do not
touch the unit (60_exceptions.md R258). -/
theorem exec_streamHeld {i : Instr} (hrun : s.sp.state = .running) (h : exec i s = .next t) : StreamHeld s t := by
  obtain ⟨spared, -⟩ := Proofs.unitsAreIndependent i s t h
  cases i with
  | spNew | spKey | spRun | spRelease =>
    cases h.symm.trans (if_pos hrun)
    exact .of_sp_eq rfl
  | spCancel =>
    cases h.symm.trans (if_pos hrun)
    exact ⟨rfl, .inl rfl⟩
  | nop | bmNew | bmInit | bmXblk | bmXfrm | bmSetpbs | bmSetpar | bmRelease => exact .of_sp_eq (spared s.sp trivial).1

theorem issue_streamHeld {w : Word} (hrun : s.sp.state = .running) (h : issue w s = .next t) : StreamHeld s t := by
  obtain ⟨i, -, hi⟩ | ⟨op, tag, -, rfl⟩ | ⟨op, tag, -, rfl⟩ := issue_cases w s t h
  · exact exec_streamHeld hrun hi
  · exact .of_sp_eq rfl
  · exact .of_sp_eq rfl

/-- What any event but `Reset` leaves of a busy unit. -/
theorem happen_held {e : Event} (hreset : e ≠ .reset) (h : happen e s = .next t) :
    (s.bm.state = .transforming → EngineHeld s t) ∧ (s.sp.state = .running → StreamHeld s t) := by
  suffices same : (∀ w, e ≠ .issue w) → EngineHeld s t ∧ StreamHeld s t by
    cases e with
    | issue w => exact ⟨fun hst => .of_bm_eq (SparesEngine.issue hst h).bm, fun hrun => issue_streamHeld hrun h⟩
    | _ => exact ⟨fun _ => (same nofun).1, fun _ => (same nofun).2⟩
  intro hissue
  cases e with
  | issue w => exact absurd rfl (hissue w)
  | agent a =>
    obtain ⟨-, ha⟩ | ⟨-, rfl⟩ := agentStep_cases a s t h
    · exact agentAct_held ha
    · exact ⟨.of_bm_eq rfl, .of_sp_eq rfl⟩
  | regWrite i v =>
    cases h
    exact ⟨.of_bm_eq (by rw [regWrite_eq]), .of_sp_eq (by rw [regWrite_eq])⟩
  | memWrite b bs =>
    obtain ⟨-, rfl⟩ := hostMemWrite_cases b bs s t h
    exact ⟨.of_bm_eq rfl, .of_sp_eq rfl⟩
  | memRead b n =>
    obtain ⟨-, rfl⟩ := hostMemRead_cases b n s t h
    exact ⟨.of_bm_eq rfl, .of_sp_eq rfl⟩
  | regRead | awaitRsp | awaitEvt | setSource | setSink =>
    cases h
    exact ⟨.of_bm_eq rfl, .of_sp_eq rfl⟩
  | reset => exact absurd rfl hreset

theorem step_held (hreset : ∀ rest, s.env.events ≠ .reset :: rest) (h : step s = .next t) :
    (s.bm.state = .transforming → EngineHeld s t) ∧ (s.sp.state = .running → StreamHeld s t) := by
  obtain ⟨e, rest, he, -, hh⟩ | ⟨-, hf⟩ := step_cases s t h
  · obtain ⟨engine, stream⟩ := happen_held (fun heq => hreset rest (heq ▸ he)) hh
    exact ⟨fun hst => ⟨(engine hst).settings, (engine hst).state⟩,
      fun hrun => ⟨(stream hrun).settings, (stream hrun).state⟩⟩
  · obtain ⟨-, rfl⟩ | ⟨a, -, ha⟩ := freeStep_cases s t hf
    · exact ⟨fun _ => .of_bm_eq rfl, fun _ => .of_sp_eq rfl⟩
    · obtain ⟨engine, stream⟩ := agentAct_held ha
      exact ⟨fun _ => ⟨engine.settings, engine.state⟩, fun _ => ⟨stream.settings, stream.state⟩⟩

end Sys2Proof.Machine

namespace Sys2Proof.Proofs

open Sys2Proof.Machine

/-- Settles O41: every step but `Reset` holds a busy unit, field by field. -/
theorem busyUnitsAreHeld : Obligations.BusyUnitsAreHeld := by
  intro s t _ hx hreset
  obtain ⟨engine, stream⟩ := step_held hreset hx
  refine ⟨fun hst => ?_, fun hrun => ?_⟩
  · obtain ⟨hset, hstate⟩ := engine hst
    exact ⟨(congrArg Bme.mode hset :), (congrArg Bme.kind hset :), (congrArg Bme.blockSize hset :),
      (congrArg Bme.enc hset :), (congrArg Bme.key hset :), (congrArg Bme.pbs hset :), (congrArg Bme.par hset :),
      hst ▸ hstate⟩
  · obtain ⟨hset, hstate⟩ := stream hrun
    exact ⟨(congrArg Spu.cls hset :), (congrArg Spu.kind hset :), (congrArg Spu.key hset :), (congrArg Spu.run hset :),
      (congrArg Spu.path hset :), (congrArg Spu.interval hset :), hrun ▸ hstate⟩

end Sys2Proof.Proofs
end

section
/-! SUPPORT. Progress (70_reset_and_hazards.md R305, R306): who is enabled while a command is in flight, and how far
each step of an agent brings the work left down. -/

namespace Sys2Proof.Machine

variable {s t : State} {xf : Transform} {nc : List Byte} {a : Agent}

/-! ### Who is enabled -/

/-- Every agent with an enabled step is among those the free schedule picks from. -/
theorem mem_enabledAgents (h : enabled s a = true) : a ∈ enabledAgents s := by
  refine List.mem_filter.2 ⟨?_, h⟩
  cases a with
  | lane i =>
    obtain ⟨l, hl, -⟩ := lane_of_laneEnabled h
    have hi : i < s.lanes.length := (List.getElem?_eq_some_iff.1 hl).1
    exact List.mem_append_right _ (List.mem_map_of_mem (List.mem_range.2 hi))
  | ctl | seq | rdr | csm => exact List.mem_append_left _ (by decide)

theorem enabledAgents_eq_nil (h : ∀ a, enabled s a = false) : enabledAgents s = [] :=
  List.filter_eq_nil_iff.2 fun a _ => by simp [h a]

/-- What the invariant says of the positions, the queue and the flags of a run in progress. -/
theorem Inv.run_facts (h : Inv s) (hrun : s.sp.state = .running) :
    s.sp.run.total < 2 ^ 56 ∧ s.sp.cpos < s.sp.run.total ∧ s.sp.rpos ≤ s.sp.run.total ∧
    s.sp.rpos = s.sp.cpos + queuedBytes s.sp.queue ∧
    s.sp.interval = progressInterval s.sp.run.total (targetBlockSize s) ∧
    (s.sp.path = true →
      s.sp.queue.length ≤ s.cfg.queueCap ∧ (∀ q ∈ s.sp.queue, q ≠ []) ∧
      (s.sp.readerDone = true ↔ s.sp.rpos = s.sp.run.total) ∧
      (∀ code, s.sp.fault = some code →
        s.sp.readerDone = false ∧ (code = .io ∨ code = .unexpectedEof ∨ code = .cancelled))) ∧
    (s.sp.path = false → s.sp.queue = [] ∧ s.sp.readerDone = false ∧ s.sp.fault = none) :=
  (runPositionsOk_iff s).1 (h.runHeld hrun).2

/-- With an empty queue the reader has not read all: what it has read has been fed. -/
theorem Inv.reader_not_done (h : Inv s) (hrun : s.sp.state = .running) (hpath : s.sp.path = true)
    (hqueue : s.sp.queue = []) : s.sp.readerDone = false := by
  obtain ⟨-, hcpos, -, hqueued, -, hconc, -⟩ := h.run_facts hrun
  obtain ⟨-, -, hread, -⟩ := hconc hpath
  rw [hqueue, queuedBytes_nil] at hqueued
  refine Bool.eq_false_iff.2 fun hdone => ?_
  have := hread.1 hdone
  omega

theorem enabled_csm_of_queue (hrun : s.sp.state = .running) (hpath : s.sp.path = true) (hqueue : s.sp.queue ≠ []) :
    enabled s .csm = true :=
  enabled_csm_iff.2 ⟨hrun, hpath, .inr hqueue⟩

theorem Inv.queueCap_pos (h : Inv s) : 0 < s.cfg.queueCap := by
  obtain ⟨-, -, ⟨hcap, -⟩, -⟩ := (Params.ok_iff _).1 h.build
  omega

/-- The consumer has a buffer or a fault to act on, or else the reader has room and bytes to read. -/
theorem Inv.rdr_or_csm_enabled (h : Inv s) (hrun : s.sp.state = .running) (hpath : s.sp.path = true) :
    enabled s .rdr = true ∨ enabled s .csm = true := by
  by_cases hqueue : s.sp.queue = []
  · by_cases hfault : s.sp.fault = none
    · exact .inl (enabled_rdr_iff.2
        ⟨hrun, hpath, h.reader_not_done hrun hpath hqueue, hfault, by simpa [hqueue] using h.queueCap_pos⟩)
    · exact .inr (enabled_csm_iff.2 ⟨hrun, hpath, .inl hfault⟩)
  · exact .inr (enabled_csm_of_queue hrun hpath hqueue)

/-- A run in progress has an enabled agent. -/
theorem Inv.exists_enabled_of_run (h : Inv s) (hrun : s.sp.state = .running) : ∃ a, enabled s a = true := by
  obtain ⟨-, hcpos, -⟩ := h.run_facts hrun
  cases hpath : s.sp.path with
  | false => exact ⟨.seq, enabled_seq_iff.2 ⟨hrun, hpath, hcpos⟩⟩
  | true =>
    obtain hrdr | hcsm := h.rdr_or_csm_enabled hrun hpath
    · exact ⟨.rdr, hrdr⟩
    · exact ⟨.csm, hcsm⟩

/-- A transform in progress has an enabled agent: `CTL`, or a lane that `CTL` waits for. -/
theorem Inv.exists_enabled_of_transform (h : Inv s) (hxf : s.bm.xf = some xf) : ∃ a, enabled s a = true := by
  obtain ⟨hst, -, -, -, hpos, -⟩ := h.transform_facts hxf
  cases hp : xf.phase with
  | idle =>
    have hle : xf.pos ≤ xf.len := by omega
    exact ⟨.ctl, by simp [enabled, ctlEnabled, hst, hxf, hp, hle]⟩
  | par nc =>
    by_cases hdone : ∀ l ∈ s.lanes, l.n = 0
    · exact ⟨.ctl, by simpa [enabled, ctlEnabled, hst, hxf, hp] using hdone⟩
    · push Not at hdone
      obtain ⟨l, hl, hn⟩ := hdone
      obtain ⟨i, hi⟩ := List.mem_iff_getElem?.1 hl
      obtain ⟨-, hlanes⟩ := h.par_facts hxf hp
      obtain ⟨hbusy, -⟩ := (laneBusyOk_iff s xf i l).1 (hlanes i l hi)
      exact ⟨.lane i, by simp [enabled, laneEnabled, hi, hbusy, Nat.pos_of_ne_zero hn]⟩

/-- Where nobody can move, nothing is in flight. -/
theorem Inv.inFlight_of_none_enabled (h : Inv s) (hnone : enabledAgents s = []) : inFlight s = 0 := by
  have idle : ¬ ∃ a, enabled s a = true := fun ⟨a, ha⟩ => by simpa [hnone] using mem_enabledAgents ha
  have hxf : s.bm.xf = none :=
    Option.eq_none_iff_forall_ne_some.2 fun xf hxf => idle (h.exists_enabled_of_transform hxf)
  have hrun : s.sp.state ≠ .running := mt h.exists_enabled_of_run idle
  simp [inFlight, hxf, hrun, bit]

/-! ### The work left of a transform -/

theorem transformWork_none (hxf : s.bm.xf = none) : transformWork s = 0 := by simp only [transformWork, hxf]

theorem transformWork_idle (hxf : s.bm.xf = some xf) (hp : xf.phase = .idle) :
    transformWork s = xf.npar * (unitBlocks s + 2) + (xf.len - xf.pos - xf.npar * s.bm.pbs) + 1 := by
  simp only [transformWork, hxf, hp]

theorem transformWork_par (hxf : s.bm.xf = some xf) (hp : xf.phase = .par nc) :
    transformWork s =
      (s.lanes.map Lane.n).sum + 1 + (xf.npar - 1) * (unitBlocks s + 2) +
        (xf.len - xf.pos - xf.npar * s.bm.pbs) + 1 := by
  simp only [transformWork, hxf, hp]

/-- A stream run moves nothing the work left of a transform is counted from. -/
theorem transformWork_congr (hbm : t.bm.fixed = s.bm.fixed) (hlanes : t.lanes = s.lanes) :
    transformWork t = transformWork s := by
  have hxf : t.bm.xf = s.bm.xf := (congrArg Bme.xf hbm :)
  have hpbs : t.bm.pbs = s.bm.pbs := (congrArg Bme.pbs hbm :)
  have hblock : t.bm.blockSize = s.bm.blockSize := (congrArg Bme.blockSize hbm :)
  simp only [transformWork, unitBlocks, hxf, hpbs, hblock, hlanes]

/-- The chunks of the lanes are the whole parallel block (41 R160). -/
theorem sum_chunkCount {k T : Nat} (hT : 0 < T) : ((List.range T).map (chunkCount k T)).sum = k := by
  have before (j : Nat) (hj : j < T) : ((List.range j).map (chunkCount k T)).sum = chunkStart k T j := by
    induction j with
    | zero => simp [chunkStart]
    | succ j ih => rw [List.range_succ, List.map_append, List.sum_append, ih (by omega), chunkStart_succ hj]; simp
  obtain ⟨j, rfl⟩ : ∃ j, T = j + 1 := ⟨T - 1, by omega⟩
  rw [List.range_succ, List.map_append, List.sum_append, before j (by omega)]
  simpa using last_chunk_end (k := k) hT

theorem sum_set_lt {ns : List Nat} {i n m : Nat} (hi : ns[i]? = some n) (hm : m < n) : (ns.set i m).sum < ns.sum := by
  induction ns generalizing i with
  | nil => simp at hi
  | cons x xs ih =>
    cases i with
    | zero =>
      cases hi
      simpa using hm
    | succ i => simpa using ih (by simpa using hi)

theorem Inv.spawn_lowers (h : Inv s) (hxf : s.bm.xf = some xf) (hp : xf.phase = .idle) (hn : 0 < xf.npar)
    (hx : Machine.spawn xf s = .next t) : transformWork t < transformWork s := by
  obtain ⟨⟨hT, -⟩, -⟩ := (Params.ok_iff _).1 h.build
  obtain ⟨c, mode, eng⟩ := h.transform_engine hxf
  rw [h.spawn_answers hxf hn eng.mode_eq, Host.Outcome.next.injEq] at hx
  subst hx
  have blocks : (((List.range s.cfg.threads).map (startLane s mode xf)).map Lane.n).sum = unitBlocks s := by
    rw [List.map_map]
    exact sum_chunkCount hT
  obtain ⟨k, hk⟩ : ∃ k, xf.npar = k + 1 := ⟨xf.npar - 1, by omega⟩
  have unit : (k + 1) * (unitBlocks s + 2) = k * (unitBlocks s + 2) + (unitBlocks s + 2) := Nat.succ_mul _ _
  rw [transformWork_idle hxf hp, transformWork_par rfl rfl, blocks, hk, unit]
  show unitBlocks s + 1 + (k + 1 - 1) * (unitBlocks s + 2) + (xf.len - xf.pos - (k + 1) * s.bm.pbs) + 1 < _
  rw [Nat.add_sub_cancel]
  omega

theorem join_lowers (hxf : s.bm.xf = some xf) (hp : xf.phase = .par nc) (hx : join xf nc s = .next t) :
    transformWork t < transformWork s := by
  cases hx
  have left : xf.len - (xf.pos + s.bm.pbs) - (xf.npar - 1) * s.bm.pbs ≤ xf.len - xf.pos - xf.npar * s.bm.pbs := by
    have unit : xf.npar * s.bm.pbs ≤ (xf.npar - 1 + 1) * s.bm.pbs := Nat.mul_le_mul_right _ (by omega)
    rw [Nat.succ_mul] at unit
    omega
  rw [transformWork_par hxf hp, transformWork_idle rfl rfl]
  show (xf.npar - 1) * (unitBlocks s + 2) + (xf.len - (xf.pos + s.bm.pbs) - (xf.npar - 1) * s.bm.pbs) + 1 < _
  omega

theorem Inv.serialStep_lowers (h : Inv s) (hxf : s.bm.xf = some xf) (hp : xf.phase = .idle) (hn : xf.npar = 0)
    (hlt : xf.pos < xf.len) (hx : Machine.serialStep xf s = .next t) : transformWork t < transformWork s := by
  obtain ⟨c, mode, eng⟩ := h.transform_engine hxf
  obtain ⟨-, -, -, -, -, rfl⟩ := serialStep_cases xf s t hx
  have hblock : 1 ≤ s.bm.blockSize := eng.blockSize_eq ▸ c.blockSize_pos
  rw [transformWork_idle hxf hp, transformWork_idle rfl (by exact hp), hn]
  show 0 * _ + (xf.len - (xf.pos + min s.bm.blockSize (xf.len - xf.pos)) - 0 * _) + 1 < _
  omega

theorem complete_lowers (hxf : s.bm.xf = some xf) (hp : xf.phase = .idle) (hx : complete xf s = .next t) :
    transformWork t < transformWork s := by
  cases hx
  rw [transformWork_idle hxf hp, transformWork_none rfl]
  omega

theorem Inv.ctlStep_lowers (h : Inv s) (hen : enabled s .ctl = true) (hx : Machine.ctlStep s = .next t) :
    transformWork t < transformWork s := by
  obtain ⟨hnone, -⟩ | ⟨xf, nc, hxf, hp, hj⟩ | ⟨xf, hxf, hp, hs⟩ := ctlStep_cases s t hx
  · simp [enabled, ctlEnabled, hnone] at hen
  · exact join_lowers hxf hp hj
  · obtain ⟨hn, hs⟩ | ⟨hn, hlt, hs⟩ | ⟨-, -, hs⟩ := hs
    · exact h.spawn_lowers hxf hp hn hs
    · exact h.serialStep_lowers hxf hp hn hlt hs
    · exact complete_lowers hxf hp hs

theorem Inv.lane_lowers {i : Nat} (h : Inv s) (hen : enabled s (.lane i) = true)
    (hx : Machine.agentAct (.lane i) s = .next t) : transformWork t < transformWork s := by
  obtain ⟨l, hl, hb, hn⟩ := lane_of_laneEnabled hen
  obtain ⟨xf, nc, hxf, hp⟩ := h.par_of_busy hl hb
  simp only [Machine.agentAct, hl] at hx
  obtain ⟨c, mode, -, -, -, rfl⟩ := laneStep_cases i l s t hx
  have hlt : l.n - 1 < l.n := Nat.sub_one_lt_of_lt hn
  have blocks := sum_set_lt (ns := s.lanes.map Lane.n) (by rw [List.getElem?_map, hl]; rfl) hlt
  rw [transformWork_par hxf hp, transformWork_par (by exact hxf) hp]
  simp only [List.map_set, unitBlocks]
  omega

/-! ### The work left of a run -/

theorem streamWork_running (hrun : s.sp.state = .running) :
    streamWork s =
      (s.sp.run.total - s.sp.cpos) +
        if s.sp.path then (s.sp.run.total - s.sp.rpos) + bit s.sp.fault.isNone else 0 :=
  if_pos hrun

theorem streamWork_not_running (hrun : s.sp.state ≠ .running) : streamWork s = 0 := if_neg hrun

/-- A run in progress has a byte to feed, so ending it lowers the work left. -/
theorem Inv.runEnds_lowers (h : Inv s) (hrun : s.sp.state = .running) (hends : RunEnds s t) :
    streamWork t < streamWork s := by
  obtain ⟨-, hcpos, -⟩ := h.run_facts hrun
  rw [streamWork_not_running (by simp [hends.state_eq]), streamWork_running hrun]
  omega

/-- Feeding at least one byte lowers the work left, the reader standing still or feeding what it reads. -/
theorem Inv.fed_lowers {n : Nat} (h : Inv s) (hrun : s.sp.state = .running) (hgoes : RunGoesOn s t) (hn : 0 < n)
    (hcpos : t.sp.cpos = s.sp.cpos + n)
    (hreader : s.sp.path = true → t.sp.rpos = s.sp.rpos ∧ t.sp.fault = s.sp.fault) : streamWork t < streamWork s := by
  obtain ⟨-, hlt, -⟩ := h.run_facts hrun
  rw [streamWork_running hrun, streamWork_running (hgoes.state_eq.trans hrun), hgoes.run_eq, hgoes.path_eq, hcpos]
  cases hpath : s.sp.path with
  | false => simp only [Bool.false_eq_true, if_false]; omega
  | true =>
    obtain ⟨hrpos, hfault⟩ := hreader hpath
    simp only [if_true, hrpos, hfault]
    omega

theorem Inv.seqStep_lowers (h : Inv s) (hen : enabled s .seq = true) (hx : Machine.seqStep s = .next t) :
    streamWork t < streamWork s := by
  obtain ⟨hrun, hpath, hlt⟩ := enabled_seq_iff.1 hen
  obtain ⟨-, -, -, hqueued, -, -, hseq⟩ := h.run_facts hrun
  obtain ⟨hqueue, -⟩ := hseq hpath
  rw [hqueue, queuedBytes_nil] at hqueued
  obtain ends | ⟨goes, hcpos⟩ := seqStep_moves hx
  · exact h.runEnds_lowers hrun ends
  · exact h.fed_lowers hrun goes (requestSize_pos h.build (by omega)) hcpos fun hp => absurd hp (by simp [hpath])

/-- A reader that is not done has bytes to read; a fault it may record only once. -/
theorem Inv.rdrStep_lowers (h : Inv s) (hen : enabled s .rdr = true) (hx : Machine.rdrStep s = .next t) :
    streamWork t < streamWork s := by
  obtain ⟨hrun, hpath, hdone, hfault, -⟩ := enabled_rdr_iff.1 hen
  obtain ⟨-, -, hrpos, -, -, hconc, -⟩ := h.run_facts hrun
  obtain ⟨-, -, hread, -⟩ := hconc hpath
  have hlt : s.sp.rpos < s.sp.run.total := lt_of_le_of_ne hrpos fun heq => by simp [hread.2 heq] at hdone
  have hask := requestSize_pos h.build hlt
  obtain ⟨goes, hcpos, hmoved⟩ := rdrStep_moves hx
  rw [streamWork_running hrun, streamWork_running (goes.state_eq.trans hrun), goes.run_eq, goes.path_eq, hcpos,
    hpath, hfault]
  simp only [if_true]
  obtain ⟨hsame, hfaulted⟩ | ⟨hadvanced, hfree⟩ := hmoved
  · obtain ⟨code, hcode⟩ := Option.ne_none_iff_exists'.1 hfaulted
    simp [hsame, hcode, bit]
  · rw [hadvanced, hfree, hfault]
    omega

theorem Inv.csmStep_lowers (h : Inv s) (hen : enabled s .csm = true) (hx : Machine.csmStep s = .next t) :
    streamWork t < streamWork s := by
  obtain ⟨hrun, hpath, hcause⟩ := enabled_csm_iff.1 hen
  obtain ⟨-, -, -, -, -, hconc, -⟩ := h.run_facts hrun
  obtain ⟨-, hfull, -⟩ := hconc hpath
  obtain ends | ⟨bs, hbs, goes, hcpos, hreader⟩ | ⟨hfault, hqueue, -⟩ := csmStep_moves hx
  · exact h.runEnds_lowers hrun ends
  · exact h.fed_lowers hrun goes (List.length_pos_of_ne_nil (hfull bs hbs)) hcpos fun _ => hreader
  · exact absurd hcause (by simp [hfault, hqueue])

/-! ### The work left of the machine -/

/-- The stream unit's share of the work is its own. -/
theorem streamWork_congr (h : t.sp = s.sp) : streamWork t = streamWork s := by simp only [streamWork, h]

theorem work_lt_of_engineStep (hstep : EngineStep s t) (h : transformWork t < transformWork s) : work t < work s := by
  rw [work, work, streamWork_congr hstep.unit]
  omega

theorem work_lt_of_runStep (h : streamWork t < streamWork s) (hbm : t.bm.fixed = s.bm.fixed)
    (hlanes : t.lanes = s.lanes) : work t < work s := by
  rw [work, work, transformWork_congr hbm hlanes]
  omega

theorem Inv.agentAct_lowers (h : Inv s) (hen : enabled s a = true) (hx : Machine.agentAct a s = .next t) :
    work t < work s := by
  cases a with
  | ctl => exact work_lt_of_engineStep (.ctl hx) (h.ctlStep_lowers hen hx)
  | lane i => exact work_lt_of_engineStep (.lane hx) (h.lane_lowers hen hx)
  | seq =>
    obtain ends | ⟨goes, -⟩ := seqStep_moves hx
    · exact work_lt_of_runStep (h.seqStep_lowers hen hx) ends.engine ends.lanes
    · exact work_lt_of_runStep (h.seqStep_lowers hen hx) goes.engine goes.lanes
  | rdr =>
    obtain ⟨goes, -⟩ := rdrStep_moves hx
    exact work_lt_of_runStep (h.rdrStep_lowers hen hx) goes.engine goes.lanes
  | csm =>
    obtain ends | ⟨bs, -, goes, -⟩ | ⟨-, -, rfl⟩ := csmStep_moves hx
    · exact work_lt_of_runStep (h.csmStep_lowers hen hx) ends.engine ends.lanes
    · exact work_lt_of_runStep (h.csmStep_lowers hen hx) goes.engine goes.lanes
    · exact work_lt_of_runStep (h.csmStep_lowers hen hx) rfl rfl

/-! ### The machine left to itself -/

theorem agentAct_events (h : agentAct a s = .next t) : t.env.events = s.env.events := by
  cases a with
  | ctl => rw [(EngineStep.ctl h).env]
  | lane i => rw [(EngineStep.lane h).env]
  | seq => exact seqStep_events h
  | rdr => exact rdrStep_events h
  | csm => exact csmStep_events h

/-- With no event to come and an agent enabled, the step taken lowers the work left and keeps what the next
one needs. -/
theorem Inv.step_alone (h : Inv s) (hev : s.env.events = []) (hen : enabledAgents s ≠ []) :
    ∃ t, step s = .next t ∧ Inv t ∧ t.env.events = [] ∧ work t < work s := by
  obtain ⟨a, ha, hfree⟩ := freeStep_of_some_enabled hen
  have ticked : Inv { s with tick := s.tick + 1 } := h.env_tick s.env (s.tick + 1)
  have hena : enabled { s with tick := s.tick + 1 } a = true := (enabled_tick s a _).trans (List.mem_filter.1 ha).2
  obtain ⟨t, ht⟩ := ticked.agentAct_continues hena
  exact ⟨t, by rw [step_eq_freeStep_of_no_events hev, hfree, ht], ticked.agentAct hena ht,
    (agentAct_events ht).trans hev, ticked.agentAct_lowers hena ht⟩

/-- An idle machine stays as it is. -/
theorem runSteps_of_none_enabled (n : Nat) (hev : s.env.events = []) (hnone : enabledAgents s = []) :
    runSteps n s = .next s := by
  induction n with
  | zero => rfl
  | succ n ih =>
    have stutter : step s = .next s := (step_eq_freeStep_of_no_events hev).trans (freeStep_of_none_enabled hnone)
    exact (runSteps_succ n s s).2 ⟨s, stutter, ih⟩

/-- Any number of steps that the work left does not exceed brings the machine to rest. -/
theorem Inv.comes_to_rest {n : Nat} (h : Inv s) (hev : s.env.events = []) (hn : work s ≤ n) :
    ∃ t, runSteps n s = .next t ∧ enabledAgents t = [] ∧ inFlight t = 0 := by
  induction n generalizing s with
  | zero =>
    have hnone : enabledAgents s = [] := by
      by_contra hen
      obtain ⟨t, -, -, -, hlt⟩ := h.step_alone hev hen
      omega
    exact ⟨s, rfl, hnone, h.inFlight_of_none_enabled hnone⟩
  | succ n ih =>
    by_cases hnone : enabledAgents s = []
    · exact ⟨s, runSteps_of_none_enabled _ hev hnone, hnone, h.inFlight_of_none_enabled hnone⟩
    · obtain ⟨u, hu, hI, hevu, hlt⟩ := h.step_alone hev hnone
      obtain ⟨t, ht, hrest⟩ := ih hI hevu (by omega)
      exact ⟨t, (runSteps_succ n s t).2 ⟨u, hu, ht⟩, hrest⟩

end Sys2Proof.Machine

namespace Sys2Proof.Proofs

open Sys2Proof.Machine

/-- Settles O55: by induction on the work left, which each step of the free schedule lowers until nobody can move. -/
theorem acceptedCommandsEnd : Obligations.AcceptedCommandsEnd := fun _ h hev => h.comes_to_rest hev le_rfl

/-- Settles O53: the consumer waits only at an empty queue, and there the reader has room and is not done. -/
theorem queueCannotDeadlock : Obligations.QueueCannotDeadlock := by
  intro s h hrun hpath
  refine ⟨h.rdr_or_csm_enabled hrun hpath, fun hfull => enabled_csm_of_queue hrun hpath fun hqueue => ?_,
    fun hdone => enabled_csm_of_queue hrun hpath fun hqueue => ?_⟩
  · have := h.queueCap_pos
    rw [hqueue, List.length_nil] at hfull
    omega
  · rw [h.reader_not_done hrun hpath hqueue] at hdone
    cases hdone

/-- Settles O54: an enabled agent has its step, and it takes a block, a byte, a fault or a phase off what is left. -/
theorem everyAgentStepLowersWork : Obligations.EveryAgentStepLowersWork := by
  intro s a h hen
  obtain ⟨t, ht⟩ := h.agentAct_continues hen
  exact ⟨t, ht, h.agentAct_lowers hen ht⟩

end Sys2Proof.Proofs
end

section
/-! SUPPORT. Reset and power-up (70_reset_and_hazards.md R290, R291, R296): nobody is enabled after `Reset`, and the
machine starts sound on every legal build. -/

namespace Sys2Proof.Machine

variable {s : State} {cfg : Params}

theorem enabled_resetEvent (s : State) (a : Agent) : enabled (resetEvent s) a = false := by
  cases a with
  | lane i =>
    have idle : laneEnabled (resetEvent s) i = false := by
      rw [laneEnabled, resetEvent_lanes, List.getElem?_map]
      cases s.lanes[i]? with
      | none => rfl
      | some l => rfl
    exact idle
  | ctl | seq | rdr | csm => rfl

theorem registersOk_powerUp (cfg : Params) : registersOk (State.powerUp cfg) = true := by
  refine (registersOk_iff _).2 ⟨rfl, bmModeWord_none.symm, rfl, ?_, ?_, rfl, ?_, spStateWord_empty.symm,
    spKindWord_none.symm, rfl, rfl⟩
  · exact congrArg (BitVec.ofNat 64) (Nat.zero_mul _).symm
  · have parMax_zero : parMax 0 = 0 := Nat.zero_mul _
    show (0 : Word) = BitVec.ofNat 64 (parMax (0 * cfg.threads))
    rw [Nat.zero_mul, parMax_zero]
    rfl
  · exact (ofNat_bit cfg.parDefault).symm

/-- The machine of a legal build is sound at power-up. -/
theorem inv_powerUp (h : cfg.ok = true) : Inv (State.powerUp cfg) where
  build := h
  memory := rfl
  registers := registersOk_powerUp cfg
  selection := rfl
  keyState := rfl
  laneCount := List.length_replicate
  transform := (transformOk_none _ rfl).2 fun l hl => by rw [List.eq_of_mem_replicate hl]; rfl
  engineHeld := rfl
  stream := rfl
  logs := rfl

end Sys2Proof.Machine

namespace Sys2Proof.Proofs

open Sys2Proof.Machine

/-- Settles O42: the event is `resetEvent`, register by register and field by field. -/
theorem resetEvent : Obligations.ResetEvent := by
  intro s rest he
  refine ⟨_, step_eq_happen_of_ready he rfl, fun r => ?_, rfl, ?_, rfl, rfl, rfl, rfl, rfl, rfl, rfl, rfl,
    enabledAgents_eq_nil (enabled_resetEvent _)⟩
  · cases r with
    | bmIsParallel => exact (ofNat_bit _).symm.trans (ofNat_bit_parDefault s.cfg)
    | _ => rfl
  · exact List.map_const' ..

/-- Settles O34: power-up is sound on every legal build, and the default build is one. -/
theorem resetHasInvariant : Obligations.ResetHasInvariant := ⟨inv_powerUp (by decide), fun _ => inv_powerUp⟩

end Sys2Proof.Proofs
end
